-- ==== Sys2Proof/Word.lean ====
section
/-! DEFINITION. The widths the manual names: 32-bit memory words, bytes of the index space, word addresses,
byte lanes, and window numbers. -/

namespace Sys2Proof

/-- A 32-bit word of SRAM (section 1.5). -/
abbrev Word := BitVec 32

/-- A byte of the management index space, or one lane of a word. -/
abbrev Byte := BitVec 8

/-- A word address, 0 to 3FFFFFh (section 1.5). -/
abbrev Addr := BitVec 22

/-- A set of byte lanes: bit n is lane n, lane 0 the least significant byte (section 1.5). -/
abbrev Lanes := BitVec 4

/-- A window number, W0 to W7. -/
abbrev Win := Fin 8

/-- All four lanes enabled. -/
abbrev allLanes : Lanes := 0xF#4

/-- The windows in number order, W0 first. -/
def allWins : List Win := [0, 1, 2, 3, 4, 5, 6, 7]

end Sys2Proof
end

