-- ==== Sys2Proof/Syntax.lean ====
section
/-! DEFINITION. The commands: one constructor per row of spec/opcode_table.json, in the table's order. Each is one
whole and indivisible step of the part (file 95). The table gives no row any bits. -/

namespace Sys2Proof

/-- What makes the part enter FAILING (R141). -/
inductive FailCause where
  /-- PFAILN is asserted. -/
  | pfailn
  /-- RSTN is asserted. -/
  | rstn
  /-- VDD falls below its good level with no warning. -/
  | vdd
deriving DecidableEq, Repr

/-- How far a CLEAR_ALL's cold initialisation had come when FAILING was entered (R149, R150; log 13). -/
inductive ClearCut where
  /-- Its step 1 was made: the signature is invalid. -/
  | invalid
  /-- Its steps 1 and 2 were made: the retained state is at its defaults too. -/
  | defaulted
  /-- It ran to its end but for the COLD_START event, which had not been queued. -/
  | unposted
deriving DecidableEq, Repr

/-- A taking that hands on events after its retained update (R143; log 13). -/
inductive Taking where
  /-- The taking of an access that the processor begins (R70). -/
  | accessBegin (addr : Addr) (lanes : Lanes) (pwen poen : Bool) (data : Word)
  /-- The append request of the journaled write whose turn it is (R15, R16). -/
  | journaledWriteGrant
  /-- The completion of the control-word write in flight, with the marker it carries (R78). -/
  | controlWordWrite
  /-- A microsecond event (R81, R83). -/
  | microsecondEvent
  /-- The expiry outstanding for window `w` (R18). -/
  | expiryRequest (w : Win)
  /-- A selection, with the completion or damage it ends in and the end of RECOVERING (R102, R155). -/
  | selection
  /-- The completion of a restore write, likewise (R106, R155). -/
  | restoreWriteComplete
  /-- A FORCE_ABORT whose A0h byte was received whole (R19, R144). -/
  | forceAbort (ext : BitVec 4)
deriving DecidableEq, Repr

/-- How far a step had come when FAILING was entered (R49, R143, R150, R155, R156; log 13). A point that does not fit
the state means that nothing was part-way. -/
inductive CutPoint where
  /-- Nothing was part-way between two steps; a memory cycle being driven is completed (R89). -/
  | between
  /-- The journaled write in flight had its old word read and its record's body written, and no mark (R33, R49). -/
  | appendBody
  /-- Its record was marked and the write of the new data not begun (R49); `posted` says that a JOURNAL_HIGH due had
  been queued (R143). -/
  | appendMark (posted : Bool)
  /-- The restore write in flight had completed and its record been single-voided, and the walk not examined again: a
  count at the target is left in ROLLING_BACK (R113, R143). -/
  | singleVoid
  /-- The retained update of a taking was made, and the first `posted` of its events were queued (R143). -/
  | taking (k : Taking) (posted : Nat)
  /-- A CLEAR_ALL was part-way through its cold initialisation (R150). -/
  | clearAll (cut : ClearCut)
  /-- The control-word write in flight and its taking were complete, and the CLEAR_ALL that had waited for their end was
  part-way through its cold initialisation (R150, R167). -/
  | clearAllBehind (cut : ClearCut)
deriving DecidableEq, Repr

/-- The last step that a cold initialisation cut short had made (R149). -/
inductive ColdCut where
  /-- Step 1: the signature is invalid. -/
  | invalid
  /-- Step 2: the retained state is at its defaults. -/
  | defaulted
  /-- Step 3: the main well is reset. -/
  | mainReset
deriving DecidableEq, Repr

/-- How far an exit from FAILING or RETAINING runs (log 13, log 14). -/
inductive ExitCut where
  /-- To its end. -/
  | whole
  /-- VDD came to its good level and the other line went inactive, but `cause` holds again before the part has left: it
  goes on waiting (R145, R147). -/
  | waits (cause : FailCause)
  /-- A cold initialisation was cut short after a step (R149). -/
  | coldCut (cause : FailCause) (step : ColdCut)
  /-- A recovery has made the requests to the windows below `upTo` and stands in phase PLACING (R152). -/
  | placing (upTo : Fin 9)
deriving DecidableEq, Repr

/-- A transfer that the board controller begins (R158, R160; log 28). -/
structure Start where
  /-- The first byte, which holds the address and the direction bit. -/
  addressByte : Byte
  /-- How many bytes of a read transfer the controller acknowledges before it leaves one unacknowledged; none where it
  acknowledges every byte until the stop. -/
  acknowledged : Option Nat
deriving DecidableEq, Repr

/-- The commands of the part. -/
inductive Instr where
  /-- ACCESS_BEGIN (R70): the processor asserts PCEN with PWEN or POEN. -/
  | accessBegin (addr : Addr) (lanes : Lanes) (pwen poen : Bool) (data : Word)
  /-- ACCESS_WITHDRAW (R70): the processor withdraws PCEN. -/
  | accessWithdraw
  /-- PASSED_ACCESS_GRANT (R74). -/
  | passedAccessGrant
  /-- PASSED_CYCLE_COMPLETE (R74). -/
  | passedCycleComplete
  /-- JOURNALED_WRITE_GRANT (R75). -/
  | journaledWriteGrant
  /-- OLD_WORD_READ_COMPLETE (R33). -/
  | oldWordReadComplete
  /-- NEW_DATA_WRITE_COMPLETE (R75). -/
  | newDataWriteComplete
  /-- CONTROL_WORD_WRITE_GRANT (R78). -/
  | controlWordWriteGrant
  /-- OPEN_MARKER (R7): the control-word write in flight completes and carries an OPEN. -/
  | openMarker
  /-- COMMIT_MARKER (R11). -/
  | commitMarker
  /-- ABORT_MARKER (R12). -/
  | abortMarker
  /-- SAVE_MARKER (R13). -/
  | saveMarker
  /-- RETURN_MARKER (R14). -/
  | returnMarker
  /-- MALFORMED_MARKER (R92). -/
  | malformedMarker
  /-- CONTROL_WORD_ORDINARY_WRITE (R91). -/
  | controlWordOrdinaryWrite
  /-- RECEIPT_WRITE_GRANT (R132). -/
  | receiptWriteGrant
  /-- RECEIPT_WRITE_COMPLETE (R132). -/
  | receiptWriteComplete
  /-- SELECTION (R102). -/
  | selection
  /-- RESTORE_WRITE_GRANT (R106). -/
  | restoreWriteGrant
  /-- RESTORE_WRITE_COMPLETE (R106). -/
  | restoreWriteComplete
  /-- MICROSECOND_EVENT (R120). -/
  | microsecondEvent
  /-- HOLD_LIMIT_RUN_OUT (R83). -/
  | holdLimitRunOut
  /-- TICK (R124). -/
  | tick
  /-- DEADLINE_RUN_OUT (R124): the tick that lowers the counter of window `w` to 0 (log 10). -/
  | deadlineRunOut (w : Win)
  /-- EXPIRY_REQUEST (R18): the Transaction Table takes the expiry outstanding for window `w`. -/
  | expiryRequest (w : Win)
  /-- MILLISECOND_EVENT (R119). -/
  | millisecondEvent
  /-- TRANSFER_START (R158): a start condition and what the controller does with the transfer. -/
  | transferStart (start : Start)
  /-- INDEX_BYTE_WRITE (R159). -/
  | indexByteWrite (b : Byte)
  /-- DESCRIPTOR_BYTE_WRITE (R55). -/
  | descriptorByteWrite (b : Byte)
  /-- HIGH_WATER_THRESHOLD_WRITE (R44). -/
  | highWaterThresholdWrite (b : Byte)
  /-- HOLD_LIMIT_WRITE (R81). -/
  | holdLimitWrite (b : Byte)
  /-- POSITION_WRITE (R161). -/
  | positionWrite (b : Byte)
  /-- STATUS_READ (R163); at a position whose reading has no row of its own, the sending of that byte (log 11). -/
  | statusRead
  /-- OCCUPANCY_READ (R46). -/
  | occupancyRead
  /-- STAMP_COUNTER_READ (R119). -/
  | stampCounterRead
  /-- OLDEST_EVENT_VIEW_READ (R162). -/
  | oldestEventViewRead
  /-- ENABLE (R59). `ext` is the position extension of the A0h byte, which this request disregards (R166). -/
  | enable (ext : BitVec 4)
  /-- DISABLE (R63). -/
  | disable (ext : BitVec 4)
  /-- FORCE_ABORT (R19). -/
  | forceAbort (ext : BitVec 4)
  /-- RELEASE (R20). -/
  | release (ext : BitVec 4)
  /-- CLEAR_ALL (R167). -/
  | clearAll (ext : BitVec 4)
  /-- POP_EVENT (R170). -/
  | popEvent (ext : BitVec 4)
  /-- CLEAR_OVERRUN (R170). -/
  | clearOverrun (ext : BitVec 4)
  /-- LOAD_TXN (R168). -/
  | loadTxn (ext : BitVec 4)
  /-- LOAD_RECORD (R169): the position is `ext` × 256 plus the argument. -/
  | loadRecord (ext : BitVec 4)
  /-- UNKNOWN_REQUEST_CODE (R165): the whole A0h byte. -/
  | unknownRequestCode (b : Byte)
  /-- FAILING_ENTRY (R142). -/
  | failingEntry (cause : FailCause) (cut : CutPoint)
  /-- RETAINING_ENTRY (R146), and in RETAINING a further fall of VDD to below the switchover level (R147). -/
  | retainingEntry
  /-- FAILING_EXIT (R145), with the value on MADR1–MADR0 (R158); in phase PLACING of the recovery it has begun, that
  recovery goes on (R152; log 14). -/
  | failingExit (madr : BitVec 2) (cut : ExitCut)
  /-- RETAINING_EXIT (R147), likewise. -/
  | retainingExit (madr : BitVec 2) (cut : ExitCut)
  /-- VRET_FALL (R148). -/
  | vretFall
  /-- TRANSFER_STOP (R159). -/
  | transferStop
deriving DecidableEq, Repr

end Sys2Proof
end

