-- ==== Sys2Proof/Decode.lean ====
section
/-! DEFINITION. The table gives no row a bit pattern (every row's "fields" is empty and none is "fixed"), so no word
spells a command (log 27). -/

namespace Sys2Proof

/-- The command a word of `nbits` bits spells by the table's bits: none, for every word. -/
def decodeTableWord (_nbits _w : Nat) : Option Instr := none

end Sys2Proof
end

