-- ==== Sys2Proof/Config.lean ====
section
/-! DEFINITION. The part's fixed sizes, and the free values the manual leaves open. A free value has no body: nothing
can be proved of it. Each is applied to the state's counter `freeCount`, which the use advances. -/

namespace Sys2Proof

/-- Slots of the undo journal (R28). -/
abbrev Config.journalSlots : Nat := 1024

/-- Records the event queue holds (R170). -/
abbrev Config.queueCapacity : Nat := 16

/-- The hold limit that a cold initialisation sets (R84). -/
abbrev Config.coldHoldLimit : Byte := 32#8

/-- What the memory port returns on a byte lane that a read cycle does not enable (R73; log 5). -/
opaque Config.floatingByte : Nat → Byte

/-- What a word holds whose write cycle a fall of VDD without warning cut short (R144 NOTE; log 6). -/
opaque Config.cutShortWord : Nat → Word

/-- The position a damage report carries when the walk has examined no slot (R109; log 15). -/
opaque Config.unexaminedPosition : Nat → BitVec 10

end Sys2Proof
end

