-- ==== Sys2Proof/Machine/State.lean ====
section
/-! DEFINITION. The state of the part, as plain data: the retention well, the main well, the lines, the SRAM behind the
memory port, and the queue of waiting commands. -/

namespace Sys2Proof.Machine

/-! ## Windows and transactions (files 01, 03) -/

/-- What a write inside the effective range does while the window is IDLE (R53). -/
inductive WindowMode where
  | strict
  | loose
deriving DecidableEq, Repr, Inhabited

/-- What recovery does to an unfinished transaction (R53). -/
inductive RecoveryPolicy where
  | rollback
  | keep
deriving DecidableEq, Repr, Inhabited

/-- Whether journaled writes reload the deadline (R53). -/
inductive DeadlineMode where
  | absolute
  | idle
deriving DecidableEq, Repr, Inhabited

/-- The ten fields of a guard window's descriptor (R53). -/
structure Descriptor where
  base : BitVec 16
  limit : BitVec 16
  controlWord : Addr
  receiptWord : Addr
  key : BitVec 16
  quota : BitVec 11
  mode : WindowMode
  policy : RecoveryPolicy
  deadlineMode : DeadlineMode
  deadline : BitVec 16
deriving DecidableEq, Repr, Inhabited

/-- Every field zero (R67); the zero pattern selects STRICT, ROLLBACK and ABSOLUTE (R178). -/
def Descriptor.cold : Descriptor :=
  { base := 0, limit := 0, controlWord := 0, receiptWord := 0, key := 0, quota := 0, mode := .strict,
    policy := .rollback, deadlineMode := .absolute, deadline := 0 }

/-- The five transaction states of an enabled window (R2). -/
inductive TxnState where
  | idle
  | opened
  | broken
  | rollingBack
  | damaged
deriving DecidableEq, Repr, Inhabited

/-- Why a window is rolling back (R2). -/
inductive RollbackCause where
  | abort
  | expiry
  | returned
  | forced
  | recovery
deriving DecidableEq, Repr, Inhabited

/-- Why a transaction could not journal a write (R2). -/
inductive BreakReason where
  | journalFull
  | quota
deriving DecidableEq, Repr, Inhabited

/-- How the transaction noted in last ended ended (R2). -/
inductive EndKind where
  | expired
  | forced
deriving DecidableEq, Repr, Inhabited

/-- The seq and the kind of the transaction that last ended by expiry or forced abort (R2). -/
structure LastEnded where
  seq : Byte
  kind : EndKind
deriving DecidableEq, Repr, Inhabited

/-- A transaction entry (R2). -/
structure Entry where
  state : TxnState
  seq : Byte
  count : Nat
  savepoint : Option Nat
  cause : Option RollbackCause
  restored : Option Nat
  breakReason : Option BreakReason
  dropReported : Bool
  damagePos : Option Nat
  lastEnded : Option LastEnded
deriving DecidableEq, Repr, Inhabited

/-- The entry a successful ENABLE creates (R1). -/
def Entry.fresh : Entry :=
  { state := .idle, seq := 0, count := 0, savepoint := none, cause := none, restored := none, breakReason := none,
    dropReported := false, damagePos := none, lastEnded := none }

/-! ## The undo journal (file 02) -/

/-- A journal slot: one undo record and its marks (R29). -/
structure Slot where
  window : Win
  ordinal : Nat
  addr : Addr
  old : Word
  lanes : Lanes
  valid : Bool
  voided : Bool
  check : Byte
deriving DecidableEq, Repr, Inhabited

/-- A slot as cold initialisation and the recovery discard leave it (R29, R48, R50). -/
def Slot.clear : Slot :=
  { window := 0, ordinal := 0, addr := 0, old := 0, lanes := 0, valid := false, voided := false, check := 0 }

/-- The ring and its cursors (R28). `slots` lists the slots that are not clear, positions rising. -/
structure Journal where
  slots : List (Nat × Slot)
  head : Nat
  tail : Nat
  occ : Nat
deriving DecidableEq, Repr, Inhabited

/-- The journal's starting state (R48). -/
def Journal.cold : Journal := { slots := [], head := 0, tail := 0, occ := 0 }

/-! ## The retention well -/

/-- What the retention well keeps beside the signature and the power state (R146). A window's enable state is the
presence of its entry (R1, R68). -/
structure Retained where
  descriptors : Vector Descriptor 8
  entries : Vector (Option Entry) 8
  journal : Journal
  highWater : Nat
  holdLimit : Byte
  fillWord : Word
  kindMask : BitVec 16
deriving DecidableEq, Repr, Inhabited

/-- The retained state's defaults (R149, R67, R48, R84, R164). -/
def Retained.cold : Retained :=
  { descriptors := Vector.replicate 8 Descriptor.cold, entries := Vector.replicate 8 none, journal := Journal.cold,
    highWater := 0, holdLimit := Config.coldHoldLimit, fillWord := 0, kindMask := 0xFFFF#16 }

/-- What the retention well holds after VRET has fallen with VDD absent (R146; log 7): a free value. -/
opaque Config.lostRetained : Nat → Retained

/-! ## The access path (file 04) -/

/-- What the Access Classifier makes of an access (R72, R73). -/
inductive AccessClass where
  | passed
  | journaled
  | controlWord
  | held
  | dropped
  | noLanes
deriving DecidableEq, Repr, Inhabited

/-- The place an access has reached (R71); NONE is the absence of the record. -/
inductive AccessCond where
  | waiting
  | atMemory
  | held
  | complete
deriving DecidableEq, Repr, Inhabited

/-- The access record (R71). `withdrawn` says that PCEN was withdrawn before the outcome (R70). -/
structure Access where
  addr : Addr
  lanes : Lanes
  wr : Bool
  data : Word
  cls : AccessClass
  window : Option Win
  cond : AccessCond
  withdrawn : Bool
deriving DecidableEq, Repr, Inhabited

/-- PRDY (R85). `pulsed`: it was asserted for a withdrawn access and returned inactive at once (R70; log 17). -/
inductive Prdy where
  | inactive
  | asserted
  | pulsed
deriving DecidableEq, Repr, Inhabited

/-- Who owns the memory port (R86). -/
inductive Owner where
  | nobody
  | processor
  | receiptWriter
  | rollbackEngine
deriving DecidableEq, Repr, Inhabited

/-- A memory cycle being driven on the memory port (R86). -/
structure Cycle where
  addr : Addr
  lanes : Lanes
  wr : Bool
  data : Word
deriving DecidableEq, Repr, Inhabited

/-- The processor port's inputs as the processor drives them (R70). -/
structure ProcPort where
  pcen : Bool
  pwen : Bool
  poen : Bool
  pa : Addr
  pbe : Lanes
  pd : Word
deriving DecidableEq, Repr, Inhabited

/-! ## The rollback engine (file 06) -/

/-- The restore claim of a walk (R100). -/
inductive Claim where
  | noClaim
  | waiting
  | granted
deriving DecidableEq, Repr, Inhabited

/-- The current walk (R100), with the slot it examined last and whether that slot stood at the tail then (R109). -/
structure Walk where
  window : Win
  target : Nat
  cursor : Nat
  claim : Claim
  lastPos : Option Nat
  lastAtTail : Bool
deriving DecidableEq, Repr, Inhabited

/-! ## Deadlines and receipts (files 07, 08) -/

/-- A window's deadline counter (R121): its condition, remaining ticks, and the seq it was loaded for. A SPENT
counter's expiry request is outstanding at the Transaction Table. -/
inductive Counter where
  | absent
  | running (remaining : Nat) (seq : Byte)
  | frozen (remaining : Nat) (seq : Byte)
  | spent (seq : Byte)
deriving DecidableEq, Repr, Inhabited

/-- A window's receipt slot (R128): the receipt word and the captured address are present in PENDING. -/
inductive ReceiptSlot where
  | empty
  | pending (word : Word) (addr : Addr)
  | writing
deriving DecidableEq, Repr, Inhabited

/-! ## Events and the management port (file 10) -/

/-- The event kinds (R171). -/
inductive EventKind where
  | coldStart
  | recoveryDone
  | strayWrite
  | voidAccess
  | droppedWrite
  | damagedAccess
  | markerRefused
  | txnBroken
  | deadlineExpired
  | rollbackDone
  | recordDamaged
  | journalHigh
  | receiptSuperseded
deriving DecidableEq, Repr, Inhabited

/-- An event record (R170). -/
structure EventRecord where
  kind : EventKind
  window : Option Win
  detail : Word
  stamp : BitVec 16
deriving DecidableEq, Repr, Inhabited

/-- The transfer in progress on the two-wire port (R159, R160). -/
inductive Transfer where
  /-- No transfer. -/
  | idle
  /-- A transfer whose address byte was not acknowledged (R158). -/
  | ignored
  /-- A write transfer whose index byte is still to come. -/
  | writeIndex
  /-- A write transfer after its index byte. -/
  | writing
  /-- A read transfer, in which the controller acknowledges `acks` further bytes before it leaves one unacknowledged;
  none where it acknowledges every byte. -/
  | reading (acks : Option Nat)
  /-- A read transfer after the byte that the controller did not acknowledge: MSDA is released (R160). -/
  | released
deriving DecidableEq, Repr, Inhabited

/-- The transaction view (R168): the window, a copy of its entry, and its counter. -/
structure TxnView where
  window : Win
  entry : Option Entry
  counter : Counter
deriving DecidableEq, Repr, Inhabited

/-- The record view (R169): the position loaded and a copy of its slot. -/
structure RecordView where
  pos : Nat
  slot : Slot
deriving DecidableEq, Repr, Inhabited

/-! ## Power (file 09) -/

/-- The power state (R139). -/
inductive PowerState where
  | active
  | failing
  | retaining
  | recovering
deriving DecidableEq, Repr, Inhabited

/-- The recovery phase (R139). In PLACING the requests to the windows below `next` have been taken (R152). -/
inductive Phase where
  | placing (next : Fin 9)
  | walking
deriving DecidableEq, Repr, Inhabited

/-- The recovery tally (R139). -/
structure Tally where
  rolledBack : Nat
  kept : Nat
deriving DecidableEq, Repr, Inhabited

/-- VDD against its two levels (R140). -/
inductive Supply where
  | good
  | belowGood
  | belowSwitchover
deriving DecidableEq, Repr, Inhabited

/-! ## The oscillator (file 07) -/

/-- The oscillator's phase (R118): the microsecond events since the last millisecond event, and whether the tick and the
millisecond event that the last of them was have still to reach the counters (log 12). -/
structure Oscillator where
  micros : Nat
  tickDue : Bool
  milliDue : Bool
deriving DecidableEq, Repr, Inhabited

/-- The oscillator as it starts with VDD, with no microsecond event yet (log 12). -/
def Oscillator.start : Oscillator := { micros := 0, tickDue := false, milliDue := false }

/-! ## The main well -/

/-- The state the main well holds (section 1.2.1). `examining`: the control-word write in flight has been performed and
its grant has ended, and the Marker Decoder has not finished with it (R78, R97, R98; log 36). `waiting`: a request code
byte is held whose request an open taking keeps from being taken yet, so MSCL is held low (R160, R165). -/
structure MainWell where
  access : Option Access
  holdTimer : Option Nat
  prdy : Prdy
  pd : Option Word
  owner : Owner
  cycle : Option Cycle
  examining : Bool
  lastGrantProc : Bool
  pendSet : Vector Bool 8
  walk : Option Walk
  stopped : Bool
  counters : Vector Counter 8
  stamp : BitVec 16
  slots : Vector ReceiptSlot 8
  ignored : Bool
  queue : List EventRecord
  overrun : Bool
  target : BitVec 2
  xfer : Transfer
  index : Byte
  reqCode : Byte
  waiting : Bool
  arg : Byte
  response : Byte
  txnView : TxnView
  recView : RecordView
  occLatch : Option Nat
  stampLatch : Option (BitVec 16)
  eventLatch : Option (Option EventRecord)
  ack : Bool
  sent : List Byte
  phase : Option Phase
  tally : Option Tally
deriving DecidableEq, Repr, Inhabited

/-- The transaction view's reset contents (R174): W0 as a disabled window. -/
def TxnView.cold : TxnView := { window := 0, entry := none, counter := .absent }

/-- The record view's reset contents (R174): an EMPTY slot at position 0. -/
def RecordView.cold : RecordView := { pos := 0, slot := Slot.clear }

/-- The main well after a reset that sampled `madr` on MADR1–MADR0 (R151, R158), with no recovery phase and no tally;
RECOVERING begins with the phase PLACING and a tally of 0 beside it. -/
def MainWell.cold (madr : BitVec 2) : MainWell :=
  { access := none, holdTimer := none, prdy := .inactive, pd := none, owner := .nobody, cycle := none,
    examining := false, lastGrantProc := false, pendSet := Vector.replicate 8 false, walk := none, stopped := false,
    counters := Vector.replicate 8 .absent, stamp := 0, slots := Vector.replicate 8 .empty, ignored := false,
    queue := [], overrun := false, target := madr, xfer := .idle, index := 0, reqCode := 0, waiting := false, arg := 0,
    response := 0, txnView := TxnView.cold, recView := RecordView.cold, occLatch := none, stampLatch := none,
    eventLatch := none, ack := false, sent := [], phase := none, tally := none }

/-! ## The state -/

/-- The whole state. `pending` and `freeCount` are the model's own (logs 2, 29); `sram` stands outside the part (log 4).
`ma` and `mbe` stand outside the main well because no reset reaches them (log 34), `osc` because none restarts it
(R118). -/
structure State where
  power : PowerState
  signature : Bool
  vdd : Supply
  pfail : Bool
  rst : Bool
  port : ProcPort
  ret : Retained
  main : MainWell
  ma : Addr
  mbe : Lanes
  osc : Oscillator
  sram : List Host.Cell
  pending : List Instr
  freeCount : Nat
deriving DecidableEq, Repr, Inhabited

/-- Why the part could stop with a fault. The manual names no such stop, and no command raises one (log 3). -/
inductive Fault where
  /-- Raised by nothing; kept so that the type of outcomes has a name for a stop. Safe. -/
  | noneRaised
deriving DecidableEq, Repr

/-- Why a command could have no meaning. -/
inductive Refusal where
  /-- Raised by an arm of exec whose row has no meaning yet; no arm does. Safe. -/
  | notModelled (mnemonic : String)
deriving DecidableEq, Repr

/-- No line of the processor port asserted (log 16). -/
def ProcPort.quiet : ProcPort := { pcen := false, pwen := false, poen := false, pa := 0, pbe := 0, pd := 0 }

/-- The state after the cold initialisation of R149: ACTIVE, with the COLD_START event of detail 0 queued (log 1). -/
def State.reset : State :=
  { power := .active, signature := true, vdd := .good, pfail := false, rst := false, port := ProcPort.quiet,
    ret := Retained.cold,
    main := { MainWell.cold 0 with queue := [{ kind := .coldStart, window := none, detail := 0, stamp := 0 }] },
    ma := 0, mbe := 0, osc := Oscillator.start, sram := [], pending := [], freeCount := 0 }

/-- A part whose VDD and VRET were both absent, as supply is first applied: RETAINING with an invalid signature
(R139, R148), before the exit that makes the cold initialisation. The spec does not give what the retention well holds
here: the model has it at its defaults (DESIGN CHOICE, log 40). -/
def State.powerOn : State :=
  { State.reset with power := .retaining, signature := false, vdd := .belowSwitchover, main := MainWell.cold 0 }

end Sys2Proof.Machine
end

