-- ==== Sys2Proof/WellFormed.lean ====
section
/-! DEFINITION. Which commands have the form their row describes. -/

namespace Sys2Proof

/-- The request codes that name a request (R179). -/
def requestCodeKnown (code : BitVec 4) : Bool := 1 ≤ code.toNat && code.toNat ≤ 9

/-- The operands' own conditions: an access asserts PWEN or POEN (R70), and an unknown request's byte carries a
code that names no request (R165). Every other operand's type admits only what its row admits. -/
def Instr.wellFormed : Instr → Bool
  | .accessBegin _ _ pwen poen _ => pwen || poen
  | .unknownRequestCode b => !requestCodeKnown (b.extractLsb' 0 4)
  | .accessWithdraw | .passedAccessGrant | .passedCycleComplete | .journaledWriteGrant | .oldWordReadComplete
  | .newDataWriteComplete | .controlWordWriteGrant | .openMarker | .commitMarker | .abortMarker | .saveMarker
  | .returnMarker | .malformedMarker | .controlWordOrdinaryWrite | .receiptWriteGrant | .receiptWriteComplete
  | .selection | .restoreWriteGrant | .restoreWriteComplete | .microsecondEvent | .holdLimitRunOut | .tick
  | .deadlineRunOut _ | .expiryRequest _ | .millisecondEvent | .transferStart _ | .indexByteWrite _
  | .descriptorByteWrite _ | .highWaterThresholdWrite _ | .holdLimitWrite _ | .positionWrite _ | .statusRead
  | .occupancyRead | .stampCounterRead | .oldestEventViewRead | .enable _ | .disable _ | .forceAbort _ | .release _
  | .clearAll _ | .popEvent _ | .clearOverrun _ | .loadTxn _ | .loadRecord _ | .failingEntry _ _ | .retainingEntry
  | .failingExit _ _ | .retainingExit _ _ | .vretFall | .transferStop => true

end Sys2Proof
end

