-- ==== Sys2Proof/Machine/Operands.lean ====
section
/-! DEFINITION. The layouts and codes of file 11: marker and receipt words, event details, descriptor and view bytes,
and the granules of file 03. -/

namespace Sys2Proof.Machine

/-! ## Granules and ranges (R52) -/

/-- The granule of a word address: the address divided by 64 (R52). -/
def granule (a : Addr) : Nat := a.toNat / 64

/-- A granule lies in the window's range, base through limit (R52). -/
def Descriptor.holdsGranule (d : Descriptor) (g : Nat) : Bool := d.base.toNat ≤ g && g ≤ d.limit.toNat

/-- A word lies in the window's range (R52). -/
def Descriptor.holds (d : Descriptor) (a : Addr) : Bool := d.holdsGranule (granule a)

/-- Two ranges share at least one granule (R61). -/
def Descriptor.overlaps (d e : Descriptor) : Bool :=
  d.base.toNat ≤ e.limit.toNat && e.base.toNat ≤ d.limit.toNat && d.base.toNat ≤ d.limit.toNat
    && e.base.toNat ≤ e.limit.toNat

/-! ## Marker words (R176) -/

/-- The five kinds of well-formed marker (R90). -/
inductive MarkerKind where
  | openM
  | commitM
  | abortM
  | saveM
  | returnM
deriving DecidableEq, Repr

/-- Bits 31–16 of a word. -/
def markerKey (x : Word) : BitVec 16 := x.extractLsb' 16 16

/-- Bits 15–12 of a word. -/
def markerCommand (x : Word) : BitVec 4 := x.extractLsb' 12 4

/-- Bits 11–8 of a word. -/
def markerZero (x : Word) : BitVec 4 := x.extractLsb' 8 4

/-- Bits 7–0 of a word. -/
def markerSeq (x : Word) : Byte := x.extractLsb' 0 8

/-- The kind a command code names (R176). -/
def markerKindOf (command : BitVec 4) : Option MarkerKind :=
  if command = 1 then some .openM
  else if command = 2 then some .commitM
  else if command = 3 then some .abortM
  else if command = 4 then some .saveM
  else if command = 5 then some .returnM
  else none

/-- What the Marker Decoder finds in a control-word write (R90, R91, R94). -/
inductive Examination where
  /-- Not a marker, or not examined: an ordinary write. -/
  | ordinary
  /-- Key matches, command or zero field does not (R92). -/
  | malformed
  /-- A well-formed marker (R93). -/
  | marker (kind : MarkerKind) (seq : Byte)
deriving DecidableEq, Repr

/-- The examination of a word written with `lanes` against a key, in the three steps of R90. -/
def examineWord (key : BitVec 16) (lanes : Lanes) (x : Word) : Examination :=
  if lanes ≠ allLanes then .ordinary
  else if markerKey x ≠ key then .ordinary
  else if markerZero x ≠ 0 then .malformed
  else match markerKindOf (markerCommand x) with
    | some k => .marker k (markerSeq x)
    | none => .malformed

/-! ## Receipts (R136, R137, R176) -/

/-- The outcome of a receipt (R136). -/
inductive ReceiptOutcome where
  | opened
  | committed
  | aborted
  | expired
  | saved
  | returned
  | refused
  | recovered
  | kept
  | broken
  | damaged
deriving DecidableEq, Repr

/-- The outcome's code (R136). -/
def ReceiptOutcome.code : ReceiptOutcome → BitVec 4
  | .opened => 1
  | .committed => 2
  | .aborted => 3
  | .expired => 4
  | .saved => 5
  | .returned => 6
  | .refused => 7
  | .recovered => 8
  | .kept => 9
  | .broken => 10
  | .damaged => 11

/-- The reason of a receipt (R137). -/
inductive ReceiptReason where
  | noReason
  | notOpen
  | alreadyOpen
  | seqMismatch
  | badCode
  | busy
  | isBroken
  | noSavepoint
  | damagedWindow
  | journalFull
  | quota
  | checkFail
  | forced
  | late
deriving DecidableEq, Repr

/-- The reason's code (R137). -/
def ReceiptReason.code : ReceiptReason → BitVec 4
  | .noReason => 0
  | .notOpen => 1
  | .alreadyOpen => 2
  | .seqMismatch => 3
  | .badCode => 4
  | .busy => 5
  | .isBroken => 6
  | .noSavepoint => 7
  | .damagedWindow => 8
  | .journalFull => 9
  | .quota => 10
  | .checkFail => 11
  | .forced => 12
  | .late => 13

/-- The receipt word of R176: outcome, reason, seq, superseded bit, zero, window, count. -/
def receiptWord (o : ReceiptOutcome) (r : ReceiptReason) (seq : Byte) (superseded : Bool) (w : Win) (count : Nat) :
    Word :=
  o.code ++ r.code ++ seq ++ BitVec.ofBool superseded ++ 0#1 ++ BitVec.ofNat 3 w.val ++ BitVec.ofNat 11 count

/-- The receipt reason of a break (R16). -/
def BreakReason.receipt : BreakReason → ReceiptReason
  | .journalFull => .journalFull
  | .quota => .quota

/-- The outcome of the completion receipt for a rollback cause (R21). -/
def RollbackCause.outcome : RollbackCause → ReceiptOutcome
  | .abort => .aborted
  | .expiry => .expired
  | .returned => .returned
  | .forced => .aborted
  | .recovery => .recovered

/-- The reason of the completion receipt for a rollback cause (R21). -/
def RollbackCause.reason : RollbackCause → ReceiptReason
  | .forced => .forced
  | .abort | .expiry | .returned | .recovery => .noReason

/-! ## Event details (R180) -/

/-- The kind's code (R171). -/
def EventKind.code : EventKind → Nat
  | .coldStart => 1
  | .recoveryDone => 2
  | .strayWrite => 3
  | .voidAccess => 4
  | .droppedWrite => 5
  | .damagedAccess => 6
  | .markerRefused => 7
  | .txnBroken => 8
  | .deadlineExpired => 9
  | .rollbackDone => 10
  | .recordDamaged => 11
  | .journalHigh => 12
  | .receiptSuperseded => 13

/-- Outcome in bits 31–28, reason in 27–24, seq in 23–16, and `low` in bits 10–0. -/
def detailReceipt (o : ReceiptOutcome) (r : ReceiptReason) (seq : Byte) (low : Nat) : Word :=
  o.code ++ r.code ++ seq ++ 0#5 ++ BitVec.ofNat 11 low

/-- A word address in bits 21–0. -/
def detailAddr (a : Addr) : Word := a.setWidth 32

/-- VOID_ACCESS: the direction in bit 31, the word address in bits 21–0. -/
def detailVoid (wr : Bool) (a : Addr) : Word := BitVec.ofBool wr ++ 0#9 ++ a

/-- RECOVERY_DONE: windows rolled back in bits 15–8, windows kept in bits 7–0. -/
def detailTally (t : Tally) : Word := 0#16 ++ BitVec.ofNat 8 t.rolledBack ++ BitVec.ofNat 8 t.kept

/-- RECEIPT_SUPERSEDED: the outcome code of the replaced receipt word in bits 31–28. -/
def detailSuperseded (old : Word) : Word := old.extractLsb' 28 4 ++ 0#28

/-! ## Bytes of wider values (R177) -/

/-- Byte `i` of a value held in `n` bytes, counting from the most significant. -/
def byteOf (x : Nat) (n i : Nat) : Byte := BitVec.ofNat 8 (x / 256 ^ (n - 1 - i))

/-- The value with its byte `i` of `n` replaced, counting from the most significant. -/
def withByte (x : Nat) (n i : Nat) (b : Byte) : Nat :=
  let p := 256 ^ (n - 1 - i)
  x - (x / p % 256) * p + b.toNat * p

/-! ## Descriptor bytes (R178) -/

/-- Byte `off` of a descriptor's sixteen. -/
def Descriptor.byte (d : Descriptor) (off : Nat) : Byte :=
  if off < 2 then byteOf d.base.toNat 2 off
  else if off < 4 then byteOf d.limit.toNat 2 (off - 2)
  else if off < 7 then byteOf d.controlWord.toNat 3 (off - 4)
  else if off < 10 then byteOf d.receiptWord.toNat 3 (off - 7)
  else if off < 12 then byteOf d.key.toNat 2 (off - 10)
  else if off = 12 then
    d.quota.extractLsb' 8 3 ++ 0#2 ++ BitVec.ofBool (d.deadlineMode = .idle) ++ BitVec.ofBool (d.policy = .keep)
      ++ BitVec.ofBool (d.mode = .loose)
  else if off = 13 then d.quota.extractLsb' 0 8
  else byteOf d.deadline.toNat 2 (off - 14)

/-- The descriptor with byte `off` written; bits of no field are discarded (R177, R178). -/
def Descriptor.setByte (d : Descriptor) (off : Nat) (b : Byte) : Descriptor :=
  if off < 2 then { d with base := BitVec.ofNat 16 (withByte d.base.toNat 2 off b) }
  else if off < 4 then { d with limit := BitVec.ofNat 16 (withByte d.limit.toNat 2 (off - 2) b) }
  else if off < 7 then { d with controlWord := BitVec.ofNat 22 (withByte d.controlWord.toNat 3 (off - 4) b) }
  else if off < 10 then { d with receiptWord := BitVec.ofNat 22 (withByte d.receiptWord.toNat 3 (off - 7) b) }
  else if off < 12 then { d with key := BitVec.ofNat 16 (withByte d.key.toNat 2 (off - 10) b) }
  else if off = 12 then
    { d with
      quota := b.extractLsb' 5 3 ++ d.quota.extractLsb' 0 8
      deadlineMode := if b.getLsbD 2 then .idle else .absolute
      policy := if b.getLsbD 1 then .keep else .rollback
      mode := if b.getLsbD 0 then .loose else .strict }
  else if off = 13 then { d with quota := d.quota.extractLsb' 8 3 ++ b }
  else { d with deadline := BitVec.ofNat 16 (withByte d.deadline.toNat 2 (off - 14) b) }

/-! ## Codes of the index space (R179, R181) -/

/-- The state code of the summary; 0 for a disabled window. -/
def stateCode : Option TxnState → BitVec 3
  | none => 0
  | some .idle => 1
  | some .opened => 2
  | some .broken => 3
  | some .rollingBack => 4
  | some .damaged => 5

/-- The responses (R179). -/
inductive Response where
  | done
  | busy
  | notOpen
  | notDamaged
  | already
  | badRange
  | badKey
  | badQuota
  | placement
  | overlapBusy
  | empty
  | badArg
deriving DecidableEq, Repr

/-- The response's code (R179). -/
def Response.code : Response → Byte
  | .done => 1
  | .busy => 2
  | .notOpen => 3
  | .notDamaged => 4
  | .already => 5
  | .badRange => 6
  | .badKey => 7
  | .badQuota => 8
  | .placement => 9
  | .overlapBusy => 10
  | .empty => 11
  | .badArg => 12

/-- The rollback cause's code in the transaction view; 0 when absent (R181). -/
def causeCode : Option RollbackCause → BitVec 4
  | none => 0
  | some .abort => 1
  | some .expiry => 2
  | some .returned => 3
  | some .forced => 4
  | some .recovery => 5

/-- The break reason's code in the transaction view; 0 when absent (R181). -/
def breakCode : Option BreakReason → BitVec 4
  | none => 0
  | some .journalFull => 9
  | some .quota => 10

/-- The counter condition's code (R181). -/
def Counter.code : Counter → BitVec 3
  | .absent => 0
  | .running _ _ => 1
  | .frozen _ _ => 2
  | .spent _ => 3

/-- The remaining ticks as the view shows them: 0 in NONE and SPENT (R181). -/
def Counter.remaining : Counter → Nat
  | .absent => 0
  | .running r _ => r
  | .frozen r _ => r
  | .spent _ => 0

/-! ## View bytes (R180, R181, R182) -/

/-- Byte `i` of the oldest-event view for the oldest record, or for an empty queue (R180). -/
def eventByte (r : Option EventRecord) (i : Nat) : Byte :=
  match r with
  | none => 0
  | some e =>
    if i = 0 then BitVec.ofNat 8 e.kind.code
    else if i = 1 then (match e.window with | none => 0x80 | some w => BitVec.ofNat 8 w.val)
    else if i < 6 then byteOf e.detail.toNat 4 (i - 2)
    else byteOf e.stamp.toNat 2 (i - 6)

/-- The presence byte at C3h (R181). -/
def Entry.presence (e : Entry) : Byte :=
  0#1 ++ BitVec.ofBool e.dropReported
    ++ BitVec.ofBool (match e.lastEnded with | some l => l.kind = .forced | none => false)
    ++ BitVec.ofBool e.lastEnded.isSome ++ BitVec.ofBool e.damagePos.isSome ++ BitVec.ofBool e.breakReason.isSome
    ++ BitVec.ofBool e.cause.isSome ++ BitVec.ofBool e.savepoint.isSome

/-- Byte `i` of the transaction view (R181). -/
def TxnView.byte (v : TxnView) (i : Nat) : Byte :=
  if i = 0 then BitVec.ofNat 8 v.window.val
  else match v.entry with
    | none => 0
    | some e =>
      if i = 1 then 0#1 ++ v.counter.code ++ 0#1 ++ stateCode (some e.state)
      else if i = 2 then e.seq
      else if i = 3 then e.presence
      else if i < 6 then byteOf e.count 2 (i - 4)
      else if i < 8 then byteOf (e.savepoint.getD 0) 2 (i - 6)
      else if i = 8 then causeCode e.cause ++ breakCode e.breakReason
      else if i < 11 then byteOf (e.restored.getD 0) 2 (i - 9)
      else if i < 13 then byteOf (e.damagePos.getD 0) 2 (i - 11)
      else if i = 13 then (match e.lastEnded with | some l => l.seq | none => 0)
      else byteOf v.counter.remaining 2 (i - 14)

/-- A slot's condition code (R182): 0 EMPTY, 1 LIVE, 2 VOIDED. -/
def Slot.condCode (s : Slot) : BitVec 2 := if s.valid then (if s.voided then 2 else 1) else 0

/-- Byte `i` of the record view (R182). -/
def RecordView.byte (v : RecordView) (i : Nat) : Byte :=
  if i < 2 then byteOf v.pos 2 i
  else if i = 2 then v.slot.lanes ++ 0#2 ++ v.slot.condCode
  else if i = 3 then BitVec.ofNat 8 v.slot.window.val
  else if i < 6 then byteOf v.slot.ordinal 2 (i - 4)
  else if i < 9 then byteOf v.slot.addr.toNat 3 (i - 6)
  else if i < 13 then byteOf v.slot.old.toNat 4 (i - 9)
  else if i = 13 then v.slot.check
  else 0

end Sys2Proof.Machine
end

