-- ==== Sys2Proof/Machine/Ops.lean ====
section
/-! DEFINITION. The named operations over the SRAM, the journal, the per-window registers, the event queue, the receipt
slots and the deadline counters. -/

namespace Sys2Proof.Machine

/-! ## Sparse cells in canonical form

Addresses strictly rising, and no entry equal to what an unlisted address reads as. -/

/-- What the cell at `a` holds; `d` where none is listed. -/
def cellsGet {α : Type} (d : α) : List (Nat × α) → Nat → α
  | [], _ => d
  | (k, v) :: t, a => if k = a then v else cellsGet d t a

/-- The cells with `v` at `a`; a value equal to `d` removes the entry. -/
def cellsSet {α : Type} [DecidableEq α] (d : α) : List (Nat × α) → Nat → α → List (Nat × α)
  | [], a, v => if v = d then [] else [(a, v)]
  | (k, x) :: t, a, v =>
    if a < k then (if v = d then (k, x) :: t else (a, v) :: (k, x) :: t)
    else if a = k then (if v = d then t else (a, v) :: t)
    else (k, x) :: cellsSet d t a v

/-- Every address is above `lo`, the addresses rise, and no entry equals `d`. -/
def cellsWfFrom {α : Type} [DecidableEq α] (d : α) : Nat → List (Nat × α) → Bool
  | _, [] => true
  | lo, (k, v) :: t => lo ≤ k && v ≠ d && cellsWfFrom d (k + 1) t

/-- The canonical form. -/
def cellsWf {α : Type} [DecidableEq α] (d : α) (m : List (Nat × α)) : Bool := cellsWfFrom d 0 m

/-! ## The SRAM (log 4) -/

/-- What a byte of SRAM that nothing has written reads as (log 4). -/
def Memory.unlisted : Byte := 0#8

/-- The SRAM is in canonical form. -/
def Memory.wf (m : List Host.Cell) : Bool := cellsWf Memory.unlisted m

/-- The key of lane `n` of the word at `a` (log 4). -/
def laneKey (a : Addr) (n : Nat) : Nat := 4 * a.toNat + n

/-- Lane `n` of the word at `a`. -/
def Memory.readLane (m : List Host.Cell) (a : Addr) (n : Nat) : Byte := cellsGet Memory.unlisted m (laneKey a n)

/-- The word at `a`, lane 3 most significant (R176). -/
def Memory.readWord (m : List Host.Cell) (a : Addr) : Word :=
  Memory.readLane m a 3 ++ Memory.readLane m a 2 ++ Memory.readLane m a 1 ++ Memory.readLane m a 0

/-- Lane `n` of the word at `a` written, if `lanes` enables it. -/
def Memory.writeLane (m : List Host.Cell) (a : Addr) (lanes : Lanes) (x : Word) (n : Nat) : List Host.Cell :=
  if lanes.getLsbD n then cellsSet Memory.unlisted m (laneKey a n) (x.extractLsb' (8 * n) 8) else m

/-- The enabled lanes of the word at `a` written. -/
def Memory.write (m : List Host.Cell) (a : Addr) (lanes : Lanes) (x : Word) : List Host.Cell :=
  Memory.writeLane (Memory.writeLane (Memory.writeLane (Memory.writeLane m a lanes x 0) a lanes x 1) a lanes x 2) a
    lanes x 3

/-! ## Per-window registers -/

/-- Window `w`'s register. -/
def winGet {α : Type} (v : Vector α 8) (w : Win) : α := v[w.val]

/-- The registers with window `w`'s replaced. -/
def winSet {α : Type} (v : Vector α 8) (w : Win) (x : α) : Vector α 8 := v.set w.val x

/-- The lowest-numbered window that satisfies `p`. -/
def firstWin (p : Win → Bool) : Option Win := allWins.find? p

/-- Window `w`'s descriptor. -/
def State.desc (s : State) (w : Win) : Descriptor := winGet s.ret.descriptors w

/-- Window `w`'s transaction entry, absent while it is disabled (R1). -/
def State.entry (s : State) (w : Win) : Option Entry := winGet s.ret.entries w

/-- Window `w` is enabled: it has an entry (R1). -/
def State.enabled (s : State) (w : Win) : Bool := (s.entry w).isSome

/-- Window `w`'s transaction state, absent while it is disabled. -/
def State.txnState (s : State) (w : Win) : Option TxnState := (s.entry w).map Entry.state

/-- Window `w`'s entry replaced. -/
def State.setEntry (s : State) (w : Win) (e : Option Entry) : State :=
  { s with ret.entries := winSet s.ret.entries w e }

/-- Window `w`'s deadline counter. -/
def State.counter (s : State) (w : Win) : Counter := winGet s.main.counters w

/-- Window `w`'s deadline counter replaced. -/
def State.setCounter (s : State) (w : Win) (c : Counter) : State :=
  { s with main.counters := winSet s.main.counters w c }

/-- Window `w`'s receipt slot. -/
def State.slot (s : State) (w : Win) : ReceiptSlot := winGet s.main.slots w

/-- Window `w`'s receipt slot replaced. -/
def State.setSlot (s : State) (w : Win) (x : ReceiptSlot) : State := { s with main.slots := winSet s.main.slots w x }

/-- Window `w` is in the pending set (R100). -/
def State.isPending (s : State) (w : Win) : Bool := winGet s.main.pendSet w

/-- Window `w` joins or leaves the pending set (R101, R102). -/
def State.setPending (s : State) (w : Win) (b : Bool) : State :=
  { s with main.pendSet := winSet s.main.pendSet w b }

/-- The SRAM replaced. -/
def State.setSram (s : State) (m : List Host.Cell) : State := { s with sram := m }

/-- The journal replaced. -/
def State.setJournal (s : State) (j : Journal) : State := { s with ret.journal := j }

/-- The access record replaced. -/
def State.setAccess (s : State) (a : Option Access) : State := { s with main.access := a }

/-! ## The event queue (R170) -/

/-- The queue takes posts: not in FAILING (R144), and in RETAINING there is no main well. -/
def State.mainRuns (s : State) : Bool := s.power = .active || s.power = .recovering

/-- The mask enables the kind (R164). -/
def State.kindEnabled (s : State) (k : EventKind) : Bool := s.ret.kindMask.getLsbD k.code

/-- A block posts an event, and the queue takes the post whole (R170). -/
def State.post (s : State) (k : EventKind) (w : Option Win) (detail : Word) : State :=
  if !s.mainRuns then s
  else if !s.kindEnabled k then s
  else if s.main.queue.length < Config.queueCapacity then
    { s with
      main.queue := s.main.queue ++ [{ kind := k, window := w, detail := detail, stamp := s.main.stamp }] }
  else { s with main.overrun := true }

/-! ## Receipts (R129 to R131) -/

/-- A receipt is handed on to window `w`'s slot. In FAILING it is discarded (R129). A PENDING receipt is superseded,
with its event (R130); a receipt handed to a WRITING slot supersedes nothing (R131). -/
def State.handOn (s : State) (w : Win) (o : ReceiptOutcome) (r : ReceiptReason) (seq : Byte) (count : Nat) : State :=
  if !s.mainRuns then s
  else match s.slot w with
    | .pending old _ =>
      (s.setSlot w (.pending (receiptWord o r seq true w count) (s.desc w).receiptWord)).post .receiptSuperseded
        (some w) (detailSuperseded old)
    | .empty | .writing => s.setSlot w (.pending (receiptWord o r seq false w count) (s.desc w).receiptWord)

/-! ## Deadline counters (R122, R124) -/

/-- Load for seq `q` with deadline `d`; a deadline of 0 loads no counter. -/
def Counter.load (_ : Counter) (d : Nat) (q : Byte) : Counter := if d = 0 then .absent else .running d q

/-- Reload with deadline `d`. -/
def Counter.reload (c : Counter) (d : Nat) : Counter :=
  match c with
  | .running _ q => .running d q
  | .absent | .frozen _ _ | .spent _ => c

/-- Freeze; an outstanding expiry is withdrawn and the counter frozen with 0. -/
def Counter.freeze (c : Counter) : Counter :=
  match c with
  | .running r q => .frozen r q
  | .spent q => .frozen 0 q
  | .absent | .frozen _ _ => c

/-- Resume; a counter frozen with 0 is SPENT at once, with a new expiry request. -/
def Counter.resume (c : Counter) : Counter :=
  match c with
  | .frozen r q => if r = 0 then .spent q else .running r q
  | .absent | .running _ _ | .spent _ => c

/-- Resume and reload with deadline `d`. -/
def Counter.resumeReload (c : Counter) (d : Nat) : Counter :=
  match c with
  | .running _ q => .running d q
  | .frozen _ q => .running d q
  | .absent | .spent _ => c

/-- Discard; an outstanding expiry is withdrawn. -/
def Counter.discard (_ : Counter) : Counter := .absent

/-- One tick: a RUNNING counter is lowered by one; lowered to 0 it is SPENT (R124). -/
def Counter.tick (c : Counter) : Counter :=
  match c with
  | .running r q => if r ≤ 1 then .spent q else .running (r - 1) q
  | .absent | .frozen _ _ | .spent _ => c

/-! ## The oscillator (R118; log 12) -/

/-- The oscillator after one more microsecond event: every hundredth is a tick, every thousandth a millisecond event. -/
def Oscillator.next (o : Oscillator) : Oscillator :=
  let m := (o.micros + 1) % 1000
  { micros := m, tickDue := decide (m % 100 = 0), milliDue := decide (m = 0) }

/-- The oscillator runs: VDD is not lost (R118; log 30). -/
def State.clockRuns (s : State) : Bool := s.vdd ≠ .belowSwitchover

/-- The Deadline Unit's counters take the tick (R124). -/
def State.takeTick (s : State) : State :=
  { s with main.counters := s.main.counters.map Counter.tick, osc.tickDue := false }

/-- The stamp counter takes the millisecond event, wrapping from 65535 to 0 (R119); in RETAINING the main well is held
in reset (R146, R147). -/
def State.takeMillisecond (s : State) : State :=
  { s with main.stamp := if s.power = .retaining then s.main.stamp else s.main.stamp + 1, osc.milliDue := false }

/-- What is due of a tick and a millisecond event is taken, before another microsecond event falls. -/
def State.takeDue (s : State) : State :=
  let t := if s.osc.tickDue then s.takeTick else s
  if t.osc.milliDue then t.takeMillisecond else t

/-- Window `w`'s deadline length in ticks, from its descriptor (R121). -/
def State.deadline (s : State) (w : Win) : Nat := (s.desc w).deadline.toNat

/-! ## The undo journal (file 02) -/

/-- The ring position after `p` (R28). -/
def nextPos (p : Nat) : Nat := (p + 1) % Config.journalSlots

/-- The ring position before `p` (R104). -/
def prevPos (p : Nat) : Nat := (p + (Config.journalSlots - 1)) % Config.journalSlots

/-- A LIVE slot (R30). -/
def Slot.live (x : Slot) : Bool := x.valid && !x.voided

/-- A VOIDED slot (R30). -/
def Slot.isVoided (x : Slot) : Bool := x.valid && x.voided

/-- The slot at position `p`. -/
def Journal.slot (j : Journal) (p : Nat) : Slot := cellsGet Slot.clear j.slots p

/-- The slot at position `p` replaced. -/
def Journal.setSlot (j : Journal) (p : Nat) (x : Slot) : Journal :=
  { j with slots := cellsSet Slot.clear j.slots p x }

/-- Position `p` lies inside the occupied span, which begins at the tail (R28). -/
def Journal.inSpan (j : Journal) (p : Nat) : Bool :=
  p < Config.journalSlots && (p + Config.journalSlots - j.tail) % Config.journalSlots < j.occ

/-- The journal is full (R36). -/
def Journal.full (j : Journal) : Bool := j.occ = Config.journalSlots

/-- How many LIVE records name window `w`. -/
def Journal.liveCount (j : Journal) (w : Win) : Nat :=
  (j.slots.filter fun c => c.2.live && c.2.window = w).length

/-- One shift of the check code's register (R41): generator x^8 + x^2 + x + 1. -/
def checkShift (r : Byte) : Byte := if r.msb then (r <<< 1) ^^^ 0x07#8 else r <<< 1

/-- A byte shifted into the register, most significant bit first (R41; log 18). -/
def checkByte (r b : Byte) : Byte := Nat.repeat checkShift 8 (r ^^^ b)

/-- The ten bytes the check code covers, in order (R41). -/
def checkBytes (w : Win) (ordinal : Nat) (a : Addr) (old : Word) : List Byte :=
  [BitVec.ofNat 8 w.val, byteOf ordinal 2 0, byteOf ordinal 2 1, byteOf a.toNat 3 0, byteOf a.toNat 3 1,
    byteOf a.toNat 3 2, byteOf old.toNat 4 0, byteOf old.toNat 4 1, byteOf old.toNat 4 2, byteOf old.toNat 4 3]

/-- The check code of a record: preset FFh, no inversion (R41). -/
def checkCode (w : Win) (ordinal : Nat) (a : Addr) (old : Word) : Byte :=
  (checkBytes w ordinal a old).foldl checkByte 0xFF#8

/-- A record's stored check code agrees with the one recomputed from its fields (R42). -/
def Slot.checks (x : Slot) : Bool := x.check = checkCode x.window x.ordinal x.addr x.old

/-- The body of a new record (R33, R34): every field and the check code written, both marks clear. -/
def recordBody (w : Win) (ordinal : Nat) (a : Addr) (old : Word) (lanes : Lanes) : Slot :=
  { window := w, ordinal := ordinal, addr := a, old := old, lanes := lanes, valid := false, voided := false,
    check := checkCode w ordinal a old }

/-- The body step of an append, at the head (R33). -/
def Journal.appendBody (j : Journal) (x : Slot) : Journal := j.setSlot j.head x

/-- The mark step of an append (R33): the valid mark set, the head advanced, the occupancy raised. -/
def Journal.appendMark (j : Journal) : Journal :=
  let k := j.setSlot j.head { j.slot j.head with valid := true }
  { k with head := nextPos j.head, occ := j.occ + 1 }

/-- One slot reclaimed at the tail (R40). -/
def Journal.reclaimOne (j : Journal) : Journal :=
  let k := j.setSlot j.tail { j.slot j.tail with valid := false, voided := false }
  { k with tail := nextPos j.tail, occ := j.occ - 1 }

/-- The reclaim of R40, over at most `fuel` slots. -/
def Journal.reclaimUpTo : Nat → Journal → Journal
  | 0, j => j
  | fuel + 1, j =>
    if j.occ ≠ 0 && (j.slot j.tail).isVoided then Journal.reclaimUpTo fuel j.reclaimOne else j

/-- The reclaim of R40: it stops at the first LIVE record or when the occupancy reaches 0. -/
def Journal.reclaim (j : Journal) : Journal := Journal.reclaimUpTo j.occ j

/-- The single void of the LIVE record at `p`, with its reclaim (R38). -/
def Journal.voidOne (j : Journal) (p : Nat) : Journal :=
  if (j.slot p).live then (j.setSlot p { j.slot p with voided := true }).reclaim else j

/-- A listed slot with its voided mark set if it is a LIVE record of `w`. -/
def voidCell (w : Win) (c : Nat × Slot) : Nat × Slot :=
  if c.2.live && c.2.window = w then (c.1, { c.2 with voided := true }) else c

/-- The void-all for window `w`, with its reclaim (R39). With a count of 0 while a LIVE record that has decayed names
`w`, R39's first sentence (every LIVE record of `w`) and its last (a count of 0 voids nothing) differ: the model follows
the first (DESIGN CHOICE, log 32). -/
def Journal.voidAll (j : Journal) (w : Win) : Journal :=
  Journal.reclaim { j with slots := j.slots.map (voidCell w) }

/-- The discard made at the start of RECOVERING (R50). -/
def Journal.discard (j : Journal) : Journal := if j.occ < Config.journalSlots then j.setSlot j.head Slot.clear else j

/-! ## Free values -/

/-- The next `n` free values are used up (log 29). -/
def State.useFree (s : State) (n : Nat) : State := { s with freeCount := s.freeCount + n }

end Sys2Proof.Machine
end

