-- ==== Sys2Proof/Machine/TableOps.lean ====
section
/-! DEFINITION. The takings of the Transaction Table (file 01): markers, append requests, breaks and drops, expiries,
and the recovery transitions. Each hands its parts on in the order of R4. -/

namespace Sys2Proof.Machine

/-! ## Entries after a transition (R2) -/

/-- An entry that has become IDLE: only seq and last ended stay, and the count is 0. -/
def Entry.toIdle (e : Entry) : Entry :=
  { e with state := .idle, count := 0, savepoint := none, cause := none, restored := none, breakReason := none,
           dropReported := false, damagePos := none }

/-- An entry that has entered ROLLING_BACK with cause `c` and restored 0; only a RETURN keeps the savepoint. -/
def Entry.toRollingBack (e : Entry) (c : RollbackCause) : Entry :=
  { e with state := .rollingBack, savepoint := if c = .returned then e.savepoint else none, cause := some c,
           restored := some 0, breakReason := none, dropReported := false, damagePos := none }

/-- An entry that is OPEN again after a RETURN: the savepoint kept, break reason absent, drop reported clear. -/
def Entry.toReturned (e : Entry) : Entry :=
  { e with state := .opened, cause := none, restored := none, breakReason := none, dropReported := false,
           damagePos := none }

/-- An entry that an OPEN marker with seq `q` has opened (R7). -/
def Entry.toOpened (e : Entry) (q : Byte) : Entry :=
  { e with state := .opened, seq := q, count := 0, savepoint := none, cause := none, restored := none,
           breakReason := none, dropReported := false, damagePos := none, lastEnded := none }

/-- An entry that has broken (R16). -/
def Entry.toBroken (e : Entry) (r : BreakReason) : Entry :=
  { e with state := .broken, breakReason := some r, dropReported := false }

/-- An entry whose walk ended in damage at position `p` (R22). -/
def Entry.toDamaged (e : Entry) (p : Nat) : Entry :=
  { e with state := .damaged, savepoint := none, cause := none, restored := none, breakReason := none,
           dropReported := false, damagePos := some p }

/-! ## Shared parts of takings -/

/-- Window `w`'s count, 0 when it has no entry. -/
def State.countOf (s : State) (w : Win) : Nat :=
  match s.entry w with
  | some e => e.count
  | none => 0

/-- A marker with seq `q` is refused `r` (R5): a REFUSED receipt and a MARKER_REFUSED event. -/
def State.refuse (s : State) (w : Win) (r : ReceiptReason) (q : Byte) : State :=
  (s.handOn w .refused r q (s.countOf w)).post .markerRefused (some w) (detailReceipt .refused r q 0)

/-- The void-all of window `w`'s records with its entry change to IDLE, one retained update (R39). -/
def State.voidAllToIdle (s : State) (w : Win) (e : Entry) : State :=
  (s.setJournal (s.ret.journal.voidAll w)).setEntry w (some e.toIdle)

/-- Window `w` enters ROLLING_BACK with cause `c` and joins the pending set (R4 steps 1 and 2, R101). -/
def State.startRollback (s : State) (w : Win) (e : Entry) (c : RollbackCause) : State :=
  (s.setEntry w (some (e.toRollingBack c))).setPending w true

/-- The Deadline Unit is told to discard window `w`'s counter (R122). -/
def State.discardCounter (s : State) (w : Win) : State := s.setCounter w (s.counter w).discard

/-- The reason for which a marker other than OPEN is refused in IDLE (R8). -/
def Entry.idleReason (e : Entry) (q : Byte) : ReceiptReason :=
  match e.lastEnded with
  | some l => if l.seq = q then .late else .notOpen
  | none => .notOpen

/-- The tests that a COMMIT, ABORT, SAVE or RETURN with seq `q` meets before its own rule (R8, R9, R10). A window that
is ROLLING_BACK or has no entry takes no marker (log 31). -/
def State.endMarker (s : State) (w : Win) (q : Byte) (k : Entry → State) : State :=
  match s.entry w with
  | none => s
  | some e =>
    match e.state with
    | .idle => s.refuse w (e.idleReason q) q
    | .damaged => s.refuse w .damagedWindow q
    | .rollingBack => s
    | .opened => if e.seq = q then k e else s.refuse w .seqMismatch q
    | .broken => if e.seq = q then k e else s.refuse w .seqMismatch q

/-! ## Markers (R7 to R14) -/

/-- An OPEN marker with seq `q` (R7, R9); none is taken in ROLLING_BACK or with no entry (log 31). -/
def State.takeOpen (s : State) (w : Win) (q : Byte) : State :=
  match s.entry w with
  | none => s
  | some e =>
    match e.state with
    | .idle =>
      ((s.setEntry w (some (e.toOpened q))).setCounter w ((s.counter w).load (s.deadline w) q)).handOn w .opened
        .noReason q 0
    | .opened => s.refuse w .alreadyOpen q
    | .broken => s.refuse w .alreadyOpen q
    | .damaged => s.refuse w .damagedWindow q
    | .rollingBack => s

/-- A COMMIT with matching seq (R10, R11): the commit point in OPEN. The receipt carries the entry's count just before
it (log 22). -/
def State.commitTaken (s : State) (w : Win) (q : Byte) (e : Entry) : State :=
  if e.state = .broken then s.refuse w .isBroken q
  else ((s.voidAllToIdle w e).discardCounter w).handOn w .committed .noReason e.seq e.count

/-- An ABORT with matching seq (R12). -/
def State.abortTaken (s : State) (w : Win) (e : Entry) : State :=
  if e.count = 0 then
    ((s.setEntry w (some e.toIdle)).discardCounter w).handOn w .aborted .noReason e.seq 0
  else (s.startRollback w e .abort).discardCounter w

/-- A SAVE with matching seq (R10, R13). -/
def State.saveTaken (s : State) (w : Win) (q : Byte) (e : Entry) : State :=
  if e.state = .broken then s.refuse w .isBroken q
  else (s.setEntry w (some { e with savepoint := some e.count })).handOn w .saved .noReason e.seq e.count

/-- The Deadline Unit is told of an append or a RETURN answered at once: a reload in IDLE mode (R15, R14, R123). -/
def State.reloadIfIdle (s : State) (w : Win) : State :=
  if (s.desc w).deadlineMode = .idle then s.setCounter w ((s.counter w).reload (s.deadline w)) else s

/-- A RETURN with matching seq (R14). -/
def State.returnTaken (s : State) (w : Win) (q : Byte) (e : Entry) : State :=
  match e.savepoint with
  | none => s.refuse w .noSavepoint q
  | some p =>
    if e.count = p then
      ((s.setEntry w (some e.toReturned)).reloadIfIdle w).handOn w .returned .noReason e.seq 0
    else
      let t := s.startRollback w e .returned
      t.setCounter w (t.counter w).freeze

/-- A well-formed marker of kind `k` and seq `q` is taken for window `w` (R93). -/
def State.takeMarker (s : State) (w : Win) (k : MarkerKind) (q : Byte) : State :=
  match k with
  | .openM => s.takeOpen w q
  | .commitM => s.endMarker w q fun e => s.commitTaken w q e
  | .abortM => s.endMarker w q fun e => s.abortTaken w e
  | .saveM => s.endMarker w q fun e => s.saveTaken w q e
  | .returnM => s.endMarker w q fun e => s.returnTaken w q e

/-! ## Writes in an open transaction (R15 to R17) -/

/-- The answer to an append request (R15). -/
inductive AppendAnswer where
  /-- The state is not OPEN: refused without effect. -/
  | notOpen
  /-- The transaction breaks. -/
  | breaks (reason : BreakReason)
  /-- Granted. -/
  | granted
deriving DecidableEq, Repr

/-- The append request for window `w` (R15): the quota is tested before the journal. -/
def State.appendAnswer (s : State) (w : Win) : AppendAnswer :=
  match s.entry w with
  | none => .notOpen
  | some e =>
    if e.state ≠ .opened then .notOpen
    else if (s.desc w).quota.toNat ≤ e.count then .breaks .quota
    else if s.ret.journal.full then .breaks .journalFull
    else .granted

/-- A break of window `w`'s transaction (R16): the entry, a BROKEN receipt, a TXN_BROKEN event. -/
def State.breakTxn (s : State) (w : Win) (r : BreakReason) : State :=
  match s.entry w with
  | none => s
  | some e =>
    ((s.setEntry w (some (e.toBroken r))).handOn w .broken r.receipt e.seq e.count).post .txnBroken (some w)
      (detailReceipt .broken r.receipt e.seq 0)

/-- The Transaction Table is told of a drop in BROKEN at word address `a` (R17). -/
def State.noteDrop (s : State) (w : Win) (a : Addr) : State :=
  match s.entry w with
  | none => s
  | some e =>
    if e.state = .broken && !e.dropReported then
      (s.setEntry w (some { e with dropReported := true })).post .droppedWrite (some w) (detailAddr a)
    else s

/-- The high-water test after an append's mark step (R43). -/
def State.highWaterTest (s : State) (w : Win) : State :=
  if s.ret.highWater ≠ 0 && s.ret.journal.occ = s.ret.highWater then
    s.post .journalHigh (some w) (BitVec.ofNat 32 s.ret.journal.occ)
  else s

/-- The body step of the append for window `w` (R33, R34). -/
def State.appendBody (s : State) (w : Win) (a : Addr) (old : Word) (lanes : Lanes) : State :=
  s.setJournal (s.ret.journal.appendBody (recordBody w (s.countOf w + 1) a old lanes))

/-- The mark step, with the rise of the count, in one retained update (R33, R3). -/
def State.appendMark (s : State) (w : Win) : State :=
  let t := s.setJournal s.ret.journal.appendMark
  match t.entry w with
  | none => t
  | some e => t.setEntry w (some { e with count := e.count + 1 })

/-! ## Expiry (R18) -/

/-- An expiry request carrying seq `q` is taken for window `w` (R18). -/
def State.takeExpiry (s : State) (w : Win) (q : Byte) : State :=
  match s.entry w with
  | none => s
  | some e =>
    if (e.state = .opened || e.state = .broken) && e.seq = q then
      let e' := { e with lastEnded := some { seq := e.seq, kind := .expired } }
      if e.count = 0 then
        (((s.setEntry w (some e'.toIdle)).discardCounter w).handOn w .expired .noReason e.seq 0).post
          .deadlineExpired (some w) (detailReceipt .expired .noReason e.seq 0)
      else
        ((s.startRollback w e' .expiry).discardCounter w).post .deadlineExpired (some w)
          (detailReceipt .expired .noReason e.seq 0)
    else s

/-! ## Recovery transitions (R23) -/

/-- The recovery request to window `w` (R23, R152), with the tally of a window kept. The KEPT receipt's count is the
number of records voided (R23, R39). -/
def State.placeWindow (s : State) (w : Win) : State :=
  match s.entry w with
  | none => s
  | some e =>
    match e.state with
    | .idle => s
    | .damaged => s
    | .opened | .broken | .rollingBack =>
      match (s.desc w).policy with
      | .rollback => (s.startRollback w e .recovery).discardCounter w
      | .keep =>
        let t := ((s.voidAllToIdle w e).discardCounter w).handOn w .kept .noReason e.seq
          (s.ret.journal.liveCount w)
        { t with main.tally := t.main.tally.map fun x => { x with kept := x.kept + 1 } }

end Sys2Proof.Machine
end

