-- ==== Sys2Proof/Machine/AccessOps.lean ====
section
/-! DEFINITION. The Access Classifier and the Memory Sequencer (file 04): what the Window Table answers, how an access
is classified, held, voided, dropped and completed, and which claim is granted. -/

namespace Sys2Proof.Machine

/-! ## The Window Table's answer (R56, R57) -/

/-- The Window Table's four answers (R57). -/
inductive Answer where
  | control (w : Win)
  | receipt (w : Win)
  | range (w : Win)
  | unguarded
deriving DecidableEq, Repr

/-- The owner of a word's granule: the lowest-numbered enabled window whose range holds it (R56). -/
def State.owner (s : State) (a : Addr) : Option Win := firstWin fun w => s.enabled w && (s.desc w).holds a

/-- The Window Table's answer for a word address (R57). -/
def State.answer (s : State) (a : Addr) : Answer :=
  match firstWin fun w => s.enabled w && (s.desc w).controlWord = a with
  | some w => .control w
  | none =>
    match firstWin fun w => s.enabled w && (s.desc w).receiptWord = a with
    | some w => .receipt w
    | none =>
      match s.owner a with
      | some w => .range w
      | none => .unguarded

/-- What an access is to become (R72). -/
inductive Verdict where
  | passes (w : Option Win)
  | journals (w : Win)
  | writesControl (w : Win)
  | holds (w : Win)
  | drops (w : Win) (why : TxnState)
deriving DecidableEq, Repr

/-- The rows of R72's table for the effective range of window `w`, by its present state and mode. No entry leaves the
range without a guard. -/
def State.rangeVerdict (s : State) (w : Win) (wr : Bool) : Verdict :=
  match s.txnState w with
  | none => .passes none
  | some .rollingBack => .holds w
  | some .idle => if wr && (s.desc w).mode = .strict then .drops w .idle else .passes (some w)
  | some .opened => if wr then .journals w else .passes (some w)
  | some .broken => if wr then .drops w .broken else .passes (some w)
  | some .damaged => if wr then .drops w .damaged else .passes (some w)

/-- The classification of an access by the table of R72. -/
def State.classify (s : State) (a : Addr) (wr : Bool) : Verdict :=
  match s.answer a with
  | .unguarded => .passes none
  | .receipt _ => .passes none
  | .control w =>
    if s.txnState w = some .rollingBack then .holds w else if wr then .writesControl w else .passes (some w)
  | .range w => s.rangeVerdict w wr

/-! ## Outcomes of an access -/

/-- The access reaches its outcome (R85): PRDY is asserted, and a read's word driven. For a withdrawn access neither
is done, and a read's data is discarded (R70); `settle` ends it. -/
def State.complete (s : State) (a : Access) (read : Option Word) : State :=
  let t := { s with main.access := some { a with cond := .complete }, main.holdTimer := none }
  if a.withdrawn then t
  else { t with main.prdy := .asserted, main.pd := if a.wr then none else read }

/-- A voided word that hands on a BUSY receipt: a full-word control-word write carrying the key (R83). -/
def State.voidsMarker (s : State) (a : Access) (w : Win) : Bool :=
  a.wr && a.lanes = allLanes && a.addr = (s.desc w).controlWord && markerKey a.data = (s.desc w).key

/-- The access held for window `w` is voided (R83): the BUSY receipt where one is due, the VOID_ACCESS event, and PRDY
with the fill word for a read. The order of the receipt and the event is the model's (log 19). -/
def State.voidAccess (s : State) (a : Access) (w : Win) : State :=
  let t := if s.voidsMarker a w then s.handOn w .refused .busy (markerSeq a.data) (s.countOf w) else s
  (t.post .voidAccess (some w) (detailVoid a.wr a.addr)).complete a (some s.ret.fillWord)

/-- An access classified as held is held, or voided at once with a hold limit of 0 (R80). -/
def State.hold (s : State) (a : Access) (w : Win) : State :=
  let b := { a with cls := .held, window := some w, cond := .held }
  if s.ret.holdLimit = 0 then s.voidAccess b w
  else { s with main.access := some b, main.holdTimer := some 0 }

/-- The report of a dropped write (R77). -/
def State.reportDrop (s : State) (w : Win) (why : TxnState) (a : Addr) : State :=
  match why with
  | .idle => s.post .strayWrite (some w) (detailAddr a)
  | .broken => s.noteDrop w a
  | .damaged => s.post .damagedAccess (some w) (detailAddr a)
  | .opened | .rollingBack => s

/-- The access waits with a claim on the memory port (R71). -/
def State.claim (s : State) (a : Access) (c : AccessClass) (w : Option Win) : State :=
  { s with main.access := some { a with cls := c, window := w, cond := .waiting }, main.holdTimer := none }

/-- An access proceeds under its classification (R72). -/
def State.proceed (s : State) (a : Access) (v : Verdict) : State :=
  match v with
  | .passes w => s.claim a .passed w
  | .journals w => s.claim a .journaled (some w)
  | .writesControl w => s.claim a .controlWord (some w)
  | .holds w => s.hold a w
  | .drops w why => (s.reportDrop w why a.addr).complete { a with cls := .dropped, window := some w } none

/-- An access is classified and proceeds under its classification (R72, R73, R82). -/
def State.route (s : State) (a : Access) : State :=
  if a.wr && a.lanes = 0 then s.complete { a with cls := .noLanes, window := none } none
  else s.proceed a (s.classify a.addr a.wr)

/-! ## Taking an access (R70) -/

/-- PCEN with PWEN or POEN stands asserted at the port. -/
def ProcPort.presents (p : ProcPort) : Bool := p.pcen && (p.pwen || p.poen)

/-- The access the port presents, its fields captured; PWEN decides for a write (R70). -/
def ProcPort.capture (p : ProcPort) : Access :=
  { addr := p.pa, lanes := p.pbe, wr := p.pwen, data := p.pd, cls := .passed, window := none, cond := .waiting,
    withdrawn := false }

/-- The classifier takes accesses: in ACTIVE, and in RECOVERING from phase WALKING on (R139). -/
def State.takesAccesses (s : State) : Bool :=
  s.power = .active || (s.power = .recovering && s.main.phase = some .walking)

/-- An access presented at a free port is taken (R70). -/
def State.takePresented (s : State) : State :=
  if s.takesAccesses && s.main.access.isNone && s.port.presents then
    State.route { s with main.prdy := .inactive, main.pd := none } s.port.capture
  else s

/-- A withdrawn access that has reached its outcome ends (R70): a new access presented by then is taken and PRDY is not
asserted for the old one; otherwise PRDY is asserted and returns inactive at once. What stands at the port at the outcome
decides: R70 does not speak of a new access that has begun and been withdrawn again by then, and the model takes none and
gives the old one its PRDY (DESIGN CHOICE, log 37). -/
def State.settle (s : State) : State :=
  match s.main.access with
  | some a =>
    if a.cond = .complete && a.withdrawn then
      if s.port.presents then (s.setAccess none).takePresented
      else { s with main.access := none, main.prdy := .pulsed, main.pd := none }
    else s
  | none => s

/-! ## Microsecond events (R81, R118, R120) -/

/-- The hold timer's part of a microsecond event: a held access's elapsed count rises by one, and the access is voided
if that makes it reach the hold limit as it then stands (R81, R83, R120). -/
def State.holdMicrosecond (s : State) : State :=
  match s.main.access, s.main.holdTimer with
  | some a, some n =>
    match a.window with
    | some w =>
      if a.cond = .held then
        if s.ret.holdLimit.toNat ≤ n + 1 then (s.voidAccess a w).settle
        else { s with main.holdTimer := some (n + 1) }
      else s
    | none => s
  | _, _ => s

/-- A microsecond event (R118): what is still due of the one before is taken, the oscillator moves on, and the hold
timer counts it. R120 lets a hold and a deadline that run out on the same microsecond event be taken in either order, and
no rule orders a hold that runs out against a millisecond event that falls with it (R118, R119): the access is always
voided first, before the tick reaches the counters and the millisecond event the stamp, so VOID_ACCESS carries the stamp
from before (DESIGN CHOICE, log 19). -/
def State.microsecond (s : State) : State :=
  let t := s.takeDue
  State.holdMicrosecond { t with osc := t.osc.next }

/-- Microsecond events fall, at most `n`, until one is a tick (log 12). -/
def State.untilTick : Nat → State → State
  | 0, s => s
  | n + 1, s => if s.osc.tickDue then s else State.untilTick n s.microsecond

/-- Microsecond events fall, at most `n`, until one is a millisecond event (log 12). -/
def State.untilMillisecond : Nat → State → State
  | 0, s => s
  | n + 1, s => if s.osc.milliDue then s else State.untilMillisecond n s.microsecond

/-- The next microsecond event makes a held access reach the hold limit (R120). -/
def State.holdRunsOut (s : State) : Bool :=
  match s.main.access, s.main.holdTimer with
  | some a, some n => a.cond = .held && s.ret.holdLimit.toNat ≤ n + 1
  | _, _ => false

/-! ## The Memory Sequencer (R86, R87) -/

/-- The sequencer grants claims: not in FAILING or RETAINING (R89). -/
def State.portFree (s : State) : Bool := s.mainRuns && s.main.owner = .nobody

/-- The processor's claim waits (R71). -/
def State.procClaim (s : State) : Bool :=
  match s.main.access with
  | some a => a.cond = .waiting
  | none => false

/-- A slot is PENDING. -/
def ReceiptSlot.isPending : ReceiptSlot → Bool
  | .pending _ _ => true
  | .empty | .writing => false

/-- The lowest-numbered PENDING slot (R132). -/
def State.firstPendingSlot (s : State) : Option Win := firstWin fun w => (s.slot w).isPending

/-- The Receipt Writer's claim waits (R132). -/
def State.receiptClaim (s : State) : Bool := s.firstPendingSlot.isSome

/-- The Rollback Engine's claim waits (R100). -/
def State.restoreClaim (s : State) : Bool :=
  match s.main.walk with
  | some k => k.claim = .waiting && !s.main.stopped
  | none => false

/-- The processor's claim is the one to be granted (R87). -/
def State.grantsProc (s : State) : Bool :=
  s.portFree && s.procClaim && !(s.main.lastGrantProc && (s.receiptClaim || s.restoreClaim))

/-- The Receipt Writer's claim is the one to be granted (R87). -/
def State.grantsReceipt (s : State) : Bool := s.portFree && s.receiptClaim && !s.grantsProc

/-- The Rollback Engine's claim is the one to be granted (R87). -/
def State.grantsRestore (s : State) : Bool := s.portFree && s.restoreClaim && !s.receiptClaim && !s.grantsProc

/-- A memory cycle begins (R74, R86): MA and MBE take its values. -/
def State.drive (s : State) (o : Owner) (c : Cycle) : State :=
  { s with main.owner := o, main.cycle := some c, ma := c.addr, mbe := c.lanes }

/-- The grant ends and the port is free (R86). -/
def State.endGrant (s : State) : State := { s with main.owner := .nobody, main.cycle := none }

/-- A write cycle lands in the SRAM as it completes. -/
def State.land (s : State) (c : Cycle) : State :=
  if c.wr then s.setSram (Memory.write s.sram c.addr c.lanes c.data) else s

/-- The data a read cycle returns: the SRAM's on enabled lanes, and whatever the port returns on the others (R73). -/
def State.readLanes (s : State) (a : Addr) (lanes : Lanes) : Word :=
  let lane := fun n =>
    if lanes.getLsbD n then Memory.readLane s.sram a n else Config.floatingByte (s.freeCount + n)
  lane 3 ++ lane 2 ++ lane 1 ++ lane 0

/-- The access in flight goes to AT_MEMORY with a cycle of its own (R71, R74). -/
def State.grantProc (s : State) (a : Access) (c : Cycle) : State :=
  { s.drive .processor c with
    main.access := some { a with cond := .atMemory }
    main.lastGrantProc := true }

/-- The cycle an access makes as the processor issued it (R74). -/
def Access.cycle (a : Access) : Cycle := { addr := a.addr, lanes := a.lanes, wr := a.wr, data := a.data }

/-- The read of the old word: all four lanes, whatever the write enables (R32). -/
def Access.oldReadCycle (a : Access) : Cycle := { addr := a.addr, lanes := allLanes, wr := false, data := 0 }

/-- A read cycle is being driven. -/
def State.readsMemory (s : State) : Bool :=
  match s.main.cycle with
  | some c => !c.wr
  | none => false

/-- The taking that window `w` is in the middle of: a granted append before its mark step (R75), or a control-word
write from its state test to the end of the decoder's work (R78). No other request for `w` is taken meanwhile. -/
def State.takingOpen (s : State) (w : Win) : Bool :=
  match s.main.access with
  | some a =>
    a.cond = .atMemory && a.window = some w && ((a.cls = .journaled && s.readsMemory) || a.cls = .controlWord)
  | none => false

/-- The processor owns the port for an access of class `c` whose cycle is being driven. -/
def State.atMemory (s : State) (c : AccessClass) : Option (Access × Cycle) :=
  match s.main.access, s.main.cycle with
  | some a, some k => if a.cond = .atMemory && a.cls = c && s.main.owner = .processor then some (a, k) else none
  | _, _ => none

/-- The processor's claim for an access of class `c` is the one to be granted. -/
def State.grantable (s : State) (c : AccessClass) : Option Access :=
  match s.main.access with
  | some a => if s.grantsProc && a.cls = c then some a else none
  | none => none

/-- What the Marker Decoder finds in the control-word write in flight for window `w` (R90, R94; log 24). -/
def State.examination (s : State) (a : Access) (w : Win) : Examination :=
  if s.enabled w then examineWord (s.desc w).key a.lanes a.data else .ordinary

/-- The cycle of the control-word write in flight completes, if it is being driven: the word lands, the grant ends, and
the Marker Decoder has the word to examine (R78, R97; log 36). -/
def State.performControl (s : State) : State :=
  match s.atMemory .controlWord with
  | some (_, c) => { (s.land c).endGrant with main.examining := true }
  | none => s

/-- The access whose write the Marker Decoder has to examine (R90). -/
def State.underExamination (s : State) : Option Access :=
  match s.main.access with
  | some a => if s.main.examining && a.cond = .atMemory && a.cls = .controlWord then some a else none
  | none => none

/-- The control-word write in flight: its cycle is being driven, or the decoder has not finished with it (R78). -/
def State.controlInFlight (s : State) : Option Access := s.performControl.underExamination

/-- The control-word write in flight completes, if it has not yet (log 36); `take` is the Marker Decoder's and the
table's part of it, and PRDY follows (R78, R97). Does nothing unless the examination gives what `expect` says. -/
def State.finishControlWrite (s : State) (expect : Examination → Bool) (take : State → Win → Byte → State) : State :=
  match s.controlInFlight with
  | none => s
  | some a =>
    match a.window with
    | none => s
    | some w =>
      if expect (s.examination a w) then
        ((take { s.performControl with main.examining := false } w (markerSeq a.data)).complete a none).settle
      else s

end Sys2Proof.Machine
end

