-- ==== Sys2Proof/Machine/PortOps.lean ====
section
/-! DEFINITION. The two-wire management port (file 10): positions of the index space, byte reads and writes, and the
taking of a request. -/

namespace Sys2Proof.Machine

/-- The port answers its address: in ACTIVE, and in RECOVERING from phase WALKING on (R158). -/
def State.portAnswers (s : State) : Bool := s.takesAccesses

/-- The port answers and its clock is free: no received request waits to be taken with MSCL held low (R160). -/
def State.portReady (s : State) : Bool := s.portAnswers && !s.main.waiting

/-- The index advances by one, wrapping from FFh to 00h (R159, R160). -/
def State.advance (s : State) : State := { s with main.index := s.main.index + 1 }

/-- A data byte of a write transfer has been received at the index: it is acknowledged (R159) and the index advances. -/
def State.byteTaken (s : State) : State := { s.advance with main.ack := true }

/-- The port is ready and a write transfer stands after its index byte, so a byte received now is taken at the index
(R159). -/
def State.writingAt (s : State) : Bool := s.portReady && s.main.xfer = .writing

/-- A read transfer in which the port sends. -/
def Transfer.isReading : Transfer → Bool
  | .reading _ => true
  | .idle | .ignored | .writeIndex | .writing | .released => false

/-- The transfer after the port has sent a byte: it goes on while the controller acknowledges, and after the byte that
the controller does not acknowledge MSDA is released (R160). -/
def Transfer.afterByte : Transfer → Transfer
  | .reading (some 0) => .released
  | .reading (some (n + 1)) => .reading (some n)
  | .reading none => .reading none
  | .idle => .idle
  | .ignored => .ignored
  | .writeIndex => .writeIndex
  | .writing => .writing
  | .released => .released

/-- The port is ready and a read transfer is in progress, so a byte is sent from the index (R160). -/
def State.readingAt (s : State) : Bool := s.portReady && s.main.xfer.isReading

/-- The position lies among the descriptors (R54). -/
def isDescriptorPos (i : Nat) : Bool := i < 0x80

/-- The window whose descriptor holds position `i` (R54). -/
def descriptorWin (i : Nat) : Win := ⟨i / 16 % 8, Nat.mod_lt _ (by decide)⟩

/-- The high-water threshold with its byte `i` of two written, 11 bits held, above 1024 taken as 1024 (R44, R177). -/
def thresholdWith (t : Nat) (i : Nat) (b : Byte) : Nat :=
  min 1024 (withByte t 2 i (if i = 0 then b &&& 0x07#8 else b))

/-- The status byte (R163, R179): IGNORED in bit 7, power state in bits 1–0. -/
def State.statusByte (s : State) : Byte :=
  BitVec.ofBool s.main.ignored ++ 0#5 ++ (if s.power = .recovering then 1#2 else 0#2)

/-- The event count byte (R163, R179): overrun in bit 7, the count in bits 4–0. -/
def State.eventCountByte (s : State) : Byte :=
  BitVec.ofBool s.main.overrun ++ 0#2 ++ BitVec.ofNat 5 s.main.queue.length

/-- What each position of the index space reads as, without the effects that reading some of them has
(R161, R177 to R182). -/
def State.positionByte (s : State) (i : Nat) : Byte :=
  if i < 0x80 then (s.desc (descriptorWin i)).byte (i % 16)
  else if i = 0x80 then s.statusByte
  else if i < 0x83 then byteOf s.ret.journal.occ 2 (i - 0x81)
  else if i < 0x85 then byteOf s.ret.highWater 2 (i - 0x83)
  else if i = 0x85 then s.ret.holdLimit
  else if i < 0x8A then byteOf s.ret.fillWord.toNat 4 (i - 0x86)
  else if i < 0x8C then byteOf s.ret.kindMask.toNat 2 (i - 0x8A)
  else if i = 0x8C then s.eventCountByte
  else if i < 0x8F then byteOf s.main.stamp.toNat 2 (i - 0x8D)
  else if 0x90 ≤ i && i < 0x98 then 0#5 ++ stateCode (s.txnState (descriptorWin (16 * (i - 0x90))))
  else if i = 0xA0 then s.main.reqCode
  else if i = 0xA1 then s.main.arg
  else if i = 0xA2 then s.main.response
  else if 0xB0 ≤ i && i < 0xB8 then eventByte s.main.queue.head? (i - 0xB0)
  else if 0xC0 ≤ i && i < 0xD0 then s.main.txnView.byte (i - 0xC0)
  else if 0xD0 ≤ i && i < 0xE0 then s.main.recView.byte (i - 0xD0)
  else 0

/-- The port sends `b` and advances the index (R160). -/
def State.send (s : State) (b : Byte) : State :=
  { s.advance with main.sent := s.main.sent ++ [b], main.xfer := s.main.xfer.afterByte }

/-- The position's reading has a row of its own other than STATUS_READ. -/
def hasReadRow (i : Nat) : Bool :=
  i = 0x81 || i = 0x82 || i = 0x8D || i = 0x8E || (0xB0 ≤ i && i < 0xB8)

/-- A byte written to a position without a rule of its own (R161, R177): fill word, mask and argument are writable;
a read-only position or one with no contents keeps what it holds. -/
def State.plainWrite (s : State) (i : Nat) (b : Byte) : State :=
  if 0x86 ≤ i && i < 0x8A then
    { s with ret.fillWord := BitVec.ofNat 32 (withByte s.ret.fillWord.toNat 4 (i - 0x86) b) }
  else if 0x8A ≤ i && i < 0x8C then
    { s with ret.kindMask := BitVec.ofNat 16 (withByte s.ret.kindMask.toNat 2 (i - 0x8A) b) }
  else if i = 0xA1 then { s with main.arg := b }
  else s

/-- The position's writing has a row of its own: descriptors, threshold, hold limit, request code. -/
def hasWriteRow (i : Nat) : Bool := i < 0x80 || i = 0x83 || i = 0x84 || i = 0x85 || i = 0xA0

/-- The response is placed in the response byte (R165). -/
def State.respond (s : State) (r : Response) : State := { s with main.response := r.code }

/-- The A0h byte of a request: extension in bits 7–4, code in bits 3–0 (R179). -/
def requestByte (ext code : BitVec 4) : Byte := ext ++ code

/-- The window the argument names, if it is at most 7 (R166). -/
def State.argWin (s : State) : Option Win :=
  if h : s.main.arg.toNat < 8 then some ⟨s.main.arg.toNat, h⟩ else none

/-- A request to the Transaction Table for the argument's window: BAD_ARG above 7 (R166). -/
def State.onArgWin (s : State) (take : Win → State) : State :=
  match s.argWin with
  | none => s.respond .badArg
  | some w => take w

/-- The argument's window is in the middle of a taking (R75, R78), so a request for it waits (log 25). -/
def State.argWinBusy (s : State) : Bool :=
  match s.argWin with
  | none => false
  | some w => s.takingOpen w

/-- Some enabled window other than `w` whose range overlaps `w`'s satisfies `p` (R61, R63). -/
def State.someOverlapping (s : State) (w : Win) (p : Win → Bool) : Bool :=
  allWins.any fun v => v ≠ w && s.enabled v && (s.desc v).overlaps (s.desc w) && p v

/-- An ENABLE or DISABLE of the argument's window would fall inside a taking of that window, or of a window its test
looks at (R61, R65, R90; log 25). -/
def State.windowTestBusy (s : State) : Bool :=
  match s.argWin with
  | none => false
  | some w => s.takingOpen w || s.someOverlapping w s.takingOpen

/-- Some window is inside a control-word write's taking, so a CLEAR_ALL waits (R90, R167). -/
def State.controlTakingOpen (s : State) : Bool := s.controlInFlight.isSome

/-- The window is enabled and not IDLE. -/
def State.notIdle (s : State) (w : Win) : Bool := s.enabled w && s.txnState w ≠ some .idle

/-- The placement test of R60 for window `w`. -/
def State.misplaced (s : State) (w : Win) : Bool :=
  let d := s.desc w
  d.controlWord = d.receiptWord || d.holds d.controlWord || d.holds d.receiptWord
    || allWins.any fun v =>
      v ≠ w && s.enabled v
        && (let e := s.desc v
            e.holds d.controlWord || e.holds d.receiptWord
              || d.controlWord = e.controlWord || d.controlWord = e.receiptWord
              || d.receiptWord = e.controlWord || d.receiptWord = e.receiptWord
              || d.holds e.controlWord || d.holds e.receiptWord)

/-- The answer to ENABLE of window `w`: the first condition of R59 that holds, in its order, or DONE. -/
def State.enableAnswer (s : State) (w : Win) : Response :=
  let d := s.desc w
  if s.enabled w then .already
  else if d.limit.toNat < d.base.toNat then .badRange
  else if d.key = 0x0000#16 || d.key = 0xFFFF#16 then .badKey
  else if d.quota.toNat = 0 || 1024 < d.quota.toNat then .badQuota
  else if s.misplaced w then .placement
  else if s.someOverlapping w s.notIdle then .overlapBusy
  else .done

/-- The answer to DISABLE of window `w` (R63). -/
def State.disableAnswer (s : State) (w : Win) : Response :=
  if !s.enabled w then .already
  else if s.notIdle w then .busy
  else if s.someOverlapping w s.notIdle then .busy
  else .done

/-- Every enabled window is IDLE (R167). -/
def State.allIdle (s : State) : Bool := allWins.all fun w => !s.notIdle w

/-- A receipt slot as an accepted CLEAR_ALL leaves it: PENDING is discarded, WRITING completes its write (R135). -/
def ReceiptSlot.cleared : ReceiptSlot → ReceiptSlot
  | .pending _ _ => .empty
  | .empty => .empty
  | .writing => .writing

/-- The main-well state that an accepted CLEAR_ALL resets (R167). -/
def MainWell.cleared (m : MainWell) : MainWell :=
  { m with
    counters := Vector.replicate 8 .absent, stamp := 0, slots := m.slots.map ReceiptSlot.cleared, ignored := false,
    queue := [], overrun := false, txnView := TxnView.cold, recView := RecordView.cold, phase := none, tally := none }

/-- An accepted CLEAR_ALL (R150, R167): the retained defaults with a valid signature, the main-well resets, ACTIVE if
it was RECOVERING, COLD_START with detail 1, and DONE as the last step. -/
def State.clearEverything (s : State) : State :=
  let t :=
    { s with
      signature := true, ret := Retained.cold, main := s.main.cleared
      power := if s.power = PowerState.recovering then PowerState.active else s.power }
  (t.post .coldStart none 1).respond .done

/-- CLEAR_ALL's taking (R167). -/
def State.takeClearAll (s : State) : State := if s.allIdle then s.clearEverything else s.respond .busy

/-- ENABLE of window `w` (R59, R62). -/
def State.takeEnable (s : State) (w : Win) : State :=
  match s.enableAnswer w with
  | .done => (s.setEntry w (some Entry.fresh)).respond .done
  | r => s.respond r

/-- DISABLE of window `w` (R63, R64). -/
def State.takeDisable (s : State) (w : Win) : State :=
  match s.disableAnswer w with
  | .done => (s.setEntry w none).respond .done
  | r => s.respond r

/-- FORCE_ABORT of window `w` (R19). -/
def State.takeForceAbort (s : State) (w : Win) : State :=
  match s.entry w with
  | none => s.respond .notOpen
  | some e =>
    match e.state with
    | .idle => s.respond .notOpen
    | .rollingBack => s.respond .busy
    | .damaged => s.respond .busy
    | .opened | .broken =>
      let e' := { e with lastEnded := some { seq := e.seq, kind := .forced } }
      if e.count = 0 then
        (((s.setEntry w (some e'.toIdle)).discardCounter w).handOn w .aborted .forced e.seq 0).respond .done
      else ((s.startRollback w e' .forced).discardCounter w).respond .done

/-- RELEASE of window `w` (R20). -/
def State.takeRelease (s : State) (w : Win) : State :=
  match s.entry w with
  | none => s.respond .notDamaged
  | some e => if e.state = .damaged then (s.voidAllToIdle w e).respond .done else s.respond .notDamaged

/-- LOAD_TXN of window `w` (R168): a disabled window's view has no entry and no counter. -/
def State.takeLoadTxn (s : State) (w : Win) : State :=
  let v : TxnView :=
    { window := w, entry := s.entry w, counter := if s.enabled w then s.counter w else .absent }
  State.respond { s with main.txnView := v } .done

/-- The position LOAD_RECORD asks for: extension × 256 + argument (R169). -/
def State.recordPos (s : State) (ext : BitVec 4) : Nat := ext.toNat * 256 + s.main.arg.toNat

/-- LOAD_RECORD (R169, R45). -/
def State.takeLoadRecord (s : State) (ext : BitVec 4) : State :=
  if Config.journalSlots ≤ s.recordPos ext then s.respond .badArg
  else
    State.respond
      { s with main.recView := { pos := s.recordPos ext, slot := s.ret.journal.slot (s.recordPos ext) } } .done

/-- POP_EVENT (R170). -/
def State.takePop (s : State) : State :=
  match s.main.queue with
  | [] => s.respond .empty
  | _ :: t => State.respond { s with main.queue := t } .done

/-- CLEAR_OVERRUN (R170). -/
def State.takeClearOverrun (s : State) : State := State.respond { s with main.overrun := false } .done

/-! ## The taking of a request (R165, R166) -/

/-- The request code of an A0h byte. -/
def byteCode (b : Byte) : BitVec 4 := b.extractLsb' 0 4

/-- The position extension of an A0h byte. -/
def byteExt (b : Byte) : BitVec 4 := b.extractLsb' 4 4

/-- The request that the A0h byte `b` codes is taken whole, with the argument that A1h holds; a code that names no
request is answered BAD_ARG (R165, R166). -/
def State.takeRequest (s : State) (b : Byte) : State :=
  if byteCode b = 1 then s.onArgWin s.takeEnable
  else if byteCode b = 2 then s.onArgWin s.takeDisable
  else if byteCode b = 3 then s.onArgWin s.takeForceAbort
  else if byteCode b = 4 then s.onArgWin s.takeRelease
  else if byteCode b = 5 then s.takeClearAll
  else if byteCode b = 6 then s.takePop
  else if byteCode b = 7 then s.takeClearOverrun
  else if byteCode b = 8 then s.onArgWin s.takeLoadTxn
  else if byteCode b = 9 then s.takeLoadRecord (byteExt b)
  else s.respond .badArg

/-- The request that `b` codes meets an open taking and waits for its end (R75, R78, R90; log 25). -/
def State.requestBusy (s : State) (b : Byte) : Bool :=
  if byteCode b = 1 || byteCode b = 2 then s.windowTestBusy
  else if byteCode b = 3 || byteCode b = 4 || byteCode b = 8 then s.argWinBusy
  else if byteCode b = 5 then s.controlTakingOpen
  else false

/-- The A0h byte `b` is received whole at a write transfer that stands at A0h: it is held and acknowledged, and its
request is taken (R165), or, where a taking is open that it must not fall into, waits with MSCL held low (R160). -/
def State.request (s : State) (b : Byte) : State :=
  if s.writingAt && s.main.index = 0xA0 then
    let t := State.byteTaken { s with main.reqCode := b }
    if t.requestBusy b then { t with main.waiting := true } else t.takeRequest b
  else s

/-- A request that waits is taken once no taking that it must not fall into is open any more (R160, R165; log 25). -/
def State.takeWaiting (s : State) : State :=
  if s.main.waiting && !s.requestBusy s.main.reqCode then
    State.takeRequest { s with main.waiting := false } s.main.reqCode
  else s

end Sys2Proof.Machine
end

