-- ==== Sys2Proof/Machine/Access.lean ====
section
/-! DEFINITION. The meanings of the access commands (file 04). -/

namespace Sys2Proof.Machine

/-- How a command of this model ends. -/
abbrev Result := Host.Outcome State Fault Refusal

/-- ACCESS_BEGIN (R70): the port's lines take the given values, and the classifier takes the access if its port is free
and it takes accesses. While PCEN still presents an access the processor begins no other (log 20). -/
def execAccessBegin (addr : Addr) (lanes : Lanes) (pwen poen : Bool) (data : Word) (s : State) : Result :=
  .next
    (if s.port.presents then s
     else
      State.takePresented
        { s with port := { pcen := true, pwen := pwen, poen := poen, pa := addr, pbe := lanes, pd := data } })

/-- ACCESS_WITHDRAW (R70, R85): a COMPLETE access ends and PRDY returns inactive; an access short of its outcome is
carried on as withdrawn. -/
def execAccessWithdraw (s : State) : Result :=
  .next
    (let t := { s with port.pcen := false }
     match s.main.access with
     | none => t
     | some a =>
       if a.cond = .complete then { t with main.access := none, main.prdy := .inactive, main.pd := none }
       else t.setAccess (some { a with withdrawn := true }))

/-- PASSED_ACCESS_GRANT (R74). -/
def execPassedAccessGrant (s : State) : Result :=
  .next
    (match s.grantable .passed with
     | some a => s.grantProc a a.cycle
     | none => s)

/-- PASSED_CYCLE_COMPLETE (R74): a write lands; a read's word is driven on PD31–PD0. -/
def execPassedCycleComplete (s : State) : Result :=
  .next
    (match s.atMemory .passed with
     | some (a, c) =>
       let x := s.readLanes a.addr a.lanes
       let t := if a.wr || a.lanes = allLanes then s else s.useFree 4
       (State.complete ((t.land c).endGrant) a (some x)).settle
     | none => s)

/-- JOURNALED_WRITE_GRANT (R75, R76): the append request is presented. A grant reads the old word; a break drops the
write; a window no longer OPEN has the write classified again by R72's rows for its range, against its present state.
The last two end the grant at once. A window that is no longer enabled, which R66 says cannot arise, guards nothing and
the write passes (DESIGN CHOICE, log 33). -/
def execJournaledWriteGrant (s : State) : Result :=
  .next
    (match s.grantable .journaled with
     | none => s
     | some a =>
       match a.window with
       | none => s
       | some w =>
         match s.appendAnswer w with
         | .granted => s.grantProc a a.oldReadCycle
         | .breaks r =>
           (State.complete (State.breakTxn { s with main.lastGrantProc := true } w r) { a with cls := .dropped }
             none).settle
         | .notOpen => (State.proceed { s with main.lastGrantProc := true } a (s.rangeVerdict w a.wr)).settle)

/-- OLD_WORD_READ_COMPLETE (R33, R34, R43): the record is appended by its body and mark steps, and the new-data write
begins within the same grant. R43 does not order a JOURNAL_HIGH that is due against the write of the new data: it is
queued before that write's cycle begins (DESIGN CHOICE, log 39). The taking is over, and a request that waited for its end
is taken (log 25). -/
def execOldWordReadComplete (s : State) : Result :=
  .next
    (match s.atMemory .journaled with
     | none => s
     | some (a, c) =>
       match a.window with
       | none => s
       | some w =>
         if c.wr then s
         else
           let t := (s.appendBody w a.addr (Memory.readWord s.sram a.addr) a.lanes).appendMark w
           (((t.reloadIfIdle w).highWaterTest w).drive .processor a.cycle).takeWaiting)

/-- NEW_DATA_WRITE_COMPLETE (R75): the new data lands, the grant ends and PRDY is asserted. -/
def execNewDataWriteComplete (s : State) : Result :=
  .next
    (match s.atMemory .journaled with
     | some (a, c) => if c.wr then (State.complete ((s.land c).endGrant) a none).settle else s
     | none => s)

/-- CONTROL_WORD_WRITE_GRANT (R78): the state test; in ROLLING_BACK the grant ends with no cycle and the write is held,
otherwise its write cycle begins. -/
def execControlWordWriteGrant (s : State) : Result :=
  .next
    (match s.grantable .controlWord with
     | none => s
     | some a =>
       match a.window with
       | none => s
       | some w =>
         if s.txnState w = some .rollingBack then (State.hold { s with main.lastGrantProc := true } a w).settle
         else s.grantProc a a.cycle)

/-- HOLD_LIMIT_RUN_OUT (R83, R120): the microsecond event that makes a held access's elapsed count reach the hold limit;
the access is voided (log 9). -/
def execHoldLimitRunOut (s : State) : Result :=
  .next (if s.holdRunsOut && s.clockRuns then s.microsecond else s)

/-- MICROSECOND_EVENT (R81, R118, R120): the oscillator's next event; not with VDD lost (logs 9, 12, 30). -/
def execMicrosecondEvent (s : State) : Result := .next (if s.clockRuns then s.microsecond else s)

end Sys2Proof.Machine
end

