-- ==== Sys2Proof/Machine/Deadline.lean ====
section
/-! DEFINITION. The meanings of the deadline and stamp commands (file 07). -/

namespace Sys2Proof.Machine

/-- TICK (R118, R124): every RUNNING counter is lowered by one; one lowered to 0 is SPENT and its expiry request
outstanding (log 10). Time passes up to the microsecond event that is the tick, if it has not yet fallen (log 12). -/
def execTick (s : State) : Result := .next (if s.clockRuns then (s.untilTick 100).takeTick else s)

/-- DEADLINE_RUN_OUT (R124): the tick that lowers window `w`'s counter to 0; it becomes SPENT and sends its expiry
request. It is the same tick at every other counter (log 10). -/
def execDeadlineRunOut (w : Win) (s : State) : Result :=
  .next
    (match s.counter w with
     | .running r _ => if r ≤ 1 && s.clockRuns then (s.untilTick 100).takeTick else s
     | .absent => s
     | .frozen _ _ => s
     | .spent _ => s)

/-- EXPIRY_REQUEST (R18): the Transaction Table takes the expiry outstanding for window `w`, which is that of a SPENT
counter; not while a taking for `w` is open (R75, R78). -/
def execExpiryRequest (w : Win) (s : State) : Result :=
  .next
    (match s.counter w with
     | .spent q => if s.mainRuns && !s.takingOpen w then s.takeExpiry w q else s
     | .absent => s
     | .running _ _ => s
     | .frozen _ _ => s)

/-- MILLISECOND_EVENT (R118, R119): the stamp counter rises by one, wrapping from 65535 to 0; not with VDD lost
(log 30). Time passes up to the microsecond event that is the millisecond event, if it has not yet fallen (log 12). -/
def execMillisecondEvent (s : State) : Result :=
  .next (if s.clockRuns then (s.untilMillisecond 1000).takeMillisecond else s)

end Sys2Proof.Machine
end

