-- ==== Sys2Proof/Machine/Marker.lean ====
section
/-! DEFINITION. The meanings of the marker commands (files 01 and 05): each completes the control-word write in flight,
whose word decides which of the seven it is. The taking is then over, and a request that waited for its end is taken
(log 25). -/

namespace Sys2Proof.Machine

/-- The examination found a well-formed marker of kind `k` (R93). -/
def Examination.isMarker (k : MarkerKind) : Examination → Bool
  | .marker j _ => j = k
  | .ordinary => false
  | .malformed => false

/-- OPEN_MARKER (R7, R78, R93). -/
def execOpenMarker (s : State) : Result :=
  .next (s.finishControlWrite (Examination.isMarker .openM) fun t w q => t.takeMarker w .openM q).takeWaiting

/-- COMMIT_MARKER (R11, R78, R93). -/
def execCommitMarker (s : State) : Result :=
  .next (s.finishControlWrite (Examination.isMarker .commitM) fun t w q => t.takeMarker w .commitM q).takeWaiting

/-- ABORT_MARKER (R12, R78, R93). -/
def execAbortMarker (s : State) : Result :=
  .next (s.finishControlWrite (Examination.isMarker .abortM) fun t w q => t.takeMarker w .abortM q).takeWaiting

/-- SAVE_MARKER (R13, R78, R93). -/
def execSaveMarker (s : State) : Result :=
  .next (s.finishControlWrite (Examination.isMarker .saveM) fun t w q => t.takeMarker w .saveM q).takeWaiting

/-- RETURN_MARKER (R14, R78, R93). -/
def execReturnMarker (s : State) : Result :=
  .next (s.finishControlWrite (Examination.isMarker .returnM) fun t w q => t.takeMarker w .returnM q).takeWaiting

/-- MALFORMED_MARKER (R92): refused BAD_CODE by the Marker Decoder itself, in every state. -/
def execMalformedMarker (s : State) : Result :=
  .next (s.finishControlWrite (fun x => x = .malformed) fun t w q => t.refuse w .badCode q).takeWaiting

/-- CONTROL_WORD_ORDINARY_WRITE (R91, R94): the write lands and has no further effect. -/
def execControlWordOrdinaryWrite (s : State) : Result :=
  .next (s.finishControlWrite (fun x => x = .ordinary) fun t _ _ => t).takeWaiting

end Sys2Proof.Machine
end

