-- ==== Sys2Proof/Machine/Port.lean ====
section
/-! DEFINITION. The meanings of the management transfer commands (file 10). -/

namespace Sys2Proof.Machine

/-- The transfer that a start begins at a port that has sampled `target` (R158, R159). That the address stands in bits
7–1 and the direction in bit 0 of the byte, and that 1 is a read, is the form of the two-wire ports of this kind and not
said by R158 or R159 (PRESUMED, log 35). -/
def transferFor (target : BitVec 2) (x : Start) : Transfer :=
  if x.addressByte.extractLsb' 1 7 = 0x58#7 + target.setWidth 7 then
    (if x.addressByte.getLsbD 0 then .reading x.acknowledged else .writeIndex)
  else .ignored

/-- TRANSFER_START (R158, R159): a port that answers acknowledges its own address; otherwise the transfer is ignored.
The latches and the view's copy belong to one transfer (R46, R119, R162). No start falls while MSCL is held low. -/
def execTransferStart (start : Start) (s : State) : Result :=
  .next
    (let x := if s.portAnswers then transferFor s.main.target start else .ignored
     if s.main.waiting then s
     else
      { s with
        main.xfer := x, main.ack := decide (x ≠ .ignored), main.occLatch := none, main.stampLatch := none,
        main.eventLatch := none, main.sent := [] })

/-- TRANSFER_STOP (R159). No stop falls while MSCL is held low. -/
def execTransferStop (s : State) : Result := .next (if s.main.waiting then s else { s with main.xfer := .idle })

/-- INDEX_BYTE_WRITE (R159): the first data byte of a write transfer sets the index. -/
def execIndexByteWrite (b : Byte) (s : State) : Result :=
  .next
    (if s.portReady && s.main.xfer = .writeIndex then
       { s with main.index := b, main.xfer := .writing, main.ack := true }
     else s)

/-- DESCRIPTOR_BYTE_WRITE (R54, R55): written while the window is disabled, ignored with IGNORED set while enabled. -/
def execDescriptorByteWrite (b : Byte) (s : State) : Result :=
  .next
    (let i := s.main.index.toNat
     let w := descriptorWin i
     if s.writingAt && isDescriptorPos i then
       if s.enabled w then State.byteTaken { s with main.ignored := true }
       else
         State.byteTaken
           { s with ret.descriptors := winSet s.ret.descriptors w ((s.desc w).setByte (i % 16) b) }
     else s)

/-- HIGH_WATER_THRESHOLD_WRITE (R44, R177): clamped to 1024, and not compared with the occupancy as it stands. -/
def execHighWaterThresholdWrite (b : Byte) (s : State) : Result :=
  .next
    (let i := s.main.index.toNat
     if s.writingAt && (i = 0x83 || i = 0x84) then
       State.byteTaken { s with ret.highWater := thresholdWith s.ret.highWater (i - 0x83) b }
     else s)

/-- HOLD_LIMIT_WRITE (R81, R84): the byte is the limit at once; a held access meets it at the next microsecond. -/
def execHoldLimitWrite (b : Byte) (s : State) : Result :=
  .next
    (if s.writingAt && s.main.index = 0x85 then State.byteTaken { s with ret.holdLimit := b } else s)

/-- POSITION_WRITE (R161, R177): a byte written to a position whose writing has no row of its own. -/
def execPositionWrite (b : Byte) (s : State) : Result :=
  .next
    (let i := s.main.index.toNat
     if s.writingAt && !hasWriteRow i then (s.plainWrite i b).byteTaken else s)

/-- STATUS_READ (R163, R55): the flag is returned as it stood and then cleared. At a position whose reading has no row
of its own, the byte there is sent with no other effect (log 11). -/
def execStatusRead (s : State) : Result :=
  .next
    (let i := s.main.index.toNat
     if s.readingAt && !hasReadRow i then
       let t := s.send (s.positionByte i)
       if i = 0x80 then { t with main.ignored := false } else t
     else s)

/-- OCCUPANCY_READ (R46): the first byte latches the value, and the second byte of the same transfer belongs to it. -/
def execOccupancyRead (s : State) : Result :=
  .next
    (let i := s.main.index.toNat
     if s.readingAt && i = 0x81 then
       State.send { s with main.occLatch := some s.ret.journal.occ } (byteOf s.ret.journal.occ 2 0)
     else if s.readingAt && i = 0x82 then s.send (byteOf (s.main.occLatch.getD s.ret.journal.occ) 2 1)
     else s)

/-- STAMP_COUNTER_READ (R119): as OCCUPANCY_READ, for the stamp counter. -/
def execStampCounterRead (s : State) : Result :=
  .next
    (let i := s.main.index.toNat
     if s.readingAt && i = 0x8D then
       State.send { s with main.stampLatch := some s.main.stamp } (byteOf s.main.stamp.toNat 2 0)
     else if s.readingAt && i = 0x8E then s.send (byteOf (s.main.stampLatch.getD s.main.stamp).toNat 2 1)
     else s)

/-- OLDEST_EVENT_VIEW_READ (R162, R172): the first of B0h–B7h that a transfer reaches copies the oldest record, and
every byte of the view read in that transfer comes from the copy. -/
def execOldestEventViewRead (s : State) : Result :=
  .next
    (let i := s.main.index.toNat
     if s.readingAt && 0xB0 ≤ i && i < 0xB8 then
       let copy := s.main.eventLatch.getD s.main.queue.head?
       State.send { s with main.eventLatch := some copy } (eventByte copy (i - 0xB0))
     else s)

end Sys2Proof.Machine
end

