-- ==== Sys2Proof/Machine/EngineOps.lean ====
section
/-! DEFINITION. The Rollback Engine (file 06): selection, examination, the end of a walk by completion or damage, and the
end of RECOVERING that follows an idle engine (R155). -/

namespace Sys2Proof.Machine

/-- The engine's four conditions (R100). -/
inductive EngineCond where
  | idle
  | examining
  | restoring
  | stopped
deriving DecidableEq, Repr

/-- The engine's condition (R100). -/
def State.engine (s : State) : EngineCond :=
  if s.main.stopped then .stopped
  else match s.main.walk with
    | none => .idle
    | some k => if k.claim = .noClaim then .examining else .restoring

/-- The lowest-numbered window of the pending set (R102). -/
def State.firstPending (s : State) : Option Win := firstWin fun w => s.isPending w

/-- The engine's signal: IDLE with an empty pending set (R116). -/
def State.engineSignal (s : State) : Bool := s.engine = .idle && s.firstPending.isNone

/-- The walk replaced. -/
def State.setWalk (s : State) (k : Option Walk) : State := { s with main.walk := k }

/-- The classifier is told that window `w` has left ROLLING_BACK: a held access for `w` is released, its timer stopped,
and classified again (R82). -/
def State.releaseHeld (s : State) (w : Win) : State :=
  match s.main.access with
  | some a =>
    if a.cond = .held && a.window = some w then (State.route { s with main.holdTimer := none } a).settle else s
  | none => s

/-- The Deadline Unit's part of a rollback completion (R123): a RETURN resumes, with reload in IDLE mode. -/
def State.resumeCounter (s : State) (w : Win) (c : RollbackCause) : State :=
  match c with
  | .returned =>
    if (s.desc w).deadlineMode = .idle then s.setCounter w ((s.counter w).resumeReload (s.deadline w))
    else s.setCounter w (s.counter w).resume
  | .abort | .expiry | .forced | .recovery => s

/-- The tally's rolled-back number rises for a RECOVERY rollback (R154). -/
def State.tallyRollback (s : State) (c : RollbackCause) : State :=
  match c with
  | .recovery => { s with main.tally := s.main.tally.map fun x => { x with rolledBack := x.rolledBack + 1 } }
  | .abort | .expiry | .returned | .forced => s

/-- The entry after a completed rollback (R21). -/
def Entry.afterRollback (e : Entry) (c : RollbackCause) : Entry :=
  match c with
  | .returned => e.toReturned
  | .abort | .expiry | .forced | .recovery => e.toIdle

/-- The walk of window `w` is reported complete and the report taken (R21, R107): the entry, the end of the walk, the
deadline instruction, the completion receipt, ROLLBACK_DONE, and the notice to the classifier. R107 lets the release of
a held access and the engine's next selection come in either order: the release is always the first (DESIGN CHOICE,
log 19). A window with no entry or no cause is left as it is (log 31). -/
def State.completeRollback (s : State) (w : Win) : State :=
  match s.entry w with
  | none => s
  | some e =>
    match e.cause with
    | none => s
    | some c =>
      let n := e.restored.getD 0
      let t := (((s.setEntry w (some (e.afterRollback c))).setWalk none).resumeCounter w c).tallyRollback c
      let u := t.handOn w c.outcome c.reason e.seq n
      (u.post .rollbackDone (some w) (detailReceipt c.outcome c.reason e.seq n)).releaseHeld w

/-- Damage at ring position `p` is reported against the walked window `w` and taken (R22, R108). -/
def State.damage (s : State) (w : Win) (p : Nat) : State :=
  match s.entry w with
  | none => s
  | some e =>
    let t := ((s.setEntry w (some (e.toDamaged p))).setWalk none).discardCounter w
    let u := t.handOn w .damaged .checkFail e.seq (e.restored.getD 0)
    (u.post .recordDamaged (some w) (BitVec.ofNat 32 p)).releaseHeld w

/-- The walk has run out of records (R109): the slot it examined last stood at the tail when it was examined, or has
been reclaimed since, so that the tail has passed the cursor. -/
def Walk.outOfRecords (k : Walk) (j : Journal) : Bool :=
  match k.lastPos with
  | some p => k.lastAtTail || !(j.slot p).valid
  | none => false

/-- The engine examines until it places a claim, or reports completion or damage (R104, R105, R107 to R109). `fuel`
bounds the slots it may pass over. -/
def State.examine : Nat → State → State
  | 0, s => s
  | fuel + 1, s =>
    match s.main.walk with
    | none => s
    | some k =>
      if s.countOf k.window = k.target then s.completeRollback k.window
      else if k.outOfRecords s.ret.journal then s.damage k.window (k.lastPos.getD 0)
      else if s.ret.journal.occ = 0 then
        (s.damage k.window (Config.unexaminedPosition s.freeCount).toNat).useFree 1
      else
        let x := s.ret.journal.slot k.cursor
        let k' := { k with lastPos := some k.cursor, lastAtTail := k.cursor = s.ret.journal.tail }
        if x.live && x.window = k.window then
          if x.checks then s.setWalk (some { k' with claim := .waiting })
          else s.damage k.window k.cursor
        else State.examine fuel (s.setWalk (some { k' with cursor := prevPos k.cursor }))

/-- Enough fuel to pass over every slot of the span and meet its end. -/
def State.examineFuel (s : State) : Nat := s.ret.journal.occ + 2

/-- The selection of window `w` (R102): it leaves the pending set, and a walk is created just before the head. -/
def State.createWalk (s : State) (w : Win) : State :=
  let target :=
    match s.entry w with
    | some e => if e.cause = some .returned then e.savepoint.getD 0 else 0
    | none => 0
  (s.setPending w false).setWalk
    (some { window := w, target := target, cursor := prevPos s.ret.journal.head, claim := .noClaim, lastPos := none,
            lastAtTail := false })

/-- RECOVERING ends when the phase is WALKING and the engine signals (R155): RECOVERY_DONE with the tally, ACTIVE. -/
def State.endRecovering (s : State) : State :=
  if s.power = .recovering && s.main.phase = some .walking && s.engineSignal then
    let t := s.post .recoveryDone none (detailTally (s.main.tally.getD { rolledBack := 0, kept := 0 }))
    { t with power := .active, main.phase := none, main.tally := none }
  else s

/-- The walk whose restore write is being driven, with its cycle (R106). -/
def State.restoreInFlight (s : State) : Option (Walk × Cycle) :=
  match s.main.walk, s.main.cycle with
  | some k, some c => if s.main.owner = .rollbackEngine && k.claim = .granted then some (k, c) else none
  | _, _ => none

/-- The single void of the record at the walk's cursor, in one retained update with the count and restored (R38). -/
def State.singleVoid (s : State) (k : Walk) : State :=
  if (s.ret.journal.slot k.cursor).live then
    let t := s.setJournal (s.ret.journal.voidOne k.cursor)
    match t.entry k.window with
    | none => t
    | some e => t.setEntry k.window (some { e with count := e.count - 1, restored := e.restored.map (· + 1) })
  else s

end Sys2Proof.Machine
end

