-- ==== Sys2Proof/Machine/PowerOps.lean ====
section
/-! DEFINITION. The Power Controller (file 09): what FAILING leaves of the main well, cold initialisation, the main-well
reset and the phases of recovery. -/

namespace Sys2Proof.Machine

/-- The line or supply that the cause names goes to the level that calls for FAILING (R140, R141). -/
def State.assertCause (s : State) (c : FailCause) : State :=
  match c with
  | .pfailn => { s with pfail := true }
  | .rstn => { s with rst := true }
  | .vdd => { s with vdd := if s.vdd = .belowSwitchover then .belowSwitchover else .belowGood }

/-- Both lines are inactive and VDD is good, as leaving FAILING or RETAINING asks (R145, R147). -/
def State.linesGood (s : State) : State := { s with pfail := false, rst := false, vdd := .good }

/-- The memory cycle being driven as FAILING is entered (R89): it is completed; with a fall of VDD without warning its
word may hold any value (R144 NOTE; log 6). -/
def State.landCycle (s : State) (cause : FailCause) : State :=
  match s.main.cycle with
  | none => s
  | some c =>
    if c.wr then
      match cause with
      | .vdd => (s.setSram (Memory.write s.sram c.addr allLanes (Config.cutShortWord s.freeCount))).useFree 1
      | .pfailn | .rstn => s.land c
    else s

/-- The journaled write whose old word is being read, with its window (R75). -/
def State.appendInFlight (s : State) : Option (Access × Win) :=
  match s.atMemory .journaled with
  | some (a, c) =>
    match a.window with
    | some w => if c.wr then none else some (a, w)
    | none => none
  | none => none

/-- The main well as every block leaves it on its notice of FAILING (R142): access abandoned without PRDY, claims
withdrawn, engine STOPPED, counters NONE, slots EMPTY, transfer abandoned, phase and tally absent (log 26). -/
def MainWell.failing (m : MainWell) : MainWell :=
  { m with
    access := none, holdTimer := none, prdy := .inactive, pd := none, owner := .nobody, cycle := none,
    examining := false, walk := m.walk.map (fun k => { k with claim := .noClaim }), stopped := true,
    counters := Vector.replicate 8 .absent, slots := Vector.replicate 8 .empty, xfer := .idle,
    waiting := false, occLatch := none, stampLatch := none, eventLatch := none, phase := none, tally := none }

/-- A cold initialisation by the Power Controller (R149), which samples `madr`; an access still presented is then
taken (log 21). -/
def State.coldInit (s : State) (madr : BitVec 2) : State :=
  let t := { s.linesGood with signature := true, ret := Retained.cold, main := MainWell.cold madr, power := .active }
  (t.post .coldStart none 0).takePresented

/-- A cold initialisation cut short after a step (R149, R147): the signature stays invalid and the power state as it was.
Its step 3 samples `madr` (R158). -/
def State.cutColdInit (s : State) (madr : BitVec 2) (cause : FailCause) (step : ColdCut) : State :=
  let t := { s.linesGood.assertCause cause with signature := false }
  match step with
  | .invalid => t
  | .defaulted => { t with ret := Retained.cold }
  | .mainReset => { t with ret := Retained.cold, main := MainWell.cold madr }

/-- The main-well reset that begins RECOVERING (R151), the sampling of MADR1–MADR0 (R158), and the journal's discard
(R50, R152). The three are one step here: a failure that falls after the reset and before the discard (R35, R156) is no
point of the model (DESIGN CHOICE, log 41). -/
def State.beginRecovering (s : State) (madr : BitVec 2) : State :=
  let t :=
    { s.linesGood with
      power := .recovering
      main :=
        { MainWell.cold madr with phase := some (.placing 0), tally := some { rolledBack := 0, kept := 0 } } }
  t.setJournal t.ret.journal.discard

/-- The recovery requests to the enabled windows of a list, in its order (R152). -/
def State.placeAll (s : State) (ws : List Win) : State := ws.foldl State.placeWindow s

/-- Phase WALKING begins (R152, R153): an access still presented is taken, and RECOVERING ends at once if the engine's
signal already holds (R155; log 19). -/
def State.beginWalking (s : State) : State :=
  (State.takePresented { s with main.phase := some .walking }).endRecovering

/-- The recovery requests to the enabled windows from `m` to below `n` (R152). -/
def State.placeFrom (s : State) (m n : Fin 9) : State :=
  s.placeAll (allWins.filter fun w => m.val ≤ w.val && w.val < n.val)

/-- A recovery in phase PLACING goes on: to the requests below `upTo`, or to phase WALKING (R152; log 14). A cut of a
cold initialisation does not fit a recovery, and a part that only waits has left already. -/
def State.continueExit (s : State) (cut : ExitCut) : State :=
  match s.main.phase with
  | some (.placing m) =>
    match cut with
    | .placing n => { s.placeFrom m n with main.phase := some (.placing (max m n)) }
    | .whole => (s.placeFrom m 8).beginWalking
    | .coldCut _ _ => (s.placeFrom m 8).beginWalking
    | .waits _ => s
  | some .walking => s
  | none => s

/-- The part leaves FAILING or RETAINING: the signature is tested (R145, R147). A cut that does not fit the signature
means that the exit ran to its end. -/
def State.leaveWith (s : State) (madr : BitVec 2) (cut : ExitCut) : State :=
  if s.signature then (s.beginRecovering madr).continueExit cut
  else
    match cut with
    | .coldCut cause step => s.cutColdInit madr cause step
    | .whole | .placing _ | .waits _ => s.coldInit madr

/-- The part leaves FAILING or RETAINING, or has VDD good and goes on waiting there (R145, R147). -/
def State.exitWith (s : State) (madr : BitVec 2) (cut : ExitCut) : State :=
  match cut with
  | .waits cause => s.linesGood.assertCause cause
  | .whole | .placing _ | .coldCut _ _ => s.leaveWith madr cut

end Sys2Proof.Machine
end

