-- ==== Sys2Proof/Machine/Request.lean ====
section
/-! DEFINITION. The meanings of the requests (file 10, R165 to R170): each is the receiving of one A0h byte, and the
taking of its request with the argument that A1h holds, unless an open taking makes it wait (log 25). -/

namespace Sys2Proof.Machine

/-- ENABLE (R59 to R62). -/
def execEnable (ext : BitVec 4) (s : State) : Result := .next (s.request (requestByte ext 1))

/-- DISABLE (R63, R64). -/
def execDisable (ext : BitVec 4) (s : State) : Result := .next (s.request (requestByte ext 2))

/-- FORCE_ABORT (R19). -/
def execForceAbort (ext : BitVec 4) (s : State) : Result := .next (s.request (requestByte ext 3))

/-- RELEASE (R20). -/
def execRelease (ext : BitVec 4) (s : State) : Result := .next (s.request (requestByte ext 4))

/-- CLEAR_ALL (R167, R150). -/
def execClearAll (ext : BitVec 4) (s : State) : Result := .next (s.request (requestByte ext 5))

/-- POP_EVENT (R170). -/
def execPopEvent (ext : BitVec 4) (s : State) : Result := .next (s.request (requestByte ext 6))

/-- CLEAR_OVERRUN (R170). -/
def execClearOverrun (ext : BitVec 4) (s : State) : Result := .next (s.request (requestByte ext 7))

/-- LOAD_TXN (R168). -/
def execLoadTxn (ext : BitVec 4) (s : State) : Result := .next (s.request (requestByte ext 8))

/-- LOAD_RECORD (R169). -/
def execLoadRecord (ext : BitVec 4) (s : State) : Result := .next (s.request (requestByte ext 9))

/-- UNKNOWN_REQUEST_CODE (R165): answered BAD_ARG. A byte whose code names a request is not this command (log 3). -/
def execUnknownRequestCode (b : Byte) (s : State) : Result :=
  .next (if requestCodeKnown (byteCode b) then s else s.request b)

end Sys2Proof.Machine
end

