-- ==== Sys2Proof/Machine/Rollback.lean ====
section
/-! DEFINITION. The meanings of the rollback commands (file 06). -/

namespace Sys2Proof.Machine

/-- SELECTION (R102): the idle engine selects the lowest-numbered pending window, creates its walk and examines; the end
of a walk may end RECOVERING (R155). -/
def execSelection (s : State) : Result :=
  .next
    (if s.mainRuns && s.engine = .idle then
       match s.firstPending with
       | none => s
       | some w => (State.examine s.examineFuel (s.createWalk w)).endRecovering
     else s)

/-- RESTORE_WRITE_GRANT (R106): one write cycle of the record's old data to its word address, all four lanes. A
control-word write whose cycle was being driven has completed, and its marker is yet to be taken (R97; log 36). -/
def execRestoreWriteGrant (s : State) : Result :=
  .next
    (let u := s.performControl
     if u.grantsRestore then
       match u.main.walk with
       | none => s
       | some k =>
         let x := u.ret.journal.slot k.cursor
         let t := u.drive .rollbackEngine { addr := x.addr, lanes := allLanes, wr := true, data := x.old }
         { t with main.walk := some { k with claim := .granted }, main.lastGrantProc := false }
     else s)

/-- RESTORE_WRITE_COMPLETE (R106, R38): the old data lands, the record is single-voided, the cursor moves back and the
engine examines again. -/
def execRestoreWriteComplete (s : State) : Result :=
  .next
    (match s.restoreInFlight with
     | some (k, c) =>
       let t := ((s.land c).endGrant).singleVoid k
       let u := t.setWalk (some { k with claim := .noClaim, cursor := prevPos k.cursor })
       (State.examine u.examineFuel u).endRecovering
     | none => s)

end Sys2Proof.Machine
end

