-- ==== Sys2Proof/Machine/FailOps.lean ====
section
/-! DEFINITION. Entry to FAILING (file 09): how far the step under way had come, and what every block does on its
notice. -/

namespace Sys2Proof.Machine

/-- The state that a command's answer leaves. -/
def stateAfter (s : State) (r : Result) : State :=
  match r with
  | .next t => t
  | .fault _ => s
  | .refused _ => s

/-- The command that completes the control-word write in flight, by what the decoder finds in it (R90). -/
def State.completeControlWrite (s : State) : State :=
  match s.controlInFlight with
  | none => s
  | some a =>
    match a.window with
    | none => s
    | some w =>
      match s.examination a w with
      | .ordinary => stateAfter s (execControlWordOrdinaryWrite s)
      | .malformed => stateAfter s (execMalformedMarker s)
      | .marker .openM _ => stateAfter s (execOpenMarker s)
      | .marker .commitM _ => stateAfter s (execCommitMarker s)
      | .marker .abortM _ => stateAfter s (execAbortMarker s)
      | .marker .saveM _ => stateAfter s (execSaveMarker s)
      | .marker .returnM _ => stateAfter s (execReturnMarker s)

/-- A taking is made whole. No access is taken after it (R142), so the port presents none meanwhile. -/
def State.runTaking (s : State) (k : Taking) : State :=
  let q := { s with port.pcen := false }
  match k with
  | .accessBegin addr lanes pwen poen data => stateAfter s (execAccessBegin addr lanes pwen poen data s)
  | .journaledWriteGrant => { stateAfter q (execJournaledWriteGrant q) with port := s.port }
  | .controlWordWrite => { q.completeControlWrite with port := s.port }
  | .microsecondEvent => { stateAfter q (execMicrosecondEvent q) with port := s.port }
  | .expiryRequest w => { stateAfter q (execExpiryRequest w q) with port := s.port }
  | .selection => { stateAfter q (execSelection q) with port := s.port }
  | .restoreWriteComplete => { stateAfter q (execRestoreWriteComplete q) with port := s.port }
  | .forceAbort ext => { stateAfter q (execForceAbort ext q) with port := s.port }

/-- Of the records that a step queued after `s`, only the first `n` were queued before the queue stopped taking posts
(R143, R144); an overrun that a later post would have noted is not noted. -/
def State.postedOnly (s t : State) (n : Nat) : State :=
  { t with
    main.queue := t.main.queue.take (s.main.queue.length + n)
    main.overrun := if t.main.queue.length < s.main.queue.length + n then t.main.overrun else s.main.overrun }

/-- A CLEAR_ALL's A0h byte is being received or waits, and the request would be accepted (R167). -/
def State.clearAllDue (s : State) : Bool :=
  s.allIdle
    && ((s.writingAt && s.main.index = 0xA0 && !s.controlTakingOpen)
      || (s.main.waiting && byteCode s.main.reqCode = 5))

/-- The taking of the control-word write in flight is made whole, and a request that waits for its end waits still. -/
def State.markerTaken (s : State) : State :=
  { State.runTaking { s with main.waiting := false } .controlWordWrite with main.waiting := s.main.waiting }

/-- What a CLEAR_ALL cut short had done (R150). Its main-well resets come together and after its step 4, so none has been
made while the signature is invalid; R150 and R167 do not order them (DESIGN CHOICE, log 38). -/
def State.cutClearAll (s : State) (cut : ClearCut) : State :=
  let t := { s with main.waiting := false }
  match cut with
  | .invalid => { t with signature := false }
  | .defaulted => { t with signature := false, ret := Retained.cold }
  | .unposted => { t.clearEverything with main.queue := [] }

/-- What had been done of a step under way when FAILING was entered (R49, R113, R143, R150; log 13). No point has the write
of the new data begun and a JOURNAL_HIGH due not queued, which R43 leaves open (DESIGN CHOICE, log 39). -/
def State.applyCut (s : State) (cut : CutPoint) : State :=
  match cut with
  | .between => s
  | .appendBody =>
    match s.appendInFlight with
    | some (a, w) => s.appendBody w a.addr (Memory.readWord s.sram a.addr) a.lanes
    | none => s
  | .appendMark posted =>
    match s.appendInFlight with
    | some (a, w) =>
      let t := (s.appendBody w a.addr (Memory.readWord s.sram a.addr) a.lanes).appendMark w
      if posted then t.highWaterTest w else t
    | none => s
  | .singleVoid =>
    match s.restoreInFlight with
    | some (k, c) => ((s.land c).endGrant).singleVoid k
    | none => s
  | .taking k posted => s.postedOnly (s.runTaking k) posted
  | .clearAll cut => if s.clearAllDue then s.cutClearAll cut else s
  | .clearAllBehind cut =>
    if s.main.waiting && s.markerTaken.clearAllDue then s.markerTaken.cutClearAll cut else s

/-- Entry to FAILING, one taking (R142): the step under way ends as `cut` says, the access is abandoned, a request that
waited is taken whole (R144), the cycle on the memory port is completed, and every block takes its notice. -/
def State.enterFailing (s : State) (cause : FailCause) (cut : CutPoint) : State :=
  let t := s.applyCut cut
  let u := (State.takeWaiting { t with power := .failing, main.access := none }).landCycle cause
  { u.assertCause cause with power := .failing, main := u.main.failing }

end Sys2Proof.Machine
end

