-- ==== Sys2Proof/Machine/Power.lean ====
section
/-! DEFINITION. The meanings of the power commands (file 09). -/

namespace Sys2Proof.Machine

/-- FAILING_ENTRY (R141, R142): from ACTIVE or RECOVERING. In FAILING and RETAINING the cause changes only the level it
names. -/
def execFailingEntry (cause : FailCause) (cut : CutPoint) (s : State) : Result :=
  .next
    (match s.power with
     | .active => s.enterFailing cause cut
     | .recovering => s.enterFailing cause cut
     | .failing => s.assertCause cause
     | .retaining => s.assertCause cause)

/-- RETAINING_ENTRY (R145, R146): VDD passes the switchover level in FAILING; the main well is held in reset (log 8)
and the oscillator has stopped, to start afresh with VDD (R118; log 12). In RETAINING a VDD that had come back passes the
level once more (R147). MA21–MA0 and MBE3N–MBE0N keep the values of the
last cycle through RETAINING and every reset, which no rule says (DESIGN CHOICE, log 34). -/
def execRetainingEntry (s : State) : Result :=
  .next
    (if s.power = .failing then
       { s with
         power := .retaining, vdd := .belowSwitchover, main := MainWell.cold s.main.target
         osc := Oscillator.start }
     else if s.power = .retaining && s.clockRuns then { s with vdd := .belowSwitchover, osc := Oscillator.start }
     else s)

/-- FAILING_EXIT (R145), and the rest of phase PLACING of a recovery that has stopped there (R152; log 14). -/
def execFailingExit (madr : BitVec 2) (cut : ExitCut) (s : State) : Result :=
  .next
    (match s.power with
     | .failing => s.exitWith madr cut
     | .recovering => s.continueExit cut
     | .active => s
     | .retaining => s)

/-- RETAINING_EXIT (R147), likewise. -/
def execRetainingExit (madr : BitVec 2) (cut : ExitCut) (s : State) : Result :=
  .next
    (match s.power with
     | .retaining => s.exitWith madr cut
     | .recovering => s.continueExit cut
     | .active => s
     | .failing => s)

/-- VRET_FALL (R148, R146): the signature becomes invalid in any power state; in RETAINING the rest of the retained
contents may then hold any value (log 7). -/
def execVretFall (s : State) : Result :=
  .next
    (if s.power = .retaining then
       State.useFree { s with signature := false, ret := Config.lostRetained s.freeCount } 1
     else { s with signature := false })

end Sys2Proof.Machine
end

