-- ==== Sys2Proof/Machine/Receipt.lean ====
section
/-! DEFINITION. The meanings of the receipt commands (file 08). -/

namespace Sys2Proof.Machine

/-- RECEIPT_WRITE_GRANT (R132): the lowest-numbered PENDING slot becomes WRITING and its word and address are copied
into the write cycle. A control-word write whose cycle was being driven has completed, and its marker is yet to be taken
(R97; log 36). -/
def execReceiptWriteGrant (s : State) : Result :=
  .next
    (let u := s.performControl
     if u.grantsReceipt then
       match u.firstPendingSlot with
       | none => s
       | some w =>
         match u.slot w with
         | .pending x a =>
           let t := (u.setSlot w .writing).drive .receiptWriter { addr := a, lanes := allLanes, wr := true, data := x }
           { t with main.lastGrantProc := false }
         | .empty => s
         | .writing => s
     else s)

/-- A slot as the completion of a receipt write leaves it: still WRITING, it becomes EMPTY (R132). -/
def ReceiptSlot.written : ReceiptSlot → ReceiptSlot
  | .writing => .empty
  | .empty => .empty
  | .pending x a => .pending x a

/-- RECEIPT_WRITE_COMPLETE (R132). -/
def execReceiptWriteComplete (s : State) : Result :=
  .next
    (match s.main.cycle with
     | none => s
     | some c =>
       if s.main.owner = .receiptWriter then
         let t := (s.land c).endGrant
         { t with main.slots := t.main.slots.map ReceiptSlot.written }
       else s)

end Sys2Proof.Machine
end

