-- ==== Sys2Proof/Machine/Dispatch.lean ====
section
/-! DEFINITION. One arm per command, each a direct call of its meaning. -/

namespace Sys2Proof.Machine

/-- What a command does to everything but the queue of waiting commands. -/
def exec (i : Instr) (s : State) : Host.Outcome State Fault Refusal :=
  match i with
  | .accessBegin addr lanes pwen poen data => Sys2Proof.Machine.execAccessBegin addr lanes pwen poen data s
  | .accessWithdraw => Sys2Proof.Machine.execAccessWithdraw s
  | .passedAccessGrant => Sys2Proof.Machine.execPassedAccessGrant s
  | .passedCycleComplete => Sys2Proof.Machine.execPassedCycleComplete s
  | .journaledWriteGrant => Sys2Proof.Machine.execJournaledWriteGrant s
  | .oldWordReadComplete => Sys2Proof.Machine.execOldWordReadComplete s
  | .newDataWriteComplete => Sys2Proof.Machine.execNewDataWriteComplete s
  | .controlWordWriteGrant => Sys2Proof.Machine.execControlWordWriteGrant s
  | .openMarker => Sys2Proof.Machine.execOpenMarker s
  | .commitMarker => Sys2Proof.Machine.execCommitMarker s
  | .abortMarker => Sys2Proof.Machine.execAbortMarker s
  | .saveMarker => Sys2Proof.Machine.execSaveMarker s
  | .returnMarker => Sys2Proof.Machine.execReturnMarker s
  | .malformedMarker => Sys2Proof.Machine.execMalformedMarker s
  | .controlWordOrdinaryWrite => Sys2Proof.Machine.execControlWordOrdinaryWrite s
  | .receiptWriteGrant => Sys2Proof.Machine.execReceiptWriteGrant s
  | .receiptWriteComplete => Sys2Proof.Machine.execReceiptWriteComplete s
  | .selection => Sys2Proof.Machine.execSelection s
  | .restoreWriteGrant => Sys2Proof.Machine.execRestoreWriteGrant s
  | .restoreWriteComplete => Sys2Proof.Machine.execRestoreWriteComplete s
  | .microsecondEvent => Sys2Proof.Machine.execMicrosecondEvent s
  | .holdLimitRunOut => Sys2Proof.Machine.execHoldLimitRunOut s
  | .tick => Sys2Proof.Machine.execTick s
  | .deadlineRunOut w => Sys2Proof.Machine.execDeadlineRunOut w s
  | .expiryRequest w => Sys2Proof.Machine.execExpiryRequest w s
  | .millisecondEvent => Sys2Proof.Machine.execMillisecondEvent s
  | .transferStart start => Sys2Proof.Machine.execTransferStart start s
  | .indexByteWrite b => Sys2Proof.Machine.execIndexByteWrite b s
  | .descriptorByteWrite b => Sys2Proof.Machine.execDescriptorByteWrite b s
  | .highWaterThresholdWrite b => Sys2Proof.Machine.execHighWaterThresholdWrite b s
  | .holdLimitWrite b => Sys2Proof.Machine.execHoldLimitWrite b s
  | .positionWrite b => Sys2Proof.Machine.execPositionWrite b s
  | .statusRead => Sys2Proof.Machine.execStatusRead s
  | .occupancyRead => Sys2Proof.Machine.execOccupancyRead s
  | .stampCounterRead => Sys2Proof.Machine.execStampCounterRead s
  | .oldestEventViewRead => Sys2Proof.Machine.execOldestEventViewRead s
  | .enable ext => Sys2Proof.Machine.execEnable ext s
  | .disable ext => Sys2Proof.Machine.execDisable ext s
  | .forceAbort ext => Sys2Proof.Machine.execForceAbort ext s
  | .release ext => Sys2Proof.Machine.execRelease ext s
  | .clearAll ext => Sys2Proof.Machine.execClearAll ext s
  | .popEvent ext => Sys2Proof.Machine.execPopEvent ext s
  | .clearOverrun ext => Sys2Proof.Machine.execClearOverrun ext s
  | .loadTxn ext => Sys2Proof.Machine.execLoadTxn ext s
  | .loadRecord ext => Sys2Proof.Machine.execLoadRecord ext s
  | .unknownRequestCode b => Sys2Proof.Machine.execUnknownRequestCode b s
  | .failingEntry cause cut => Sys2Proof.Machine.execFailingEntry cause cut s
  | .retainingEntry => Sys2Proof.Machine.execRetainingEntry s
  | .failingExit madr cut => Sys2Proof.Machine.execFailingExit madr cut s
  | .retainingExit madr cut => Sys2Proof.Machine.execRetainingExit madr cut s
  | .vretFall => Sys2Proof.Machine.execVretFall s
  | .transferStop => Sys2Proof.Machine.execTransferStop s

end Sys2Proof.Machine
end

