-- ==== Sys2Proof/Machine/Flags.lean ====
section
/-! DEFINITION. The lines the part drives, computed from the state that decides them. -/

namespace Sys2Proof.Machine

/-- VDD supplies the main well. -/
def State.mainPowered (s : State) : Bool := s.power ≠ .retaining

/-- ALERTN is asserted (R172): a record is queued or the overrun flag is set; it is not driven while VDD is absent. -/
def State.alertn (s : State) : Bool := s.mainPowered && (!s.main.queue.isEmpty || s.main.overrun)

/-- MCEN is asserted: a cycle is driven (R74). -/
def State.mcen (s : State) : Bool := s.main.cycle.isSome

/-- MWEN is asserted: a write cycle is driven (R74). -/
def State.mwen (s : State) : Bool :=
  match s.main.cycle with
  | some c => c.wr
  | none => false

/-- MOEN is asserted: a read cycle is driven (R74). -/
def State.moen (s : State) : Bool :=
  match s.main.cycle with
  | some c => !c.wr
  | none => false

/-- MD31–MD0 as the part drives them: in write cycles only (R86). -/
def State.md (s : State) : Option Word :=
  match s.main.cycle with
  | some c => if c.wr then some c.data else none
  | none => none

/-- MSCL is held low: a request code byte has been received and its request waits to be taken (R160). -/
def State.msclHeld (s : State) : Bool := s.main.waiting

/-- The target address the port answers: 58h plus the sampled MADR1–MADR0 (R158). -/
def State.targetAddress (s : State) : BitVec 7 := 0x58#7 + s.main.target.setWidth 7

end Sys2Proof.Machine
end

