-- ==== Sys2Proof/Safety.lean ====
section
/-! DEFINITION. The laws that the statements speak of: the ring, the windows, the transaction entries, the engine, the
deadline counters, the access path, the oscillator, a waiting request and the power state. -/

namespace Sys2Proof.Machine

/-! ## The ring (R28, R30) -/

/-- A LIVE record of window `w`. -/
def Slot.liveOf (x : Slot) (w : Win) : Bool := x.live && x.window = w

/-- The ring law: cursors in range, the occupied span from the tail, every slot in the span and no other with a valid
mark, and the record at the tail not voided (R28, R30). -/
structure Journal.Lawful (j : Journal) : Prop where
  head : j.head < Config.journalSlots
  tail : j.tail < Config.journalSlots
  occ : j.occ ≤ Config.journalSlots
  ring : (j.tail + j.occ) % Config.journalSlots = j.head
  cells : cellsWf Slot.clear j.slots = true
  bound : ∀ p, Config.journalSlots ≤ p → j.slot p = Slot.clear
  span : ∀ p, (j.slot p).valid = j.inSpan p
  marks : ∀ p, (j.slot p).voided = true → (j.slot p).valid = true
  tailLive : j.occ ≠ 0 → (j.slot j.tail).voided = false

/-! ## Enabled windows (R57, R59, R60) -/

/-- Word `a` is the control word or the receipt word of a descriptor. -/
def Descriptor.names (d : Descriptor) (a : Addr) : Prop := d.controlWord = a ∨ d.receiptWord = a

/-- What ENABLE has tested of a window's own descriptor (R59 orders 3 to 5, R60). -/
structure Descriptor.Enableable (d : Descriptor) : Prop where
  range : d.base.toNat ≤ d.limit.toNat
  key : d.key ≠ 0x0000#16 ∧ d.key ≠ 0xFFFF#16
  quota : 1 ≤ d.quota.toNat ∧ d.quota.toNat ≤ 1024
  apart : d.controlWord ≠ d.receiptWord
  outside : ∀ a, d.names a → d.holds a = false

/-- The Window Table's law (R57): the control words and receipt words of the enabled windows are distinct from one
another and lie outside every enabled window's range. -/
structure Retained.WindowsLawful (r : Retained) : Prop where
  each : ∀ w, (winGet r.entries w).isSome = true → (winGet r.descriptors w).Enableable
  apart : ∀ v w, v ≠ w → (winGet r.entries v).isSome = true → (winGet r.entries w).isSome = true →
    ∀ a, (winGet r.descriptors v).names a → ¬ (winGet r.descriptors w).names a ∧ (winGet r.descriptors w).holds a = false

/-! ## Transaction entries (R2, R3) -/

/-- An entry's fields stand in the states that carry them (R2), and its count is `live` and within `quota` (R3). -/
structure Entry.Lawful (e : Entry) (most live : Nat) : Prop where
  count : e.count = live
  quota : e.count ≤ most
  idle : e.state = .idle → e.count = 0
  savepoint : ∀ p, e.savepoint = some p → p ≤ e.count
  savepointIn : e.savepoint.isSome = true →
    e.state = .opened ∨ e.state = .broken ∨ (e.state = .rollingBack ∧ e.cause = some .returned)
  returned : e.cause = some .returned → e.savepoint.isSome = true
  cause : e.cause.isSome = true ↔ e.state = .rollingBack
  restored : e.restored.isSome = true ↔ e.state = .rollingBack
  restoredBound : ∀ n, e.restored = some n → n + e.count ≤ most
  breakReason : e.breakReason.isSome = true ↔ e.state = .broken
  dropReported : e.dropReported = true → e.state = .broken
  damagePos : e.damagePos.isSome = true ↔ e.state = .damaged
  damagePosBound : ∀ p, e.damagePos = some p → p < Config.journalSlots

/-- The retained state's law (R2, R3, R28, R57): the ring, the Window Table, and each window's count equal to the number
of its LIVE records. -/
structure Retained.Lawful (r : Retained) : Prop where
  journal : r.journal.Lawful
  windows : r.WindowsLawful
  entries : ∀ w e, winGet r.entries w = some e →
    e.Lawful (winGet r.descriptors w).quota.toNat (r.journal.liveCount w)
  disabled : ∀ w, winGet r.entries w = none → r.journal.liveCount w = 0
  highWater : r.highWater ≤ 1024

/-! ## The Rollback Engine (R100 to R106) -/

/-- The target of a walk of a window with entry `e` (R102). -/
def Entry.target (e : Entry) : Nat := if e.cause = some .returned then e.savepoint.getD 0 else 0

/-- The recovery request to window `w` has been taken, or none is to come (R152). -/
def State.placed (s : State) (w : Win) : Bool :=
  match s.main.phase with
  | some (.placing n) => w.val < n.val
  | some .walking => true
  | none => true

/-- The engine's law: it walks at most one window, the pending set and the walk hold exactly the windows that are
ROLLING_BACK and placed, a pending window of another cause than RECOVERY has records above its target, and at rest a
walk stands at a verified LIVE record of its window with the count above its target. -/
structure State.EngineLawful (s : State) : Prop where
  running : s.main.stopped = false
  pending : ∀ w, s.isPending w = true → s.txnState w = some .rollingBack
  above : ∀ w e, s.isPending w = true → s.entry w = some e → e.target < e.count ∨ e.cause = some .recovery
  walked : ∀ k, s.main.walk = some k → s.isPending k.window = false
  all : ∀ w, s.placed w = true → s.txnState w = some .rollingBack →
    s.isPending w = true ∨ ∃ k, s.main.walk = some k ∧ k.window = w
  placing : ∀ w, s.placed w = false → s.isPending w = false ∧ ∀ k, s.main.walk = some k → k.window ≠ w
  record : ∀ k, s.main.walk = some k →
    k.claim ≠ .noClaim ∧ (s.ret.journal.slot k.cursor).live = true ∧ (s.ret.journal.slot k.cursor).window = k.window
      ∧ (s.ret.journal.slot k.cursor).checks = true ∧ k.lastPos = some k.cursor
      ∧ (k.lastAtTail = true → k.cursor = s.ret.journal.tail)
      ∧ ∃ e, s.entry k.window = some e ∧ e.state = .rollingBack ∧ k.target = e.target ∧ k.target < e.count

/-! ## Deadline counters (R121 to R123) -/

/-- A window's counter is lawful: it exists only while a transaction that the deadline governs runs, with that
transaction's seq; RUNNING and SPENT in OPEN and BROKEN, FROZEN in ROLLING_BACK with cause RETURN (R121, R123). -/
def State.CounterLawful (s : State) (w : Win) : Prop :=
  match s.counter w with
  | .absent => True
  | .running r q =>
    1 ≤ r ∧ r ≤ 65535 ∧ s.deadline w ≠ 0
      ∧ ∃ e, s.entry w = some e ∧ (e.state = .opened ∨ e.state = .broken) ∧ e.seq = q
  | .frozen r q =>
    r ≤ 65535 ∧ s.deadline w ≠ 0
      ∧ ∃ e, s.entry w = some e ∧ e.state = .rollingBack ∧ e.cause = some .returned ∧ e.seq = q
  | .spent q =>
    s.deadline w ≠ 0 ∧ ∃ e, s.entry w = some e ∧ (e.state = .opened ∨ e.state = .broken) ∧ e.seq = q

/-! ## The access path (R71, R75, R78, R80, R85, R86) -/

/-- The journaled write whose old word is being read. -/
def State.reading (s : State) (a : Access) (w : Win) : Prop :=
  ∃ c, s.main.access = some a ∧ s.main.cycle = some c ∧ a.cond = .atMemory ∧ a.cls = .journaled ∧ a.window = some w
    ∧ c.wr = false

/-- The journaled write whose new data is being written. -/
def State.writing (s : State) (a : Access) (w : Win) : Prop :=
  ∃ c, s.main.access = some a ∧ s.main.cycle = some c ∧ a.cond = .atMemory ∧ a.cls = .journaled ∧ a.window = some w
    ∧ c.wr = true

/-- The record just before the head holds what the word `a` names held, for window `w` (R75). -/
def State.covers (s : State) (a : Access) (w : Win) : Prop :=
  let x := s.ret.journal.slot (prevPos s.ret.journal.head)
  x.live = true ∧ x.window = w ∧ x.addr = a.addr ∧ x.lanes = a.lanes ∧ x.checks = true
    ∧ x.old = Memory.readWord s.sram a.addr

/-- The access path's law: the port's owner and its cycle, the write under examination, the held access and its timer,
PRDY, and the entry and the journal that an append in flight relies on. -/
structure State.AccessLawful (s : State) : Prop where
  idlePort : s.main.owner = .nobody ↔ s.main.cycle = none
  processor : s.main.owner = .processor ↔ s.main.examining = false ∧ ∃ a, s.main.access = some a ∧ a.cond = .atMemory
  examined : s.main.examining = true → ∃ a, s.main.access = some a ∧ a.cond = .atMemory ∧ a.cls = .controlWord
  engine : s.main.owner = .rollbackEngine ↔ ∃ k, s.main.walk = some k ∧ k.claim = .granted
  restore : s.main.owner = .rollbackEngine → ∀ k c, s.main.walk = some k → s.main.cycle = some c →
    c = { addr := (s.ret.journal.slot k.cursor).addr, lanes := allLanes, wr := true,
          data := (s.ret.journal.slot k.cursor).old }
  receipt : s.main.owner = .receiptWriter → ∀ c, s.main.cycle = some c → c.wr = true ∧ c.lanes = allLanes
  cycle : ∀ a c, s.main.owner = .processor → s.main.access = some a → s.main.cycle = some c →
    c = a.cycle ∨ (a.cls = .journaled ∧ c = a.oldReadCycle)
  claims : ∀ a, s.main.access = some a → a.cond = .waiting ∨ a.cond = .atMemory →
    a.cls = .passed ∨ ((a.cls = .journaled ∨ a.cls = .controlWord) ∧ a.wr = true ∧ a.window.isSome = true)
  held : ∀ a, s.main.access = some a → a.cond = .held →
    a.cls = .held ∧ s.main.holdTimer.isSome = true ∧ ∃ w, a.window = some w ∧ s.txnState w = some .rollingBack
  timer : s.main.holdTimer.isSome = true → ∃ a, s.main.access = some a ∧ a.cond = .held
  ready : s.main.prdy = .asserted ↔ ∃ a, s.main.access = some a ∧ a.cond = .complete
  ended : ∀ a, s.main.access = some a → a.cond = .complete → a.withdrawn = false
  data : s.main.pd.isSome = true → ∃ a, s.main.access = some a ∧ a.cond = .complete ∧ a.wr = false
  append : ∀ a w, s.reading a w → s.ret.journal.occ < Config.journalSlots
    ∧ ∃ e, s.entry w = some e ∧ e.state = .opened ∧ e.count < (s.desc w).quota.toNat
  covered : ∀ a w, s.writing a w → s.covers a w ∧ s.txnState w ≠ some .damaged
  marker : ∀ a w, s.main.access = some a → a.cond = .atMemory → a.cls = .controlWord → a.window = some w →
    s.txnState w ≠ some .rollingBack

/-! ## The power state (R139) -/

/-- The power law: the phase and the tally stand in RECOVERING only; phase WALKING at rest has work left for the engine,
and in phase PLACING no access is in flight and no transfer is answered; in FAILING and RETAINING nothing runs and no
cycle is driven. -/
structure State.PowerLawful (s : State) : Prop where
  recovering : s.power = .recovering → s.main.phase.isSome = true ∧ s.main.tally.isSome = true
  walking : s.main.phase = some .walking → s.engineSignal = false
  placing : ∀ n, s.main.phase = some (.placing n) → s.main.access = none ∧ (s.main.xfer = .idle ∨ s.main.xfer = .ignored)
  otherwise : s.power ≠ .recovering → s.main.phase = none ∧ s.main.tally = none
  good : s.mainRuns = true → s.vdd = .good ∧ s.pfail = false ∧ s.rst = false
  stopped : s.mainRuns = false →
    s.main.access = none ∧ s.main.holdTimer = none ∧ s.main.prdy = .inactive ∧ s.main.pd = none
      ∧ s.main.owner = .nobody ∧ s.main.cycle = none ∧ s.main.examining = false ∧ (∀ w, s.counter w = .absent)
      ∧ ∀ w, s.slot w = .empty

/-! ## The oscillator and a waiting request (R118, R160, R165) -/

/-- The oscillator's law: the trains stand in the ratio of R118, and what is due fell at the last microsecond event. -/
structure Oscillator.Lawful (o : Oscillator) : Prop where
  micros : o.micros < 1000
  tick : o.tickDue = true → o.micros % 100 = 0
  millisecond : o.milliDue = true → o.micros = 0

/-- A request that waits has its byte taken, in a write transfer that stands behind it, and meets an open taking. -/
structure State.WaitingLawful (s : State) : Prop where
  runs : s.main.waiting = true → s.portAnswers = true
  transfer : s.main.waiting = true → s.main.xfer = .writing ∧ s.main.index = 0xA1#8
  busy : s.main.waiting = true → s.requestBusy s.main.reqCode = true

/-- The whole law. The retained state's part holds wherever the signature vouches for it or the part is not RETAINING
(R146: in RETAINING a fall of VRET leaves any contents). The blocks' parts hold while the main well runs. -/
structure State.Lawful (s : State) : Prop where
  memory : Memory.wf s.sram = true
  queue : s.main.queue.length ≤ Config.queueCapacity
  power : s.PowerLawful
  retained : s.signature = true ∨ s.power ≠ .retaining → s.ret.Lawful
  engine : s.mainRuns = true → s.EngineLawful
  counters : s.mainRuns = true → ∀ w, s.CounterLawful w
  access : s.mainRuns = true → s.AccessLawful
  oscillator : s.osc.Lawful
  waiting : s.WaitingLawful

/-! ## What a command leaves as it was -/

/-- The stamp counter and the oscillator are as they were. -/
def SameClock (s t : State) : Prop := t.main.stamp = s.main.stamp ∧ t.osc = s.osc

/-- The deadline counters, the stamp counter and the oscillator are as they were. -/
def SameTime (s t : State) : Prop := t.main.counters = s.main.counters ∧ SameClock s t

/-- The power state, the signature, the supplies and lines, the phase and the tally are as they were. -/
def SamePower (s t : State) : Prop :=
  t.power = s.power ∧ t.signature = s.signature ∧ t.vdd = s.vdd ∧ t.pfail = s.pfail ∧ t.rst = s.rst
    ∧ t.main.phase = s.main.phase ∧ t.main.tally = s.main.tally

/-- The descriptors and the global configuration are as they were. -/
def SameConfig (s t : State) : Prop :=
  t.ret.descriptors = s.ret.descriptors ∧ t.ret.highWater = s.ret.highWater ∧ t.ret.holdLimit = s.ret.holdLimit
    ∧ t.ret.fillWord = s.ret.fillWord ∧ t.ret.kindMask = s.ret.kindMask

/-- Every byte of SRAM reads as it did. -/
def SameMemory (s t : State) : Prop :=
  ∀ (b : Addr) (n : Nat), n < 4 → Memory.readLane t.sram b n = Memory.readLane s.sram b n

/-- Every byte of SRAM outside the lanes `l` of the word at `a` reads as it did. -/
def SameMemoryBut (s t : State) (a : Addr) (l : Lanes) : Prop :=
  ∀ (b : Addr) (n : Nat), n < 4 → (b ≠ a ∨ l.getLsbD n = false) →
    Memory.readLane t.sram b n = Memory.readLane s.sram b n

/-- The processor port and the access in flight are as they were. -/
def SameAccess (s t : State) : Prop :=
  t.port = s.port ∧ t.main.access = s.main.access ∧ t.main.holdTimer = s.main.holdTimer ∧ t.main.prdy = s.main.prdy
    ∧ t.main.pd = s.main.pd

/-- The memory port and the write under examination are as they were. -/
def SameSequencer (s t : State) : Prop :=
  t.main.owner = s.main.owner ∧ t.main.cycle = s.main.cycle ∧ t.main.lastGrantProc = s.main.lastGrantProc ∧ t.ma = s.ma
    ∧ t.mbe = s.mbe ∧ t.main.examining = s.main.examining

/-- The Rollback Engine is as it was. -/
def SameEngine (s t : State) : Prop :=
  t.main.pendSet = s.main.pendSet ∧ t.main.walk = s.main.walk ∧ t.main.stopped = s.main.stopped

/-- The management port is as it was. -/
def SameManagement (s t : State) : Prop :=
  t.main.target = s.main.target ∧ t.main.xfer = s.main.xfer ∧ t.main.index = s.main.index
    ∧ t.main.reqCode = s.main.reqCode ∧ t.main.arg = s.main.arg ∧ t.main.response = s.main.response
    ∧ t.main.txnView = s.main.txnView ∧ t.main.recView = s.main.recView ∧ t.main.occLatch = s.main.occLatch
    ∧ t.main.stampLatch = s.main.stampLatch ∧ t.main.eventLatch = s.main.eventLatch ∧ t.main.ack = s.main.ack
    ∧ t.main.sent = s.main.sent ∧ t.main.ignored = s.main.ignored ∧ t.main.waiting = s.main.waiting

/-- The event queue and its overrun flag are as they were. -/
def SameEvents (s t : State) : Prop := t.main.queue = s.main.queue ∧ t.main.overrun = s.main.overrun

/-- Every window but `w` has the entry, the deadline counter, the receipt slot and the place in the pending set it had. -/
def OthersSame (s t : State) (w : Win) : Prop :=
  ∀ v, v ≠ w →
    t.entry v = s.entry v ∧ t.counter v = s.counter v ∧ t.slot v = s.slot v ∧ t.isPending v = s.isPending v

/-! ## Posts and hand-ons -/

/-- The posts of a list, made in its order (R170). -/
def State.postAll (s : State) (l : List (EventKind × Option Win × Word)) : State :=
  l.foldl (fun t e => t.post e.1 e.2.1 e.2.2) s

/-- The queue and the overrun flag after the posts of a list. -/
def EventsAre (s t : State) (l : List (EventKind × Option Win × Word)) : Prop :=
  t.main.queue = (s.postAll l).main.queue ∧ t.main.overrun = (s.postAll l).main.overrun

/-- A receipt waits in window `w`'s slot (R130). -/
def State.receiptWaits (s : State) (w : Win) : Bool :=
  match s.slot w with
  | .pending _ _ => true
  | .empty => false
  | .writing => false

/-- The event that superseding the waiting receipt posts, if one waits (R130). -/
def State.superseding (s : State) (w : Win) : List (EventKind × Option Win × Word) :=
  match s.slot w with
  | .pending old _ => [(.receiptSuperseded, some w, detailSuperseded old)]
  | .empty => []
  | .writing => []

/-- Window `w`'s slot in `t` holds the receipt that a hand-on made in `s` composes (R129 to R131). -/
def HandedOn (s t : State) (w : Win) (o : ReceiptOutcome) (r : ReceiptReason) (q : Byte) (n : Nat) : Prop :=
  t.slot w = .pending (receiptWord o r q (s.receiptWaits w) w n) (s.desc w).receiptWord

/-! ## The end of an access -/

/-- No new access stands at the port to be taken in the place of a withdrawn one (R70). -/
def State.noneFollows (s : State) (a : Access) : Prop := a.withdrawn = false ∨ s.port.presents = false

/-- Access `a` has its outcome (R70, R85): COMPLETE with PRDY asserted and `pd` driven, or, withdrawn, ended with PRDY
asserted and returned inactive at once (logs 17, 37). -/
def State.ended (t : State) (a : Access) (pd : Option Word) : Prop :=
  t.main.holdTimer = none
    ∧ if a.withdrawn = true then t.main.access = none ∧ t.main.prdy = .pulsed ∧ t.main.pd = none
      else t.main.access = some { a with cond := .complete } ∧ t.main.prdy = .asserted ∧ t.main.pd = pd

/-- A control-word write for window `w` is in flight (R78): its write cycle is being driven, or it has completed, with
the port freed, and the Marker Decoder has still to finish with it (R97). -/
structure State.ControlWrite (s : State) (a : Access) (w : Win) : Prop where
  runs : s.mainRuns = true
  access : s.main.access = some a
  phase : s.main.examining = false ∧ s.main.owner = .processor ∧ s.main.cycle = some a.cycle
    ∨ s.main.examining = true ∧ s.main.owner ≠ .processor
  cond : a.cond = .atMemory
  cls : a.cls = .controlWord
  window : a.window = some w
  wr : a.wr = true

/-- What every control-word write does as it completes, whatever it carries (R78, R96, R97): if it has not yet, the word
lands with the lanes enabled and the port is free; PRDY is given, and nothing of another window, of the configuration, of the management
port or of the power state moves. -/
structure ControlLanded (s t : State) (a : Access) (w : Win) : Prop where
  landed : s.main.examining = false → ∀ n, n < 4 → a.lanes.getLsbD n = true →
    Memory.readLane t.sram a.addr n = a.data.extractLsb' (8 * n) 8
  elsewhere : SameMemoryBut s t a.addr a.lanes
  free : s.main.examining = false → t.main.owner = .nobody ∧ t.main.cycle = none
  before : s.main.examining = true → t.sram = s.sram ∧ t.main.owner = s.main.owner ∧ t.main.cycle = s.main.cycle
  lines : t.main.lastGrantProc = s.main.lastGrantProc ∧ t.ma = s.ma ∧ t.mbe = s.mbe
  examined : t.main.examining = false
  ended : t.ended a none
  port : t.port = s.port
  others : OthersSame s t w
  walk : t.main.walk = s.main.walk ∧ t.main.stopped = s.main.stopped
  config : SameConfig s t
  management : SameManagement s t
  power : SamePower s t
  clock : SameClock s t

/-- The marker word of R176 with a command code and a sequence number. -/
def markerWord (key : BitVec 16) (command : BitVec 4) (q : Byte) : Word := key ++ command ++ 0#4 ++ q

/-- The command code of a marker kind (R176). -/
def MarkerKind.code : MarkerKind → BitVec 4
  | .openM => 1
  | .commitM => 2
  | .abortM => 3
  | .saveM => 4
  | .returnM => 5

/-- The command that completes the write of a well-formed marker of a kind. -/
def MarkerKind.command : MarkerKind → Instr
  | .openM => .openMarker
  | .commitM => .commitMarker
  | .abortM => .abortMarker
  | .saveM => .saveMarker
  | .returnM => .returnMarker

/-- A full-word write of a well-formed marker for window `w` is in flight (R90). -/
structure State.MarkerInFlight (s : State) (a : Access) (w : Win) (e : Entry) (k : MarkerKind) (q : Byte) : Prop where
  write : s.ControlWrite a w
  lanes : a.lanes = allLanes
  word : a.data = markerWord (s.desc w).key k.code q
  entry : s.entry w = some e
  memory : Memory.wf s.sram = true
  follows : s.noneFollows a

/-! ## Requests (R165) -/

/-- A write transfer stands at A0h at a port that answers, with no request waiting. -/
def State.AtRequest (s : State) : Prop :=
  s.portAnswers = true ∧ s.main.xfer = .writing ∧ s.main.index = 0xA0#8 ∧ s.main.waiting = false

/-- What every request does (R165): the A0h byte is held and acknowledged, the index stands at A1h, and the response
byte is `r`. Nothing of the access path, the memory port, the SRAM, the engine's walk, the stamp counter or the power
state moves. -/
structure RequestTaken (s t : State) (b r : Byte) : Prop where
  code : t.main.reqCode = b
  response : t.main.response = r
  index : t.main.index = 0xA1#8
  port : t.main.ack = true ∧ t.main.waiting = false ∧ t.main.arg = s.main.arg ∧ t.main.target = s.main.target
    ∧ t.main.xfer = s.main.xfer ∧ t.main.occLatch = s.main.occLatch ∧ t.main.stampLatch = s.main.stampLatch
    ∧ t.main.eventLatch = s.main.eventLatch ∧ t.main.sent = s.main.sent ∧ t.main.ignored = s.main.ignored
  access : SameAccess s t
  sequencer : SameSequencer s t
  memory : t.sram = s.sram
  walk : t.main.walk = s.main.walk ∧ t.main.stopped = s.main.stopped
  power : SamePower s t
  config : SameConfig s t
  clock : SameClock s t

/-! ## How an access is dealt with (R72) -/

/-- Entries, receipt slots and events are as they were. -/
def Quiet (s t : State) : Prop := t.ret.entries = s.ret.entries ∧ t.main.slots = s.main.slots ∧ SameEvents s t

/-- Nothing moves but the processor port, the access in flight, the entries, the receipt slots and the events. -/
structure AccessOnly (s t : State) : Prop where
  sequencer : SameSequencer s t
  memory : t.sram = s.sram
  journal : t.ret.journal = s.ret.journal
  config : SameConfig s t
  engine : SameEngine s t
  management : SameManagement s t
  power : SamePower s t
  time : SameTime s t

/-- The access waits with a claim on the memory port, classified `c` for `w` (R71); PRDY and PD are as they were, and
nothing is reported. -/
def Waits (s t : State) (a : Access) (c : AccessClass) (w : Option Win) : Prop :=
  t.main.access = some { a with cls := c, window := w, cond := .waiting } ∧ t.main.holdTimer = none
    ∧ t.main.prdy = s.main.prdy ∧ t.main.pd = s.main.pd ∧ Quiet s t

/-- The write is dropped for window `w` (R77). -/
def State.droppedFor (t : State) (a : Access) (w : Win) : Prop :=
  t.ended { a with cls := .dropped, window := some w } none

/-- The voided word hands on a BUSY receipt (R83): a full-word write to the control word that carries the key. -/
def State.busyDue (s : State) (a : Access) (w : Win) : Prop :=
  a.wr = true ∧ a.lanes = allLanes ∧ a.addr = (s.desc w).controlWord ∧ a.data.extractLsb' 16 16 = (s.desc w).key

/-- The access is voided for window `w` (R83): the BUSY receipt where one is due, the VOID_ACCESS event, PRDY, and the
fill word for a read; no entry moves. -/
def Voided (s t : State) (a : Access) (w : Win) : Prop :=
  t.ended a (if a.wr then none else some s.ret.fillWord) ∧ t.ret.entries = s.ret.entries
    ∧ (s.busyDue a w →
        HandedOn s t w .refused .busy (a.data.extractLsb' 0 8) (s.countOf w)
          ∧ (∀ v, v ≠ w → t.slot v = s.slot v)
          ∧ EventsAre s t (s.superseding w ++ [(.voidAccess, some w, detailVoid a.wr a.addr)]))
    ∧ (¬ s.busyDue a w →
        t.main.slots = s.main.slots ∧ EventsAre s t [(.voidAccess, some w, detailVoid a.wr a.addr)])

/-- The access is held for window `w` with the timer at 0, or voided at once with a hold limit of 0 (R80). -/
def HeldOrVoided (s t : State) (a : Access) (w : Win) : Prop :=
  (s.ret.holdLimit ≠ 0 →
      t.main.access = some { a with cls := .held, window := some w, cond := .held } ∧ t.main.holdTimer = some 0
        ∧ t.main.prdy = s.main.prdy ∧ t.main.pd = s.main.pd ∧ Quiet s t)
    ∧ (s.ret.holdLimit = 0 → Voided s t { a with cls := .held, window := some w, cond := .held } w)

/-- The access proceeds as the rows of R72's table for the effective range of window `w` say, by the window's state and
mode in `s`. -/
def RangeProceeds (s t : State) (a : Access) (w : Win) : Prop :=
  (s.txnState w = some .rollingBack → HeldOrVoided s t a w)
    ∧ (s.txnState w ≠ none → s.txnState w ≠ some .rollingBack → a.wr = false → Waits s t a .passed (some w))
    ∧ (s.txnState w = some .idle → a.wr = true → (s.desc w).mode = .loose → Waits s t a .passed (some w))
    ∧ (s.txnState w = some .idle → a.wr = true → (s.desc w).mode = .strict →
        t.droppedFor a w ∧ t.ret.entries = s.ret.entries ∧ t.main.slots = s.main.slots
          ∧ EventsAre s t [(.strayWrite, some w, a.addr.setWidth 32)])
    ∧ (s.txnState w = some .opened → a.wr = true → Waits s t a .journaled (some w))
    ∧ (∀ e, s.entry w = some e → e.state = .broken → a.wr = true →
        t.droppedFor a w ∧ t.main.slots = s.main.slots ∧ (∀ v, v ≠ w → t.entry v = s.entry v)
          ∧ t.entry w = some { e with dropReported := true }
          ∧ EventsAre s t (if e.dropReported then [] else [(.droppedWrite, some w, a.addr.setWidth 32)]))
    ∧ (s.txnState w = some .damaged → a.wr = true →
        t.droppedFor a w ∧ t.ret.entries = s.ret.entries ∧ t.main.slots = s.main.slots
          ∧ EventsAre s t [(.damagedAccess, some w, a.addr.setWidth 32)])

/-- The access proceeds under the classification of R72 and R73, made against `s`. -/
def Classified (s t : State) (a : Access) : Prop :=
  if a.wr = true ∧ a.lanes = 0 then t.ended { a with cls := .noLanes, window := none } none ∧ Quiet s t
  else match s.answer a.addr with
    | .unguarded => Waits s t a .passed none
    | .receipt _ => Waits s t a .passed none
    | .control w =>
      (s.txnState w = some .rollingBack → HeldOrVoided s t a w)
        ∧ (s.txnState w ≠ some .rollingBack → (a.wr = true → Waits s t a .controlWord (some w))
            ∧ (a.wr = false → Waits s t a .passed (some w)))
    | .range w => RangeProceeds s t a w

/-- The classifier's port is free and presents nothing (R70, R139). -/
def State.FreePort (s : State) : Prop := s.takesAccesses = true ∧ s.main.access = none ∧ s.port.presents = false

/-- The processor's claim for access `a` of class `c` is the one R87 grants. -/
structure State.ProcGrant (s : State) (a : Access) (c : AccessClass) : Prop where
  runs : s.mainRuns = true
  free : s.main.owner = .nobody
  access : s.main.access = some a
  waiting : a.cond = .waiting
  cls : a.cls = c
  turn : s.main.lastGrantProc = false ∨ (s.receiptClaim = false ∧ s.restoreClaim = false)

/-- The access is AT_MEMORY with cycle `c`, and nothing else moves (R71, R74). -/
structure Granted (s t : State) (a : Access) (c : Cycle) : Prop where
  access : t.main.access = some { a with cond := .atMemory }
  cycle : t.main.owner = .processor ∧ t.main.cycle = some c ∧ t.ma = c.addr ∧ t.mbe = c.lanes
    ∧ t.main.lastGrantProc = true ∧ t.main.examining = s.main.examining
  port : t.port = s.port ∧ t.main.holdTimer = s.main.holdTimer ∧ t.main.prdy = s.main.prdy ∧ t.main.pd = s.main.pd
  memory : t.sram = s.sram
  ret : t.ret = s.ret
  slots : t.main.slots = s.main.slots
  events : SameEvents s t
  engine : SameEngine s t
  management : SameManagement s t
  power : SamePower s t
  time : SameTime s t

/-- The cycle of access `a` of class `c` is being driven. -/
structure State.AtMemory (s : State) (a : Access) (c : AccessClass) : Prop where
  runs : s.mainRuns = true
  access : s.main.access = some a
  owner : s.main.owner = .processor
  cond : a.cond = .atMemory
  cls : a.cls = c

/-- The enabled lanes of a write of `x` at `a` have landed, and every other byte reads as it did. -/
def Landed (s t : State) (a : Addr) (l : Lanes) (x : Word) : Prop :=
  (∀ n, n < 4 → l.getLsbD n = true → Memory.readLane t.sram a n = x.extractLsb' (8 * n) 8) ∧ SameMemoryBut s t a l

/-- The port is free again and keeps the last cycle's lines (R86). -/
def PortFreed (s t : State) : Prop :=
  t.main.owner = .nobody ∧ t.main.cycle = none ∧ t.main.lastGrantProc = s.main.lastGrantProc ∧ t.ma = s.ma
    ∧ t.mbe = s.mbe ∧ t.main.examining = s.main.examining

/-- Nothing moves but the access in flight, the memory port and the SRAM. -/
structure MemoryOnly (s t : State) : Prop where
  ret : t.ret = s.ret
  slots : t.main.slots = s.main.slots
  events : SameEvents s t
  engine : SameEngine s t
  management : SameManagement s t
  power : SamePower s t
  time : SameTime s t
  port : t.port = s.port

/-- The write of the control-word write `a` has completed between `s` and `u` and its grant has ended, with the marker
still to be taken (R97). -/
structure ControlPerformed (s u : State) (a : Access) : Prop where
  landed : Landed s u a.addr a.lanes a.data
  freed : u.main.owner = .nobody ∧ u.main.cycle = none ∧ u.main.lastGrantProc = s.main.lastGrantProc ∧ u.ma = s.ma
    ∧ u.mbe = s.mbe
  examining : u.main.examining = true
  access : SameAccess s u
  rest : MemoryOnly s u

/-! ## The walk (R102 to R109) -/

/-- A position's place in the span, 0 at the tail (R31). -/
def Journal.age (j : Journal) (p : Nat) : Nat := (p + Config.journalSlots - j.tail) % Config.journalSlots

/-- Position `p` holds the newest LIVE record of window `w` (R31). -/
def Journal.Newest (j : Journal) (w : Win) (p : Nat) : Prop :=
  (j.slot p).liveOf w = true ∧ ∀ q, (j.slot q).liveOf w = true → j.age q ≤ j.age p

/-- Position `p` holds the newest LIVE record of window `w` older than the slot at `c` (R104). -/
def Journal.NextOlder (j : Journal) (w : Win) (c p : Nat) : Prop :=
  (j.slot p).liveOf w = true ∧ j.age p < j.age c
    ∧ ∀ q, (j.slot q).liveOf w = true → j.age q < j.age c → j.age q ≤ j.age p

/-- No access is held for window `w`. -/
def State.noHeld (s : State) (w : Win) : Prop :=
  ∀ a, s.main.access = some a → a.cond = .held → a.window ≠ some w

/-- Nothing of the access path, the memory port, the SRAM, the configuration, the management port, the pending set or
the stamp moves. -/
structure EngineOnly (s t : State) : Prop where
  access : SameAccess s t
  sequencer : SameSequencer s t
  memory : t.sram = s.sram
  config : SameConfig s t
  management : SameManagement s t
  pendSet : t.main.pendSet = s.main.pendSet ∧ t.main.stopped = s.main.stopped
  clock : SameClock s t

/-- The walk of window `w` stands at position `p` with its restore claim waiting (R105), and nothing else moves. -/
structure ClaimPlaced (s t : State) (w : Win) (target p : Nat) : Prop where
  walk : ∃ k, t.main.walk = some k ∧ k.window = w ∧ k.target = target ∧ k.cursor = p ∧ k.claim = .waiting
  ret : t.ret = s.ret
  slots : t.main.slots = s.main.slots
  events : SameEvents s t
  counters : t.main.counters = s.main.counters
  power : SamePower s t
  rest : EngineOnly s t

/-- What the Deadline Unit is told at the completion of a RETURN rollback (R122, R123). -/
def resumed (d : Descriptor) (c : Counter) : Counter :=
  match c with
  | .frozen r q =>
    if d.deadlineMode = .idle then .running d.deadline.toNat q else if r = 0 then .spent q else .running r q
  | .running r q => if d.deadlineMode = .idle then .running d.deadline.toNat q else .running r q
  | .absent => .absent
  | .spent q => .spent q

/-- The rollback of window `w`, whose entry was `e` with cause `c` and count and restored as it stands, is complete
(R21, R107, R154), with no access held for `w`. -/
structure RollbackDone (s t : State) (w : Win) (e : Entry) (c : RollbackCause) : Prop where
  walk : t.main.walk = none
  entry : t.entry w
    = some (if c = .returned then
        { e with state := .opened, cause := none, restored := none, breakReason := none, dropReported := false,
                 damagePos := none }
      else
        { e with state := .idle, count := 0, savepoint := none, cause := none, restored := none, breakReason := none,
                 dropReported := false, damagePos := none })
  counter : t.counter w = if c = .returned then resumed (s.desc w) (s.counter w) else s.counter w
  receipt : HandedOn s t w c.outcome c.reason e.seq (e.restored.getD 0)
  events : EventsAre s t
    (s.superseding w ++ [(.rollbackDone, some w, detailReceipt c.outcome c.reason e.seq (e.restored.getD 0))])
  others : ∀ v, v ≠ w → t.entry v = s.entry v ∧ t.counter v = s.counter v ∧ t.slot v = s.slot v
  journal : t.ret.journal = s.ret.journal
  power : t.power = s.power ∧ t.signature = s.signature ∧ t.vdd = s.vdd ∧ t.pfail = s.pfail ∧ t.rst = s.rst
    ∧ t.main.phase = s.main.phase
  tally : t.main.tally
    = if c = .recovery then s.main.tally.map fun y => { y with rolledBack := y.rolledBack + 1 } else s.main.tally
  rest : EngineOnly s t

/-- The walk of window `w` has ended in damage at position `p` (R22, R108), with no access held for `w`. -/
structure DamageTaken (s t : State) (w : Win) (e : Entry) (p : Nat) : Prop where
  walk : t.main.walk = none
  entry : t.entry w
    = some { e with state := .damaged, savepoint := none, cause := none, restored := none, breakReason := none,
                    dropReported := false, damagePos := some p }
  counter : t.counter w = .absent
  receipt : HandedOn s t w .damaged .checkFail e.seq (e.restored.getD 0)
  events : EventsAre s t (s.superseding w ++ [(.recordDamaged, some w, BitVec.ofNat 32 p)])
  others : ∀ v, v ≠ w → t.entry v = s.entry v ∧ t.counter v = s.counter v ∧ t.slot v = s.slot v
  journal : t.ret.journal = s.ret.journal
  power : SamePower s t
  rest : EngineOnly s t

/-- The restore write of the record at the walk's cursor, the slot examined last, is being driven (R106). -/
structure State.Restoring (s : State) (k : Walk) (e : Entry) : Prop where
  runs : s.mainRuns = true
  walk : s.main.walk = some k
  claim : k.claim = .granted
  owner : s.main.owner = .rollbackEngine
  cycle : s.main.cycle
    = some { addr := (s.ret.journal.slot k.cursor).addr, lanes := allLanes, wr := true,
             data := (s.ret.journal.slot k.cursor).old }
  journal : s.ret.journal.Lawful
  record : (s.ret.journal.slot k.cursor).liveOf k.window = true
  examined : k.lastPos = some k.cursor ∧ (k.lastAtTail = true → k.cursor = s.ret.journal.tail)
  entry : s.entry k.window = some e
  memory : Memory.wf s.sram = true
  noHeld : s.noHeld k.window

/-- The old data has landed and the record is single-voided (R38, R106): the state the engine examines next. -/
structure SingleVoided (s u : State) (k : Walk) (e : Entry) : Prop where
  landed : Memory.readWord u.sram (s.ret.journal.slot k.cursor).addr = (s.ret.journal.slot k.cursor).old
  elsewhere : SameMemoryBut s u (s.ret.journal.slot k.cursor).addr allLanes
  freed : PortFreed s u
  entry : u.entry k.window = some { e with count := e.count - 1, restored := e.restored.map (· + 1) }
  others : OthersSame s u k.window
  counter : u.counter k.window = s.counter k.window ∧ u.slot k.window = s.slot k.window
  voided : (u.ret.journal.slot k.cursor).live = false
  kept : ∀ q, q ≠ k.cursor → (s.ret.journal.slot q).live = true → u.ret.journal.slot q = s.ret.journal.slot q
  fewer : ∀ v, u.ret.journal.liveCount v + (if k.window = v then 1 else 0) = s.ret.journal.liveCount v
  ring : u.ret.journal.Lawful
  events : SameEvents s u
  engine : u.main.pendSet = s.main.pendSet ∧ u.main.stopped = s.main.stopped
  power : SamePower s u
  access : SameAccess s u
  config : SameConfig s u
  management : SameManagement s u
  clock : SameClock s u

/-! ## Cases of the rules -/

/-- Why a well-formed marker of a kind with sequence number `q` is refused by a window with entry `e`, by the rules' own
cases (R7 to R10, R14); none where it is accepted. -/
def refusalReason (k : MarkerKind) (e : Entry) (q : Byte) : Option ReceiptReason :=
  match e.state, k with
  | .damaged, _ => some .damagedWindow
  | .rollingBack, _ => none
  | .idle, .openM => none
  | .idle, _ =>
    match e.lastEnded with
    | some l => if l.seq = q then some .late else some .notOpen
    | none => some .notOpen
  | .opened, .openM => some .alreadyOpen
  | .broken, .openM => some .alreadyOpen
  | .opened, .returnM =>
    if e.seq ≠ q then some .seqMismatch else if e.savepoint = none then some .noSavepoint else none
  | .broken, .returnM =>
    if e.seq ≠ q then some .seqMismatch else if e.savepoint = none then some .noSavepoint else none
  | .opened, _ => if e.seq ≠ q then some .seqMismatch else none
  | .broken, .abortM => if e.seq ≠ q then some .seqMismatch else none
  | .broken, .commitM => if e.seq ≠ q then some .seqMismatch else some .isBroken
  | .broken, .saveM => if e.seq ≠ q then some .seqMismatch else some .isBroken

/-- The states a data byte of a write transfer can leave: the byte acknowledged, the index one further, wrapping from
FFh to 00h (R159). -/
def ByteTaken (s t : State) : Prop :=
  t.main.index.toNat = (s.main.index.toNat + 1) % 256 ∧ t.main.ack = true

/-- The placement test of R60 for window `w`, condition by condition. -/
def State.placementFails (s : State) (w : Win) : Prop :=
  let d := s.desc w
  d.controlWord = d.receiptWord ∨ d.holds d.controlWord = true ∨ d.holds d.receiptWord = true
    ∨ ∃ v, v ≠ w ∧ s.enabled v = true
      ∧ ((s.desc v).holds d.controlWord = true ∨ (s.desc v).holds d.receiptWord = true
        ∨ d.controlWord = (s.desc v).controlWord ∨ d.controlWord = (s.desc v).receiptWord
        ∨ d.receiptWord = (s.desc v).controlWord ∨ d.receiptWord = (s.desc v).receiptWord
        ∨ d.holds (s.desc v).controlWord = true ∨ d.holds (s.desc v).receiptWord = true)

/-- An enabled window other than `w` that is not IDLE has a granule in common with `w`'s range (R61). -/
def State.overlapBusy (s : State) (w : Win) : Prop :=
  ∃ v g, v ≠ w ∧ s.enabled v = true ∧ s.txnState v ≠ some .idle ∧ (s.desc v).holdsGranule g = true
    ∧ (s.desc w).holdsGranule g = true

/-- The exit that leaves a power state. -/
def exitCommand (p : PowerState) (madr : BitVec 2) (cut : ExitCut) : Instr :=
  if p = .failing then .failingExit madr cut else .retainingExit madr cut

/-! ## Recovery requests (R23, R152) -/

/-- Window `w` has unfinished work: it is OPEN, BROKEN or ROLLING_BACK (R152). -/
def State.unfinished (s : State) (w : Win) : Bool :=
  s.txnState w = some .opened || s.txnState w = some .broken || s.txnState w = some .rollingBack

/-- How many unfinished windows from `m` to below `n` have recovery policy KEEP (R152). -/
def State.keptCount (s : State) (m n : Nat) : Nat :=
  allWins.countP fun w => m ≤ w.val && w.val < n && s.unfinished w && (s.desc w).policy = .keep

/-- The recovery request to window `w` has been taken between `s` and `t` (R23, R152): ROLLING_BACK with cause RECOVERY
and pending, or kept with its records voided and a KEPT receipt that counts them; nothing for an IDLE, DAMAGED or
disabled window. -/
def RecoveryRequested (s t : State) (w : Win) : Prop :=
  (s.unfinished w = false → t.entry w = s.entry w ∧ t.isPending w = s.isPending w ∧ t.slot w = s.slot w
      ∧ t.ret.journal.liveCount w = s.ret.journal.liveCount w)
    ∧ ∀ e, s.entry w = some e → s.unfinished w = true →
      ((s.desc w).policy = .rollback →
        t.entry w = some
            { e with state := .rollingBack, savepoint := none, cause := some .recovery, restored := some 0,
                     breakReason := none, dropReported := false, damagePos := none }
          ∧ t.isPending w = true ∧ t.slot w = s.slot w ∧ t.ret.journal.liveCount w = s.ret.journal.liveCount w)
      ∧ ((s.desc w).policy = .keep →
        t.entry w = some
            { e with state := .idle, count := 0, savepoint := none, cause := none, restored := none,
                     breakReason := none, dropReported := false, damagePos := none }
          ∧ t.isPending w = s.isPending w ∧ t.ret.journal.liveCount w = 0
          ∧ HandedOn s t w .kept .noReason e.seq (s.ret.journal.liveCount w))

/-- Window `w` has had no recovery request between `s` and `t`. -/
def NotRequested (s t : State) (w : Win) : Prop :=
  t.entry w = s.entry w ∧ t.isPending w = s.isPending w ∧ t.slot w = s.slot w
    ∧ t.ret.journal.liveCount w = s.ret.journal.liveCount w

/-- Nothing moves but entries, the journal, the pending set, receipt slots, the tally and the events. -/
structure PlacingOnly (s t : State) : Prop where
  access : SameAccess s t
  sequencer : SameSequencer s t
  memory : t.sram = s.sram
  config : SameConfig s t
  walk : t.main.walk = s.main.walk ∧ t.main.stopped = s.main.stopped
  management : SameManagement s t
  clock : SameClock s t
  power : t.power = s.power ∧ t.signature = s.signature ∧ t.vdd = s.vdd ∧ t.pfail = s.pfail ∧ t.rst = s.rst
  ring : t.ret.journal.Lawful

/-! ## A failure inside a step (R143) -/

/-- The command that completes a control-word write in which the decoder finds this (R90). -/
def Examination.command : Examination → Instr
  | .ordinary => .controlWordOrdinaryWrite
  | .malformed => .malformedMarker
  | .marker k _ => k.command

end Sys2Proof.Machine

namespace Sys2Proof

/-! ## Takings -/

/-- Command `c` makes the taking in state `s`. -/
def Taking.IsMadeBy (k : Taking) (s : Machine.State) (c : Instr) : Prop :=
  match k with
  | .accessBegin addr lanes pwen poen data => c = .accessBegin addr lanes pwen poen data
  | .journaledWriteGrant => c = .journaledWriteGrant
  | .controlWordWrite => ∃ a w, s.ControlWrite a w ∧ c = (s.examination a w).command
  | .microsecondEvent => c = .microsecondEvent
  | .expiryRequest w => c = .expiryRequest w
  | .selection => c = .selection
  | .restoreWriteComplete => c = .restoreWriteComplete
  | .forceAbort ext => c = .forceAbort ext

/-- Whether the taking is that of a new access, which alone needs the port to present one. -/
def Taking.begins : Taking → Bool
  | .accessBegin _ _ _ _ _ => true
  | .journaledWriteGrant | .controlWordWrite | .microsecondEvent | .expiryRequest _ | .selection
  | .restoreWriteComplete | .forceAbort _ => false

/-! ## How commands end -/

/-- The commands that end a taking in which a request can have waited (R160, R165; log 25). -/
def Instr.takesWaiting : Instr → Bool
  | .oldWordReadComplete | .openMarker | .commitMarker | .abortMarker | .saveMarker | .returnMarker | .malformedMarker
  | .controlWordOrdinaryWrite => true
  | _ => false

/-- The commands at whose end RECOVERING can end (R155; log 19). -/
def Instr.endsWalk : Instr → Bool
  | .selection | .restoreWriteComplete => true
  | _ => false

/-- What the end of a command does after its own effect: a request that waited is taken, or RECOVERING ends. -/
def Instr.finish (c : Instr) (u : Machine.State) : Machine.State :=
  if c.takesWaiting then u.takeWaiting else if c.endsWalk then u.endRecovering else u

/-- The A0h byte of the command that makes a request (R165, R179). -/
def Instr.requestByte : Instr → Option Byte
  | .enable x => some (x ++ 1#4)
  | .disable x => some (x ++ 2#4)
  | .forceAbort x => some (x ++ 3#4)
  | .release x => some (x ++ 4#4)
  | .clearAll x => some (x ++ 5#4)
  | .popEvent x => some (x ++ 6#4)
  | .clearOverrun x => some (x ++ 7#4)
  | .loadTxn x => some (x ++ 8#4)
  | .loadRecord x => some (x ++ 9#4)
  | .unknownRequestCode b => if Machine.byteCode b = 0 ∨ 10 ≤ (Machine.byteCode b).toNat then some b else none
  | _ => none

/-! ## Which commands can move which state -/

/-- The commands at which a memory cycle can land; at an internal claim's grant, a control-word write's (R97). -/
def Instr.landsCycle : Instr → Bool
  | .passedCycleComplete | .newDataWriteComplete | .openMarker | .commitMarker | .abortMarker | .saveMarker
  | .returnMarker | .malformedMarker | .controlWordOrdinaryWrite | .receiptWriteComplete | .restoreWriteComplete
  | .receiptWriteGrant | .restoreWriteGrant | .failingEntry _ _ => true
  | _ => false

/-- The commands that can move the journal. -/
def Instr.movesJournal : Instr → Bool
  | .oldWordReadComplete | .commitMarker | .restoreWriteComplete | .release _ | .clearAll _ | .failingEntry _ _
  | .failingExit _ _ | .retainingExit _ _ | .vretFall => true
  | _ => false

/-- The commands that can move a descriptor or the global configuration. -/
def Instr.movesConfig : Instr → Bool
  | .descriptorByteWrite _ | .highWaterThresholdWrite _ | .holdLimitWrite _ | .positionWrite _ | .clearAll _
  | .failingEntry _ _ | .failingExit _ _ | .retainingExit _ _ | .vretFall => true
  | _ => false

/-- The commands that can move a transaction entry or a receipt slot. -/
def Instr.movesWindows : Instr → Bool
  | .accessWithdraw | .passedAccessGrant | .restoreWriteGrant | .transferStart _ | .indexByteWrite _
  | .descriptorByteWrite _ | .highWaterThresholdWrite _ | .holdLimitWrite _ | .positionWrite _ | .statusRead
  | .occupancyRead | .stampCounterRead | .oldestEventViewRead | .popEvent _ | .clearOverrun _ | .loadTxn _
  | .loadRecord _ | .unknownRequestCode _ | .transferStop => false
  | _ => true

/-- The commands that can move a deadline counter, the stamp counter or the oscillator. -/
def Instr.movesTime : Instr → Bool
  | .oldWordReadComplete | .openMarker | .commitMarker | .abortMarker | .returnMarker | .selection
  | .restoreWriteComplete | .microsecondEvent | .holdLimitRunOut | .tick | .deadlineRunOut _ | .expiryRequest _
  | .millisecondEvent | .forceAbort _ | .clearAll _ | .failingEntry _ _ | .retainingEntry | .failingExit _ _ | .retainingExit _ _ => true
  | _ => false

/-- The commands that can move the memory port. -/
def Instr.movesSequencer : Instr → Bool
  | .passedAccessGrant | .journaledWriteGrant | .oldWordReadComplete | .controlWordWriteGrant | .receiptWriteGrant
  | .restoreWriteGrant | .passedCycleComplete | .newDataWriteComplete | .openMarker | .commitMarker | .abortMarker
  | .saveMarker | .returnMarker | .malformedMarker | .controlWordOrdinaryWrite | .receiptWriteComplete
  | .restoreWriteComplete | .failingEntry _ _ | .retainingEntry | .failingExit _ _ | .retainingExit _ _ => true
  | _ => false

/-- The commands that can move the pending set or the walk. -/
def Instr.movesEngine : Instr → Bool
  | .abortMarker | .returnMarker | .selection | .restoreWriteGrant | .restoreWriteComplete | .expiryRequest _
  | .forceAbort _ | .failingEntry _ _ | .retainingEntry | .failingExit _ _ | .retainingExit _ _ => true
  | _ => false

/-- The commands that can move the management port. -/
def Instr.movesManagement : Instr → Bool
  | .transferStart _ | .indexByteWrite _ | .descriptorByteWrite _ | .highWaterThresholdWrite _ | .holdLimitWrite _
  | .positionWrite _ | .statusRead | .occupancyRead | .stampCounterRead | .oldestEventViewRead | .enable _ | .disable _
  | .forceAbort _ | .release _ | .clearAll _ | .popEvent _ | .clearOverrun _ | .loadTxn _ | .loadRecord _
  | .unknownRequestCode _ | .transferStop | .failingEntry _ _ | .retainingEntry | .failingExit _ _
  | .retainingExit _ _ => true
  | _ => false

/-- The commands that can move the power state, the signature, a line, the phase or the tally. -/
def Instr.movesPower : Instr → Bool
  | .selection | .restoreWriteComplete | .clearAll _ | .failingEntry _ _ | .retainingEntry | .failingExit _ _
  | .retainingExit _ _ | .vretFall => true
  | _ => false

end Sys2Proof
end

