-- ==== Sys2Proof/Certificates/Slice0/Obligations.lean ====
section
/-! DEFINITION. The statements for the provers, from the numbered rules of spec/. -/

open Sys2Proof Sys2Proof.Machine

/-! ## The queue of commands and reset -/

/-- One step takes the command at the front and runs it with the queue's rest; on an empty queue the part idles (log 2).
-/
def Obligations.StepRunsTheFrontCommand : Prop :=
  (∀ (c : Instr) (s : State) (rest : List Instr),
      step { s with pending := c :: rest } = exec c { s with pending := rest })
    ∧ ∀ s : State, step { s with pending := [] } = .next { s with pending := [] }

/-- Every command answers a next state, in every state, and leaves the queue of waiting commands alone (logs 2, 3). -/
def Obligations.EveryCommandAnswersNext : Prop :=
  ∀ (c : Instr) (s : State), ∃ t, exec c s = .next t ∧ t.pending = s.pending

/-- The state after a cold initialisation (R149, R67, R48, R84, R164), and the exit from a first power-up that leads to
it (R147). The values of the lines before that exit and the oscillator's phase are the model's (logs 12, 16), and so is
what the retention well holds before it (log 40). -/
def Obligations.ResetIsColdInitialisation : Prop :=
  exec (.retainingExit 0 .whole) State.powerOn = .next State.reset
    ∧ State.reset.power = .active ∧ State.reset.signature = true
    ∧ (∀ w, State.reset.desc w = Descriptor.cold ∧ State.reset.entry w = none)
    ∧ (∀ p, State.reset.ret.journal.slot p = Slot.clear)
    ∧ State.reset.ret.journal.head = 0 ∧ State.reset.ret.journal.tail = 0 ∧ State.reset.ret.journal.occ = 0
    ∧ State.reset.ret.highWater = 0 ∧ State.reset.ret.holdLimit = 32#8 ∧ State.reset.ret.fillWord = 0#32
    ∧ (∀ k, State.reset.kindEnabled k = true)
    ∧ State.reset.main.queue = [{ kind := .coldStart, window := none, detail := 0, stamp := 0 }]
    ∧ State.reset.main.overrun = false ∧ State.reset.alertn = true
    ∧ (∀ w, State.reset.counter w = .absent ∧ State.reset.slot w = .empty ∧ State.reset.isPending w = false)
    ∧ State.reset.main.access = none ∧ State.reset.main.prdy = .inactive ∧ State.reset.main.owner = .nobody
    ∧ State.reset.engine = .idle ∧ State.reset.main.stamp = 0 ∧ State.reset.main.index = 0
    ∧ State.reset.main.response = 0 ∧ State.reset.main.waiting = false ∧ State.reset.main.ignored = false
    ∧ State.reset.main.phase = none ∧ State.reset.main.tally = none
    ∧ (∀ i, i < 16 → State.reset.main.txnView.byte i = 0 ∧ State.reset.main.recView.byte i = 0)

/-! ## The Window Table -/

/-- A granule belongs to the lowest-numbered enabled window whose range, base through limit, holds it (R52, R56). The
four answers of the Window Table (R57), where the enabled windows keep the Window Table's law. -/
def Obligations.WindowTableAnswers : Prop :=
  (∀ (s : State) (a : Addr) (w : Win),
      s.owner a = some w ↔
        (s.enabled w = true ∧ (s.desc w).base.toNat ≤ a.toNat / 64 ∧ a.toNat / 64 ≤ (s.desc w).limit.toNat)
          ∧ ∀ v, v < w → ¬ (s.enabled v = true ∧ (s.desc v).base.toNat ≤ a.toNat / 64
              ∧ a.toNat / 64 ≤ (s.desc v).limit.toNat))
    ∧ (∀ (s : State) (a : Addr),
      s.owner a = none ↔
        ∀ v, ¬ (s.enabled v = true ∧ (s.desc v).base.toNat ≤ a.toNat / 64 ∧ a.toNat / 64 ≤ (s.desc v).limit.toNat))
    ∧ ∀ (s : State) (a : Addr), s.ret.WindowsLawful →
    (∀ w, s.answer a = .control w ↔ s.enabled w = true ∧ (s.desc w).controlWord = a)
      ∧ (∀ w, s.answer a = .receipt w ↔ s.enabled w = true ∧ (s.desc w).receiptWord = a)
      ∧ (∀ w, s.answer a = .range w ↔ s.owner a = some w)
      ∧ (s.answer a = .unguarded ↔
          s.owner a = none ∧ ∀ w, s.enabled w = true → (s.desc w).controlWord ≠ a ∧ (s.desc w).receiptWord ≠ a)

/-! ## The access path -/

/-- ACCESS_BEGIN in every state (R70, R72, R73, R77, R80). At a free port with PWEN or POEN the fields are captured and
the access proceeds under its classification, with PRDY inactive and PD undriven until its outcome. With an access in
flight, in FAILING, RETAINING or phase PLACING, or with neither PWEN nor POEN, the port's lines take their values and no
access is taken. That the command does nothing while PCEN already presents an access is the model's (log 20), and so is
the order of a voided marker's receipt and event (log 19). -/
def Obligations.AccessBeginClassifies : Prop :=
  ∀ (s : State) (addr : Addr) (lanes : Lanes) (pwen poen : Bool) (data : Word),
    let p : ProcPort := { pcen := true, pwen := pwen, poen := poen, pa := addr, pbe := lanes, pd := data }
    (s.FreePort → (pwen || poen) = true →
      ∃ t, exec (.accessBegin addr lanes pwen poen data) s = .next t ∧ t.port = p ∧ AccessOnly s t
        ∧ Classified { s with port := p, main.prdy := .inactive, main.pd := none } t
            { addr := addr, lanes := lanes, wr := pwen, data := data, cls := .passed, window := none, cond := .waiting,
              withdrawn := false }
        ∧ ∀ b, t.main.access = some b → b.cond ≠ .complete → t.main.prdy = .inactive ∧ t.main.pd = none)
      ∧ (s.port.presents = false → (s.takesAccesses = false ∨ s.main.access ≠ none ∨ (pwen || poen) = false) →
          exec (.accessBegin addr lanes pwen poen data) s = .next { s with port := p })
      ∧ (s.port.presents = true → exec (.accessBegin addr lanes pwen poen data) s = .next s)

/-- ACCESS_WITHDRAW (R70, R85): a COMPLETE access ends and PRDY returns inactive; an access short of its outcome stays
where it is and is carried on as withdrawn. Nothing else moves. -/
def Obligations.AccessWithdrawEndsOrMarks : Prop :=
  ∀ (s : State), ∃ t, exec .accessWithdraw s = .next t
    ∧ t.port = { s.port with pcen := false } ∧ t.main.holdTimer = s.main.holdTimer ∧ t.ret = s.ret
    ∧ AccessOnly s t ∧ t.main.slots = s.main.slots ∧ SameEvents s t
    ∧ (s.main.access = none → t.main.access = none ∧ t.main.prdy = s.main.prdy ∧ t.main.pd = s.main.pd)
    ∧ (∀ a, s.main.access = some a → a.cond = .complete →
        t.main.access = none ∧ t.main.prdy = .inactive ∧ t.main.pd = none)
    ∧ ∀ a, s.main.access = some a → a.cond ≠ .complete →
        t.main.access = some { a with withdrawn := true } ∧ t.main.prdy = s.main.prdy ∧ t.main.pd = s.main.pd

/-- A withdrawn access is carried on to the outcome it would have had (R70), also where it is held and the end of its
window's rollback releases it (R82). `u` is the state at the end of the command's own effect on the access not
withdrawn, before a request that waited is taken and before RECOVERING ends. Where `u` has the access COMPLETE, a new
access presented by then is taken and PRDY is not asserted for the old one; with none presented, PRDY is asserted and
returns inactive at once. A TICK, DEADLINE_RUN_OUT or MILLISECOND_EVENT whose moment has not come makes the microsecond
events up to it (log 12), each of which does that to a withdrawn held access. That a pulse of PRDY stays to be seen as
`pulsed` is the model's (log 17), and so is what stands at the end of a command (logs 19, 25) and that a new access
withdrawn again by then counts as none (log 37). -/
def Obligations.WithdrawnAccessKeepsItsOutcome : Prop :=
  (∀ (c : Instr) (s : State) (a : Access), s.Lawful →
    c ∈ [Instr.passedCycleComplete, .journaledWriteGrant, .newDataWriteComplete, .controlWordWriteGrant, .openMarker,
      .commitMarker, .abortMarker, .saveMarker, .returnMarker, .malformedMarker, .controlWordOrdinaryWrite,
      .microsecondEvent, .holdLimitRunOut, .selection, .restoreWriteComplete] →
    s.takesAccesses = true → s.main.access = some a → a.withdrawn = true → a.cond ≠ .complete →
    ∃ u, exec c { s with main.access := some { a with withdrawn := false } } = .next (c.finish u)
      ∧ ∃ b, u.main.access = some b
        ∧ (b.cond = .complete → s.port.presents = true →
            exec c s = .next (c.finish (State.takePresented { u with main.access := none })))
        ∧ (b.cond = .complete → s.port.presents = false →
            exec c s = .next (c.finish { u with main.access := none, main.prdy := .pulsed, main.pd := none }))
        ∧ (b.cond ≠ .complete →
            exec c s = .next (c.finish { u with main.access := some { b with withdrawn := true } })))
    ∧ ∀ s u : State, s.clockRuns = true → exec .microsecondEvent s = .next u →
      (s.osc.tickDue = false →
        exec .tick s = exec .tick u
          ∧ ∀ w q, s.counter w = .running 1 q → exec (.deadlineRunOut w) s = exec (.deadlineRunOut w) u)
        ∧ (s.osc.milliDue = false → exec .millisecondEvent s = exec .millisecondEvent u)

/-- PASSED_ACCESS_GRANT (R74, R86, R87) drives one cycle with the access's own address, lanes and data.
JOURNALED_WRITE_GRANT with the append granted (R15, R32, R75) reads the whole old word, all four lanes. In both nothing
of the entry, the journal or the counter moves. -/
def Obligations.ProcessorGrantsDriveTheirCycle : Prop :=
  (∀ (s : State) (a : Access), s.ProcGrant a .passed →
    ∃ t, exec .passedAccessGrant s = .next t
      ∧ Granted s t a { addr := a.addr, lanes := a.lanes, wr := a.wr, data := a.data })
    ∧ ∀ (s : State) (a : Access) (w : Win) (e : Entry), s.ProcGrant a .journaled → a.window = some w →
    s.entry w = some e → e.state = .opened → e.count < (s.desc w).quota.toNat → s.ret.journal.occ ≠ 1024 →
    ∃ t, exec .journaledWriteGrant s = .next t
      ∧ Granted s t a { addr := a.addr, lanes := allLanes, wr := false, data := 0 }

/-- PASSED_CYCLE_COMPLETE (R74, R85): a write's enabled lanes land; a read's enabled lanes are driven as memory holds
them; PRDY follows and the port is free. On a lane the read does not enable PD carries a free value (R73; log 5). -/
def Obligations.PassedCycleCompletes : Prop :=
  ∀ (s : State) (a : Access), s.AtMemory a .passed → s.main.cycle = some a.cycle → Memory.wf s.sram = true →
    s.noneFollows a →
    ∃ t x, exec .passedCycleComplete s = .next t ∧ PortFreed s t ∧ MemoryOnly s t
      ∧ (a.wr = true → Landed s t a.addr a.lanes a.data ∧ t.ended a none)
      ∧ (a.wr = false → t.sram = s.sram ∧ t.ended a (some x)
          ∧ ∀ n, n < 4 → a.lanes.getLsbD n = true → x.extractLsb' (8 * n) 8 = Memory.readLane s.sram a.addr n)

/-- JOURNALED_WRITE_GRANT with a break (R15, R16, R76): the quota is tested before the journal; the window becomes
BROKEN with seq, count and savepoint kept, the write is dropped, and a BROKEN receipt and a TXN_BROKEN event report it.
-/
def Obligations.BreakDropsTheWrite : Prop :=
  ∀ (s : State) (a : Access) (w : Win) (e : Entry) (r : BreakReason), s.ProcGrant a .journaled → a.window = some w →
    s.entry w = some e → e.state = .opened → s.noneFollows a →
    (r = .quota ∧ e.count = (s.desc w).quota.toNat
      ∨ r = .journalFull ∧ e.count < (s.desc w).quota.toNat ∧ s.ret.journal.occ = 1024) →
    ∃ t, exec .journaledWriteGrant s = .next t
      ∧ t.entry w = some { e with state := .broken, breakReason := some r, dropReported := false }
      ∧ HandedOn s t w .broken r.receipt e.seq e.count
      ∧ EventsAre s t (s.superseding w ++ [(.txnBroken, some w, detailReceipt .broken r.receipt e.seq 0)])
      ∧ t.ended { a with cls := .dropped } none
      ∧ OthersSame s t w ∧ t.counter w = s.counter w ∧ t.isPending w = s.isPending w
      ∧ t.ret.journal = s.ret.journal ∧ t.sram = s.sram ∧ SameConfig s t ∧ SameManagement s t ∧ SamePower s t
      ∧ t.main.walk = s.main.walk ∧ SameClock s t ∧ t.port = s.port
      ∧ t.main.owner = .nobody ∧ t.main.cycle = s.main.cycle ∧ t.main.lastGrantProc = true

/-- JOURNALED_WRITE_GRANT for a window no longer OPEN (R15, R76): the grant ends with no cycle and the write proceeds by
the rows of R72's table for its range, under the window's present state. For a window no longer enabled, which R66 says
cannot arise, the write passes: that is the model's (log 33), as is the order of a voided marker's receipt and event
(log 19). -/
def Obligations.RefusedAppendIsClassifiedAgain : Prop :=
  ∀ (s : State) (a : Access) (w : Win), s.ProcGrant a .journaled → a.window = some w →
    s.txnState w ≠ some .opened → s.noneFollows a →
    ∃ t, exec .journaledWriteGrant s = .next t
      ∧ (s.enabled w = true → RangeProceeds s t a w)
      ∧ (s.enabled w = false → Waits s t a .passed none)
      ∧ t.main.owner = .nobody ∧ t.main.cycle = s.main.cycle ∧ t.main.lastGrantProc = true
      ∧ t.sram = s.sram ∧ t.ret.journal = s.ret.journal ∧ SameConfig s t ∧ SameEngine s t ∧ SameManagement s t
      ∧ SamePower s t ∧ SameTime s t ∧ t.port = s.port

/-- OLD_WORD_READ_COMPLETE (R33, R34, R43, R15): the record stands LIVE at the head with its fields and check code, the
head and the occupancy and the count rise by one, IDLE mode reloads the counter, an occupancy that reaches the threshold
posts JOURNAL_HIGH (before the new data's cycle begins, which is the model's order: log 39), and the write of the new
data begins within the same grant. Then a request that waited is taken (log 25). The check code (R41): ten bytes, the
window, the ordinal, the word address and the old data, eighty bits shifted most significant first into a register
preset to FFh with generator x^8 + x^2 + x + 1, no inversion; at which end a bit enters is the model's (log 18). A
record checks when its stored code is that of its fields (R42). -/
def Obligations.OldWordReadAppendsTheRecord : Prop :=
  (∀ (s : State) (a : Access) (w : Win) (e : Entry), s.AtMemory a .journaled → s.main.cycle = some a.oldReadCycle →
    a.window = some w → s.entry w = some e → s.ret.journal.Lawful → s.ret.journal.occ < 1024 →
    ∃ t, exec .oldWordReadComplete s = .next t.takeWaiting
      ∧ t.ret.journal.slot s.ret.journal.head
        = { window := w, ordinal := e.count + 1, addr := a.addr, old := Memory.readWord s.sram a.addr,
            lanes := a.lanes, valid := true, voided := false,
            check := checkCode w (e.count + 1) a.addr (Memory.readWord s.sram a.addr) }
      ∧ (∀ p, p ≠ s.ret.journal.head → t.ret.journal.slot p = s.ret.journal.slot p)
      ∧ t.ret.journal.head = (s.ret.journal.head + 1) % 1024 ∧ t.ret.journal.tail = s.ret.journal.tail
      ∧ t.ret.journal.occ = s.ret.journal.occ + 1
      ∧ t.entry w = some { e with count := e.count + 1 }
      ∧ t.counter w = (match s.counter w with
          | .running r q =>
            if (s.desc w).deadlineMode = .idle then .running (s.desc w).deadline.toNat q else .running r q
          | c => c)
      ∧ EventsAre s t
          (if s.ret.highWater ≠ 0 ∧ s.ret.journal.occ + 1 = s.ret.highWater then
            [(.journalHigh, some w, BitVec.ofNat 32 (s.ret.journal.occ + 1))]
          else [])
      ∧ t.main.cycle = some { addr := a.addr, lanes := a.lanes, wr := a.wr, data := a.data }
      ∧ t.main.owner = .processor ∧ t.ma = a.addr ∧ t.mbe = a.lanes
      ∧ t.main.lastGrantProc = s.main.lastGrantProc ∧ SameAccess s t ∧ t.sram = s.sram ∧ OthersSame s t w
      ∧ t.slot w = s.slot w ∧ SameEngine s t ∧ SameConfig s t ∧ SameManagement s t ∧ SamePower s t
      ∧ SameClock s t)
    ∧ (∀ (w : Win) (n : Nat) (x : Addr) (y : Word),
      let m : BitVec 80 := BitVec.ofNat 8 w.val ++ BitVec.ofNat 16 n ++ (0#2 ++ x) ++ y
      checkCode w n x y
        = (List.range 80).foldl
            (fun (r : Byte) i => (r <<< 1) ^^^ (if (r.msb ^^ m.getLsbD (79 - i)) = true then 0x07#8 else 0x00#8)) 0xFF#8)
    ∧ ∀ r : Slot, r.checks = true ↔ r.check = checkCode r.window r.ordinal r.addr r.old

/-- NEW_DATA_WRITE_COMPLETE (R33, R75): the new data lands with the lanes the processor enabled, the grant ends and PRDY
is given. -/
def Obligations.NewDataWriteLands : Prop :=
  ∀ (s : State) (a : Access), s.AtMemory a .journaled → a.wr = true → s.main.cycle = some a.cycle →
    Memory.wf s.sram = true → s.noneFollows a →
    ∃ t, exec .newDataWriteComplete s = .next t ∧ Landed s t a.addr a.lanes a.data ∧ PortFreed s t ∧ t.ended a none
      ∧ MemoryOnly s t

/-- CONTROL_WORD_WRITE_GRANT (R78, R80): outside ROLLING_BACK the write cycle begins; in ROLLING_BACK the grant ends
with no cycle and the write is held, or voided with a hold limit of 0. The order of a voided marker's receipt and event
is the model's (log 19). -/
def Obligations.ControlWordGrantTestsTheState : Prop :=
  ∀ (s : State) (a : Access) (w : Win), s.ProcGrant a .controlWord → a.window = some w → s.noneFollows a →
    ∃ t, exec .controlWordWriteGrant s = .next t
      ∧ (s.txnState w ≠ some .rollingBack →
          Granted s t a { addr := a.addr, lanes := a.lanes, wr := a.wr, data := a.data })
      ∧ (s.txnState w = some .rollingBack →
          HeldOrVoided s t a w ∧ t.main.owner = .nobody ∧ t.main.cycle = s.main.cycle ∧ t.main.lastGrantProc = true
            ∧ t.sram = s.sram ∧ t.ret = s.ret ∧ SameEngine s t ∧ SameManagement s t ∧ SamePower s t
            ∧ SameTime s t ∧ t.port = s.port)

/-- MICROSECOND_EVENT and HOLD_LIMIT_RUN_OUT with an access held (R81, R83, R118, R120): the oscillator moves on by one;
short of the limit as it stands the elapsed count rises by one; at the limit the access is voided. That the second is
the microsecond event that reaches the limit is the model's (log 9), and so are the order of the voided access's receipt
and event and that the voiding comes before a tick or a millisecond event that falls with it (log 19). What is still due
of a tick or millisecond event is taken first (log 12), as TicksAndMillisecondsCount says. -/
def Obligations.HoldTimerVoidsAtTheLimit : Prop :=
  ∀ (s : State) (a : Access) (w : Win) (n : Nat), s.mainRuns = true → s.clockRuns = true → s.osc.tickDue = false →
    s.osc.milliDue = false → s.main.access = some a → a.cond = .held → a.window = some w → s.main.holdTimer = some n →
    s.noneFollows a →
    (n + 1 < s.ret.holdLimit.toNat →
        exec .microsecondEvent s = .next { s with osc := s.osc.next, main.holdTimer := some (n + 1) }
          ∧ exec .holdLimitRunOut s = .next s)
      ∧ (s.ret.holdLimit.toNat ≤ n + 1 →
          ∃ t, exec .microsecondEvent s = .next t ∧ exec .holdLimitRunOut s = .next t ∧ Voided s t a w
            ∧ AccessOnly { s with osc := s.osc.next } t ∧ t.port = s.port)

/-- The grants of the memory port (R87): when the port is free and a claim waits, exactly one kind of claim is granted;
the processor's unless the last grant was the processor's and an internal claim waits; then the Receipt Writer's before
the Rollback Engine's. -/
def Obligations.OneClaimIsGranted : Prop :=
  ∀ s : State, s.portFree = true →
    (s.grantsProc = true ↔
        s.procClaim = true ∧ (s.main.lastGrantProc = false ∨ (s.receiptClaim = false ∧ s.restoreClaim = false)))
      ∧ (s.grantsReceipt = true ↔
          s.receiptClaim = true ∧ (s.procClaim = false ∨ s.main.lastGrantProc = true))
      ∧ (s.grantsRestore = true ↔
          s.restoreClaim = true ∧ s.receiptClaim = false ∧ (s.procClaim = false ∨ s.main.lastGrantProc = true))
      ∧ ((s.procClaim || s.receiptClaim || s.restoreClaim) = true →
          (s.grantsProc || s.grantsReceipt || s.grantsRestore) = true)
      ∧ ¬ (s.grantsProc = true ∧ s.grantsReceipt = true) ∧ ¬ (s.grantsProc = true ∧ s.grantsRestore = true)
      ∧ ¬ (s.grantsReceipt = true ∧ s.grantsRestore = true)

/-! ## Markers

Each marker command finds the control-word write in flight either with its cycle being driven or with the word landed
and the port freed (R97; log 36). It ends with `takeWaiting`, which takes a request that waited for the end of the
marker's taking and is the identity where none waits (ARequestMeetingAnOpenTakingWaits; log 25). -/

/-- OPEN_MARKER accepted in IDLE (R7): the entry, the counter's load, the OPENED receipt, no event but the one a
superseded receipt posts. When the write itself completed is log 36's. Then a request that waited is taken (log 25). -/
def Obligations.OpenMarkerOpensAnIdleWindow : Prop :=
  ∀ (s : State) (a : Access) (w : Win) (e : Entry) (q : Byte), s.MarkerInFlight a w e .openM q → e.state = .idle →
    ∃ t, exec .openMarker s = .next t.takeWaiting ∧ ControlLanded s t a w
      ∧ t.entry w = some
          { state := .opened, seq := q, count := 0, savepoint := none, cause := none, restored := none,
            breakReason := none, dropReported := false, damagePos := none, lastEnded := none }
      ∧ t.counter w
        = (if (s.desc w).deadline = 0 then .absent else .running (s.desc w).deadline.toNat q)
      ∧ HandedOn s t w .opened .noReason q 0 ∧ EventsAre s t (s.superseding w)
      ∧ t.ret.journal = s.ret.journal ∧ t.isPending w = s.isPending w

/-- A refused marker (R5, R7 to R10, R14): the entry, the counter and the journal are as they were; a REFUSED receipt
with the marker's own sequence number and the window's count, and a MARKER_REFUSED event. When the write itself
completed is log 36's. Then a request that waited is taken (log 25). -/
def Obligations.RefusedMarkerLeavesTheEntry : Prop :=
  ∀ (s : State) (a : Access) (w : Win) (e : Entry) (k : MarkerKind) (q : Byte) (r : ReceiptReason),
    s.MarkerInFlight a w e k q → refusalReason k e q = some r →
    ∃ t, exec k.command s = .next t.takeWaiting ∧ ControlLanded s t a w
      ∧ t.entry w = some e ∧ t.counter w = s.counter w ∧ t.isPending w = s.isPending w
      ∧ t.ret.journal = s.ret.journal ∧ HandedOn s t w .refused r q e.count
      ∧ EventsAre s t (s.superseding w ++ [(.markerRefused, some w, detailReceipt .refused r q 0)])

/-- COMMIT_MARKER at the commit point (R11, R39, R40): every LIVE record of the window is voided with the entry's change
to IDLE and count 0, other windows' records stay, the counter is discarded, and a COMMITTED receipt carries the count
just before, also where records have decayed (log 22). That a decayed record which names the window is voided too where
the count is 0 is the model's (log 32). When the write itself completed is log 36's. Then a request that waited is taken
(log 25). -/
def Obligations.CommitPointRetiresTheRecords : Prop :=
  ∀ (s : State) (a : Access) (w : Win) (e : Entry) (q : Byte), s.MarkerInFlight a w e .commitM q → e.state = .opened →
    e.seq = q → s.ret.journal.Lawful →
    ∃ t, exec .commitMarker s = .next t.takeWaiting ∧ ControlLanded s t a w
      ∧ t.entry w = some
          { e with state := .idle, count := 0, savepoint := none, cause := none, restored := none, breakReason := none,
                   dropReported := false, damagePos := none }
      ∧ t.counter w = .absent ∧ t.isPending w = s.isPending w
      ∧ HandedOn s t w .committed .noReason q e.count ∧ EventsAre s t (s.superseding w)
      ∧ (∀ p, (t.ret.journal.slot p).liveOf w = false)
      ∧ (∀ p, (s.ret.journal.slot p).live = true → (s.ret.journal.slot p).window ≠ w →
          t.ret.journal.slot p = s.ret.journal.slot p)
      ∧ t.ret.journal.head = s.ret.journal.head ∧ t.ret.journal.Lawful

/-- ABORT_MARKER in OPEN or BROKEN with the matching seq (R12): with count 0 IDLE at once and an ABORTED receipt; with
records ROLLING_BACK with cause ABORT, in the pending set, and no receipt and no event yet. Last ended is not set. When
the write itself completed is log 36's. Then a request that waited is taken (log 25). -/
def Obligations.AbortMarkerEndsOrRollsBack : Prop :=
  ∀ (s : State) (a : Access) (w : Win) (e : Entry) (q : Byte), s.MarkerInFlight a w e .abortM q →
    (e.state = .opened ∨ e.state = .broken) → e.seq = q →
    ∃ t, exec .abortMarker s = .next t.takeWaiting ∧ ControlLanded s t a w ∧ t.counter w = .absent
      ∧ t.ret.journal = s.ret.journal
      ∧ (e.count = 0 →
          t.entry w = some
            { e with state := .idle, count := 0, savepoint := none, cause := none, restored := none,
                     breakReason := none, dropReported := false, damagePos := none }
            ∧ HandedOn s t w .aborted .noReason q 0 ∧ EventsAre s t (s.superseding w)
            ∧ t.isPending w = s.isPending w)
      ∧ (e.count ≠ 0 →
          t.entry w = some
            { e with state := .rollingBack, savepoint := none, cause := some .abort, restored := some 0,
                     breakReason := none, dropReported := false, damagePos := none }
            ∧ t.isPending w = true ∧ t.slot w = s.slot w ∧ SameEvents s t)

/-- SAVE_MARKER in OPEN with the matching seq (R13): the savepoint becomes the present count, in place of any earlier
one, with a SAVED receipt; state, counter and journal stay. When the write itself completed is log 36's. Then a request
that waited is taken (log 25). -/
def Obligations.SaveMarkerNotesTheCount : Prop :=
  ∀ (s : State) (a : Access) (w : Win) (e : Entry) (q : Byte), s.MarkerInFlight a w e .saveM q → e.state = .opened →
    e.seq = q →
    ∃ t, exec .saveMarker s = .next t.takeWaiting ∧ ControlLanded s t a w
      ∧ t.entry w = some { e with savepoint := some e.count }
      ∧ t.counter w = s.counter w ∧ t.isPending w = s.isPending w ∧ t.ret.journal = s.ret.journal
      ∧ HandedOn s t w .saved .noReason q e.count ∧ EventsAre s t (s.superseding w)

/-- RETURN_MARKER in OPEN or BROKEN with the matching seq and a savepoint (R14, R122, R123): at the savepoint it is
answered at once and the window is OPEN, with a reload in IDLE mode; above it the window is ROLLING_BACK with cause
RETURN, the savepoint kept and the counter frozen. When the write itself completed is log 36's. Then a request that
waited is taken (log 25). -/
def Obligations.ReturnMarkerGoesToTheSavepoint : Prop :=
  ∀ (s : State) (a : Access) (w : Win) (e : Entry) (q : Byte) (p : Nat), s.MarkerInFlight a w e .returnM q →
    (e.state = .opened ∨ e.state = .broken) → e.seq = q → e.savepoint = some p →
    ∃ t, exec .returnMarker s = .next t.takeWaiting ∧ ControlLanded s t a w ∧ t.ret.journal = s.ret.journal
      ∧ (e.count = p →
          t.entry w = some
            { e with state := .opened, cause := none, restored := none, breakReason := none, dropReported := false,
                     damagePos := none }
            ∧ t.counter w = (match s.counter w with
                | .running r x =>
                  if (s.desc w).deadlineMode = .idle then .running (s.desc w).deadline.toNat x else .running r x
                | c => c)
            ∧ HandedOn s t w .returned .noReason q 0 ∧ EventsAre s t (s.superseding w)
            ∧ t.isPending w = s.isPending w)
      ∧ (e.count ≠ p →
          t.entry w = some
            { e with state := .rollingBack, savepoint := some p, cause := some .returned, restored := some 0,
                     breakReason := none, dropReported := false, damagePos := none }
            ∧ t.counter w = (match s.counter w with
                | .running r x => .frozen r x
                | .spent x => .frozen 0 x
                | c => c)
            ∧ t.isPending w = true ∧ t.slot w = s.slot w ∧ SameEvents s t)

/-- MALFORMED_MARKER (R92): the key matches, and the command names no kind or the zero field is not 0; refused BAD_CODE
by the decoder in every state of an enabled window. CONTROL_WORD_ORDINARY_WRITE (R78, R91, R94, R95): another key, fewer
than four lanes, or a window disabled in between (log 24); the write lands and has no further effect. When the write
itself completed is log 36's. Then a request that waited is taken (log 25). -/
def Obligations.MalformedIsRefusedAndOrdinaryOnlyLands : Prop :=
  (∀ (s : State) (a : Access) (w : Win) (e : Entry), s.ControlWrite a w → a.lanes = allLanes → s.entry w = some e →
    a.data.extractLsb' 16 16 = (s.desc w).key →
    (a.data.extractLsb' 8 4 ≠ 0#4 ∨ a.data.extractLsb' 12 4 = 0#4 ∨ 6 ≤ (a.data.extractLsb' 12 4).toNat) →
    Memory.wf s.sram = true → s.noneFollows a →
    ∃ t, exec .malformedMarker s = .next t.takeWaiting ∧ ControlLanded s t a w
      ∧ t.entry w = some e ∧ t.counter w = s.counter w ∧ t.isPending w = s.isPending w
      ∧ t.ret.journal = s.ret.journal
      ∧ HandedOn s t w .refused .badCode (a.data.extractLsb' 0 8) e.count
      ∧ EventsAre s t
          (s.superseding w ++ [(.markerRefused, some w, detailReceipt .refused .badCode (a.data.extractLsb' 0 8) 0)]))
    ∧ ∀ (s : State) (a : Access) (w : Win), s.ControlWrite a w →
    (s.entry w = none ∨ a.lanes ≠ allLanes ∨ a.data.extractLsb' 16 16 ≠ (s.desc w).key) →
    Memory.wf s.sram = true → s.noneFollows a →
    ∃ t, exec .controlWordOrdinaryWrite s = .next t.takeWaiting ∧ ControlLanded s t a w
      ∧ t.ret = s.ret ∧ t.counter w = s.counter w ∧ t.isPending w = s.isPending w ∧ t.slot w = s.slot w
      ∧ SameEvents s t

/-! ## Receipts -/

/-- A receipt handed on (R129 to R131): to an EMPTY or WRITING slot it is PENDING with its superseded bit clear and no
event; to a PENDING slot it takes the waiting receipt's place with the bit set, and RECEIPT_SUPERSEDED carries the
outcome code replaced. In FAILING it changes nothing. The receipt word's fields (R176): outcome, reason, seq,
superseded, the zero bit, window and count. -/
def Obligations.ReceiptHandOnAndWord : Prop :=
  (∀ (s : State) (w : Win) (o : ReceiptOutcome) (r : ReceiptReason) (q : Byte) (n : Nat),
    (s.power = .failing → s.handOn w o r q n = s)
      ∧ (s.mainRuns = true →
          ∃ b l f, s.handOn w o r q n
              = { s with
                  main.slots := winSet s.main.slots w (.pending (receiptWord o r q b w n) (s.desc w).receiptWord)
                  main.queue := l, main.overrun := f }
            ∧ (s.slot w = .empty ∨ s.slot w = .writing → b = false ∧ l = s.main.queue ∧ f = s.main.overrun)
            ∧ ∀ old x, s.slot w = .pending old x →
                b = true ∧ l = (s.post .receiptSuperseded (some w) (old.extractLsb' 28 4 ++ 0#28)).main.queue
                  ∧ f = (s.post .receiptSuperseded (some w) (old.extractLsb' 28 4 ++ 0#28)).main.overrun))
    ∧ ∀ (o : ReceiptOutcome) (r : ReceiptReason) (q : Byte) (b : Bool) (w : Win) (n : Nat),
    let x := receiptWord o r q b w n
    x.extractLsb' 28 4 = o.code ∧ x.extractLsb' 24 4 = r.code ∧ x.extractLsb' 16 8 = q
      ∧ x.getLsbD 15 = b ∧ x.getLsbD 14 = false ∧ x.extractLsb' 11 3 = BitVec.ofNat 3 w.val
      ∧ (n ≤ 1024 → (x.extractLsb' 0 11).toNat = n) ∧ o.code ≠ 0#4

/-- RECEIPT_WRITE_GRANT (R87, R132): the lowest-numbered PENDING slot becomes WRITING and its word is driven to its
captured address with all four lanes. RECEIPT_WRITE_COMPLETE (R131, R132): the receipt stands in memory, a slot still
WRITING is EMPTY, and a slot that a hand-on has made PENDING meanwhile stays PENDING. A receipt can be granted between
the completion of a control-word write and the taking of its marker (R97): at the grant the write has landed, its grant
has ended, and the marker is yet to be taken. That the completion then falls with the grant is the model's (log 36). -/
def Obligations.ReceiptsAreWrittenLowestSlotFirst : Prop :=
  (∀ (s : State) (w : Win) (x : Word) (a : Addr), s.mainRuns = true → s.main.owner = .nobody →
    (s.procClaim = false ∨ s.main.lastGrantProc = true) → s.slot w = .pending x a →
    (∀ v, v < w → (s.slot v).isPending = false) →
    ∃ t, exec .receiptWriteGrant s = .next t
      ∧ t.slot w = .writing ∧ (∀ v, v ≠ w → t.slot v = s.slot v)
      ∧ t.main.owner = .receiptWriter ∧ t.main.cycle = some { addr := a, lanes := allLanes, wr := true, data := x }
      ∧ t.ma = a ∧ t.mbe = allLanes ∧ t.main.lastGrantProc = false
      ∧ t.ret = s.ret ∧ t.sram = s.sram ∧ SameAccess s t ∧ SameEvents s t ∧ SameEngine s t ∧ SameManagement s t
      ∧ SamePower s t ∧ SameTime s t)
    ∧ (∀ (s : State) (x : Word) (a : Addr), s.main.owner = .receiptWriter →
    s.main.cycle = some { addr := a, lanes := allLanes, wr := true, data := x } → Memory.wf s.sram = true →
    ∃ t, exec .receiptWriteComplete s = .next t
      ∧ Memory.readWord t.sram a = x ∧ SameMemoryBut s t a allLanes ∧ PortFreed s t
      ∧ (∀ w, (s.slot w = .writing → t.slot w = .empty) ∧ (s.slot w ≠ .writing → t.slot w = s.slot w))
      ∧ t.ret = s.ret ∧ SameAccess s t ∧ SameEvents s t ∧ SameEngine s t ∧ SameManagement s t ∧ SamePower s t
      ∧ SameTime s t)
    ∧ ∀ (s : State) (a : Access) (w : Win), s.ControlWrite a w → s.main.examining = false → Memory.wf s.sram = true →
    (s.receiptClaim = true →
        ∃ u, ControlPerformed s u a ∧ exec .receiptWriteGrant s = exec .receiptWriteGrant u)
      ∧ (s.receiptClaim = false → exec .receiptWriteGrant s = .next s)

/-! ## The Rollback Engine -/

/-- SELECTION in ACTIVE and in RECOVERING (R102, R104, R105, R107 to R109, R112, R21, R22): the idle engine takes the
lowest-numbered pending window out of the set and examines from the newest record back; at the window's newest LIVE
record it places a claim if the check code agrees, and reports damage there if it does not; with no LIVE record of the
window it runs to the tail and reports damage there. Where the count already equals the target no record is examined and
the rollback is complete. That the examination ends within the command, and that RECOVERING can end there, is the
model's (logs 14, 19); LastWalkEndsRecovering says when it ends. -/
def Obligations.SelectionExaminesOrCompletes : Prop :=
  (∀ (s : State) (w : Win) (e : Entry), s.mainRuns = true → s.engine = .idle → s.isPending w = true →
    (∀ v, v < w → s.isPending v = false) → s.entry w = some e → e.count ≠ e.target → s.ret.journal.Lawful →
    s.noHeld w →
    ∃ t, exec .selection s = .next t.endRecovering
      ∧ (∀ p, s.ret.journal.Newest w p →
          ((s.ret.journal.slot p).checks = true → ClaimPlaced (s.setPending w false) t w e.target p)
            ∧ ((s.ret.journal.slot p).checks = false → DamageTaken (s.setPending w false) t w e p))
      ∧ ((∀ p, (s.ret.journal.slot p).liveOf w = false) → s.ret.journal.occ ≠ 0 →
          DamageTaken (s.setPending w false) t w e s.ret.journal.tail))
    ∧ ∀ (s : State) (w : Win) (e : Entry) (c : RollbackCause), s.mainRuns = true → s.engine = .idle →
    s.isPending w = true → (∀ v, v < w → s.isPending v = false) → s.entry w = some e → e.cause = some c →
    e.count = e.target → s.noHeld w →
    ∃ t, exec .selection s = .next t.endRecovering ∧ RollbackDone (s.setPending w false) t w e c

/-- RESTORE_WRITE_GRANT (R87, R106): one write cycle of the record's old data to its word address, all four lanes. A
restore can be granted between the completion of a control-word write and the taking of its marker (R97): at the grant
the write has landed, its grant has ended, and the marker is yet to be taken. That the completion then falls with the
grant is the model's (log 36). -/
def Obligations.RestoreGrantWritesTheOldData : Prop :=
  (∀ (s : State) (k : Walk), s.mainRuns = true → s.main.owner = .nobody → s.main.walk = some k → k.claim = .waiting →
    s.main.stopped = false → s.receiptClaim = false → (s.procClaim = false ∨ s.main.lastGrantProc = true) →
    ∃ t, exec .restoreWriteGrant s = .next t
      ∧ t.main.walk = some { k with claim := .granted }
      ∧ t.main.owner = .rollbackEngine
      ∧ t.main.cycle = some { addr := (s.ret.journal.slot k.cursor).addr, lanes := allLanes, wr := true,
                              data := (s.ret.journal.slot k.cursor).old }
      ∧ t.ma = (s.ret.journal.slot k.cursor).addr ∧ t.mbe = allLanes ∧ t.main.lastGrantProc = false
      ∧ t.ret = s.ret ∧ t.sram = s.sram ∧ SameAccess s t ∧ SameEvents s t ∧ t.main.slots = s.main.slots
      ∧ t.main.pendSet = s.main.pendSet ∧ SameManagement s t ∧ SamePower s t
      ∧ SameTime s t)
    ∧ ∀ (s : State) (a : Access) (w : Win), s.ControlWrite a w → s.main.examining = false → Memory.wf s.sram = true →
    (s.restoreClaim = true → s.receiptClaim = false →
        ∃ u, ControlPerformed s u a ∧ exec .restoreWriteGrant s = exec .restoreWriteGrant u)
      ∧ (s.restoreClaim = false ∨ s.receiptClaim = true → exec .restoreWriteGrant s = .next s)

/-- RESTORE_WRITE_COMPLETE in ACTIVE and in RECOVERING (R38, R106, R21, R22, R104, R105, R109, R112): the old data is in
memory before its record is voided; the count falls and restored rises by one; then the walk is complete at the target;
short of it, it claims the window's next older record if its check code agrees, and ends in damage there if it does not,
or, with no older record of the window, at the slot examined last. That the next examination ends within the command,
and that RECOVERING can end there, is the model's (logs 14, 19); LastWalkEndsRecovering says when it ends. -/
def Obligations.RestoreCompletesThenVoids : Prop :=
  ∀ (s : State) (k : Walk) (e : Entry) (c : RollbackCause), s.Restoring k e → e.cause = some c →
    ∃ u t, SingleVoided s u k e ∧ exec .restoreWriteComplete s = .next t.endRecovering
      ∧ (e.count - 1 = k.target →
          RollbackDone u t k.window { e with count := e.count - 1, restored := e.restored.map (· + 1) } c)
      ∧ (e.count - 1 ≠ k.target →
          (∀ p, s.ret.journal.NextOlder k.window k.cursor p →
            ((s.ret.journal.slot p).checks = true → ClaimPlaced u t k.window k.target p)
              ∧ ((s.ret.journal.slot p).checks = false →
                  DamageTaken u t k.window { e with count := e.count - 1, restored := e.restored.map (· + 1) } p))
          ∧ ((∀ q, (s.ret.journal.slot q).liveOf k.window = true → s.ret.journal.age k.cursor ≤ s.ret.journal.age q) →
              DamageTaken u t k.window { e with count := e.count - 1, restored := e.restored.map (· + 1) }
                (if (u.ret.journal.slot k.cursor).valid then u.ret.journal.tail else k.cursor)))

/-- A held access is released when its window leaves ROLLING_BACK, by completion or by damage, at SELECTION or at
RESTORE_WRITE_COMPLETE, in ACTIVE and in RECOVERING (R82, R21, R22): `u` is the state that the same command leaves
without the access, before RECOVERING can end; while its window is still ROLLING_BACK there, the access stays held as it
is; otherwise it is classified again against the windows and the window's new state. That RECOVERING can end within the
command, after the release, is the model's (log 19). -/
def Obligations.HeldAccessIsReleasedAtTheEnd : Prop :=
  ∀ (c : Instr) (s : State) (a : Access) (w : Win), s.Lawful → c ∈ [Instr.selection, .restoreWriteComplete] →
    s.mainRuns = true → s.main.access = some a → a.cond = .held → a.window = some w →
    s.txnState w = some .rollingBack → s.noneFollows a →
    ∃ u, exec c { s with main.access := none, main.holdTimer := none } = .next u.endRecovering
      ∧ u.power = s.power ∧ u.main.phase = s.main.phase ∧ u.main.access = none
      ∧ (u.txnState w = some .rollingBack →
          exec c s = .next (State.endRecovering { u with main.access := some a, main.holdTimer := s.main.holdTimer }))
      ∧ (u.txnState w ≠ some .rollingBack →
          ∃ t, exec c s = .next t.endRecovering ∧ Classified u t a ∧ AccessOnly u t ∧ t.port = s.port)

/-- The end of RECOVERING (R154, R155, R116): in phase WALKING with the engine idle and no window pending, RECOVERY_DONE
is posted with the tally, phase and tally become absent and the power state becomes ACTIVE; in any other state nothing
happens. So the last walk ends it: a window with no record at SELECTION, or at the RESTORE_WRITE_COMPLETE of its last
record, is counted and RECOVERY_DONE follows ROLLBACK_DONE; a walk that ends in damage is counted in neither number.
That RECOVERING ends within the same command is the model's (log 19). -/
def Obligations.LastWalkEndsRecovering : Prop :=
  (∀ s : State,
      (s.power = .recovering → s.main.phase = some .walking → s.engine = .idle → (∀ w, s.isPending w = false) →
        ∀ y, s.main.tally = some y →
          ∃ q o, s.endRecovering
              = { s with power := .active, main.phase := none, main.tally := none, main.queue := q, main.overrun := o }
            ∧ EventsAre s s.endRecovering [(.recoveryDone, none, detailTally y)])
        ∧ ((s.power ≠ .recovering ∨ s.main.phase ≠ some .walking ∨ s.engine ≠ .idle ∨ ∃ w, s.isPending w = true) →
            s.endRecovering = s))
    ∧ (∀ (s : State) (w : Win) (e : Entry) (y : Tally), s.power = .recovering → s.main.phase = some .walking →
      s.main.tally = some y → s.engine = .idle → s.isPending w = true → (∀ v, v ≠ w → s.isPending v = false) →
      s.entry w = some e → e.cause = some .recovery → e.count = 0 → s.noHeld w →
      ∃ t, exec .selection s = .next t ∧ t.power = .active ∧ t.main.phase = none ∧ t.main.tally = none
        ∧ t.txnState w = some .idle ∧ HandedOn s t w .recovered .noReason e.seq (e.restored.getD 0)
        ∧ EventsAre s t
            (s.superseding w
              ++ [(.rollbackDone, some w, detailReceipt .recovered .noReason e.seq (e.restored.getD 0)),
                  (.recoveryDone, none, detailTally { y with rolledBack := y.rolledBack + 1 })]))
    ∧ ∀ (s : State) (k : Walk) (e : Entry) (y : Tally) (n : Nat), s.Restoring k e → s.power = .recovering →
      s.main.phase = some .walking → s.main.tally = some y → s.main.stopped = false → (∀ v, s.isPending v = false) →
      e.cause = some .recovery → e.restored = some n →
      (e.count = k.target + 1 →
        ∃ t, exec .restoreWriteComplete s = .next t ∧ t.power = .active ∧ t.main.phase = none ∧ t.main.tally = none
          ∧ t.txnState k.window = some .idle ∧ HandedOn s t k.window .recovered .noReason e.seq (n + 1)
          ∧ EventsAre s t
              (s.superseding k.window
                ++ [(.rollbackDone, some k.window, detailReceipt .recovered .noReason e.seq (n + 1)),
                    (.recoveryDone, none, detailTally { y with rolledBack := y.rolledBack + 1 })]))
      ∧ ∀ p, e.count ≠ k.target + 1 → e.count ≠ 0 → s.ret.journal.NextOlder k.window k.cursor p →
        (s.ret.journal.slot p).checks = false →
        ∃ t, exec .restoreWriteComplete s = .next t ∧ t.power = .active ∧ t.main.phase = none ∧ t.main.tally = none
          ∧ t.txnState k.window = some .damaged ∧ HandedOn s t k.window .damaged .checkFail e.seq (n + 1)
          ∧ EventsAre s t
              (s.superseding k.window
                ++ [(.recordDamaged, some k.window, BitVec.ofNat 32 p), (.recoveryDone, none, detailTally y)])

/-! ## Deadlines and the stamp -/

/-- The trains of R118: every hundredth microsecond event is a tick and every thousandth a millisecond event, in phase
and never restarted. TICK and DEADLINE_RUN_OUT (R122, R124): when the tick has fallen, every RUNNING counter is lowered
by one and a counter lowered to 0 is SPENT with its seq; the second is that same tick where it ends window `w`'s counter
(log 10). MILLISECOND_EVENT (R119): when it has fallen, the stamp counter rises by one, from 65535 to 0, but in
RETAINING, where the main well is held in reset. Nothing else moves. Before it has fallen either command lets the
microsecond events up to it fall, and what has fallen is taken before the next microsecond event: that is the model's
(log 12), and so is what holds without a good VDD: between its good level and the switchover level time passes, below
that it stands still (log 30). -/
def Obligations.TicksAndMillisecondsCount : Prop :=
  (∀ o : Oscillator, o.micros < 1000 →
      o.next.micros = (if o.micros = 999 then 0 else o.micros + 1)
        ∧ (o.next.tickDue = true ↔ 100 ∣ o.micros + 1) ∧ (o.next.milliDue = true ↔ o.micros + 1 = 1000))
    ∧ (∀ s : State, s.clockRuns = true → s.osc.tickDue = false → s.osc.milliDue = false → s.main.holdTimer = none →
        exec .microsecondEvent s = .next { s with osc := s.osc.next })
    ∧ (∀ s : State, s.clockRuns = true → s.osc.tickDue = true →
      (∃ v, exec .tick s = .next { s with main.counters := v, osc := { s.osc with tickDue := false } }
          ∧ ∀ w, (∀ r q, s.counter w = .running r q → 1 < r → winGet v w = .running (r - 1) q)
            ∧ (∀ q, s.counter w = .running 1 q → winGet v w = .spent q)
            ∧ ((∀ r q, s.counter w ≠ .running r q) → winGet v w = s.counter w))
        ∧ ∀ w q, s.counter w = .running 1 q →
            exec (.deadlineRunOut w) s = exec .tick s)
    ∧ (∀ s : State, s.clockRuns = true → s.osc.milliDue = true →
      ∃ x : BitVec 16, exec .millisecondEvent s
          = .next { s with main.stamp := x, osc := { s.osc with milliDue := false } }
        ∧ (s.power ≠ .retaining → x.toNat = (if s.main.stamp.toNat = 65535 then 0 else s.main.stamp.toNat + 1))
        ∧ (s.power = .retaining → x = s.main.stamp))
    ∧ (∀ s : State, (s.clockRuns = true ↔ s.vdd ≠ .belowSwitchover)
        ∧ (s.clockRuns = false →
          exec .microsecondEvent s = .next s ∧ exec .holdLimitRunOut s = .next s ∧ exec .tick s = .next s
            ∧ exec .millisecondEvent s = .next s ∧ ∀ w, exec (.deadlineRunOut w) s = .next s))
    ∧ ∀ s u : State, exec .microsecondEvent s = .next u → s.clockRuns = true →
      (s.osc.tickDue = false → exec .tick s = exec .tick u
          ∧ ∀ w q, s.counter w = .running 1 q → exec (.deadlineRunOut w) s = exec (.deadlineRunOut w) u)
        ∧ (s.osc.milliDue = false → exec .millisecondEvent s = exec .millisecondEvent u)
        ∧ (∀ v, s.osc.tickDue = true → exec .tick s = .next v → exec .microsecondEvent v = .next u)
        ∧ ∀ v, s.osc.milliDue = true → exec .millisecondEvent s = .next v → exec .microsecondEvent v = .next u

/-- EXPIRY_REQUEST of a transaction still running (R18): last ended is the seq with EXPIRED and DEADLINE_EXPIRED is
posted; with count 0 IDLE at once with an EXPIRED receipt, otherwise ROLLING_BACK with cause EXPIRY, in the pending set;
the counter is discarded. -/
def Obligations.ExpiryEndsTheTransaction : Prop :=
  ∀ (s : State) (w : Win) (e : Entry), s.mainRuns = true → s.counter w = .spent e.seq → s.takingOpen w = false →
    s.entry w = some e → (e.state = .opened ∨ e.state = .broken) →
    ∃ t, exec (.expiryRequest w) s = .next t ∧ t.counter w = .absent
      ∧ OthersSame s t w ∧ t.ret.journal = s.ret.journal ∧ t.sram = s.sram ∧ SameConfig s t ∧ SameAccess s t
      ∧ SameSequencer s t ∧ t.main.walk = s.main.walk ∧ SameManagement s t ∧ SamePower s t
      ∧ SameClock s t
      ∧ (e.count = 0 →
          t.entry w = some
            { e with state := .idle, count := 0, savepoint := none, cause := none, restored := none,
                     breakReason := none, dropReported := false, damagePos := none,
                     lastEnded := some { seq := e.seq, kind := .expired } }
            ∧ t.isPending w = s.isPending w ∧ HandedOn s t w .expired .noReason e.seq 0
            ∧ EventsAre s t
                (s.superseding w ++ [(.deadlineExpired, some w, detailReceipt .expired .noReason e.seq 0)]))
      ∧ (e.count ≠ 0 →
          t.entry w = some
            { e with state := .rollingBack, savepoint := none, cause := some .expiry, restored := some 0,
                     breakReason := none, dropReported := false, damagePos := none,
                     lastEnded := some { seq := e.seq, kind := .expired } }
            ∧ t.isPending w = true ∧ t.slot w = s.slot w
            ∧ EventsAre s t [(.deadlineExpired, some w, detailReceipt .expired .noReason e.seq 0)])

/-! ## The management port -/

/-- TRANSFER_START, INDEX_BYTE_WRITE and TRANSFER_STOP (R158, R159): a port that answers acknowledges its own address
only; the first data byte of a write transfer sets the index; a stop ends the transfer. Where the address and the
direction stand in the byte, and that 1 reads, is presumed (log 35); the acknowledges and the bytes sent are held as log
28 says. While MSCL is held low for a waiting request none of them falls (R160). -/
def Obligations.TransferFraming : Prop :=
  ∀ (s : State) (x : Start) (b : Byte),
    (s.main.waiting = false →
      (∃ t, exec (.transferStart x) s = .next t
          ∧ t.main.xfer
            = (if s.portAnswers = true ∧ (x.addressByte.extractLsb' 1 7).toNat = 0x58 + s.main.target.toNat then
                (if x.addressByte.getLsbD 0 then .reading x.acknowledged else .writeIndex)
              else .ignored)
          ∧ t.main.ack
            = decide (s.portAnswers = true ∧ (x.addressByte.extractLsb' 1 7).toNat = 0x58 + s.main.target.toNat)
          ∧ t.main.index = s.main.index ∧ t.main.sent = []
          ∧ t.main.occLatch = none ∧ t.main.stampLatch = none ∧ t.main.eventLatch = none)
        ∧ (s.portAnswers = true → s.main.xfer = .writeIndex →
            exec (.indexByteWrite b) s = .next { s with main.index := b, main.xfer := .writing, main.ack := true })
        ∧ exec .transferStop s = .next { s with main.xfer := .idle })
      ∧ (s.main.waiting = true →
          exec (.transferStart x) s = .next s ∧ exec (.indexByteWrite b) s = .next s ∧ exec .transferStop s = .next s)

/-- DESCRIPTOR_BYTE_WRITE (R54, R55, R178): for a disabled window the byte reads back as its field bits, the other bytes
of every descriptor stay, and no flag is set; for an enabled window the byte is ignored and IGNORED set. -/
def Obligations.DescriptorByteIsWrittenOrIgnored : Prop :=
  ∀ (s : State) (b : Byte) (w : Win) (o : Nat), s.portReady = true → s.main.xfer = .writing → o < 16 →
    s.main.index.toNat = 16 * w.val + o →
    ∃ t, exec (.descriptorByteWrite b) s = .next t ∧ ByteTaken s t
      ∧ t.ret.entries = s.ret.entries ∧ t.ret.journal = s.ret.journal ∧ t.sram = s.sram ∧ SameEvents s t
      ∧ (∀ v, v ≠ w → t.desc v = s.desc v)
      ∧ (s.enabled w = true → t.desc w = s.desc w ∧ t.main.ignored = true)
      ∧ (s.enabled w = false → t.main.ignored = s.main.ignored
          ∧ (∀ i, i < 16 → i ≠ o → (t.desc w).byte i = (s.desc w).byte i)
          ∧ (t.desc w).byte o = (if o = 4 ∨ o = 7 then b &&& 0x3F#8 else if o = 12 then b &&& 0xE7#8 else b))

/-- HIGH_WATER_THRESHOLD_WRITE and HOLD_LIMIT_WRITE (R44, R84, R177): each byte is held at once; the threshold keeps
eleven bits and is taken as 1024 above it, and is not compared with the occupancy as it stands. POSITION_WRITE (R161,
R164, R165, R177): the fill word, the mask and the argument take the byte; a read-only position or one with no contents
takes nothing, sets no flag and is passed over. -/
def Obligations.ConfigurationBytesAreWritten : Prop :=
  (∀ (s : State) (b : Byte), s.portReady = true → s.main.xfer = .writing → s.ret.highWater ≤ 1024 →
    (s.main.index = 0x83#8 →
        ∃ t, exec (.highWaterThresholdWrite b) s = .next t ∧ ByteTaken s t ∧ SameEvents s t
          ∧ t.ret = { s.ret with highWater := min 1024 (b.toNat % 8 * 256 + s.ret.highWater % 256) })
      ∧ (s.main.index = 0x84#8 →
        ∃ t, exec (.highWaterThresholdWrite b) s = .next t ∧ ByteTaken s t ∧ SameEvents s t
          ∧ t.ret = { s.ret with highWater := min 1024 (s.ret.highWater / 256 * 256 + b.toNat) })
      ∧ (s.main.index = 0x85#8 →
        ∃ t, exec (.holdLimitWrite b) s = .next t ∧ ByteTaken s t ∧ SameEvents s t
          ∧ t.ret = { s.ret with holdLimit := b } ∧ SameAccess s t))
    ∧ ∀ (s : State) (b : Byte), s.portReady = true → s.main.xfer = .writing →
    (∀ i, i < 4 → s.main.index.toNat = 0x86 + i →
        ∃ t x, exec (.positionWrite b) s = .next t ∧ ByteTaken s t ∧ t.ret = { s.ret with fillWord := x }
          ∧ byteOf x.toNat 4 i = b ∧ ∀ j, j < 4 → j ≠ i → byteOf x.toNat 4 j = byteOf s.ret.fillWord.toNat 4 j)
      ∧ (∀ i, i < 2 → s.main.index.toNat = 0x8A + i →
        ∃ t x, exec (.positionWrite b) s = .next t ∧ ByteTaken s t ∧ t.ret = { s.ret with kindMask := x }
          ∧ byteOf x.toNat 2 i = b ∧ ∀ j, j < 2 → j ≠ i → byteOf x.toNat 2 j = byteOf s.ret.kindMask.toNat 2 j)
      ∧ (s.main.index = 0xA1#8 →
        ∃ t, exec (.positionWrite b) s = .next t ∧ ByteTaken s t ∧ t.ret = s.ret ∧ t.main.arg = b)
      ∧ (0x80 ≤ s.main.index.toNat → (s.main.index.toNat < 0x83 ∨ 0x8C ≤ s.main.index.toNat) →
          s.main.index ≠ 0xA0#8 → s.main.index ≠ 0xA1#8 →
          exec (.positionWrite b) s = .next { s with main.index := s.main.index + 1, main.ack := true })

/-- STATUS_READ (R55, R160, R163, R179): 80h sends the IGNORED flag as it stood and the power state, and clears the
flag; any other position whose reading has no row of its own sends its byte with no other effect (log 11), which
PositionsReadAsLaidOut gives. OLDEST_EVENT_VIEW_READ (R162, R172, R180): a transfer's first byte of B0h to B7h copies
the oldest record, or an empty queue, and every further one comes from the copy; the record is not removed. After the
byte that the controller does not acknowledge the port sends no more (R160). The bytes sent are held as log 28 says. -/
def Obligations.StatusAndEventViewReads : Prop :=
  (∀ s : State, s.portReady = true → s.main.xfer.isReading = true →
    (s.main.index = 0x80#8 →
        exec .statusRead s = .next
          { s with
            main.index := 0x81#8, main.ignored := false, main.xfer := s.main.xfer.afterByte
            main.sent := s.main.sent
              ++ [(if s.main.ignored then 0x80#8 else 0x00#8) + (if s.power = .recovering then 0x01#8 else 0x00#8)] })
      ∧ (s.main.index ≠ 0x80#8 → hasReadRow s.main.index.toNat = false →
          exec .statusRead s = .next
            { s with main.index := s.main.index + 1, main.xfer := s.main.xfer.afterByte
                     main.sent := s.main.sent ++ [s.positionByte s.main.index.toNat] }))
    ∧ (∀ (s : State) (i : Nat), s.portReady = true → s.main.xfer.isReading = true → i < 8 →
      s.main.index.toNat = 0xB0 + i →
      ∃ t c, exec .oldestEventViewRead s = .next t ∧ t.main.eventLatch = some c
        ∧ (s.main.eventLatch = none → c = s.main.queue.head?) ∧ (∀ d, s.main.eventLatch = some d → c = d)
        ∧ (c = none → t.main.sent = s.main.sent ++ [0#8])
        ∧ (∀ e, c = some e → t.main.sent = s.main.sent ++
            [[BitVec.ofNat 8 e.kind.code, (match e.window with | some w => BitVec.ofNat 8 w.val | none => 0x80#8),
              e.detail.extractLsb' 24 8, e.detail.extractLsb' 16 8, e.detail.extractLsb' 8 8, e.detail.extractLsb' 0 8,
              e.stamp.extractLsb' 8 8, e.stamp.extractLsb' 0 8].getD i 0])
        ∧ t.main.xfer = s.main.xfer.afterByte ∧ t.main.index.toNat = 0xB0 + i + 1 ∧ SameEvents s t)
    ∧ (∀ n, Transfer.afterByte (.reading (some (n + 1))) = .reading (some n))
    ∧ Transfer.afterByte (.reading none) = .reading none ∧ Transfer.afterByte (.reading (some 0)) = .released
    ∧ ∀ s : State, s.main.xfer = .released →
        exec .statusRead s = .next s ∧ exec .occupancyRead s = .next s ∧ exec .stampCounterRead s = .next s
          ∧ exec .oldestEventViewRead s = .next s

/-- What each position reads as (R54, R161, R163, R177 to R179, R181, R182), with the values written out: descriptors,
threshold, hold limit, fill word, mask, event count, window summary, request bytes, transaction view and record view. A
position with no contents reads 00h. -/
def Obligations.PositionsReadAsLaidOut : Prop :=
  ∀ s : State,
    (∀ (w : Win) (i : Nat), i < 16 →
      let d := s.desc w
      s.positionByte (16 * w.val + i) =
        [d.base.extractLsb' 8 8, d.base.extractLsb' 0 8, d.limit.extractLsb' 8 8, d.limit.extractLsb' 0 8,
          0#2 ++ d.controlWord.extractLsb' 16 6, d.controlWord.extractLsb' 8 8, d.controlWord.extractLsb' 0 8,
          0#2 ++ d.receiptWord.extractLsb' 16 6, d.receiptWord.extractLsb' 8 8, d.receiptWord.extractLsb' 0 8,
          d.key.extractLsb' 8 8, d.key.extractLsb' 0 8,
          d.quota.extractLsb' 8 3 ++ 0#2 ++ (if d.deadlineMode = .idle then 1#1 else 0#1)
            ++ (if d.policy = .keep then 1#1 else 0#1) ++ (if d.mode = .loose then 1#1 else 0#1),
          d.quota.extractLsb' 0 8, d.deadline.extractLsb' 8 8, d.deadline.extractLsb' 0 8].getD i 0)
      ∧ (s.ret.highWater ≤ 1024 →
          (s.positionByte 0x83).toNat * 256 + (s.positionByte 0x84).toNat = s.ret.highWater)
      ∧ s.positionByte 0x85 = s.ret.holdLimit
      ∧ (∀ i, i < 4 → s.positionByte (0x86 + i) = s.ret.fillWord.extractLsb' (8 * (3 - i)) 8)
      ∧ (∀ i, i < 2 → s.positionByte (0x8A + i) = s.ret.kindMask.extractLsb' (8 * (1 - i)) 8)
      ∧ (s.main.queue.length ≤ 16 →
          s.positionByte 0x8C = (if s.main.overrun then 0x80#8 else 0x00#8) + BitVec.ofNat 8 s.main.queue.length)
      ∧ (∀ w : Win, s.positionByte (0x90 + w.val)
          = (match s.txnState w with
            | none => 0#8 | some .idle => 1#8 | some .opened => 2#8 | some .broken => 3#8 | some .rollingBack => 4#8
            | some .damaged => 5#8))
      ∧ s.positionByte 0xA0 = s.main.reqCode ∧ s.positionByte 0xA1 = s.main.arg ∧ s.positionByte 0xA2 = s.main.response
      ∧ s.positionByte 0xC0 = BitVec.ofNat 8 s.main.txnView.window.val
      ∧ (s.main.txnView.entry = none → ∀ i, 1 ≤ i → i < 16 → s.positionByte (0xC0 + i) = 0#8)
      ∧ (∀ e, s.main.txnView.entry = some e → e.count ≤ 1024 → (∀ p, e.savepoint = some p → p ≤ 1024) →
          (∀ n, e.restored = some n → n ≤ 1024) → (∀ p, e.damagePos = some p → p < 1024) →
          s.main.txnView.counter.remaining ≤ 65535 →
          s.positionByte 0xC1
              = (match s.main.txnView.counter with
                | .absent => 0x00#8 | .running _ _ => 0x10#8 | .frozen _ _ => 0x20#8 | .spent _ => 0x30#8)
              + (match e.state with
                | .idle => 1#8 | .opened => 2#8 | .broken => 3#8 | .rollingBack => 4#8 | .damaged => 5#8)
            ∧ s.positionByte 0xC2 = e.seq
            ∧ s.positionByte 0xC3 = (if e.savepoint.isSome then 0x01#8 else 0#8) + (if e.cause.isSome then 0x02#8 else 0#8)
              + (if e.breakReason.isSome then 0x04#8 else 0#8) + (if e.damagePos.isSome then 0x08#8 else 0#8)
              + (if e.lastEnded.isSome then 0x10#8 else 0#8)
              + (match e.lastEnded with | some l => (if l.kind = .forced then 0x20#8 else 0#8) | none => 0#8)
              + (if e.dropReported then 0x40#8 else 0#8)
            ∧ (s.positionByte 0xC4).toNat * 256 + (s.positionByte 0xC5).toNat = e.count
            ∧ (s.positionByte 0xC6).toNat * 256 + (s.positionByte 0xC7).toNat = e.savepoint.getD 0
            ∧ s.positionByte 0xC8
              = (match e.cause with
                | none => 0x00#8 | some .abort => 0x10#8 | some .expiry => 0x20#8 | some .returned => 0x30#8
                | some .forced => 0x40#8 | some .recovery => 0x50#8)
              + (match e.breakReason with | none => 0#8 | some .journalFull => 9#8 | some .quota => 10#8)
            ∧ (s.positionByte 0xC9).toNat * 256 + (s.positionByte 0xCA).toNat = e.restored.getD 0
            ∧ (s.positionByte 0xCB).toNat * 256 + (s.positionByte 0xCC).toNat = e.damagePos.getD 0
            ∧ s.positionByte 0xCD = (match e.lastEnded with | some l => l.seq | none => 0#8)
            ∧ (s.positionByte 0xCE).toNat * 256 + (s.positionByte 0xCF).toNat
              = (match s.main.txnView.counter with | .running r _ => r | .frozen r _ => r | .absent => 0 | .spent _ => 0))
      ∧ (let v := s.main.recView
         (v.pos < 1024 → (s.positionByte 0xD0).toNat * 256 + (s.positionByte 0xD1).toNat = v.pos)
          ∧ s.positionByte 0xD2 = v.slot.lanes ++ 0#2
            ++ (if v.slot.valid = false then 0#2 else if v.slot.voided = false then 1#2 else 2#2)
          ∧ s.positionByte 0xD3 = BitVec.ofNat 8 v.slot.window.val
          ∧ (v.slot.ordinal ≤ 1024 → (s.positionByte 0xD4).toNat * 256 + (s.positionByte 0xD5).toNat = v.slot.ordinal)
          ∧ s.positionByte 0xD6 = 0#2 ++ v.slot.addr.extractLsb' 16 6
          ∧ s.positionByte 0xD7 = v.slot.addr.extractLsb' 8 8 ∧ s.positionByte 0xD8 = v.slot.addr.extractLsb' 0 8
          ∧ (∀ i, i < 4 → s.positionByte (0xD9 + i) = v.slot.old.extractLsb' (8 * (3 - i)) 8)
          ∧ s.positionByte 0xDD = v.slot.check ∧ s.positionByte 0xDE = 0#8 ∧ s.positionByte 0xDF = 0#8)
      ∧ ∀ i, (i = 0x8F ∨ 0x98 ≤ i ∧ i < 0xA0 ∨ 0xA3 ≤ i ∧ i < 0xB0 ∨ 0xB8 ≤ i ∧ i < 0xC0 ∨ 0xE0 ≤ i) →
          s.positionByte i = 0#8

/-- OCCUPANCY_READ and STAMP_COUNTER_READ (R46, R119): the two bytes read in one transfer belong to the value held when
the transfer reached the first, whatever changes between them. The bytes sent are held as log 28 says. -/
def Obligations.TwoByteReadsAreOneValue : Prop :=
  ∀ s : State, s.portReady = true → s.main.xfer.isReading = true →
    (s.main.index = 0x81#8 →
        ∃ t, exec .occupancyRead s = .next t ∧ t.main.index = 0x82#8
          ∧ t.main.sent = s.main.sent ++ [BitVec.ofNat 8 (s.ret.journal.occ / 256)]
          ∧ t.main.occLatch = some s.ret.journal.occ ∧ t.ret = s.ret)
      ∧ (s.main.index = 0x82#8 →
        ∃ t, exec .occupancyRead s = .next t ∧ t.main.index = 0x83#8
          ∧ t.main.sent = s.main.sent ++ [BitVec.ofNat 8 (s.main.occLatch.getD s.ret.journal.occ)] ∧ t.ret = s.ret)
      ∧ (s.main.index = 0x8D#8 →
        ∃ t, exec .stampCounterRead s = .next t ∧ t.main.index = 0x8E#8
          ∧ t.main.sent = s.main.sent ++ [s.main.stamp.extractLsb' 8 8]
          ∧ t.main.stampLatch = some s.main.stamp ∧ SameClock s t)
      ∧ (s.main.index = 0x8E#8 →
        ∃ t, exec .stampCounterRead s = .next t ∧ t.main.index = 0x8F#8
          ∧ t.main.sent = s.main.sent ++ [(s.main.stampLatch.getD s.main.stamp).extractLsb' 0 8]
          ∧ SameClock s t)

/-! ## Requests -/

/-- ENABLE (R59 to R62): the first condition of the table that holds decides the response and nothing else changes; when
none holds the window has a fresh IDLE entry and the response is DONE. A request inside an open taking of a window it
tests waits (ARequestMeetingAnOpenTakingWaits; log 25). -/
def Obligations.EnableTestsInOrder : Prop :=
  ∀ (s : State) (x : BitVec 4), s.AtRequest → s.windowTestBusy = false →
    ∃ t r, exec (.enable x) s = .next t ∧ RequestTaken s t (x ++ 1#4) r ∧ t.ret.journal = s.ret.journal
      ∧ t.main.slots = s.main.slots ∧ t.main.counters = s.main.counters ∧ SameEvents s t
      ∧ t.main.pendSet = s.main.pendSet ∧ t.main.txnView = s.main.txnView ∧ t.main.recView = s.main.recView
      ∧ (8 ≤ s.main.arg.toNat → r = 12#8)
      ∧ (r ≠ 1#8 → t.ret = s.ret)
      ∧ ∀ w : Win, s.main.arg.toNat = w.val →
          (s.enabled w = true → r = 5#8)
          ∧ (s.enabled w = false →
            ((s.desc w).limit.toNat < (s.desc w).base.toNat → r = 6#8)
            ∧ ((s.desc w).base.toNat ≤ (s.desc w).limit.toNat →
              ((s.desc w).key = 0x0000#16 ∨ (s.desc w).key = 0xFFFF#16 → r = 7#8)
              ∧ ((s.desc w).key ≠ 0x0000#16 → (s.desc w).key ≠ 0xFFFF#16 →
                ((s.desc w).quota.toNat = 0 ∨ 1024 < (s.desc w).quota.toNat → r = 8#8)
                ∧ (1 ≤ (s.desc w).quota.toNat → (s.desc w).quota.toNat ≤ 1024 →
                  (s.placementFails w → r = 9#8)
                  ∧ (¬ s.placementFails w →
                    (s.overlapBusy w → r = 10#8)
                    ∧ (¬ s.overlapBusy w →
                      r = 1#8
                      ∧ t.entry w = some
                          { state := .idle, seq := 0, count := 0, savepoint := none, cause := none, restored := none,
                            breakReason := none, dropReported := false, damagePos := none, lastEnded := none }
                      ∧ ∀ v, v ≠ w → t.entry v = s.entry v))))))

/-- DISABLE (R63, R64): BAD_ARG, ALREADY, BUSY for the window itself, BUSY for an overlapping one, in that order, with
nothing changed; otherwise the entry is discarded and the response is DONE. A receipt pending for the window stays. A
request inside an open taking of a window it tests waits (ARequestMeetingAnOpenTakingWaits; log 25). -/
def Obligations.DisableTestsInOrder : Prop :=
  ∀ (s : State) (x : BitVec 4), s.AtRequest → s.windowTestBusy = false →
    ∃ t r, exec (.disable x) s = .next t ∧ RequestTaken s t (x ++ 2#4) r ∧ t.ret.journal = s.ret.journal
      ∧ t.main.slots = s.main.slots ∧ t.main.counters = s.main.counters ∧ SameEvents s t
      ∧ t.main.pendSet = s.main.pendSet ∧ t.main.txnView = s.main.txnView ∧ t.main.recView = s.main.recView
      ∧ (8 ≤ s.main.arg.toNat → r = 12#8)
      ∧ (r ≠ 1#8 → t.ret = s.ret)
      ∧ ∀ w : Win, s.main.arg.toNat = w.val →
          (s.enabled w = false → r = 5#8)
          ∧ (s.enabled w = true →
            (s.txnState w ≠ some .idle → r = 2#8)
            ∧ (s.txnState w = some .idle →
              (s.overlapBusy w → r = 2#8)
              ∧ (¬ s.overlapBusy w →
                r = 1#8 ∧ t.entry w = none ∧ ∀ v, v ≠ w → t.entry v = s.entry v)))

/-- FORCE_ABORT (R19, R166): the table of R19, row by row; BAD_ARG with nothing changed for an argument above 7. A
request inside an open taking of its window waits (ARequestMeetingAnOpenTakingWaits; log 25). -/
def Obligations.ForceAbortByState : Prop :=
  (∀ (s : State) (x : BitVec 4), s.AtRequest → 8 ≤ s.main.arg.toNat →
    ∃ t, exec (.forceAbort x) s = .next t ∧ RequestTaken s t (x ++ 3#4) 12#8 ∧ t.ret = s.ret ∧ SameTime s t
      ∧ t.main.slots = s.main.slots ∧ t.main.pendSet = s.main.pendSet ∧ SameEvents s t
      ∧ t.main.txnView = s.main.txnView ∧ t.main.recView = s.main.recView)
    ∧ ∀ (s : State) (x : BitVec 4) (w : Win), s.AtRequest → s.argWinBusy = false → s.main.arg.toNat = w.val →
    ∃ t r, exec (.forceAbort x) s = .next t ∧ RequestTaken s t (x ++ 3#4) r ∧ OthersSame s t w
      ∧ t.ret.journal = s.ret.journal ∧ t.main.txnView = s.main.txnView ∧ t.main.recView = s.main.recView
      ∧ (s.entry w = none ∨ s.txnState w = some .idle → r = 3#8)
      ∧ (s.txnState w = some .rollingBack ∨ s.txnState w = some .damaged → r = 2#8)
      ∧ (r ≠ 1#8 → t.entry w = s.entry w ∧ t.counter w = s.counter w ∧ t.slot w = s.slot w
          ∧ t.isPending w = s.isPending w ∧ SameEvents s t)
      ∧ ∀ e, s.entry w = some e → e.state = .opened ∨ e.state = .broken →
          r = 1#8 ∧ t.counter w = .absent
          ∧ (e.count = 0 →
              t.entry w = some
                { e with state := .idle, count := 0, savepoint := none, cause := none, restored := none,
                         breakReason := none, dropReported := false, damagePos := none,
                         lastEnded := some { seq := e.seq, kind := .forced } }
                ∧ t.isPending w = s.isPending w ∧ HandedOn s t w .aborted .forced e.seq 0
                ∧ EventsAre s t (s.superseding w))
          ∧ (e.count ≠ 0 →
              t.entry w = some
                { e with state := .rollingBack, savepoint := none, cause := some .forced, restored := some 0,
                         breakReason := none, dropReported := false, damagePos := none,
                         lastEnded := some { seq := e.seq, kind := .forced } }
                ∧ t.isPending w = true ∧ t.slot w = s.slot w ∧ SameEvents s t)

/-- RELEASE (R20, R39, R166): a DAMAGED window's records are all voided without restore and it is IDLE with seq and last
ended kept; in any other state, or disabled, NOT_DAMAGED and nothing changes; BAD_ARG with nothing changed for an
argument above 7. No receipt and no event. A request inside an open taking of its window waits
(ARequestMeetingAnOpenTakingWaits; log 25). -/
def Obligations.ReleaseFreesADamagedWindow : Prop :=
  (∀ (s : State) (x : BitVec 4), s.AtRequest → 8 ≤ s.main.arg.toNat →
    ∃ t, exec (.release x) s = .next t ∧ RequestTaken s t (x ++ 4#4) 12#8 ∧ t.ret = s.ret ∧ SameTime s t
      ∧ t.main.slots = s.main.slots ∧ t.main.pendSet = s.main.pendSet ∧ SameEvents s t
      ∧ t.main.txnView = s.main.txnView ∧ t.main.recView = s.main.recView)
    ∧ ∀ (s : State) (x : BitVec 4) (w : Win), s.AtRequest → s.argWinBusy = false → s.main.arg.toNat = w.val →
    s.ret.journal.Lawful →
    ∃ t r, exec (.release x) s = .next t ∧ RequestTaken s t (x ++ 4#4) r ∧ OthersSame s t w
      ∧ t.counter w = s.counter w ∧ t.slot w = s.slot w ∧ t.isPending w = s.isPending w ∧ SameEvents s t
      ∧ t.main.txnView = s.main.txnView ∧ t.main.recView = s.main.recView
      ∧ (s.txnState w ≠ some .damaged → r = 4#8 ∧ t.ret = s.ret)
      ∧ ∀ e, s.entry w = some e → e.state = .damaged →
          r = 1#8
          ∧ t.entry w = some
              { e with state := .idle, count := 0, savepoint := none, cause := none, restored := none,
                       breakReason := none, dropReported := false, damagePos := none }
          ∧ (∀ p, (t.ret.journal.slot p).liveOf w = false)
          ∧ (∀ p, (s.ret.journal.slot p).live = true → (s.ret.journal.slot p).window ≠ w →
              t.ret.journal.slot p = s.ret.journal.slot p)
          ∧ t.ret.journal.Lawful

/-- CLEAR_ALL (R150, R167): BUSY with nothing changed while an enabled window is not IDLE; otherwise the retained
defaults, a valid signature, the main-well resets the rule names, COLD_START with detail 1 as the queue's one record,
and DONE. The index is not moved but by the byte, and the access in flight and the memory port are not touched. A
request inside a control-word write's taking waits (ARequestMeetingAnOpenTakingWaits; log 25). -/
def Obligations.ClearAllMakesAColdInitialisation : Prop :=
  ∀ (s : State) (x : BitVec 4), s.AtRequest → s.controlTakingOpen = false →
    ∃ t, exec (.clearAll x) s = .next t ∧ t.main.index = 0xA1#8 ∧ t.main.reqCode = x ++ 5#4 ∧ t.main.arg = s.main.arg
      ∧ t.main.target = s.main.target ∧ t.main.xfer = .writing ∧ t.main.waiting = false
      ∧ SameAccess s t ∧ SameSequencer s t ∧ t.sram = s.sram ∧ SameEngine s t
      ∧ ((∃ w, s.enabled w = true ∧ s.txnState w ≠ some .idle) →
          t.main.response = 2#8 ∧ t.ret = s.ret ∧ SameEvents s t ∧ SamePower s t ∧ t.main.slots = s.main.slots
            ∧ SameTime s t ∧ t.main.ignored = s.main.ignored
            ∧ t.main.txnView = s.main.txnView ∧ t.main.recView = s.main.recView)
      ∧ ((∀ w, s.enabled w = true → s.txnState w = some .idle) →
          t.main.response = 1#8 ∧ t.signature = true ∧ t.power = .active ∧ t.main.phase = none ∧ t.main.tally = none
            ∧ (∀ w, t.desc w = Descriptor.cold ∧ t.entry w = none ∧ t.counter w = .absent
                ∧ (s.slot w = .writing → t.slot w = .writing) ∧ (s.slot w ≠ .writing → t.slot w = .empty))
            ∧ (∀ p, t.ret.journal.slot p = Slot.clear) ∧ t.ret.journal.head = 0 ∧ t.ret.journal.tail = 0
            ∧ t.ret.journal.occ = 0 ∧ t.ret.highWater = 0 ∧ t.ret.holdLimit = 32#8 ∧ t.ret.fillWord = 0#32
            ∧ (∀ k, t.kindEnabled k = true) ∧ t.main.stamp = 0 ∧ t.main.ignored = false
            ∧ t.main.queue = [{ kind := .coldStart, window := none, detail := 1, stamp := 0 }]
            ∧ t.main.overrun = false ∧ t.main.txnView = TxnView.cold ∧ t.main.recView = RecordView.cold)

/-- A post, POP_EVENT and CLEAR_OVERRUN (R170, R172): the four cases of a post; records leave in the order they entered;
CLEAR_OVERRUN always answers DONE; ALERTN follows the count and the flag. -/
def Obligations.EventQueueIsFirstInFirstOut : Prop :=
  (∀ (s : State) (k : EventKind) (w : Option Win) (d : Word),
      (s.power = .failing → s.post k w d = s)
        ∧ (s.mainRuns = true → s.kindEnabled k = false → s.post k w d = s)
        ∧ (s.mainRuns = true → s.kindEnabled k = true → s.main.queue.length < 16 →
            s.post k w d
              = { s with main.queue := s.main.queue ++ [{ kind := k, window := w, detail := d, stamp := s.main.stamp }] })
        ∧ (s.mainRuns = true → s.kindEnabled k = true → 16 ≤ s.main.queue.length →
            s.post k w d = { s with main.overrun := true }))
    ∧ (∀ (s : State) (x : BitVec 4), s.AtRequest →
        (s.main.queue = [] →
            ∃ t, exec (.popEvent x) s = .next t ∧ RequestTaken s t (x ++ 6#4) 11#8 ∧ SameEvents s t ∧ t.ret = s.ret)
          ∧ (∀ e l, s.main.queue = e :: l →
            ∃ t, exec (.popEvent x) s = .next t ∧ RequestTaken s t (x ++ 6#4) 1#8 ∧ t.main.queue = l
              ∧ t.main.overrun = s.main.overrun ∧ t.ret = s.ret
              ∧ (t.alertn = true ↔ l ≠ [] ∨ s.main.overrun = true))
          ∧ ∃ t, exec (.clearOverrun x) s = .next t ∧ RequestTaken s t (x ++ 7#4) 1#8 ∧ t.main.queue = s.main.queue
            ∧ t.main.overrun = false ∧ t.ret = s.ret ∧ (t.alertn = true ↔ s.main.queue ≠ []))

/-- LOAD_TXN, LOAD_RECORD and a code that names no request (R165, R166, R168, R169): a snapshot of the entry and the
counter, a copy of the slot, or BAD_ARG with the views unchanged. A LOAD_TXN inside an open taking of its window waits
(ARequestMeetingAnOpenTakingWaits; log 25). -/
def Obligations.LoadsCopyAndBadCodesAreRefused : Prop :=
  ∀ (s : State) (x : BitVec 4), s.AtRequest →
    (8 ≤ s.main.arg.toNat →
        ∃ t, exec (.loadTxn x) s = .next t ∧ RequestTaken s t (x ++ 8#4) 12#8 ∧ t.main.txnView = s.main.txnView
          ∧ t.main.recView = s.main.recView)
      ∧ (∀ w : Win, s.main.arg.toNat = w.val → s.argWinBusy = false →
        ∃ t, exec (.loadTxn x) s = .next t ∧ RequestTaken s t (x ++ 8#4) 1#8 ∧ t.ret = s.ret
          ∧ t.main.txnView.window = w ∧ t.main.txnView.entry = s.entry w
          ∧ (s.enabled w = true → t.main.txnView.counter = s.counter w)
          ∧ (s.enabled w = false → t.main.txnView.counter = .absent) ∧ t.main.recView = s.main.recView)
      ∧ (∃ t, exec (.loadRecord x) s = .next t ∧ t.ret = s.ret ∧ t.main.txnView = s.main.txnView
        ∧ (1024 ≤ x.toNat * 256 + s.main.arg.toNat →
            RequestTaken s t (x ++ 9#4) 12#8 ∧ t.main.recView = s.main.recView)
        ∧ (x.toNat * 256 + s.main.arg.toNat < 1024 →
            RequestTaken s t (x ++ 9#4) 1#8 ∧ t.main.recView.pos = x.toNat * 256 + s.main.arg.toNat
              ∧ t.main.recView.slot = s.ret.journal.slot (x.toNat * 256 + s.main.arg.toNat)))
      ∧ ∀ b : Byte, (b.extractLsb' 0 4 = 0#4 ∨ 10 ≤ (b.extractLsb' 0 4).toNat) →
        ∃ t, exec (.unknownRequestCode b) s = .next t ∧ RequestTaken s t b 12#8 ∧ t.ret = s.ret
          ∧ t.main.txnView = s.main.txnView ∧ t.main.recView = s.main.recView ∧ SameEvents s t

/-- A request that meets an open taking of a window it concerns (R160, R165): the A0h byte is held and acknowledged and
the index moves on, and the request waits with MSCL held low. It is taken whole, as R166 has it, with the argument that
A1h holds, once no such taking is open; with none waiting nothing happens. That it is taken at the end of the very
command that ends the taking, and which takings hold back which requests, is the model's (log 25), and so is how a
control-word write stands whose marker is yet to be taken (log 36). -/
def Obligations.ARequestMeetingAnOpenTakingWaits : Prop :=
  (∀ (s : State) (c : Instr) (x : BitVec 4), s.AtRequest →
      (c = .enable x ∨ c = .disable x) ∧ s.windowTestBusy = true
        ∨ (c = .forceAbort x ∨ c = .release x ∨ c = .loadTxn x) ∧ s.argWinBusy = true
        ∨ c = .clearAll x ∧ s.controlTakingOpen = true →
      ∃ b t, c.requestByte = some b ∧ exec c s = .next t ∧ t.msclHeld = true
        ∧ t = { s with main.reqCode := b, main.waiting := true, main.index := 0xA1#8, main.ack := true })
    ∧ (∀ s : State, s.main.waiting = false → s.takeWaiting = s ∧ s.msclHeld = false)
    ∧ (∀ s : State, s.main.waiting = true → s.requestBusy s.main.reqCode = true → s.takeWaiting = s)
    ∧ (∀ (s : State) (c : Instr) (b : Byte), s.main.waiting = true → c.requestByte = some b → s.main.reqCode = b →
      s.requestBusy b = false → s.portAnswers = true → s.main.xfer = .writing → s.main.index = 0xA1#8 →
      s.main.ack = true →
      exec c { s with main.waiting := false, main.index := 0xA0#8 } = .next s.takeWaiting
        ∧ s.takeWaiting.msclHeld = false)
    ∧ ∀ (s : State) (a : Access) (w : Win) (b : Byte), s.main.access = some a → a.window = some w → a.wr = true →
      (s.AtMemory a .journaled ∧ s.main.cycle = some a.oldReadCycle ∨ s.ControlWrite a w) →
      (s.main.arg.toNat = w.val → s.argWinBusy = true ∧ s.windowTestBusy = true)
        ∧ (a.cls = .controlWord → s.controlTakingOpen = true)
        ∧ ∀ u, exec (if a.cls = .controlWord then (s.examination a w).command else .oldWordReadComplete) s = .next u →
            ∃ v : State, u = v.takeWaiting ∧ v.requestBusy b = false ∧ SameManagement s v

/-! ## The power sequence -/

/-- FAILING_ENTRY with nothing part-way (R89, R113, R135, R141 to R144, R126): the cycle being driven completes, the
access is abandoned without PRDY, the engine is STOPPED, counters NONE, slots EMPTY, the transfer abandoned; retained
state, the queue and the stamp are kept, but for what a request that waited does, whose code byte was received whole and
which is taken whole (R144), as `u` says. With a fall of VDD the word of that cycle may hold any value (log 6). The
latches, the recovery phase and the tally go with it (log 26). -/
def Obligations.FailingEntryStopsEveryBlock : Prop :=
  ∀ (s : State) (cause : FailCause), s.mainRuns = true → Memory.wf s.sram = true →
    let u := State.takeWaiting { s with power := .failing, main.access := none }
    (s.main.waiting = false → u.ret = s.ret ∧ u.signature = s.signature ∧ SameEvents s u ∧ SameClock s u)
      ∧ ∃ t, exec (.failingEntry cause .between) s = .next t ∧ t.power = .failing
      ∧ t.ret = u.ret ∧ t.signature = u.signature ∧ SameEvents u t ∧ SameClock u t
      ∧ t.main.access = none ∧ t.main.holdTimer = none ∧ t.main.prdy = .inactive ∧ t.main.pd = none
      ∧ t.main.owner = .nobody ∧ t.main.cycle = none ∧ t.engine = .stopped
      ∧ (∀ w, t.counter w = .absent ∧ t.slot w = .empty) ∧ t.main.xfer = .idle ∧ t.portAnswers = false
      ∧ t.main.waiting = false ∧ t.msclHeld = false
      ∧ t.main.occLatch = none ∧ t.main.stampLatch = none ∧ t.main.eventLatch = none
      ∧ t.main.phase = none ∧ t.main.tally = none
      ∧ t.main.examining = false ∧ t.port = s.port ∧ t.osc = s.osc
      ∧ (s.main.cycle = none → t.sram = s.sram)
      ∧ ∀ c, s.main.cycle = some c →
          (c.wr = false → t.sram = s.sram)
          ∧ (c.wr = true → cause ≠ .vdd → Landed s t c.addr c.lanes c.data)
          ∧ (c.wr = true → cause = .vdd → SameMemoryBut s t c.addr allLanes)

/-- FAILING_ENTRY inside an append (R33, R35, R49): between the steps the slot at the head holds a body and no valid
mark and the cursors and the count are as they were; after the mark step the record is LIVE with the head, the occupancy
and the count advanced, and a JOURNAL_HIGH due had been queued or not (R143). In both the new data has not been written.
The points are operands of the command (log 13); that none has the write of the new data begun and a JOURNAL_HIGH due
not queued is the model's (log 39). -/
def Obligations.FailureInsideAnAppend : Prop :=
  ∀ (s : State) (a : Access) (w : Win) (e : Entry) (cause : FailCause), s.AtMemory a .journaled →
    s.main.cycle = some a.oldReadCycle → a.window = some w → s.entry w = some e → s.ret.journal.Lawful →
    s.ret.journal.occ < 1024 →
    (∃ u, exec (.failingEntry cause .appendBody) s = exec (.failingEntry cause .between) u ∧ u.sram = s.sram
        ∧ u.main = s.main ∧ u.entry w = some e ∧ (u.ret.journal.slot s.ret.journal.head).valid = false
        ∧ (u.ret.journal.slot s.ret.journal.head).addr = a.addr
        ∧ (∀ p, p ≠ s.ret.journal.head → u.ret.journal.slot p = s.ret.journal.slot p)
        ∧ u.ret.journal.head = s.ret.journal.head ∧ u.ret.journal.tail = s.ret.journal.tail
        ∧ u.ret.journal.occ = s.ret.journal.occ)
      ∧ ∀ posted, ∃ u, exec (.failingEntry cause (.appendMark posted)) s = exec (.failingEntry cause .between) u
        ∧ u.sram = s.sram ∧ u.main.cycle = s.main.cycle
        ∧ u.entry w = some { e with count := e.count + 1 }
        ∧ (u.ret.journal.slot s.ret.journal.head).liveOf w = true
        ∧ (u.ret.journal.slot s.ret.journal.head).old = Memory.readWord s.sram a.addr
        ∧ u.ret.journal.head = (s.ret.journal.head + 1) % 1024 ∧ u.ret.journal.tail = s.ret.journal.tail
        ∧ u.ret.journal.occ = s.ret.journal.occ + 1
        ∧ EventsAre s u
            (if posted = true ∧ s.ret.highWater ≠ 0 ∧ s.ret.journal.occ + 1 = s.ret.highWater then
              [(.journalHigh, some w, BitVec.ofNat 32 (s.ret.journal.occ + 1))]
            else [])

/-- FAILING_ENTRY inside other steps (R113, R143, R150, R155, R156). After a restore's single void with nothing
examined, the window is still ROLLING_BACK, its count one lower. After a taking's retained update with its first `n`
events queued, the failure is one from the state that the taking leaves with only those records queued. In a CLEAR_ALL
being received that would be accepted, the signature is invalid after step 1, the retained state at its defaults after
step 2, and at its end the COLD_START event may not be queued; so too in a CLEAR_ALL that waited for a control-word
write (R167), after the whole of that write's taking, by the states in which it leaves the windows. That the main-well
resets come together and after the signature is valid again is the model's (log 38). Which points there are is the
model's operand (log 13); a control-word write's taking can be one whose word has landed (log 36). -/
def Obligations.FailureFallsInsideAStep : Prop :=
  (∀ (s : State) (k : Walk) (e : Entry) (cause : FailCause), s.Restoring k e →
      ∃ u, SingleVoided s u k e ∧ u.main.walk = s.main.walk
        ∧ exec (.failingEntry cause .singleVoid) s = exec (.failingEntry cause .between) u)
    ∧ (∀ (s : State) (k : Taking) (n : Nat) (cause : FailCause) (c : Instr), s.mainRuns = true → k.IsMadeBy s c →
      ∃ v, exec c (if k.begins then s else { s with port.pcen := false }) = .next v
        ∧ exec (.failingEntry cause (.taking k n)) s
          = exec (.failingEntry cause .between)
              { v with
                port := if k.begins then v.port else s.port
                main.queue := v.main.queue.take (s.main.queue.length + n)
                main.overrun := if v.main.queue.length < s.main.queue.length + n then v.main.overrun
                  else s.main.overrun })
    ∧ (∀ (s : State) (cause : FailCause), s.AtRequest → s.controlTakingOpen = false →
      (∀ w, s.enabled w = true → s.txnState w = some .idle) →
      exec (.failingEntry cause (.clearAll .invalid)) s = exec (.failingEntry cause .between) { s with signature := false }
        ∧ exec (.failingEntry cause (.clearAll .defaulted)) s
          = exec (.failingEntry cause .between) { s with signature := false, ret := Retained.cold }
        ∧ ∃ t, exec (.failingEntry cause (.clearAll .unposted)) s = .next t ∧ t.power = .failing ∧ t.signature = true
          ∧ t.ret = Retained.cold ∧ t.main.queue = [] ∧ t.main.overrun = false)
    ∧ ∀ (s : State) (a : Access) (w : Win) (cause : FailCause), s.ControlWrite a w → s.main.waiting = true →
      s.main.reqCode.extractLsb' 0 4 = 5#4 →
      ∃ u, exec (s.examination a w).command { s with port.pcen := false, main.waiting := false } = .next u
        ∧ ((∀ v, u.enabled v = true → u.txnState v = some .idle) →
          exec (.failingEntry cause (.clearAllBehind .invalid)) s
              = exec (.failingEntry cause .between) { u with port := s.port, signature := false }
            ∧ exec (.failingEntry cause (.clearAllBehind .defaulted)) s
              = exec (.failingEntry cause .between) { u with port := s.port, signature := false, ret := Retained.cold }
            ∧ ∃ t, exec (.failingEntry cause (.clearAllBehind .unposted)) s = .next t ∧ t.power = .failing
              ∧ t.signature = true ∧ t.ret = Retained.cold ∧ t.main.queue = [] ∧ t.main.overrun = false)

/-- RETAINING_ENTRY and VRET_FALL (R145, R146, R148): the retention well is kept through the loss of VDD; a fall of VRET
makes the signature invalid in any power state, and outside RETAINING changes nothing else. The main well in RETAINING
is the model's (log 8), and what VRET's fall leaves is free (log 7). A part whose VDD is good goes on waiting while
another cause for FAILING holds (R145, R147), with everything kept and its oscillator running; in RETAINING that VDD can
fall past the switchover level again. That these are operands and a second form of rows is the model's (log 13), and so
is that a loss of VDD sets the trains' phase to 0 with nothing due, from which they start again (R118; log 12). -/
def Obligations.RetainingKeepsTheRetentionWell : Prop :=
  ∀ s : State,
    (s.power = .failing →
        ∃ t, exec .retainingEntry s = .next t ∧ t.power = .retaining ∧ t.signature = s.signature ∧ t.ret = s.ret
          ∧ t.sram = s.sram ∧ t.main.cycle = none ∧ t.main.prdy = .inactive ∧ t.portAnswers = false
          ∧ t.alertn = false ∧ t.main.access = none)
      ∧ (s.power ≠ .retaining → exec .vretFall s = .next { s with signature := false })
      ∧ (s.power = .retaining →
          (∃ t, exec .vretFall s = .next t ∧ t.power = .retaining ∧ t.signature = false ∧ t.sram = s.sram
              ∧ t.main = s.main)
            ∧ exec .retainingEntry s = .next (if s.vdd = .belowSwitchover then s else
                { s with vdd := .belowSwitchover, osc := Oscillator.start }))
      ∧ ((s.power = .failing ∨ s.power = .retaining) → ∀ madr cause,
          exec (exitCommand s.power madr (.waits cause)) s = .next
            { s with
              vdd := if cause = .vdd then .belowGood else .good
              pfail := decide (cause = .pfailn), rst := decide (cause = .rstn) })

/-- FAILING_EXIT and RETAINING_EXIT with an invalid signature (R145, R147, R149): a cold initialisation that runs to its
end leaves the starting values of R149, ACTIVE and the COLD_START event; one that is cut short leaves the signature
invalid and the power state as it was: after its step 1 nothing else is done, after step 2 the retained state has its
starting values, after step 3 the main well is reset too, the event queue empty and ALERTN released. The cut is an
operand (log 13), one of a recovery does not fit and is passed over (log 14), and an access still presented is taken
(log 21). -/
def Obligations.InvalidSignatureStartsCold : Prop :=
  ∀ (s : State) (madr : BitVec 2), (s.power = .failing ∨ s.power = .retaining) → s.signature = false →
    (s.port.presents = false →
        exec (exitCommand s.power madr .whole) s = .next
          { s with
            power := .active, signature := true, vdd := .good, pfail := false, rst := false, ret := Retained.cold
            main := { MainWell.cold madr with
                      queue := [{ kind := .coldStart, window := none, detail := 0, stamp := 0 }] } })
      ∧ (s.port.presents = true →
        ∃ t, exec (exitCommand s.power madr .whole) s = .next t ∧ t.power = .active
          ∧ t.signature = true ∧ t.ret = Retained.cold ∧ t.main.access.isSome = true
          ∧ t.main.queue = [{ kind := .coldStart, window := none, detail := 0, stamp := 0 }])
      ∧ (∀ n, exec (exitCommand s.power madr (.placing n)) s = exec (exitCommand s.power madr .whole) s)
      ∧ ∀ cause step, exec (exitCommand s.power madr (.coldCut cause step)) s = .next
          { s with
            signature := false
            ret := if step = .invalid then s.ret else Retained.cold
            main := if step = .mainReset then MainWell.cold madr else s.main
            vdd := if cause = .vdd then .belowGood else .good
            pfail := decide (cause = .pfailn), rst := decide (cause = .rstn) }

/-- FAILING_EXIT and RETAINING_EXIT with a valid signature that stop in phase PLACING (R151, R152, R23): the main well
is reset, the unmarked slot at the head discarded, the windows below `n` have had their request and the others not, the
tally counts the windows kept, and neither port answers. From phase PLACING either command goes on, to the requests
below a further window. An exit that runs on does as one that stopped on the way. That an exit can stop there, and go on
by the same command, is the model's (log 14), and so is that a decayed record which names a kept window of count 0 is
voided too (log 32) and that no stop falls between the main-well reset and the discard (log 41). -/
def Obligations.ExitsCanStopInPlacing : Prop :=
  (∀ (s : State) (madr : BitVec 2) (n : Fin 9), (s.power = .failing ∨ s.power = .retaining) → s.signature = true →
    s.ret.journal.Lawful →
    let r : State :=
      { s with power := .recovering, vdd := .good, pfail := false, rst := false, main := MainWell.cold madr }
    ∃ t, exec (exitCommand s.power madr (.placing n)) s = .next t ∧ PlacingOnly r t
      ∧ t.main.phase = some (.placing n) ∧ t.main.tally = some { rolledBack := 0, kept := s.keptCount 0 n.val }
      ∧ t.takesAccesses = false ∧ t.portAnswers = false ∧ t.main.queue = [] ∧ t.main.overrun = false
      ∧ (s.ret.journal.occ < 1024 → t.ret.journal.slot s.ret.journal.head = Slot.clear)
      ∧ (∀ w : Win, w.val < n.val → RecoveryRequested r t w) ∧ (∀ w : Win, n.val ≤ w.val → NotRequested r t w)
      ∧ exec (exitCommand s.power madr .whole) s = exec (.failingExit madr .whole) t)
    ∧ ∀ (s : State) (madr : BitVec 2) (m n : Fin 9) (y : Tally), s.power = .recovering →
    s.main.phase = some (.placing m) → s.main.tally = some y → s.ret.journal.Lawful →
    ∃ t, exec (.failingExit madr (.placing n)) s = .next t ∧ exec (.retainingExit madr (.placing n)) s = .next t
      ∧ PlacingOnly s t ∧ t.main.phase = some (.placing (max m n))
      ∧ t.main.tally = some { y with kept := y.kept + s.keptCount m.val n.val }
      ∧ (∀ w : Win, m.val ≤ w.val → w.val < n.val → RecoveryRequested s t w)
      ∧ (∀ w : Win, w.val < m.val ∨ n.val ≤ w.val → NotRequested s t w)
      ∧ ((∀ w : Win, m.val ≤ w.val → s.slot w = .empty) → SameEvents s t)
      ∧ exec (.retainingExit madr .whole) s = exec (.failingExit madr .whole) t

/-- FAILING_EXIT and RETAINING_EXIT with a valid signature that run to their end, and the rest of phase PLACING (R151 to
R153, R23, R155): each unfinished window is ROLLING_BACK with cause RECOVERY and pending, or kept with its records
voided and a KEPT receipt with their number, by its recovery policy; IDLE, DAMAGED and disabled windows stay. Phase
WALKING then begins: an access still presented is taken as a new one, and with no window to roll back RECOVERING ends at
once, with RECOVERY_DONE and the tally. The order of that access and the end of RECOVERING is the model's (log 19), and
so is that a decayed record which names a kept window of count 0 is voided too (log 32). -/
def Obligations.RecoveryPlacesEveryUnfinishedWindow : Prop :=
  (∀ (s : State) (madr : BitVec 2), (s.power = .failing ∨ s.power = .retaining) → s.signature = true →
    s.ret.journal.Lawful →
    let r : State :=
      { s with power := .recovering, vdd := .good, pfail := false, rst := false, main := MainWell.cold madr }
    ∃ u, exec (exitCommand s.power madr .whole) s = .next u.takePresented.endRecovering ∧ PlacingOnly r u
      ∧ u.main.phase = some .walking ∧ u.main.tally = some { rolledBack := 0, kept := s.keptCount 0 8 }
      ∧ u.main.queue = [] ∧ u.main.overrun = false ∧ (∀ w, RecoveryRequested r u w)
      ∧ (s.port.presents = false → u.takePresented = u)
      ∧ (s.port.presents = true → AccessOnly u u.takePresented
          ∧ Classified { u with main.prdy := .inactive, main.pd := none } u.takePresented
              { addr := s.port.pa, lanes := s.port.pbe, wr := s.port.pwen, data := s.port.pd, cls := .passed,
                window := none, cond := .waiting, withdrawn := false })
      ∧ ((∃ w, s.unfinished w = true ∧ (s.desc w).policy = .rollback) →
          u.takePresented.endRecovering = u.takePresented)
      ∧ ((∀ w, s.unfinished w = true → (s.desc w).policy = .keep) →
          ∃ t, exec (exitCommand s.power madr .whole) s = .next t ∧ t.power = .active ∧ t.main.phase = none
            ∧ t.main.tally = none
            ∧ EventsAre u.takePresented t
                [(.recoveryDone, none, detailTally { rolledBack := 0, kept := s.keptCount 0 8 })]))
    ∧ ∀ (s : State) (madr : BitVec 2) (m : Fin 9) (y : Tally), s.power = .recovering →
    s.main.phase = some (.placing m) → s.main.tally = some y → s.ret.journal.Lawful →
    ∃ u, exec (.failingExit madr .whole) s = .next u.takePresented.endRecovering
      ∧ exec (.retainingExit madr .whole) s = .next u.takePresented.endRecovering
      ∧ PlacingOnly s u ∧ u.main.phase = some .walking
      ∧ u.main.tally = some { y with kept := y.kept + s.keptCount m.val 8 }
      ∧ (∀ w : Win, m.val ≤ w.val → RecoveryRequested s u w) ∧ (∀ w : Win, w.val < m.val → NotRequested s u w)

/-! ## Frames -/

/-- Every command leaves every byte of SRAM as it reads, but for the enabled lanes of the word whose write cycle is
being driven, at the commands at whose end a cycle lands (R74, R86, R106, R132); a fall of VDD can take all of that
word. -/
def Obligations.SramChangesOnlyByTheDrivenCycle : Prop :=
  ∀ (c : Instr) (s t : State), exec c s = .next t →
    (c.landsCycle = false → t.sram = s.sram)
      ∧ (s.main.cycle = none → t.sram = s.sram)
      ∧ ∀ k, s.main.cycle = some k →
          (k.wr = false → t.sram = s.sram)
          ∧ SameMemoryBut s t k.addr (match c with | .failingEntry .vdd _ => allLanes | _ => k.lanes)

/-- What a command outside a named list leaves alone: the journal, the descriptors and the configuration, the entries
and the receipt slots, the counters, the stamp and the oscillator, the memory port, the engine, the management port, and
the power state. The commands that end a taking are spoken of with no request waiting, which they would take (log 25).
-/
def Obligations.CommandsLeaveTheRestAlone : Prop :=
  ∀ (c : Instr) (s t : State), exec c s = .next t → (c.takesWaiting = true → s.main.waiting = false) →
    (c.movesJournal = false → t.ret.journal = s.ret.journal)
      ∧ (c.movesConfig = false → SameConfig s t)
      ∧ (c.movesWindows = false → t.ret.entries = s.ret.entries ∧ t.main.slots = s.main.slots)
      ∧ (c.movesTime = false → SameTime s t)
      ∧ (c.movesSequencer = false → SameSequencer s t)
      ∧ (c.movesEngine = false → SameEngine s t)
      ∧ (c.movesManagement = false → SameManagement s t)
      ∧ (c.movesPower = false → SamePower s t)

/-! ## Invariants -/

/-- The laws hold after reset (log 1) and at a first power-up, with the SRAM's and the oscillator's starting values as
the model has them (logs 4, 12), and the retention well's before the first cold initialisation (log 40). -/
def Obligations.LawsHoldAtReset : Prop :=
  State.reset.Lawful ∧ State.powerOn.Lawful ∧ Memory.wf State.reset.sram = true
    ∧ State.reset.main.queue.length ≤ 16 ∧ State.reset.ret.WindowsLawful

/-- Every step keeps the SRAM in its canonical form, which is the model's own way of holding it (log 4), and the event
queue at sixteen records or fewer (R170). -/
def Obligations.EveryStepKeepsMemoryAndQueueWithinForm : Prop :=
  (∀ s t : State, Memory.wf s.sram = true → step s = .next t → Memory.wf t.sram = true)
    ∧ ∀ s t : State, s.main.queue.length ≤ 16 → step s = .next t → t.main.queue.length ≤ 16

/-- Every step keeps the Window Table's law (R57, R60), but for a retained state that a fall of VRET has lost. -/
def Obligations.EveryStepKeepsTheWindowTable : Prop :=
  ∀ s t : State, (s.signature = true ∨ s.power ≠ .retaining → s.ret.WindowsLawful) → step s = .next t →
    (t.signature = true ∨ t.power ≠ .retaining → t.ret.WindowsLawful)

/-- Every step keeps the whole law: the ring (R28, R30), the counts (R3), the fields of the entries (R2), the engine
(R100), the counters (R121, R123), the access path (R71, R75, R85, R86), the oscillator (R118), a waiting request (R160,
R165) and the power state (R139). The law also holds choices of the model: at rest RECOVERING is in phase PLACING or in
WALKING with work left, and no walk is EXAMINING (logs 14, 19); what the main well, the phase and the tally hold in
RETAINING and FAILING (logs 8, 26); how the trains' phase, a waiting request and a control-word write whose marker is
yet to be taken are held (logs 12, 25, 36). -/
def Obligations.EveryStepKeepsTheLaw : Prop :=
  ∀ s t : State, s.Lawful → step s = .next t → t.Lawful

/-- A write reaches memory for an OPEN window only after its record holds the word's previous content (R75): whenever
the new data of a journaled write is being written, in a lawful state, the newest record is LIVE, names the window and
the word, agrees with its check code, and holds what the word still reads. -/
def Obligations.NewDataIsWrittenAfterItsRecord : Prop :=
  ∀ (s t : State) (a : Access) (w : Win), s.Lawful → s.mainRuns = true → a.window = some w → s.writing a w →
    exec .newDataWriteComplete s = .next t →
    (t.ret.journal.slot (prevPos t.ret.journal.head)).liveOf w = true
      ∧ (t.ret.journal.slot (prevPos t.ret.journal.head)).addr = a.addr
      ∧ (t.ret.journal.slot (prevPos t.ret.journal.head)).old = Memory.readWord s.sram a.addr
      ∧ (t.ret.journal.slot (prevPos t.ret.journal.head)).checks = true
end

