-- ==== Sys2Proof/Laws/Cells.lean ====
section
/-! SUPPORT. The sparse cells: what is read after a write, and that a write keeps the canonical form. -/

namespace Sys2Proof.Machine

section Cells
variable {α : Type} [DecidableEq α]

theorem cellsWfFrom_mono {d : α} {m : List (Nat × α)} {lo lo' : Nat} (h : cellsWfFrom d lo m = true) (hl : lo' ≤ lo) :
    cellsWfFrom d lo' m = true := by
  cases m with
  | nil => rfl
  | cons c t =>
    obtain ⟨k, v⟩ := c
    simp only [cellsWfFrom, Bool.and_eq_true, decide_eq_true_eq] at h ⊢
    exact ⟨⟨by omega, h.1.2⟩, h.2⟩

/-- An address below every listed one reads as unlisted. -/
theorem cellsGet_below {d : α} {m : List (Nat × α)} {lo a : Nat} (h : cellsWfFrom d lo m = true) (ha : a < lo) :
    cellsGet d m a = d := by
  induction m generalizing lo with
  | nil => rfl
  | cons c t ih =>
    obtain ⟨k, v⟩ := c
    simp only [cellsWfFrom, Bool.and_eq_true, decide_eq_true_eq] at h
    have hk : k ≠ a := by omega
    simp only [cellsGet, hk, if_false]
    exact ih h.2 (by omega)

/-- Another address reads as before, whatever the list. -/
theorem cellsGet_set_ne (d : α) (m : List (Nat × α)) {a b : Nat} (v : α) (h : b ≠ a) :
    cellsGet d (cellsSet d m a v) b = cellsGet d m b := by
  induction m with
  | nil => simp only [cellsSet]; split <;> simp [cellsGet, h.symm]
  | cons c t ih =>
    obtain ⟨k, x⟩ := c
    simp only [cellsSet]
    split
    · split
      · rfl
      · simp only [cellsGet, h.symm, if_false]
    · split
      · rename_i hk
        subst hk
        split <;> simp only [cellsGet, h.symm, if_false]
      · simp only [cellsGet, ih]

/-- The address written reads as the value written. -/
theorem cellsGet_set_eq {d : α} {m : List (Nat × α)} {lo : Nat} (h : cellsWfFrom d lo m = true) (a : Nat) (v : α) :
    cellsGet d (cellsSet d m a v) a = v := by
  induction m generalizing lo with
  | nil => simp only [cellsSet]; split <;> simp_all [cellsGet]
  | cons c t ih =>
    obtain ⟨k, x⟩ := c
    have h' := h
    simp only [cellsWfFrom, Bool.and_eq_true, decide_eq_true_eq] at h
    simp only [cellsSet]
    split
    · split
      · rename_i hlt hv
        rw [hv]
        exact cellsGet_below (lo := k) (by simp [cellsWfFrom, h.1.2, h.2]) hlt
      · simp [cellsGet]
    · split
      · rename_i hk
        subst hk
        split
        · rename_i hv
          rw [hv]
          exact cellsGet_below h.2 (by omega)
        · simp [cellsGet]
      · rename_i hk
        simp only [cellsGet, show ¬ k = a from fun e => hk e.symm, if_false]
        exact ih h.2

theorem cellsSet_wfFrom {d : α} {m : List (Nat × α)} {lo a : Nat} (h : cellsWfFrom d lo m = true) (ha : lo ≤ a) (v : α) :
    cellsWfFrom d lo (cellsSet d m a v) = true := by
  induction m generalizing lo with
  | nil =>
    simp only [cellsSet]
    split
    · rfl
    · simp_all [cellsWfFrom]
  | cons c t ih =>
    obtain ⟨k, x⟩ := c
    have h' := h
    simp only [cellsWfFrom, Bool.and_eq_true, decide_eq_true_eq] at h
    simp only [cellsSet]
    split
    · split
      · exact h'
      · rename_i hlt hv
        simp only [cellsWfFrom, Bool.and_eq_true, decide_eq_true_eq]
        exact ⟨⟨ha, hv⟩, ⟨by omega, h.1.2⟩, h.2⟩
    · split
      · rename_i hk
        subst hk
        split
        · exact cellsWfFrom_mono h.2 (by omega)
        · rename_i hv
          simp only [cellsWfFrom, Bool.and_eq_true, decide_eq_true_eq]
          exact ⟨⟨ha, hv⟩, h.2⟩
      · simp only [cellsWfFrom, Bool.and_eq_true, decide_eq_true_eq]
        exact ⟨h.1, ih h.2 (by omega)⟩

/-- A write keeps the canonical form. -/
theorem cellsSet_wf {d : α} {m : List (Nat × α)} (h : cellsWf d m = true) (a : Nat) (v : α) :
    cellsWf d (cellsSet d m a v) = true := cellsSet_wfFrom h (Nat.zero_le _) v

/-- In canonical form, the address written reads as the value written. -/
theorem cellsGet_set {d : α} {m : List (Nat × α)} (h : cellsWf d m = true) (a b : Nat) (v : α) :
    cellsGet d (cellsSet d m a v) b = if b = a then v else cellsGet d m b := by
  split
  · rename_i hb
    rw [hb]
    exact cellsGet_set_eq h a v
  · exact cellsGet_set_ne d m v (by assumption)

end Cells

/-! ## The SRAM -/

theorem laneKey_inj {a b : Addr} {n k : Nat} (hn : n < 4) (hk : k < 4) (h : laneKey a n = laneKey b k) :
    a = b ∧ n = k := by
  unfold laneKey at h
  have h1 : a.toNat = b.toNat := by omega
  exact ⟨BitVec.eq_of_toNat_eq h1, by omega⟩

theorem Memory.writeLane_wf {m : List Host.Cell} (h : Memory.wf m = true) (a : Addr) (l : Lanes) (x : Word) (n : Nat) :
    Memory.wf (Memory.writeLane m a l x n) = true := by
  unfold Memory.writeLane
  split
  · exact cellsSet_wf h _ _
  · exact h

/-- A write keeps the canonical form of the SRAM. -/
theorem Memory.write_wf {m : List Host.Cell} (h : Memory.wf m = true) (a : Addr) (l : Lanes) (x : Word) :
    Memory.wf (Memory.write m a l x) = true :=
  Memory.writeLane_wf (Memory.writeLane_wf (Memory.writeLane_wf (Memory.writeLane_wf h _ _ _ _) _ _ _ _) _ _ _ _) _ _ _ _

theorem Memory.readLane_writeLane_ne (m : List Host.Cell) {a b : Addr} (l : Lanes) (x : Word) {n k : Nat} (hn : n < 4)
    (hk : k < 4) (h : a ≠ b ∨ k ≠ n ∨ l.getLsbD k = false) :
    Memory.readLane (Memory.writeLane m a l x k) b n = Memory.readLane m b n := by
  unfold Memory.writeLane
  split
  · rename_i hl
    apply cellsGet_set_ne
    intro e
    have := laneKey_inj hn hk e
    rcases h with h | h | h
    · exact h this.1.symm
    · exact h this.2.symm
    · simp [hl] at h
  · rfl

/-- A lane that a write does not enable, or of another word, reads as before. -/
theorem Memory.readLane_write_ne (m : List Host.Cell) {a b : Addr} (l : Lanes) (x : Word) {n : Nat} (hn : n < 4)
    (h : a ≠ b ∨ l.getLsbD n = false) : Memory.readLane (Memory.write m a l x) b n = Memory.readLane m b n := by
  have key : ∀ k, k < 4 → ∀ m', Memory.readLane (Memory.writeLane m' a l x k) b n = Memory.readLane m' b n := by
    intro k hk m'
    apply Memory.readLane_writeLane_ne m' l x hn hk
    rcases h with h | h
    · exact Or.inl h
    · by_cases e : k = n
      · exact Or.inr (Or.inr (by rw [e]; exact h))
      · exact Or.inr (Or.inl e)
  unfold Memory.write
  rw [key 3 (by decide), key 2 (by decide), key 1 (by decide), key 0 (by decide)]

theorem Memory.readLane_writeLane_eq {m : List Host.Cell} (h : Memory.wf m = true) (a : Addr) (l : Lanes) (x : Word)
    {n : Nat} (hl : l.getLsbD n = true) :
    Memory.readLane (Memory.writeLane m a l x n) a n = x.extractLsb' (8 * n) 8 := by
  unfold Memory.writeLane Memory.readLane
  rw [if_pos hl]
  exact cellsGet_set_eq h _ _

/-- A lane that a write enables reads as the byte written. -/
theorem Memory.readLane_write_eq {m : List Host.Cell} (h : Memory.wf m = true) (a : Addr) (l : Lanes) (x : Word) {n : Nat}
    (hn : n < 4) (hl : l.getLsbD n = true) :
    Memory.readLane (Memory.write m a l x) a n = x.extractLsb' (8 * n) 8 := by
  have w0 := Memory.writeLane_wf h a l x 0
  have w1 := Memory.writeLane_wf w0 a l x 1
  have w2 := Memory.writeLane_wf w1 a l x 2
  unfold Memory.write
  match n, hn with
  | 3, _ => exact Memory.readLane_writeLane_eq w2 a l x hl
  | 2, _ =>
    rw [Memory.readLane_writeLane_ne _ l x (by decide) (by decide) (Or.inr (Or.inl (by decide)))]
    exact Memory.readLane_writeLane_eq w1 a l x hl
  | 1, _ =>
    rw [Memory.readLane_writeLane_ne _ l x (by decide) (by decide) (Or.inr (Or.inl (by decide))),
      Memory.readLane_writeLane_ne _ l x (by decide) (by decide) (Or.inr (Or.inl (by decide)))]
    exact Memory.readLane_writeLane_eq w0 a l x hl
  | 0, _ =>
    rw [Memory.readLane_writeLane_ne _ l x (by decide) (by decide) (Or.inr (Or.inl (by decide))),
      Memory.readLane_writeLane_ne _ l x (by decide) (by decide) (Or.inr (Or.inl (by decide))),
      Memory.readLane_writeLane_ne _ l x (by decide) (by decide) (Or.inr (Or.inl (by decide)))]
    exact Memory.readLane_writeLane_eq h a l x hl

/-- A word is its four bytes. -/
theorem word_of_bytes (x : Word) :
    x.extractLsb' 24 8 ++ x.extractLsb' 16 8 ++ x.extractLsb' 8 8 ++ x.extractLsb' 0 8 = x := by
  apply BitVec.eq_of_getLsbD_eq
  intro i hi
  simp only [BitVec.getLsbD_append, BitVec.getLsbD_extractLsb']
  by_cases h0 : i < 8
  · simp [h0]
  · by_cases h1 : i < 16
    · have : i - 8 < 8 := by omega
      simp [h0, this, show 8 + (i - 8) = i by omega]
    · by_cases h2 : i < 24
      · have h3 : ¬ (i - 8 < 8) := by omega
        have h4 : i - 8 - 8 < 8 := by omega
        simp [h0, h3, h4, show 16 + (i - 8 - 8) = i by omega]
      · have h3 : ¬ (i - 8 < 8) := by omega
        have h4 : ¬ (i - 8 - 8 < 8) := by omega
        have h5 : i - 8 - 8 - 8 < 8 := by omega
        simp [h0, h3, h4, h5, show 24 + (i - 8 - 8 - 8) = i by omega]

/-- A full-word write reads back. -/
theorem Memory.readWord_write_all {m : List Host.Cell} (h : Memory.wf m = true) (a : Addr) (x : Word) :
    Memory.readWord (Memory.write m a allLanes x) a = x := by
  unfold Memory.readWord
  rw [Memory.readLane_write_eq h a _ x (by decide) (by decide), Memory.readLane_write_eq h a _ x (by decide) (by decide),
    Memory.readLane_write_eq h a _ x (by decide) (by decide), Memory.readLane_write_eq h a _ x (by decide) (by decide)]
  exact word_of_bytes x

/-- Another word reads as before. -/
theorem Memory.readWord_write_ne (m : List Host.Cell) {a b : Addr} (l : Lanes) (x : Word) (h : a ≠ b) :
    Memory.readWord (Memory.write m a l x) b = Memory.readWord m b := by
  unfold Memory.readWord
  rw [Memory.readLane_write_ne m l x (by decide) (Or.inl h), Memory.readLane_write_ne m l x (by decide) (Or.inl h),
    Memory.readLane_write_ne m l x (by decide) (Or.inl h), Memory.readLane_write_ne m l x (by decide) (Or.inl h)]

/-! ## Per-window registers -/

@[simp] theorem winGet_winSet_eq {α : Type} (v : Vector α 8) (w : Win) (x : α) : winGet (winSet v w x) w = x := by
  simp [winGet, winSet]

theorem winGet_winSet_ne {α : Type} (v : Vector α 8) {w u : Win} (x : α) (h : u ≠ w) :
    winGet (winSet v w x) u = winGet v u := by
  have : w.val ≠ u.val := fun e => h (Fin.ext e.symm)
  simp [winGet, winSet, this]

theorem winGet_winSet {α : Type} (v : Vector α 8) (w u : Win) (x : α) :
    winGet (winSet v w x) u = if u = w then x else winGet v u := by
  split
  · rename_i h
    rw [h]
    exact winGet_winSet_eq v w x
  · exact winGet_winSet_ne v x (by assumption)

@[simp] theorem winSet_winGet {α : Type} (v : Vector α 8) (w : Win) : winSet v w (winGet v w) = v := by
  unfold winSet winGet
  simp

@[simp] theorem winGet_map {α β : Type} (v : Vector α 8) (f : α → β) (w : Win) : winGet (v.map f) w = f (winGet v w) := by
  simp [winGet]

@[simp] theorem winGet_replicate {α : Type} (x : α) (w : Win) : winGet (Vector.replicate 8 x) w = x := by
  simp [winGet]

theorem mem_allWins (w : Win) : w ∈ allWins := by
  revert w
  decide

/-- The lowest-numbered window that satisfies `p`. -/
theorem firstWin_eq_some (p : Win → Bool) (w : Win) :
    firstWin p = some w ↔ p w = true ∧ ∀ v, v < w → p v = false := by
  have gen : ∀ l : List Win, l.Pairwise (· < ·) → w ∈ l →
      (l.find? p = some w ↔ p w = true ∧ ∀ v ∈ l, v < w → p v = false) := by
    intro l hl hw
    induction l with
    | nil => cases hw
    | cons x t ih =>
      rw [List.pairwise_cons] at hl
      rw [List.find?_cons]
      cases hx : p x with
      | true =>
        simp only [Option.some.injEq]
        constructor
        · intro e
          subst e
          refine ⟨hx, fun v hv hlt => ?_⟩
          rcases List.mem_cons.mp hv with e | e
          · exact absurd hlt (by rw [e]; exact lt_irrefl _)
          · exact absurd hlt (lt_asymm (hl.1 v e))
        · intro h
          rcases List.mem_cons.mp hw with e | e
          · exact e.symm
          · have := h.2 x List.mem_cons_self (hl.1 w e)
            simp [hx] at this
      | false =>
        have hne : w ≠ x ∨ w = x := by by_cases e : w = x <;> simp [e]
        rcases List.mem_cons.mp hw with e | e
        · subst e
          simp only [hx, Bool.false_eq_true, false_and, iff_false]
          intro hf
          have := List.find?_some hf
          simp [hx] at this
        · rw [ih hl.2 e]
          constructor
          · rintro ⟨h1, h2⟩
            refine ⟨h1, fun v hv hlt => ?_⟩
            rcases List.mem_cons.mp hv with e' | e'
            · rw [e']; exact hx
            · exact h2 v e' hlt
          · rintro ⟨h1, h2⟩
            exact ⟨h1, fun v hv hlt => h2 v (List.mem_cons_of_mem _ hv) hlt⟩
  rw [firstWin, gen allWins (by decide) (mem_allWins w)]
  constructor
  · rintro ⟨h1, h2⟩
    exact ⟨h1, fun v hv => h2 v (mem_allWins v) hv⟩
  · rintro ⟨h1, h2⟩
    exact ⟨h1, fun v _ hv => h2 v hv⟩

theorem firstWin_eq_none (p : Win → Bool) : firstWin p = none ↔ ∀ w, p w = false := by
  rw [firstWin, List.find?_eq_none]
  constructor
  · intro h w
    have := h w (mem_allWins w)
    simpa using this
  · intro h w _
    simp [h w]

end Sys2Proof.Machine
end

