-- ==== Sys2Proof/Laws/State.lean ====
section
/-! SUPPORT. One lemma per field per state update, true by rfl, so that no later proof unfolds a record update. -/

namespace Sys2Proof.Machine

/-! `State.setEntry` -/

@[simp] theorem State.setEntry_power (s : State) (w : Win) (e : Option Entry) : (s.setEntry w e).power = s.power := rfl
@[simp] theorem State.setEntry_signature (s : State) (w : Win) (e : Option Entry) : (s.setEntry w e).signature = s.signature := rfl
@[simp] theorem State.setEntry_vdd (s : State) (w : Win) (e : Option Entry) : (s.setEntry w e).vdd = s.vdd := rfl
@[simp] theorem State.setEntry_pfail (s : State) (w : Win) (e : Option Entry) : (s.setEntry w e).pfail = s.pfail := rfl
@[simp] theorem State.setEntry_rst (s : State) (w : Win) (e : Option Entry) : (s.setEntry w e).rst = s.rst := rfl
@[simp] theorem State.setEntry_port (s : State) (w : Win) (e : Option Entry) : (s.setEntry w e).port = s.port := rfl
@[simp] theorem State.setEntry_main (s : State) (w : Win) (e : Option Entry) : (s.setEntry w e).main = s.main := rfl
@[simp] theorem State.setEntry_ma (s : State) (w : Win) (e : Option Entry) : (s.setEntry w e).ma = s.ma := rfl
@[simp] theorem State.setEntry_mbe (s : State) (w : Win) (e : Option Entry) : (s.setEntry w e).mbe = s.mbe := rfl
@[simp] theorem State.setEntry_osc (s : State) (w : Win) (e : Option Entry) : (s.setEntry w e).osc = s.osc := rfl
@[simp] theorem State.setEntry_sram (s : State) (w : Win) (e : Option Entry) : (s.setEntry w e).sram = s.sram := rfl
@[simp] theorem State.setEntry_pending (s : State) (w : Win) (e : Option Entry) : (s.setEntry w e).pending = s.pending := rfl
@[simp] theorem State.setEntry_freeCount (s : State) (w : Win) (e : Option Entry) : (s.setEntry w e).freeCount = s.freeCount := rfl
@[simp] theorem State.setEntry_descriptors (s : State) (w : Win) (e : Option Entry) : (s.setEntry w e).ret.descriptors = s.ret.descriptors := rfl
@[simp] theorem State.setEntry_journal (s : State) (w : Win) (e : Option Entry) : (s.setEntry w e).ret.journal = s.ret.journal := rfl
@[simp] theorem State.setEntry_highWater (s : State) (w : Win) (e : Option Entry) : (s.setEntry w e).ret.highWater = s.ret.highWater := rfl
@[simp] theorem State.setEntry_holdLimit (s : State) (w : Win) (e : Option Entry) : (s.setEntry w e).ret.holdLimit = s.ret.holdLimit := rfl
@[simp] theorem State.setEntry_fillWord (s : State) (w : Win) (e : Option Entry) : (s.setEntry w e).ret.fillWord = s.ret.fillWord := rfl
@[simp] theorem State.setEntry_kindMask (s : State) (w : Win) (e : Option Entry) : (s.setEntry w e).ret.kindMask = s.ret.kindMask := rfl
@[simp] theorem State.setEntry_entries (s : State) (w : Win) (e : Option Entry) : (s.setEntry w e).ret.entries = winSet s.ret.entries w e := rfl

/-! `State.setJournal` -/

@[simp] theorem State.setJournal_power (s : State) (j : Journal) : (s.setJournal j).power = s.power := rfl
@[simp] theorem State.setJournal_signature (s : State) (j : Journal) : (s.setJournal j).signature = s.signature := rfl
@[simp] theorem State.setJournal_vdd (s : State) (j : Journal) : (s.setJournal j).vdd = s.vdd := rfl
@[simp] theorem State.setJournal_pfail (s : State) (j : Journal) : (s.setJournal j).pfail = s.pfail := rfl
@[simp] theorem State.setJournal_rst (s : State) (j : Journal) : (s.setJournal j).rst = s.rst := rfl
@[simp] theorem State.setJournal_port (s : State) (j : Journal) : (s.setJournal j).port = s.port := rfl
@[simp] theorem State.setJournal_main (s : State) (j : Journal) : (s.setJournal j).main = s.main := rfl
@[simp] theorem State.setJournal_ma (s : State) (j : Journal) : (s.setJournal j).ma = s.ma := rfl
@[simp] theorem State.setJournal_mbe (s : State) (j : Journal) : (s.setJournal j).mbe = s.mbe := rfl
@[simp] theorem State.setJournal_osc (s : State) (j : Journal) : (s.setJournal j).osc = s.osc := rfl
@[simp] theorem State.setJournal_sram (s : State) (j : Journal) : (s.setJournal j).sram = s.sram := rfl
@[simp] theorem State.setJournal_pending (s : State) (j : Journal) : (s.setJournal j).pending = s.pending := rfl
@[simp] theorem State.setJournal_freeCount (s : State) (j : Journal) : (s.setJournal j).freeCount = s.freeCount := rfl
@[simp] theorem State.setJournal_descriptors (s : State) (j : Journal) : (s.setJournal j).ret.descriptors = s.ret.descriptors := rfl
@[simp] theorem State.setJournal_entries (s : State) (j : Journal) : (s.setJournal j).ret.entries = s.ret.entries := rfl
@[simp] theorem State.setJournal_highWater (s : State) (j : Journal) : (s.setJournal j).ret.highWater = s.ret.highWater := rfl
@[simp] theorem State.setJournal_holdLimit (s : State) (j : Journal) : (s.setJournal j).ret.holdLimit = s.ret.holdLimit := rfl
@[simp] theorem State.setJournal_fillWord (s : State) (j : Journal) : (s.setJournal j).ret.fillWord = s.ret.fillWord := rfl
@[simp] theorem State.setJournal_kindMask (s : State) (j : Journal) : (s.setJournal j).ret.kindMask = s.ret.kindMask := rfl
@[simp] theorem State.setJournal_journal (s : State) (j : Journal) : (s.setJournal j).ret.journal = j := rfl

/-! `State.setCounter` -/

@[simp] theorem State.setCounter_power (s : State) (w : Win) (c : Counter) : (s.setCounter w c).power = s.power := rfl
@[simp] theorem State.setCounter_signature (s : State) (w : Win) (c : Counter) : (s.setCounter w c).signature = s.signature := rfl
@[simp] theorem State.setCounter_vdd (s : State) (w : Win) (c : Counter) : (s.setCounter w c).vdd = s.vdd := rfl
@[simp] theorem State.setCounter_pfail (s : State) (w : Win) (c : Counter) : (s.setCounter w c).pfail = s.pfail := rfl
@[simp] theorem State.setCounter_rst (s : State) (w : Win) (c : Counter) : (s.setCounter w c).rst = s.rst := rfl
@[simp] theorem State.setCounter_port (s : State) (w : Win) (c : Counter) : (s.setCounter w c).port = s.port := rfl
@[simp] theorem State.setCounter_ret (s : State) (w : Win) (c : Counter) : (s.setCounter w c).ret = s.ret := rfl
@[simp] theorem State.setCounter_ma (s : State) (w : Win) (c : Counter) : (s.setCounter w c).ma = s.ma := rfl
@[simp] theorem State.setCounter_mbe (s : State) (w : Win) (c : Counter) : (s.setCounter w c).mbe = s.mbe := rfl
@[simp] theorem State.setCounter_osc (s : State) (w : Win) (c : Counter) : (s.setCounter w c).osc = s.osc := rfl
@[simp] theorem State.setCounter_sram (s : State) (w : Win) (c : Counter) : (s.setCounter w c).sram = s.sram := rfl
@[simp] theorem State.setCounter_pending (s : State) (w : Win) (c : Counter) : (s.setCounter w c).pending = s.pending := rfl
@[simp] theorem State.setCounter_freeCount (s : State) (w : Win) (c : Counter) : (s.setCounter w c).freeCount = s.freeCount := rfl
@[simp] theorem State.setCounter_access (s : State) (w : Win) (c : Counter) : (s.setCounter w c).main.access = s.main.access := rfl
@[simp] theorem State.setCounter_holdTimer (s : State) (w : Win) (c : Counter) : (s.setCounter w c).main.holdTimer = s.main.holdTimer := rfl
@[simp] theorem State.setCounter_prdy (s : State) (w : Win) (c : Counter) : (s.setCounter w c).main.prdy = s.main.prdy := rfl
@[simp] theorem State.setCounter_pd (s : State) (w : Win) (c : Counter) : (s.setCounter w c).main.pd = s.main.pd := rfl
@[simp] theorem State.setCounter_owner (s : State) (w : Win) (c : Counter) : (s.setCounter w c).main.owner = s.main.owner := rfl
@[simp] theorem State.setCounter_cycle (s : State) (w : Win) (c : Counter) : (s.setCounter w c).main.cycle = s.main.cycle := rfl
@[simp] theorem State.setCounter_lastGrantProc (s : State) (w : Win) (c : Counter) : (s.setCounter w c).main.lastGrantProc = s.main.lastGrantProc := rfl
@[simp] theorem State.setCounter_examining (s : State) (w : Win) (c : Counter) : (s.setCounter w c).main.examining = s.main.examining := rfl
@[simp] theorem State.setCounter_pendSet (s : State) (w : Win) (c : Counter) : (s.setCounter w c).main.pendSet = s.main.pendSet := rfl
@[simp] theorem State.setCounter_walk (s : State) (w : Win) (c : Counter) : (s.setCounter w c).main.walk = s.main.walk := rfl
@[simp] theorem State.setCounter_stopped (s : State) (w : Win) (c : Counter) : (s.setCounter w c).main.stopped = s.main.stopped := rfl
@[simp] theorem State.setCounter_stamp (s : State) (w : Win) (c : Counter) : (s.setCounter w c).main.stamp = s.main.stamp := rfl
@[simp] theorem State.setCounter_slots (s : State) (w : Win) (c : Counter) : (s.setCounter w c).main.slots = s.main.slots := rfl
@[simp] theorem State.setCounter_ignored (s : State) (w : Win) (c : Counter) : (s.setCounter w c).main.ignored = s.main.ignored := rfl
@[simp] theorem State.setCounter_queue (s : State) (w : Win) (c : Counter) : (s.setCounter w c).main.queue = s.main.queue := rfl
@[simp] theorem State.setCounter_overrun (s : State) (w : Win) (c : Counter) : (s.setCounter w c).main.overrun = s.main.overrun := rfl
@[simp] theorem State.setCounter_target (s : State) (w : Win) (c : Counter) : (s.setCounter w c).main.target = s.main.target := rfl
@[simp] theorem State.setCounter_xfer (s : State) (w : Win) (c : Counter) : (s.setCounter w c).main.xfer = s.main.xfer := rfl
@[simp] theorem State.setCounter_index (s : State) (w : Win) (c : Counter) : (s.setCounter w c).main.index = s.main.index := rfl
@[simp] theorem State.setCounter_reqCode (s : State) (w : Win) (c : Counter) : (s.setCounter w c).main.reqCode = s.main.reqCode := rfl
@[simp] theorem State.setCounter_waiting (s : State) (w : Win) (c : Counter) : (s.setCounter w c).main.waiting = s.main.waiting := rfl
@[simp] theorem State.setCounter_arg (s : State) (w : Win) (c : Counter) : (s.setCounter w c).main.arg = s.main.arg := rfl
@[simp] theorem State.setCounter_response (s : State) (w : Win) (c : Counter) : (s.setCounter w c).main.response = s.main.response := rfl
@[simp] theorem State.setCounter_txnView (s : State) (w : Win) (c : Counter) : (s.setCounter w c).main.txnView = s.main.txnView := rfl
@[simp] theorem State.setCounter_recView (s : State) (w : Win) (c : Counter) : (s.setCounter w c).main.recView = s.main.recView := rfl
@[simp] theorem State.setCounter_occLatch (s : State) (w : Win) (c : Counter) : (s.setCounter w c).main.occLatch = s.main.occLatch := rfl
@[simp] theorem State.setCounter_stampLatch (s : State) (w : Win) (c : Counter) : (s.setCounter w c).main.stampLatch = s.main.stampLatch := rfl
@[simp] theorem State.setCounter_eventLatch (s : State) (w : Win) (c : Counter) : (s.setCounter w c).main.eventLatch = s.main.eventLatch := rfl
@[simp] theorem State.setCounter_ack (s : State) (w : Win) (c : Counter) : (s.setCounter w c).main.ack = s.main.ack := rfl
@[simp] theorem State.setCounter_sent (s : State) (w : Win) (c : Counter) : (s.setCounter w c).main.sent = s.main.sent := rfl
@[simp] theorem State.setCounter_phase (s : State) (w : Win) (c : Counter) : (s.setCounter w c).main.phase = s.main.phase := rfl
@[simp] theorem State.setCounter_tally (s : State) (w : Win) (c : Counter) : (s.setCounter w c).main.tally = s.main.tally := rfl
@[simp] theorem State.setCounter_counters (s : State) (w : Win) (c : Counter) : (s.setCounter w c).main.counters = winSet s.main.counters w c := rfl

/-! `State.discardCounter` -/

@[simp] theorem State.discardCounter_power (s : State) (w : Win) : (s.discardCounter w).power = s.power := rfl
@[simp] theorem State.discardCounter_signature (s : State) (w : Win) : (s.discardCounter w).signature = s.signature := rfl
@[simp] theorem State.discardCounter_vdd (s : State) (w : Win) : (s.discardCounter w).vdd = s.vdd := rfl
@[simp] theorem State.discardCounter_pfail (s : State) (w : Win) : (s.discardCounter w).pfail = s.pfail := rfl
@[simp] theorem State.discardCounter_rst (s : State) (w : Win) : (s.discardCounter w).rst = s.rst := rfl
@[simp] theorem State.discardCounter_port (s : State) (w : Win) : (s.discardCounter w).port = s.port := rfl
@[simp] theorem State.discardCounter_ret (s : State) (w : Win) : (s.discardCounter w).ret = s.ret := rfl
@[simp] theorem State.discardCounter_ma (s : State) (w : Win) : (s.discardCounter w).ma = s.ma := rfl
@[simp] theorem State.discardCounter_mbe (s : State) (w : Win) : (s.discardCounter w).mbe = s.mbe := rfl
@[simp] theorem State.discardCounter_osc (s : State) (w : Win) : (s.discardCounter w).osc = s.osc := rfl
@[simp] theorem State.discardCounter_sram (s : State) (w : Win) : (s.discardCounter w).sram = s.sram := rfl
@[simp] theorem State.discardCounter_pending (s : State) (w : Win) : (s.discardCounter w).pending = s.pending := rfl
@[simp] theorem State.discardCounter_freeCount (s : State) (w : Win) : (s.discardCounter w).freeCount = s.freeCount := rfl
@[simp] theorem State.discardCounter_access (s : State) (w : Win) : (s.discardCounter w).main.access = s.main.access := rfl
@[simp] theorem State.discardCounter_holdTimer (s : State) (w : Win) : (s.discardCounter w).main.holdTimer = s.main.holdTimer := rfl
@[simp] theorem State.discardCounter_prdy (s : State) (w : Win) : (s.discardCounter w).main.prdy = s.main.prdy := rfl
@[simp] theorem State.discardCounter_pd (s : State) (w : Win) : (s.discardCounter w).main.pd = s.main.pd := rfl
@[simp] theorem State.discardCounter_owner (s : State) (w : Win) : (s.discardCounter w).main.owner = s.main.owner := rfl
@[simp] theorem State.discardCounter_cycle (s : State) (w : Win) : (s.discardCounter w).main.cycle = s.main.cycle := rfl
@[simp] theorem State.discardCounter_lastGrantProc (s : State) (w : Win) : (s.discardCounter w).main.lastGrantProc = s.main.lastGrantProc := rfl
@[simp] theorem State.discardCounter_examining (s : State) (w : Win) : (s.discardCounter w).main.examining = s.main.examining := rfl
@[simp] theorem State.discardCounter_pendSet (s : State) (w : Win) : (s.discardCounter w).main.pendSet = s.main.pendSet := rfl
@[simp] theorem State.discardCounter_walk (s : State) (w : Win) : (s.discardCounter w).main.walk = s.main.walk := rfl
@[simp] theorem State.discardCounter_stopped (s : State) (w : Win) : (s.discardCounter w).main.stopped = s.main.stopped := rfl
@[simp] theorem State.discardCounter_stamp (s : State) (w : Win) : (s.discardCounter w).main.stamp = s.main.stamp := rfl
@[simp] theorem State.discardCounter_slots (s : State) (w : Win) : (s.discardCounter w).main.slots = s.main.slots := rfl
@[simp] theorem State.discardCounter_ignored (s : State) (w : Win) : (s.discardCounter w).main.ignored = s.main.ignored := rfl
@[simp] theorem State.discardCounter_queue (s : State) (w : Win) : (s.discardCounter w).main.queue = s.main.queue := rfl
@[simp] theorem State.discardCounter_overrun (s : State) (w : Win) : (s.discardCounter w).main.overrun = s.main.overrun := rfl
@[simp] theorem State.discardCounter_target (s : State) (w : Win) : (s.discardCounter w).main.target = s.main.target := rfl
@[simp] theorem State.discardCounter_xfer (s : State) (w : Win) : (s.discardCounter w).main.xfer = s.main.xfer := rfl
@[simp] theorem State.discardCounter_index (s : State) (w : Win) : (s.discardCounter w).main.index = s.main.index := rfl
@[simp] theorem State.discardCounter_reqCode (s : State) (w : Win) : (s.discardCounter w).main.reqCode = s.main.reqCode := rfl
@[simp] theorem State.discardCounter_waiting (s : State) (w : Win) : (s.discardCounter w).main.waiting = s.main.waiting := rfl
@[simp] theorem State.discardCounter_arg (s : State) (w : Win) : (s.discardCounter w).main.arg = s.main.arg := rfl
@[simp] theorem State.discardCounter_response (s : State) (w : Win) : (s.discardCounter w).main.response = s.main.response := rfl
@[simp] theorem State.discardCounter_txnView (s : State) (w : Win) : (s.discardCounter w).main.txnView = s.main.txnView := rfl
@[simp] theorem State.discardCounter_recView (s : State) (w : Win) : (s.discardCounter w).main.recView = s.main.recView := rfl
@[simp] theorem State.discardCounter_occLatch (s : State) (w : Win) : (s.discardCounter w).main.occLatch = s.main.occLatch := rfl
@[simp] theorem State.discardCounter_stampLatch (s : State) (w : Win) : (s.discardCounter w).main.stampLatch = s.main.stampLatch := rfl
@[simp] theorem State.discardCounter_eventLatch (s : State) (w : Win) : (s.discardCounter w).main.eventLatch = s.main.eventLatch := rfl
@[simp] theorem State.discardCounter_ack (s : State) (w : Win) : (s.discardCounter w).main.ack = s.main.ack := rfl
@[simp] theorem State.discardCounter_sent (s : State) (w : Win) : (s.discardCounter w).main.sent = s.main.sent := rfl
@[simp] theorem State.discardCounter_phase (s : State) (w : Win) : (s.discardCounter w).main.phase = s.main.phase := rfl
@[simp] theorem State.discardCounter_tally (s : State) (w : Win) : (s.discardCounter w).main.tally = s.main.tally := rfl
@[simp] theorem State.discardCounter_counters (s : State) (w : Win) : (s.discardCounter w).main.counters = winSet s.main.counters w .absent := rfl

/-! `State.setSlot` -/

@[simp] theorem State.setSlot_power (s : State) (w : Win) (x : ReceiptSlot) : (s.setSlot w x).power = s.power := rfl
@[simp] theorem State.setSlot_signature (s : State) (w : Win) (x : ReceiptSlot) : (s.setSlot w x).signature = s.signature := rfl
@[simp] theorem State.setSlot_vdd (s : State) (w : Win) (x : ReceiptSlot) : (s.setSlot w x).vdd = s.vdd := rfl
@[simp] theorem State.setSlot_pfail (s : State) (w : Win) (x : ReceiptSlot) : (s.setSlot w x).pfail = s.pfail := rfl
@[simp] theorem State.setSlot_rst (s : State) (w : Win) (x : ReceiptSlot) : (s.setSlot w x).rst = s.rst := rfl
@[simp] theorem State.setSlot_port (s : State) (w : Win) (x : ReceiptSlot) : (s.setSlot w x).port = s.port := rfl
@[simp] theorem State.setSlot_ret (s : State) (w : Win) (x : ReceiptSlot) : (s.setSlot w x).ret = s.ret := rfl
@[simp] theorem State.setSlot_ma (s : State) (w : Win) (x : ReceiptSlot) : (s.setSlot w x).ma = s.ma := rfl
@[simp] theorem State.setSlot_mbe (s : State) (w : Win) (x : ReceiptSlot) : (s.setSlot w x).mbe = s.mbe := rfl
@[simp] theorem State.setSlot_osc (s : State) (w : Win) (x : ReceiptSlot) : (s.setSlot w x).osc = s.osc := rfl
@[simp] theorem State.setSlot_sram (s : State) (w : Win) (x : ReceiptSlot) : (s.setSlot w x).sram = s.sram := rfl
@[simp] theorem State.setSlot_pending (s : State) (w : Win) (x : ReceiptSlot) : (s.setSlot w x).pending = s.pending := rfl
@[simp] theorem State.setSlot_freeCount (s : State) (w : Win) (x : ReceiptSlot) : (s.setSlot w x).freeCount = s.freeCount := rfl
@[simp] theorem State.setSlot_access (s : State) (w : Win) (x : ReceiptSlot) : (s.setSlot w x).main.access = s.main.access := rfl
@[simp] theorem State.setSlot_holdTimer (s : State) (w : Win) (x : ReceiptSlot) : (s.setSlot w x).main.holdTimer = s.main.holdTimer := rfl
@[simp] theorem State.setSlot_prdy (s : State) (w : Win) (x : ReceiptSlot) : (s.setSlot w x).main.prdy = s.main.prdy := rfl
@[simp] theorem State.setSlot_pd (s : State) (w : Win) (x : ReceiptSlot) : (s.setSlot w x).main.pd = s.main.pd := rfl
@[simp] theorem State.setSlot_owner (s : State) (w : Win) (x : ReceiptSlot) : (s.setSlot w x).main.owner = s.main.owner := rfl
@[simp] theorem State.setSlot_cycle (s : State) (w : Win) (x : ReceiptSlot) : (s.setSlot w x).main.cycle = s.main.cycle := rfl
@[simp] theorem State.setSlot_lastGrantProc (s : State) (w : Win) (x : ReceiptSlot) : (s.setSlot w x).main.lastGrantProc = s.main.lastGrantProc := rfl
@[simp] theorem State.setSlot_examining (s : State) (w : Win) (x : ReceiptSlot) : (s.setSlot w x).main.examining = s.main.examining := rfl
@[simp] theorem State.setSlot_pendSet (s : State) (w : Win) (x : ReceiptSlot) : (s.setSlot w x).main.pendSet = s.main.pendSet := rfl
@[simp] theorem State.setSlot_walk (s : State) (w : Win) (x : ReceiptSlot) : (s.setSlot w x).main.walk = s.main.walk := rfl
@[simp] theorem State.setSlot_stopped (s : State) (w : Win) (x : ReceiptSlot) : (s.setSlot w x).main.stopped = s.main.stopped := rfl
@[simp] theorem State.setSlot_counters (s : State) (w : Win) (x : ReceiptSlot) : (s.setSlot w x).main.counters = s.main.counters := rfl
@[simp] theorem State.setSlot_stamp (s : State) (w : Win) (x : ReceiptSlot) : (s.setSlot w x).main.stamp = s.main.stamp := rfl
@[simp] theorem State.setSlot_ignored (s : State) (w : Win) (x : ReceiptSlot) : (s.setSlot w x).main.ignored = s.main.ignored := rfl
@[simp] theorem State.setSlot_queue (s : State) (w : Win) (x : ReceiptSlot) : (s.setSlot w x).main.queue = s.main.queue := rfl
@[simp] theorem State.setSlot_overrun (s : State) (w : Win) (x : ReceiptSlot) : (s.setSlot w x).main.overrun = s.main.overrun := rfl
@[simp] theorem State.setSlot_target (s : State) (w : Win) (x : ReceiptSlot) : (s.setSlot w x).main.target = s.main.target := rfl
@[simp] theorem State.setSlot_xfer (s : State) (w : Win) (x : ReceiptSlot) : (s.setSlot w x).main.xfer = s.main.xfer := rfl
@[simp] theorem State.setSlot_index (s : State) (w : Win) (x : ReceiptSlot) : (s.setSlot w x).main.index = s.main.index := rfl
@[simp] theorem State.setSlot_reqCode (s : State) (w : Win) (x : ReceiptSlot) : (s.setSlot w x).main.reqCode = s.main.reqCode := rfl
@[simp] theorem State.setSlot_waiting (s : State) (w : Win) (x : ReceiptSlot) : (s.setSlot w x).main.waiting = s.main.waiting := rfl
@[simp] theorem State.setSlot_arg (s : State) (w : Win) (x : ReceiptSlot) : (s.setSlot w x).main.arg = s.main.arg := rfl
@[simp] theorem State.setSlot_response (s : State) (w : Win) (x : ReceiptSlot) : (s.setSlot w x).main.response = s.main.response := rfl
@[simp] theorem State.setSlot_txnView (s : State) (w : Win) (x : ReceiptSlot) : (s.setSlot w x).main.txnView = s.main.txnView := rfl
@[simp] theorem State.setSlot_recView (s : State) (w : Win) (x : ReceiptSlot) : (s.setSlot w x).main.recView = s.main.recView := rfl
@[simp] theorem State.setSlot_occLatch (s : State) (w : Win) (x : ReceiptSlot) : (s.setSlot w x).main.occLatch = s.main.occLatch := rfl
@[simp] theorem State.setSlot_stampLatch (s : State) (w : Win) (x : ReceiptSlot) : (s.setSlot w x).main.stampLatch = s.main.stampLatch := rfl
@[simp] theorem State.setSlot_eventLatch (s : State) (w : Win) (x : ReceiptSlot) : (s.setSlot w x).main.eventLatch = s.main.eventLatch := rfl
@[simp] theorem State.setSlot_ack (s : State) (w : Win) (x : ReceiptSlot) : (s.setSlot w x).main.ack = s.main.ack := rfl
@[simp] theorem State.setSlot_sent (s : State) (w : Win) (x : ReceiptSlot) : (s.setSlot w x).main.sent = s.main.sent := rfl
@[simp] theorem State.setSlot_phase (s : State) (w : Win) (x : ReceiptSlot) : (s.setSlot w x).main.phase = s.main.phase := rfl
@[simp] theorem State.setSlot_tally (s : State) (w : Win) (x : ReceiptSlot) : (s.setSlot w x).main.tally = s.main.tally := rfl
@[simp] theorem State.setSlot_slots (s : State) (w : Win) (x : ReceiptSlot) : (s.setSlot w x).main.slots = winSet s.main.slots w x := rfl

/-! `State.setPending` -/

@[simp] theorem State.setPending_power (s : State) (w : Win) (b : Bool) : (s.setPending w b).power = s.power := rfl
@[simp] theorem State.setPending_signature (s : State) (w : Win) (b : Bool) : (s.setPending w b).signature = s.signature := rfl
@[simp] theorem State.setPending_vdd (s : State) (w : Win) (b : Bool) : (s.setPending w b).vdd = s.vdd := rfl
@[simp] theorem State.setPending_pfail (s : State) (w : Win) (b : Bool) : (s.setPending w b).pfail = s.pfail := rfl
@[simp] theorem State.setPending_rst (s : State) (w : Win) (b : Bool) : (s.setPending w b).rst = s.rst := rfl
@[simp] theorem State.setPending_port (s : State) (w : Win) (b : Bool) : (s.setPending w b).port = s.port := rfl
@[simp] theorem State.setPending_ret (s : State) (w : Win) (b : Bool) : (s.setPending w b).ret = s.ret := rfl
@[simp] theorem State.setPending_ma (s : State) (w : Win) (b : Bool) : (s.setPending w b).ma = s.ma := rfl
@[simp] theorem State.setPending_mbe (s : State) (w : Win) (b : Bool) : (s.setPending w b).mbe = s.mbe := rfl
@[simp] theorem State.setPending_osc (s : State) (w : Win) (b : Bool) : (s.setPending w b).osc = s.osc := rfl
@[simp] theorem State.setPending_sram (s : State) (w : Win) (b : Bool) : (s.setPending w b).sram = s.sram := rfl
@[simp] theorem State.setPending_pending (s : State) (w : Win) (b : Bool) : (s.setPending w b).pending = s.pending := rfl
@[simp] theorem State.setPending_freeCount (s : State) (w : Win) (b : Bool) : (s.setPending w b).freeCount = s.freeCount := rfl
@[simp] theorem State.setPending_access (s : State) (w : Win) (b : Bool) : (s.setPending w b).main.access = s.main.access := rfl
@[simp] theorem State.setPending_holdTimer (s : State) (w : Win) (b : Bool) : (s.setPending w b).main.holdTimer = s.main.holdTimer := rfl
@[simp] theorem State.setPending_prdy (s : State) (w : Win) (b : Bool) : (s.setPending w b).main.prdy = s.main.prdy := rfl
@[simp] theorem State.setPending_pd (s : State) (w : Win) (b : Bool) : (s.setPending w b).main.pd = s.main.pd := rfl
@[simp] theorem State.setPending_owner (s : State) (w : Win) (b : Bool) : (s.setPending w b).main.owner = s.main.owner := rfl
@[simp] theorem State.setPending_cycle (s : State) (w : Win) (b : Bool) : (s.setPending w b).main.cycle = s.main.cycle := rfl
@[simp] theorem State.setPending_lastGrantProc (s : State) (w : Win) (b : Bool) : (s.setPending w b).main.lastGrantProc = s.main.lastGrantProc := rfl
@[simp] theorem State.setPending_examining (s : State) (w : Win) (b : Bool) : (s.setPending w b).main.examining = s.main.examining := rfl
@[simp] theorem State.setPending_walk (s : State) (w : Win) (b : Bool) : (s.setPending w b).main.walk = s.main.walk := rfl
@[simp] theorem State.setPending_stopped (s : State) (w : Win) (b : Bool) : (s.setPending w b).main.stopped = s.main.stopped := rfl
@[simp] theorem State.setPending_counters (s : State) (w : Win) (b : Bool) : (s.setPending w b).main.counters = s.main.counters := rfl
@[simp] theorem State.setPending_stamp (s : State) (w : Win) (b : Bool) : (s.setPending w b).main.stamp = s.main.stamp := rfl
@[simp] theorem State.setPending_slots (s : State) (w : Win) (b : Bool) : (s.setPending w b).main.slots = s.main.slots := rfl
@[simp] theorem State.setPending_ignored (s : State) (w : Win) (b : Bool) : (s.setPending w b).main.ignored = s.main.ignored := rfl
@[simp] theorem State.setPending_queue (s : State) (w : Win) (b : Bool) : (s.setPending w b).main.queue = s.main.queue := rfl
@[simp] theorem State.setPending_overrun (s : State) (w : Win) (b : Bool) : (s.setPending w b).main.overrun = s.main.overrun := rfl
@[simp] theorem State.setPending_target (s : State) (w : Win) (b : Bool) : (s.setPending w b).main.target = s.main.target := rfl
@[simp] theorem State.setPending_xfer (s : State) (w : Win) (b : Bool) : (s.setPending w b).main.xfer = s.main.xfer := rfl
@[simp] theorem State.setPending_index (s : State) (w : Win) (b : Bool) : (s.setPending w b).main.index = s.main.index := rfl
@[simp] theorem State.setPending_reqCode (s : State) (w : Win) (b : Bool) : (s.setPending w b).main.reqCode = s.main.reqCode := rfl
@[simp] theorem State.setPending_waiting (s : State) (w : Win) (b : Bool) : (s.setPending w b).main.waiting = s.main.waiting := rfl
@[simp] theorem State.setPending_arg (s : State) (w : Win) (b : Bool) : (s.setPending w b).main.arg = s.main.arg := rfl
@[simp] theorem State.setPending_response (s : State) (w : Win) (b : Bool) : (s.setPending w b).main.response = s.main.response := rfl
@[simp] theorem State.setPending_txnView (s : State) (w : Win) (b : Bool) : (s.setPending w b).main.txnView = s.main.txnView := rfl
@[simp] theorem State.setPending_recView (s : State) (w : Win) (b : Bool) : (s.setPending w b).main.recView = s.main.recView := rfl
@[simp] theorem State.setPending_occLatch (s : State) (w : Win) (b : Bool) : (s.setPending w b).main.occLatch = s.main.occLatch := rfl
@[simp] theorem State.setPending_stampLatch (s : State) (w : Win) (b : Bool) : (s.setPending w b).main.stampLatch = s.main.stampLatch := rfl
@[simp] theorem State.setPending_eventLatch (s : State) (w : Win) (b : Bool) : (s.setPending w b).main.eventLatch = s.main.eventLatch := rfl
@[simp] theorem State.setPending_ack (s : State) (w : Win) (b : Bool) : (s.setPending w b).main.ack = s.main.ack := rfl
@[simp] theorem State.setPending_sent (s : State) (w : Win) (b : Bool) : (s.setPending w b).main.sent = s.main.sent := rfl
@[simp] theorem State.setPending_phase (s : State) (w : Win) (b : Bool) : (s.setPending w b).main.phase = s.main.phase := rfl
@[simp] theorem State.setPending_tally (s : State) (w : Win) (b : Bool) : (s.setPending w b).main.tally = s.main.tally := rfl
@[simp] theorem State.setPending_pendSet (s : State) (w : Win) (b : Bool) : (s.setPending w b).main.pendSet = winSet s.main.pendSet w b := rfl

/-! `State.setAccess` -/

@[simp] theorem State.setAccess_power (s : State) (a : Option Access) : (s.setAccess a).power = s.power := rfl
@[simp] theorem State.setAccess_signature (s : State) (a : Option Access) : (s.setAccess a).signature = s.signature := rfl
@[simp] theorem State.setAccess_vdd (s : State) (a : Option Access) : (s.setAccess a).vdd = s.vdd := rfl
@[simp] theorem State.setAccess_pfail (s : State) (a : Option Access) : (s.setAccess a).pfail = s.pfail := rfl
@[simp] theorem State.setAccess_rst (s : State) (a : Option Access) : (s.setAccess a).rst = s.rst := rfl
@[simp] theorem State.setAccess_port (s : State) (a : Option Access) : (s.setAccess a).port = s.port := rfl
@[simp] theorem State.setAccess_ret (s : State) (a : Option Access) : (s.setAccess a).ret = s.ret := rfl
@[simp] theorem State.setAccess_ma (s : State) (a : Option Access) : (s.setAccess a).ma = s.ma := rfl
@[simp] theorem State.setAccess_mbe (s : State) (a : Option Access) : (s.setAccess a).mbe = s.mbe := rfl
@[simp] theorem State.setAccess_osc (s : State) (a : Option Access) : (s.setAccess a).osc = s.osc := rfl
@[simp] theorem State.setAccess_sram (s : State) (a : Option Access) : (s.setAccess a).sram = s.sram := rfl
@[simp] theorem State.setAccess_pending (s : State) (a : Option Access) : (s.setAccess a).pending = s.pending := rfl
@[simp] theorem State.setAccess_freeCount (s : State) (a : Option Access) : (s.setAccess a).freeCount = s.freeCount := rfl
@[simp] theorem State.setAccess_holdTimer (s : State) (a : Option Access) : (s.setAccess a).main.holdTimer = s.main.holdTimer := rfl
@[simp] theorem State.setAccess_prdy (s : State) (a : Option Access) : (s.setAccess a).main.prdy = s.main.prdy := rfl
@[simp] theorem State.setAccess_pd (s : State) (a : Option Access) : (s.setAccess a).main.pd = s.main.pd := rfl
@[simp] theorem State.setAccess_owner (s : State) (a : Option Access) : (s.setAccess a).main.owner = s.main.owner := rfl
@[simp] theorem State.setAccess_cycle (s : State) (a : Option Access) : (s.setAccess a).main.cycle = s.main.cycle := rfl
@[simp] theorem State.setAccess_lastGrantProc (s : State) (a : Option Access) : (s.setAccess a).main.lastGrantProc = s.main.lastGrantProc := rfl
@[simp] theorem State.setAccess_examining (s : State) (a : Option Access) : (s.setAccess a).main.examining = s.main.examining := rfl
@[simp] theorem State.setAccess_pendSet (s : State) (a : Option Access) : (s.setAccess a).main.pendSet = s.main.pendSet := rfl
@[simp] theorem State.setAccess_walk (s : State) (a : Option Access) : (s.setAccess a).main.walk = s.main.walk := rfl
@[simp] theorem State.setAccess_stopped (s : State) (a : Option Access) : (s.setAccess a).main.stopped = s.main.stopped := rfl
@[simp] theorem State.setAccess_counters (s : State) (a : Option Access) : (s.setAccess a).main.counters = s.main.counters := rfl
@[simp] theorem State.setAccess_stamp (s : State) (a : Option Access) : (s.setAccess a).main.stamp = s.main.stamp := rfl
@[simp] theorem State.setAccess_slots (s : State) (a : Option Access) : (s.setAccess a).main.slots = s.main.slots := rfl
@[simp] theorem State.setAccess_ignored (s : State) (a : Option Access) : (s.setAccess a).main.ignored = s.main.ignored := rfl
@[simp] theorem State.setAccess_queue (s : State) (a : Option Access) : (s.setAccess a).main.queue = s.main.queue := rfl
@[simp] theorem State.setAccess_overrun (s : State) (a : Option Access) : (s.setAccess a).main.overrun = s.main.overrun := rfl
@[simp] theorem State.setAccess_target (s : State) (a : Option Access) : (s.setAccess a).main.target = s.main.target := rfl
@[simp] theorem State.setAccess_xfer (s : State) (a : Option Access) : (s.setAccess a).main.xfer = s.main.xfer := rfl
@[simp] theorem State.setAccess_index (s : State) (a : Option Access) : (s.setAccess a).main.index = s.main.index := rfl
@[simp] theorem State.setAccess_reqCode (s : State) (a : Option Access) : (s.setAccess a).main.reqCode = s.main.reqCode := rfl
@[simp] theorem State.setAccess_waiting (s : State) (a : Option Access) : (s.setAccess a).main.waiting = s.main.waiting := rfl
@[simp] theorem State.setAccess_arg (s : State) (a : Option Access) : (s.setAccess a).main.arg = s.main.arg := rfl
@[simp] theorem State.setAccess_response (s : State) (a : Option Access) : (s.setAccess a).main.response = s.main.response := rfl
@[simp] theorem State.setAccess_txnView (s : State) (a : Option Access) : (s.setAccess a).main.txnView = s.main.txnView := rfl
@[simp] theorem State.setAccess_recView (s : State) (a : Option Access) : (s.setAccess a).main.recView = s.main.recView := rfl
@[simp] theorem State.setAccess_occLatch (s : State) (a : Option Access) : (s.setAccess a).main.occLatch = s.main.occLatch := rfl
@[simp] theorem State.setAccess_stampLatch (s : State) (a : Option Access) : (s.setAccess a).main.stampLatch = s.main.stampLatch := rfl
@[simp] theorem State.setAccess_eventLatch (s : State) (a : Option Access) : (s.setAccess a).main.eventLatch = s.main.eventLatch := rfl
@[simp] theorem State.setAccess_ack (s : State) (a : Option Access) : (s.setAccess a).main.ack = s.main.ack := rfl
@[simp] theorem State.setAccess_sent (s : State) (a : Option Access) : (s.setAccess a).main.sent = s.main.sent := rfl
@[simp] theorem State.setAccess_phase (s : State) (a : Option Access) : (s.setAccess a).main.phase = s.main.phase := rfl
@[simp] theorem State.setAccess_tally (s : State) (a : Option Access) : (s.setAccess a).main.tally = s.main.tally := rfl
@[simp] theorem State.setAccess_access (s : State) (a : Option Access) : (s.setAccess a).main.access = a := rfl

/-! `State.setWalk` -/

@[simp] theorem State.setWalk_power (s : State) (k : Option Walk) : (s.setWalk k).power = s.power := rfl
@[simp] theorem State.setWalk_signature (s : State) (k : Option Walk) : (s.setWalk k).signature = s.signature := rfl
@[simp] theorem State.setWalk_vdd (s : State) (k : Option Walk) : (s.setWalk k).vdd = s.vdd := rfl
@[simp] theorem State.setWalk_pfail (s : State) (k : Option Walk) : (s.setWalk k).pfail = s.pfail := rfl
@[simp] theorem State.setWalk_rst (s : State) (k : Option Walk) : (s.setWalk k).rst = s.rst := rfl
@[simp] theorem State.setWalk_port (s : State) (k : Option Walk) : (s.setWalk k).port = s.port := rfl
@[simp] theorem State.setWalk_ret (s : State) (k : Option Walk) : (s.setWalk k).ret = s.ret := rfl
@[simp] theorem State.setWalk_ma (s : State) (k : Option Walk) : (s.setWalk k).ma = s.ma := rfl
@[simp] theorem State.setWalk_mbe (s : State) (k : Option Walk) : (s.setWalk k).mbe = s.mbe := rfl
@[simp] theorem State.setWalk_osc (s : State) (k : Option Walk) : (s.setWalk k).osc = s.osc := rfl
@[simp] theorem State.setWalk_sram (s : State) (k : Option Walk) : (s.setWalk k).sram = s.sram := rfl
@[simp] theorem State.setWalk_pending (s : State) (k : Option Walk) : (s.setWalk k).pending = s.pending := rfl
@[simp] theorem State.setWalk_freeCount (s : State) (k : Option Walk) : (s.setWalk k).freeCount = s.freeCount := rfl
@[simp] theorem State.setWalk_access (s : State) (k : Option Walk) : (s.setWalk k).main.access = s.main.access := rfl
@[simp] theorem State.setWalk_holdTimer (s : State) (k : Option Walk) : (s.setWalk k).main.holdTimer = s.main.holdTimer := rfl
@[simp] theorem State.setWalk_prdy (s : State) (k : Option Walk) : (s.setWalk k).main.prdy = s.main.prdy := rfl
@[simp] theorem State.setWalk_pd (s : State) (k : Option Walk) : (s.setWalk k).main.pd = s.main.pd := rfl
@[simp] theorem State.setWalk_owner (s : State) (k : Option Walk) : (s.setWalk k).main.owner = s.main.owner := rfl
@[simp] theorem State.setWalk_cycle (s : State) (k : Option Walk) : (s.setWalk k).main.cycle = s.main.cycle := rfl
@[simp] theorem State.setWalk_lastGrantProc (s : State) (k : Option Walk) : (s.setWalk k).main.lastGrantProc = s.main.lastGrantProc := rfl
@[simp] theorem State.setWalk_examining (s : State) (k : Option Walk) : (s.setWalk k).main.examining = s.main.examining := rfl
@[simp] theorem State.setWalk_pendSet (s : State) (k : Option Walk) : (s.setWalk k).main.pendSet = s.main.pendSet := rfl
@[simp] theorem State.setWalk_stopped (s : State) (k : Option Walk) : (s.setWalk k).main.stopped = s.main.stopped := rfl
@[simp] theorem State.setWalk_counters (s : State) (k : Option Walk) : (s.setWalk k).main.counters = s.main.counters := rfl
@[simp] theorem State.setWalk_stamp (s : State) (k : Option Walk) : (s.setWalk k).main.stamp = s.main.stamp := rfl
@[simp] theorem State.setWalk_slots (s : State) (k : Option Walk) : (s.setWalk k).main.slots = s.main.slots := rfl
@[simp] theorem State.setWalk_ignored (s : State) (k : Option Walk) : (s.setWalk k).main.ignored = s.main.ignored := rfl
@[simp] theorem State.setWalk_queue (s : State) (k : Option Walk) : (s.setWalk k).main.queue = s.main.queue := rfl
@[simp] theorem State.setWalk_overrun (s : State) (k : Option Walk) : (s.setWalk k).main.overrun = s.main.overrun := rfl
@[simp] theorem State.setWalk_target (s : State) (k : Option Walk) : (s.setWalk k).main.target = s.main.target := rfl
@[simp] theorem State.setWalk_xfer (s : State) (k : Option Walk) : (s.setWalk k).main.xfer = s.main.xfer := rfl
@[simp] theorem State.setWalk_index (s : State) (k : Option Walk) : (s.setWalk k).main.index = s.main.index := rfl
@[simp] theorem State.setWalk_reqCode (s : State) (k : Option Walk) : (s.setWalk k).main.reqCode = s.main.reqCode := rfl
@[simp] theorem State.setWalk_waiting (s : State) (k : Option Walk) : (s.setWalk k).main.waiting = s.main.waiting := rfl
@[simp] theorem State.setWalk_arg (s : State) (k : Option Walk) : (s.setWalk k).main.arg = s.main.arg := rfl
@[simp] theorem State.setWalk_response (s : State) (k : Option Walk) : (s.setWalk k).main.response = s.main.response := rfl
@[simp] theorem State.setWalk_txnView (s : State) (k : Option Walk) : (s.setWalk k).main.txnView = s.main.txnView := rfl
@[simp] theorem State.setWalk_recView (s : State) (k : Option Walk) : (s.setWalk k).main.recView = s.main.recView := rfl
@[simp] theorem State.setWalk_occLatch (s : State) (k : Option Walk) : (s.setWalk k).main.occLatch = s.main.occLatch := rfl
@[simp] theorem State.setWalk_stampLatch (s : State) (k : Option Walk) : (s.setWalk k).main.stampLatch = s.main.stampLatch := rfl
@[simp] theorem State.setWalk_eventLatch (s : State) (k : Option Walk) : (s.setWalk k).main.eventLatch = s.main.eventLatch := rfl
@[simp] theorem State.setWalk_ack (s : State) (k : Option Walk) : (s.setWalk k).main.ack = s.main.ack := rfl
@[simp] theorem State.setWalk_sent (s : State) (k : Option Walk) : (s.setWalk k).main.sent = s.main.sent := rfl
@[simp] theorem State.setWalk_phase (s : State) (k : Option Walk) : (s.setWalk k).main.phase = s.main.phase := rfl
@[simp] theorem State.setWalk_tally (s : State) (k : Option Walk) : (s.setWalk k).main.tally = s.main.tally := rfl
@[simp] theorem State.setWalk_walk (s : State) (k : Option Walk) : (s.setWalk k).main.walk = k := rfl

/-! `State.setSram` -/

@[simp] theorem State.setSram_power (s : State) (m : List Host.Cell) : (s.setSram m).power = s.power := rfl
@[simp] theorem State.setSram_signature (s : State) (m : List Host.Cell) : (s.setSram m).signature = s.signature := rfl
@[simp] theorem State.setSram_vdd (s : State) (m : List Host.Cell) : (s.setSram m).vdd = s.vdd := rfl
@[simp] theorem State.setSram_pfail (s : State) (m : List Host.Cell) : (s.setSram m).pfail = s.pfail := rfl
@[simp] theorem State.setSram_rst (s : State) (m : List Host.Cell) : (s.setSram m).rst = s.rst := rfl
@[simp] theorem State.setSram_port (s : State) (m : List Host.Cell) : (s.setSram m).port = s.port := rfl
@[simp] theorem State.setSram_ret (s : State) (m : List Host.Cell) : (s.setSram m).ret = s.ret := rfl
@[simp] theorem State.setSram_main (s : State) (m : List Host.Cell) : (s.setSram m).main = s.main := rfl
@[simp] theorem State.setSram_ma (s : State) (m : List Host.Cell) : (s.setSram m).ma = s.ma := rfl
@[simp] theorem State.setSram_mbe (s : State) (m : List Host.Cell) : (s.setSram m).mbe = s.mbe := rfl
@[simp] theorem State.setSram_osc (s : State) (m : List Host.Cell) : (s.setSram m).osc = s.osc := rfl
@[simp] theorem State.setSram_pending (s : State) (m : List Host.Cell) : (s.setSram m).pending = s.pending := rfl
@[simp] theorem State.setSram_freeCount (s : State) (m : List Host.Cell) : (s.setSram m).freeCount = s.freeCount := rfl
@[simp] theorem State.setSram_sram (s : State) (m : List Host.Cell) : (s.setSram m).sram = m := rfl

/-! `State.useFree` -/

@[simp] theorem State.useFree_power (s : State) (n : Nat) : (s.useFree n).power = s.power := rfl
@[simp] theorem State.useFree_signature (s : State) (n : Nat) : (s.useFree n).signature = s.signature := rfl
@[simp] theorem State.useFree_vdd (s : State) (n : Nat) : (s.useFree n).vdd = s.vdd := rfl
@[simp] theorem State.useFree_pfail (s : State) (n : Nat) : (s.useFree n).pfail = s.pfail := rfl
@[simp] theorem State.useFree_rst (s : State) (n : Nat) : (s.useFree n).rst = s.rst := rfl
@[simp] theorem State.useFree_port (s : State) (n : Nat) : (s.useFree n).port = s.port := rfl
@[simp] theorem State.useFree_ret (s : State) (n : Nat) : (s.useFree n).ret = s.ret := rfl
@[simp] theorem State.useFree_main (s : State) (n : Nat) : (s.useFree n).main = s.main := rfl
@[simp] theorem State.useFree_ma (s : State) (n : Nat) : (s.useFree n).ma = s.ma := rfl
@[simp] theorem State.useFree_mbe (s : State) (n : Nat) : (s.useFree n).mbe = s.mbe := rfl
@[simp] theorem State.useFree_osc (s : State) (n : Nat) : (s.useFree n).osc = s.osc := rfl
@[simp] theorem State.useFree_sram (s : State) (n : Nat) : (s.useFree n).sram = s.sram := rfl
@[simp] theorem State.useFree_pending (s : State) (n : Nat) : (s.useFree n).pending = s.pending := rfl
@[simp] theorem State.useFree_freeCount (s : State) (n : Nat) : (s.useFree n).freeCount = s.freeCount + n := rfl

/-! `State.drive` -/

@[simp] theorem State.drive_power (s : State) (o : Owner) (c : Cycle) : (s.drive o c).power = s.power := rfl
@[simp] theorem State.drive_signature (s : State) (o : Owner) (c : Cycle) : (s.drive o c).signature = s.signature := rfl
@[simp] theorem State.drive_vdd (s : State) (o : Owner) (c : Cycle) : (s.drive o c).vdd = s.vdd := rfl
@[simp] theorem State.drive_pfail (s : State) (o : Owner) (c : Cycle) : (s.drive o c).pfail = s.pfail := rfl
@[simp] theorem State.drive_rst (s : State) (o : Owner) (c : Cycle) : (s.drive o c).rst = s.rst := rfl
@[simp] theorem State.drive_port (s : State) (o : Owner) (c : Cycle) : (s.drive o c).port = s.port := rfl
@[simp] theorem State.drive_ret (s : State) (o : Owner) (c : Cycle) : (s.drive o c).ret = s.ret := rfl
@[simp] theorem State.drive_sram (s : State) (o : Owner) (c : Cycle) : (s.drive o c).sram = s.sram := rfl
@[simp] theorem State.drive_pending (s : State) (o : Owner) (c : Cycle) : (s.drive o c).pending = s.pending := rfl
@[simp] theorem State.drive_freeCount (s : State) (o : Owner) (c : Cycle) : (s.drive o c).freeCount = s.freeCount := rfl
@[simp] theorem State.drive_access (s : State) (o : Owner) (c : Cycle) : (s.drive o c).main.access = s.main.access := rfl
@[simp] theorem State.drive_holdTimer (s : State) (o : Owner) (c : Cycle) : (s.drive o c).main.holdTimer = s.main.holdTimer := rfl
@[simp] theorem State.drive_prdy (s : State) (o : Owner) (c : Cycle) : (s.drive o c).main.prdy = s.main.prdy := rfl
@[simp] theorem State.drive_pd (s : State) (o : Owner) (c : Cycle) : (s.drive o c).main.pd = s.main.pd := rfl
@[simp] theorem State.drive_lastGrantProc (s : State) (o : Owner) (c : Cycle) : (s.drive o c).main.lastGrantProc = s.main.lastGrantProc := rfl
@[simp] theorem State.drive_examining (s : State) (o : Owner) (c : Cycle) : (s.drive o c).main.examining = s.main.examining := rfl
@[simp] theorem State.drive_pendSet (s : State) (o : Owner) (c : Cycle) : (s.drive o c).main.pendSet = s.main.pendSet := rfl
@[simp] theorem State.drive_walk (s : State) (o : Owner) (c : Cycle) : (s.drive o c).main.walk = s.main.walk := rfl
@[simp] theorem State.drive_stopped (s : State) (o : Owner) (c : Cycle) : (s.drive o c).main.stopped = s.main.stopped := rfl
@[simp] theorem State.drive_counters (s : State) (o : Owner) (c : Cycle) : (s.drive o c).main.counters = s.main.counters := rfl
@[simp] theorem State.drive_stamp (s : State) (o : Owner) (c : Cycle) : (s.drive o c).main.stamp = s.main.stamp := rfl
@[simp] theorem State.drive_slots (s : State) (o : Owner) (c : Cycle) : (s.drive o c).main.slots = s.main.slots := rfl
@[simp] theorem State.drive_ignored (s : State) (o : Owner) (c : Cycle) : (s.drive o c).main.ignored = s.main.ignored := rfl
@[simp] theorem State.drive_queue (s : State) (o : Owner) (c : Cycle) : (s.drive o c).main.queue = s.main.queue := rfl
@[simp] theorem State.drive_overrun (s : State) (o : Owner) (c : Cycle) : (s.drive o c).main.overrun = s.main.overrun := rfl
@[simp] theorem State.drive_target (s : State) (o : Owner) (c : Cycle) : (s.drive o c).main.target = s.main.target := rfl
@[simp] theorem State.drive_xfer (s : State) (o : Owner) (c : Cycle) : (s.drive o c).main.xfer = s.main.xfer := rfl
@[simp] theorem State.drive_index (s : State) (o : Owner) (c : Cycle) : (s.drive o c).main.index = s.main.index := rfl
@[simp] theorem State.drive_reqCode (s : State) (o : Owner) (c : Cycle) : (s.drive o c).main.reqCode = s.main.reqCode := rfl
@[simp] theorem State.drive_waiting (s : State) (o : Owner) (c : Cycle) : (s.drive o c).main.waiting = s.main.waiting := rfl
@[simp] theorem State.drive_arg (s : State) (o : Owner) (c : Cycle) : (s.drive o c).main.arg = s.main.arg := rfl
@[simp] theorem State.drive_response (s : State) (o : Owner) (c : Cycle) : (s.drive o c).main.response = s.main.response := rfl
@[simp] theorem State.drive_txnView (s : State) (o : Owner) (c : Cycle) : (s.drive o c).main.txnView = s.main.txnView := rfl
@[simp] theorem State.drive_recView (s : State) (o : Owner) (c : Cycle) : (s.drive o c).main.recView = s.main.recView := rfl
@[simp] theorem State.drive_occLatch (s : State) (o : Owner) (c : Cycle) : (s.drive o c).main.occLatch = s.main.occLatch := rfl
@[simp] theorem State.drive_stampLatch (s : State) (o : Owner) (c : Cycle) : (s.drive o c).main.stampLatch = s.main.stampLatch := rfl
@[simp] theorem State.drive_eventLatch (s : State) (o : Owner) (c : Cycle) : (s.drive o c).main.eventLatch = s.main.eventLatch := rfl
@[simp] theorem State.drive_ack (s : State) (o : Owner) (c : Cycle) : (s.drive o c).main.ack = s.main.ack := rfl
@[simp] theorem State.drive_sent (s : State) (o : Owner) (c : Cycle) : (s.drive o c).main.sent = s.main.sent := rfl
@[simp] theorem State.drive_phase (s : State) (o : Owner) (c : Cycle) : (s.drive o c).main.phase = s.main.phase := rfl
@[simp] theorem State.drive_tally (s : State) (o : Owner) (c : Cycle) : (s.drive o c).main.tally = s.main.tally := rfl
@[simp] theorem State.drive_owner (s : State) (o : Owner) (c : Cycle) : (s.drive o c).main.owner = o := rfl
@[simp] theorem State.drive_cycle (s : State) (o : Owner) (c : Cycle) : (s.drive o c).main.cycle = some c := rfl
@[simp] theorem State.drive_ma (s : State) (o : Owner) (c : Cycle) : (s.drive o c).ma = c.addr := rfl
@[simp] theorem State.drive_mbe (s : State) (o : Owner) (c : Cycle) : (s.drive o c).mbe = c.lanes := rfl
@[simp] theorem State.drive_osc (s : State) (o : Owner) (c : Cycle) : (s.drive o c).osc = s.osc := rfl

/-! `State.endGrant` -/

@[simp] theorem State.endGrant_power (s : State) : (s.endGrant).power = s.power := rfl
@[simp] theorem State.endGrant_signature (s : State) : (s.endGrant).signature = s.signature := rfl
@[simp] theorem State.endGrant_vdd (s : State) : (s.endGrant).vdd = s.vdd := rfl
@[simp] theorem State.endGrant_pfail (s : State) : (s.endGrant).pfail = s.pfail := rfl
@[simp] theorem State.endGrant_rst (s : State) : (s.endGrant).rst = s.rst := rfl
@[simp] theorem State.endGrant_port (s : State) : (s.endGrant).port = s.port := rfl
@[simp] theorem State.endGrant_ret (s : State) : (s.endGrant).ret = s.ret := rfl
@[simp] theorem State.endGrant_ma (s : State) : (s.endGrant).ma = s.ma := rfl
@[simp] theorem State.endGrant_mbe (s : State) : (s.endGrant).mbe = s.mbe := rfl
@[simp] theorem State.endGrant_osc (s : State) : (s.endGrant).osc = s.osc := rfl
@[simp] theorem State.endGrant_sram (s : State) : (s.endGrant).sram = s.sram := rfl
@[simp] theorem State.endGrant_pending (s : State) : (s.endGrant).pending = s.pending := rfl
@[simp] theorem State.endGrant_freeCount (s : State) : (s.endGrant).freeCount = s.freeCount := rfl
@[simp] theorem State.endGrant_access (s : State) : (s.endGrant).main.access = s.main.access := rfl
@[simp] theorem State.endGrant_holdTimer (s : State) : (s.endGrant).main.holdTimer = s.main.holdTimer := rfl
@[simp] theorem State.endGrant_prdy (s : State) : (s.endGrant).main.prdy = s.main.prdy := rfl
@[simp] theorem State.endGrant_pd (s : State) : (s.endGrant).main.pd = s.main.pd := rfl
@[simp] theorem State.endGrant_lastGrantProc (s : State) : (s.endGrant).main.lastGrantProc = s.main.lastGrantProc := rfl
@[simp] theorem State.endGrant_examining (s : State) : (s.endGrant).main.examining = s.main.examining := rfl
@[simp] theorem State.endGrant_pendSet (s : State) : (s.endGrant).main.pendSet = s.main.pendSet := rfl
@[simp] theorem State.endGrant_walk (s : State) : (s.endGrant).main.walk = s.main.walk := rfl
@[simp] theorem State.endGrant_stopped (s : State) : (s.endGrant).main.stopped = s.main.stopped := rfl
@[simp] theorem State.endGrant_counters (s : State) : (s.endGrant).main.counters = s.main.counters := rfl
@[simp] theorem State.endGrant_stamp (s : State) : (s.endGrant).main.stamp = s.main.stamp := rfl
@[simp] theorem State.endGrant_slots (s : State) : (s.endGrant).main.slots = s.main.slots := rfl
@[simp] theorem State.endGrant_ignored (s : State) : (s.endGrant).main.ignored = s.main.ignored := rfl
@[simp] theorem State.endGrant_queue (s : State) : (s.endGrant).main.queue = s.main.queue := rfl
@[simp] theorem State.endGrant_overrun (s : State) : (s.endGrant).main.overrun = s.main.overrun := rfl
@[simp] theorem State.endGrant_target (s : State) : (s.endGrant).main.target = s.main.target := rfl
@[simp] theorem State.endGrant_xfer (s : State) : (s.endGrant).main.xfer = s.main.xfer := rfl
@[simp] theorem State.endGrant_index (s : State) : (s.endGrant).main.index = s.main.index := rfl
@[simp] theorem State.endGrant_reqCode (s : State) : (s.endGrant).main.reqCode = s.main.reqCode := rfl
@[simp] theorem State.endGrant_waiting (s : State) : (s.endGrant).main.waiting = s.main.waiting := rfl
@[simp] theorem State.endGrant_arg (s : State) : (s.endGrant).main.arg = s.main.arg := rfl
@[simp] theorem State.endGrant_response (s : State) : (s.endGrant).main.response = s.main.response := rfl
@[simp] theorem State.endGrant_txnView (s : State) : (s.endGrant).main.txnView = s.main.txnView := rfl
@[simp] theorem State.endGrant_recView (s : State) : (s.endGrant).main.recView = s.main.recView := rfl
@[simp] theorem State.endGrant_occLatch (s : State) : (s.endGrant).main.occLatch = s.main.occLatch := rfl
@[simp] theorem State.endGrant_stampLatch (s : State) : (s.endGrant).main.stampLatch = s.main.stampLatch := rfl
@[simp] theorem State.endGrant_eventLatch (s : State) : (s.endGrant).main.eventLatch = s.main.eventLatch := rfl
@[simp] theorem State.endGrant_ack (s : State) : (s.endGrant).main.ack = s.main.ack := rfl
@[simp] theorem State.endGrant_sent (s : State) : (s.endGrant).main.sent = s.main.sent := rfl
@[simp] theorem State.endGrant_phase (s : State) : (s.endGrant).main.phase = s.main.phase := rfl
@[simp] theorem State.endGrant_tally (s : State) : (s.endGrant).main.tally = s.main.tally := rfl
@[simp] theorem State.endGrant_owner (s : State) : (s.endGrant).main.owner = .nobody := rfl
@[simp] theorem State.endGrant_cycle (s : State) : (s.endGrant).main.cycle = none := rfl

/-! `State.respond` -/

@[simp] theorem State.respond_power (s : State) (r : Response) : (s.respond r).power = s.power := rfl
@[simp] theorem State.respond_signature (s : State) (r : Response) : (s.respond r).signature = s.signature := rfl
@[simp] theorem State.respond_vdd (s : State) (r : Response) : (s.respond r).vdd = s.vdd := rfl
@[simp] theorem State.respond_pfail (s : State) (r : Response) : (s.respond r).pfail = s.pfail := rfl
@[simp] theorem State.respond_rst (s : State) (r : Response) : (s.respond r).rst = s.rst := rfl
@[simp] theorem State.respond_port (s : State) (r : Response) : (s.respond r).port = s.port := rfl
@[simp] theorem State.respond_ret (s : State) (r : Response) : (s.respond r).ret = s.ret := rfl
@[simp] theorem State.respond_ma (s : State) (r : Response) : (s.respond r).ma = s.ma := rfl
@[simp] theorem State.respond_mbe (s : State) (r : Response) : (s.respond r).mbe = s.mbe := rfl
@[simp] theorem State.respond_osc (s : State) (r : Response) : (s.respond r).osc = s.osc := rfl
@[simp] theorem State.respond_sram (s : State) (r : Response) : (s.respond r).sram = s.sram := rfl
@[simp] theorem State.respond_pending (s : State) (r : Response) : (s.respond r).pending = s.pending := rfl
@[simp] theorem State.respond_freeCount (s : State) (r : Response) : (s.respond r).freeCount = s.freeCount := rfl
@[simp] theorem State.respond_access (s : State) (r : Response) : (s.respond r).main.access = s.main.access := rfl
@[simp] theorem State.respond_holdTimer (s : State) (r : Response) : (s.respond r).main.holdTimer = s.main.holdTimer := rfl
@[simp] theorem State.respond_prdy (s : State) (r : Response) : (s.respond r).main.prdy = s.main.prdy := rfl
@[simp] theorem State.respond_pd (s : State) (r : Response) : (s.respond r).main.pd = s.main.pd := rfl
@[simp] theorem State.respond_owner (s : State) (r : Response) : (s.respond r).main.owner = s.main.owner := rfl
@[simp] theorem State.respond_cycle (s : State) (r : Response) : (s.respond r).main.cycle = s.main.cycle := rfl
@[simp] theorem State.respond_lastGrantProc (s : State) (r : Response) : (s.respond r).main.lastGrantProc = s.main.lastGrantProc := rfl
@[simp] theorem State.respond_examining (s : State) (r : Response) : (s.respond r).main.examining = s.main.examining := rfl
@[simp] theorem State.respond_pendSet (s : State) (r : Response) : (s.respond r).main.pendSet = s.main.pendSet := rfl
@[simp] theorem State.respond_walk (s : State) (r : Response) : (s.respond r).main.walk = s.main.walk := rfl
@[simp] theorem State.respond_stopped (s : State) (r : Response) : (s.respond r).main.stopped = s.main.stopped := rfl
@[simp] theorem State.respond_counters (s : State) (r : Response) : (s.respond r).main.counters = s.main.counters := rfl
@[simp] theorem State.respond_stamp (s : State) (r : Response) : (s.respond r).main.stamp = s.main.stamp := rfl
@[simp] theorem State.respond_slots (s : State) (r : Response) : (s.respond r).main.slots = s.main.slots := rfl
@[simp] theorem State.respond_ignored (s : State) (r : Response) : (s.respond r).main.ignored = s.main.ignored := rfl
@[simp] theorem State.respond_queue (s : State) (r : Response) : (s.respond r).main.queue = s.main.queue := rfl
@[simp] theorem State.respond_overrun (s : State) (r : Response) : (s.respond r).main.overrun = s.main.overrun := rfl
@[simp] theorem State.respond_target (s : State) (r : Response) : (s.respond r).main.target = s.main.target := rfl
@[simp] theorem State.respond_xfer (s : State) (r : Response) : (s.respond r).main.xfer = s.main.xfer := rfl
@[simp] theorem State.respond_index (s : State) (r : Response) : (s.respond r).main.index = s.main.index := rfl
@[simp] theorem State.respond_reqCode (s : State) (r : Response) : (s.respond r).main.reqCode = s.main.reqCode := rfl
@[simp] theorem State.respond_waiting (s : State) (r : Response) : (s.respond r).main.waiting = s.main.waiting := rfl
@[simp] theorem State.respond_arg (s : State) (r : Response) : (s.respond r).main.arg = s.main.arg := rfl
@[simp] theorem State.respond_txnView (s : State) (r : Response) : (s.respond r).main.txnView = s.main.txnView := rfl
@[simp] theorem State.respond_recView (s : State) (r : Response) : (s.respond r).main.recView = s.main.recView := rfl
@[simp] theorem State.respond_occLatch (s : State) (r : Response) : (s.respond r).main.occLatch = s.main.occLatch := rfl
@[simp] theorem State.respond_stampLatch (s : State) (r : Response) : (s.respond r).main.stampLatch = s.main.stampLatch := rfl
@[simp] theorem State.respond_eventLatch (s : State) (r : Response) : (s.respond r).main.eventLatch = s.main.eventLatch := rfl
@[simp] theorem State.respond_ack (s : State) (r : Response) : (s.respond r).main.ack = s.main.ack := rfl
@[simp] theorem State.respond_sent (s : State) (r : Response) : (s.respond r).main.sent = s.main.sent := rfl
@[simp] theorem State.respond_phase (s : State) (r : Response) : (s.respond r).main.phase = s.main.phase := rfl
@[simp] theorem State.respond_tally (s : State) (r : Response) : (s.respond r).main.tally = s.main.tally := rfl
@[simp] theorem State.respond_response (s : State) (r : Response) : (s.respond r).main.response = r.code := rfl

/-! `State.byteTaken` -/

@[simp] theorem State.byteTaken_power (s : State) : (s.byteTaken).power = s.power := rfl
@[simp] theorem State.byteTaken_signature (s : State) : (s.byteTaken).signature = s.signature := rfl
@[simp] theorem State.byteTaken_vdd (s : State) : (s.byteTaken).vdd = s.vdd := rfl
@[simp] theorem State.byteTaken_pfail (s : State) : (s.byteTaken).pfail = s.pfail := rfl
@[simp] theorem State.byteTaken_rst (s : State) : (s.byteTaken).rst = s.rst := rfl
@[simp] theorem State.byteTaken_port (s : State) : (s.byteTaken).port = s.port := rfl
@[simp] theorem State.byteTaken_ret (s : State) : (s.byteTaken).ret = s.ret := rfl
@[simp] theorem State.byteTaken_ma (s : State) : (s.byteTaken).ma = s.ma := rfl
@[simp] theorem State.byteTaken_mbe (s : State) : (s.byteTaken).mbe = s.mbe := rfl
@[simp] theorem State.byteTaken_osc (s : State) : (s.byteTaken).osc = s.osc := rfl
@[simp] theorem State.byteTaken_sram (s : State) : (s.byteTaken).sram = s.sram := rfl
@[simp] theorem State.byteTaken_pending (s : State) : (s.byteTaken).pending = s.pending := rfl
@[simp] theorem State.byteTaken_freeCount (s : State) : (s.byteTaken).freeCount = s.freeCount := rfl
@[simp] theorem State.byteTaken_access (s : State) : (s.byteTaken).main.access = s.main.access := rfl
@[simp] theorem State.byteTaken_holdTimer (s : State) : (s.byteTaken).main.holdTimer = s.main.holdTimer := rfl
@[simp] theorem State.byteTaken_prdy (s : State) : (s.byteTaken).main.prdy = s.main.prdy := rfl
@[simp] theorem State.byteTaken_pd (s : State) : (s.byteTaken).main.pd = s.main.pd := rfl
@[simp] theorem State.byteTaken_owner (s : State) : (s.byteTaken).main.owner = s.main.owner := rfl
@[simp] theorem State.byteTaken_cycle (s : State) : (s.byteTaken).main.cycle = s.main.cycle := rfl
@[simp] theorem State.byteTaken_lastGrantProc (s : State) : (s.byteTaken).main.lastGrantProc = s.main.lastGrantProc := rfl
@[simp] theorem State.byteTaken_examining (s : State) : (s.byteTaken).main.examining = s.main.examining := rfl
@[simp] theorem State.byteTaken_pendSet (s : State) : (s.byteTaken).main.pendSet = s.main.pendSet := rfl
@[simp] theorem State.byteTaken_walk (s : State) : (s.byteTaken).main.walk = s.main.walk := rfl
@[simp] theorem State.byteTaken_stopped (s : State) : (s.byteTaken).main.stopped = s.main.stopped := rfl
@[simp] theorem State.byteTaken_counters (s : State) : (s.byteTaken).main.counters = s.main.counters := rfl
@[simp] theorem State.byteTaken_stamp (s : State) : (s.byteTaken).main.stamp = s.main.stamp := rfl
@[simp] theorem State.byteTaken_slots (s : State) : (s.byteTaken).main.slots = s.main.slots := rfl
@[simp] theorem State.byteTaken_ignored (s : State) : (s.byteTaken).main.ignored = s.main.ignored := rfl
@[simp] theorem State.byteTaken_queue (s : State) : (s.byteTaken).main.queue = s.main.queue := rfl
@[simp] theorem State.byteTaken_overrun (s : State) : (s.byteTaken).main.overrun = s.main.overrun := rfl
@[simp] theorem State.byteTaken_target (s : State) : (s.byteTaken).main.target = s.main.target := rfl
@[simp] theorem State.byteTaken_xfer (s : State) : (s.byteTaken).main.xfer = s.main.xfer := rfl
@[simp] theorem State.byteTaken_reqCode (s : State) : (s.byteTaken).main.reqCode = s.main.reqCode := rfl
@[simp] theorem State.byteTaken_waiting (s : State) : (s.byteTaken).main.waiting = s.main.waiting := rfl
@[simp] theorem State.byteTaken_arg (s : State) : (s.byteTaken).main.arg = s.main.arg := rfl
@[simp] theorem State.byteTaken_response (s : State) : (s.byteTaken).main.response = s.main.response := rfl
@[simp] theorem State.byteTaken_txnView (s : State) : (s.byteTaken).main.txnView = s.main.txnView := rfl
@[simp] theorem State.byteTaken_recView (s : State) : (s.byteTaken).main.recView = s.main.recView := rfl
@[simp] theorem State.byteTaken_occLatch (s : State) : (s.byteTaken).main.occLatch = s.main.occLatch := rfl
@[simp] theorem State.byteTaken_stampLatch (s : State) : (s.byteTaken).main.stampLatch = s.main.stampLatch := rfl
@[simp] theorem State.byteTaken_eventLatch (s : State) : (s.byteTaken).main.eventLatch = s.main.eventLatch := rfl
@[simp] theorem State.byteTaken_sent (s : State) : (s.byteTaken).main.sent = s.main.sent := rfl
@[simp] theorem State.byteTaken_phase (s : State) : (s.byteTaken).main.phase = s.main.phase := rfl
@[simp] theorem State.byteTaken_tally (s : State) : (s.byteTaken).main.tally = s.main.tally := rfl
@[simp] theorem State.byteTaken_index (s : State) : (s.byteTaken).main.index = s.main.index + 1 := rfl
@[simp] theorem State.byteTaken_ack (s : State) : (s.byteTaken).main.ack = true := rfl

/-! `State.send` -/

@[simp] theorem State.send_power (s : State) (b : Byte) : (s.send b).power = s.power := rfl
@[simp] theorem State.send_signature (s : State) (b : Byte) : (s.send b).signature = s.signature := rfl
@[simp] theorem State.send_vdd (s : State) (b : Byte) : (s.send b).vdd = s.vdd := rfl
@[simp] theorem State.send_pfail (s : State) (b : Byte) : (s.send b).pfail = s.pfail := rfl
@[simp] theorem State.send_rst (s : State) (b : Byte) : (s.send b).rst = s.rst := rfl
@[simp] theorem State.send_port (s : State) (b : Byte) : (s.send b).port = s.port := rfl
@[simp] theorem State.send_ret (s : State) (b : Byte) : (s.send b).ret = s.ret := rfl
@[simp] theorem State.send_ma (s : State) (b : Byte) : (s.send b).ma = s.ma := rfl
@[simp] theorem State.send_mbe (s : State) (b : Byte) : (s.send b).mbe = s.mbe := rfl
@[simp] theorem State.send_osc (s : State) (b : Byte) : (s.send b).osc = s.osc := rfl
@[simp] theorem State.send_sram (s : State) (b : Byte) : (s.send b).sram = s.sram := rfl
@[simp] theorem State.send_pending (s : State) (b : Byte) : (s.send b).pending = s.pending := rfl
@[simp] theorem State.send_freeCount (s : State) (b : Byte) : (s.send b).freeCount = s.freeCount := rfl
@[simp] theorem State.send_access (s : State) (b : Byte) : (s.send b).main.access = s.main.access := rfl
@[simp] theorem State.send_holdTimer (s : State) (b : Byte) : (s.send b).main.holdTimer = s.main.holdTimer := rfl
@[simp] theorem State.send_prdy (s : State) (b : Byte) : (s.send b).main.prdy = s.main.prdy := rfl
@[simp] theorem State.send_pd (s : State) (b : Byte) : (s.send b).main.pd = s.main.pd := rfl
@[simp] theorem State.send_owner (s : State) (b : Byte) : (s.send b).main.owner = s.main.owner := rfl
@[simp] theorem State.send_cycle (s : State) (b : Byte) : (s.send b).main.cycle = s.main.cycle := rfl
@[simp] theorem State.send_lastGrantProc (s : State) (b : Byte) : (s.send b).main.lastGrantProc = s.main.lastGrantProc := rfl
@[simp] theorem State.send_examining (s : State) (b : Byte) : (s.send b).main.examining = s.main.examining := rfl
@[simp] theorem State.send_pendSet (s : State) (b : Byte) : (s.send b).main.pendSet = s.main.pendSet := rfl
@[simp] theorem State.send_walk (s : State) (b : Byte) : (s.send b).main.walk = s.main.walk := rfl
@[simp] theorem State.send_stopped (s : State) (b : Byte) : (s.send b).main.stopped = s.main.stopped := rfl
@[simp] theorem State.send_counters (s : State) (b : Byte) : (s.send b).main.counters = s.main.counters := rfl
@[simp] theorem State.send_stamp (s : State) (b : Byte) : (s.send b).main.stamp = s.main.stamp := rfl
@[simp] theorem State.send_slots (s : State) (b : Byte) : (s.send b).main.slots = s.main.slots := rfl
@[simp] theorem State.send_ignored (s : State) (b : Byte) : (s.send b).main.ignored = s.main.ignored := rfl
@[simp] theorem State.send_queue (s : State) (b : Byte) : (s.send b).main.queue = s.main.queue := rfl
@[simp] theorem State.send_overrun (s : State) (b : Byte) : (s.send b).main.overrun = s.main.overrun := rfl
@[simp] theorem State.send_target (s : State) (b : Byte) : (s.send b).main.target = s.main.target := rfl
@[simp] theorem State.send_xfer (s : State) (b : Byte) : (s.send b).main.xfer = s.main.xfer.afterByte := rfl
@[simp] theorem State.send_reqCode (s : State) (b : Byte) : (s.send b).main.reqCode = s.main.reqCode := rfl
@[simp] theorem State.send_waiting (s : State) (b : Byte) : (s.send b).main.waiting = s.main.waiting := rfl
@[simp] theorem State.send_arg (s : State) (b : Byte) : (s.send b).main.arg = s.main.arg := rfl
@[simp] theorem State.send_response (s : State) (b : Byte) : (s.send b).main.response = s.main.response := rfl
@[simp] theorem State.send_txnView (s : State) (b : Byte) : (s.send b).main.txnView = s.main.txnView := rfl
@[simp] theorem State.send_recView (s : State) (b : Byte) : (s.send b).main.recView = s.main.recView := rfl
@[simp] theorem State.send_occLatch (s : State) (b : Byte) : (s.send b).main.occLatch = s.main.occLatch := rfl
@[simp] theorem State.send_stampLatch (s : State) (b : Byte) : (s.send b).main.stampLatch = s.main.stampLatch := rfl
@[simp] theorem State.send_eventLatch (s : State) (b : Byte) : (s.send b).main.eventLatch = s.main.eventLatch := rfl
@[simp] theorem State.send_ack (s : State) (b : Byte) : (s.send b).main.ack = s.main.ack := rfl
@[simp] theorem State.send_phase (s : State) (b : Byte) : (s.send b).main.phase = s.main.phase := rfl
@[simp] theorem State.send_tally (s : State) (b : Byte) : (s.send b).main.tally = s.main.tally := rfl
@[simp] theorem State.send_index (s : State) (b : Byte) : (s.send b).main.index = s.main.index + 1 := rfl
@[simp] theorem State.send_sent (s : State) (b : Byte) : (s.send b).main.sent = s.main.sent ++ [b] := rfl

end Sys2Proof.Machine
end

