-- ==== Sys2Proof/Laws/Ops.lean ====
section
/-! SUPPORT. The shared operations: everything a post and a hand-on can do, and what each update leaves of the registers
that the meanings read. -/

namespace Sys2Proof.Machine

/-! ## A post (R170) and a hand-on (R129 to R131) -/

/-- A post changes the queue and the overrun flag, and keeps the queue's bound. -/
theorem State.post_spec (s : State) (k : EventKind) (w : Option Win) (d : Word) :
    ∃ q o, s.post k w d = { s with main.queue := q, main.overrun := o }
      ∧ (s.main.queue.length ≤ Config.queueCapacity → q.length ≤ Config.queueCapacity) := by
  unfold State.post
  split
  · exact ⟨s.main.queue, s.main.overrun, rfl, id⟩
  · split
    · exact ⟨s.main.queue, s.main.overrun, rfl, id⟩
    · split
      · rename_i h
        exact ⟨_, s.main.overrun, rfl, fun _ => by simpa using h⟩
      · exact ⟨s.main.queue, true, rfl, id⟩

@[simp] theorem State.post_power (s : State) (k : EventKind) (w : Option Win) (d : Word) : (s.post k w d).power = s.power := by
  obtain ⟨_, _, h, _⟩ := s.post_spec k w d
  rw [h]
@[simp] theorem State.post_signature (s : State) (k : EventKind) (w : Option Win) (d : Word) : (s.post k w d).signature = s.signature := by
  obtain ⟨_, _, h, _⟩ := s.post_spec k w d
  rw [h]
@[simp] theorem State.post_vdd (s : State) (k : EventKind) (w : Option Win) (d : Word) : (s.post k w d).vdd = s.vdd := by
  obtain ⟨_, _, h, _⟩ := s.post_spec k w d
  rw [h]
@[simp] theorem State.post_pfail (s : State) (k : EventKind) (w : Option Win) (d : Word) : (s.post k w d).pfail = s.pfail := by
  obtain ⟨_, _, h, _⟩ := s.post_spec k w d
  rw [h]
@[simp] theorem State.post_rst (s : State) (k : EventKind) (w : Option Win) (d : Word) : (s.post k w d).rst = s.rst := by
  obtain ⟨_, _, h, _⟩ := s.post_spec k w d
  rw [h]
@[simp] theorem State.post_port (s : State) (k : EventKind) (w : Option Win) (d : Word) : (s.post k w d).port = s.port := by
  obtain ⟨_, _, h, _⟩ := s.post_spec k w d
  rw [h]
@[simp] theorem State.post_ret (s : State) (k : EventKind) (w : Option Win) (d : Word) : (s.post k w d).ret = s.ret := by
  obtain ⟨_, _, h, _⟩ := s.post_spec k w d
  rw [h]
@[simp] theorem State.post_ma (s : State) (k : EventKind) (w : Option Win) (d : Word) : (s.post k w d).ma = s.ma := by
  obtain ⟨_, _, h, _⟩ := s.post_spec k w d
  rw [h]
@[simp] theorem State.post_mbe (s : State) (k : EventKind) (w : Option Win) (d : Word) : (s.post k w d).mbe = s.mbe := by
  obtain ⟨_, _, h, _⟩ := s.post_spec k w d
  rw [h]
@[simp] theorem State.post_osc (s : State) (k : EventKind) (w : Option Win) (d : Word) : (s.post k w d).osc = s.osc := by
  obtain ⟨_, _, h, _⟩ := s.post_spec k w d
  rw [h]
@[simp] theorem State.post_sram (s : State) (k : EventKind) (w : Option Win) (d : Word) : (s.post k w d).sram = s.sram := by
  obtain ⟨_, _, h, _⟩ := s.post_spec k w d
  rw [h]
@[simp] theorem State.post_pending (s : State) (k : EventKind) (w : Option Win) (d : Word) : (s.post k w d).pending = s.pending := by
  obtain ⟨_, _, h, _⟩ := s.post_spec k w d
  rw [h]
@[simp] theorem State.post_freeCount (s : State) (k : EventKind) (w : Option Win) (d : Word) : (s.post k w d).freeCount = s.freeCount := by
  obtain ⟨_, _, h, _⟩ := s.post_spec k w d
  rw [h]
@[simp] theorem State.post_access (s : State) (k : EventKind) (w : Option Win) (d : Word) : (s.post k w d).main.access = s.main.access := by
  obtain ⟨_, _, h, _⟩ := s.post_spec k w d
  rw [h]
@[simp] theorem State.post_holdTimer (s : State) (k : EventKind) (w : Option Win) (d : Word) : (s.post k w d).main.holdTimer = s.main.holdTimer := by
  obtain ⟨_, _, h, _⟩ := s.post_spec k w d
  rw [h]
@[simp] theorem State.post_prdy (s : State) (k : EventKind) (w : Option Win) (d : Word) : (s.post k w d).main.prdy = s.main.prdy := by
  obtain ⟨_, _, h, _⟩ := s.post_spec k w d
  rw [h]
@[simp] theorem State.post_pd (s : State) (k : EventKind) (w : Option Win) (d : Word) : (s.post k w d).main.pd = s.main.pd := by
  obtain ⟨_, _, h, _⟩ := s.post_spec k w d
  rw [h]
@[simp] theorem State.post_owner (s : State) (k : EventKind) (w : Option Win) (d : Word) : (s.post k w d).main.owner = s.main.owner := by
  obtain ⟨_, _, h, _⟩ := s.post_spec k w d
  rw [h]
@[simp] theorem State.post_cycle (s : State) (k : EventKind) (w : Option Win) (d : Word) : (s.post k w d).main.cycle = s.main.cycle := by
  obtain ⟨_, _, h, _⟩ := s.post_spec k w d
  rw [h]
@[simp] theorem State.post_lastGrantProc (s : State) (k : EventKind) (w : Option Win) (d : Word) : (s.post k w d).main.lastGrantProc = s.main.lastGrantProc := by
  obtain ⟨_, _, h, _⟩ := s.post_spec k w d
  rw [h]
@[simp] theorem State.post_examining (s : State) (k : EventKind) (w : Option Win) (d : Word) : (s.post k w d).main.examining = s.main.examining := by
  obtain ⟨_, _, h, _⟩ := s.post_spec k w d
  rw [h]
@[simp] theorem State.post_pendSet (s : State) (k : EventKind) (w : Option Win) (d : Word) : (s.post k w d).main.pendSet = s.main.pendSet := by
  obtain ⟨_, _, h, _⟩ := s.post_spec k w d
  rw [h]
@[simp] theorem State.post_walk (s : State) (k : EventKind) (w : Option Win) (d : Word) : (s.post k w d).main.walk = s.main.walk := by
  obtain ⟨_, _, h, _⟩ := s.post_spec k w d
  rw [h]
@[simp] theorem State.post_stopped (s : State) (k : EventKind) (w : Option Win) (d : Word) : (s.post k w d).main.stopped = s.main.stopped := by
  obtain ⟨_, _, h, _⟩ := s.post_spec k w d
  rw [h]
@[simp] theorem State.post_counters (s : State) (k : EventKind) (w : Option Win) (d : Word) : (s.post k w d).main.counters = s.main.counters := by
  obtain ⟨_, _, h, _⟩ := s.post_spec k w d
  rw [h]
@[simp] theorem State.post_stamp (s : State) (k : EventKind) (w : Option Win) (d : Word) : (s.post k w d).main.stamp = s.main.stamp := by
  obtain ⟨_, _, h, _⟩ := s.post_spec k w d
  rw [h]
@[simp] theorem State.post_slots (s : State) (k : EventKind) (w : Option Win) (d : Word) : (s.post k w d).main.slots = s.main.slots := by
  obtain ⟨_, _, h, _⟩ := s.post_spec k w d
  rw [h]
@[simp] theorem State.post_ignored (s : State) (k : EventKind) (w : Option Win) (d : Word) : (s.post k w d).main.ignored = s.main.ignored := by
  obtain ⟨_, _, h, _⟩ := s.post_spec k w d
  rw [h]
@[simp] theorem State.post_target (s : State) (k : EventKind) (w : Option Win) (d : Word) : (s.post k w d).main.target = s.main.target := by
  obtain ⟨_, _, h, _⟩ := s.post_spec k w d
  rw [h]
@[simp] theorem State.post_xfer (s : State) (k : EventKind) (w : Option Win) (d : Word) : (s.post k w d).main.xfer = s.main.xfer := by
  obtain ⟨_, _, h, _⟩ := s.post_spec k w d
  rw [h]
@[simp] theorem State.post_index (s : State) (k : EventKind) (w : Option Win) (d : Word) : (s.post k w d).main.index = s.main.index := by
  obtain ⟨_, _, h, _⟩ := s.post_spec k w d
  rw [h]
@[simp] theorem State.post_reqCode (s : State) (k : EventKind) (w : Option Win) (d : Word) : (s.post k w d).main.reqCode = s.main.reqCode := by
  obtain ⟨_, _, h, _⟩ := s.post_spec k w d
  rw [h]
@[simp] theorem State.post_waiting (s : State) (k : EventKind) (w : Option Win) (d : Word) : (s.post k w d).main.waiting = s.main.waiting := by
  obtain ⟨_, _, h, _⟩ := s.post_spec k w d
  rw [h]
@[simp] theorem State.post_arg (s : State) (k : EventKind) (w : Option Win) (d : Word) : (s.post k w d).main.arg = s.main.arg := by
  obtain ⟨_, _, h, _⟩ := s.post_spec k w d
  rw [h]
@[simp] theorem State.post_response (s : State) (k : EventKind) (w : Option Win) (d : Word) : (s.post k w d).main.response = s.main.response := by
  obtain ⟨_, _, h, _⟩ := s.post_spec k w d
  rw [h]
@[simp] theorem State.post_txnView (s : State) (k : EventKind) (w : Option Win) (d : Word) : (s.post k w d).main.txnView = s.main.txnView := by
  obtain ⟨_, _, h, _⟩ := s.post_spec k w d
  rw [h]
@[simp] theorem State.post_recView (s : State) (k : EventKind) (w : Option Win) (d : Word) : (s.post k w d).main.recView = s.main.recView := by
  obtain ⟨_, _, h, _⟩ := s.post_spec k w d
  rw [h]
@[simp] theorem State.post_occLatch (s : State) (k : EventKind) (w : Option Win) (d : Word) : (s.post k w d).main.occLatch = s.main.occLatch := by
  obtain ⟨_, _, h, _⟩ := s.post_spec k w d
  rw [h]
@[simp] theorem State.post_stampLatch (s : State) (k : EventKind) (w : Option Win) (d : Word) : (s.post k w d).main.stampLatch = s.main.stampLatch := by
  obtain ⟨_, _, h, _⟩ := s.post_spec k w d
  rw [h]
@[simp] theorem State.post_eventLatch (s : State) (k : EventKind) (w : Option Win) (d : Word) : (s.post k w d).main.eventLatch = s.main.eventLatch := by
  obtain ⟨_, _, h, _⟩ := s.post_spec k w d
  rw [h]
@[simp] theorem State.post_ack (s : State) (k : EventKind) (w : Option Win) (d : Word) : (s.post k w d).main.ack = s.main.ack := by
  obtain ⟨_, _, h, _⟩ := s.post_spec k w d
  rw [h]
@[simp] theorem State.post_sent (s : State) (k : EventKind) (w : Option Win) (d : Word) : (s.post k w d).main.sent = s.main.sent := by
  obtain ⟨_, _, h, _⟩ := s.post_spec k w d
  rw [h]
@[simp] theorem State.post_phase (s : State) (k : EventKind) (w : Option Win) (d : Word) : (s.post k w d).main.phase = s.main.phase := by
  obtain ⟨_, _, h, _⟩ := s.post_spec k w d
  rw [h]
@[simp] theorem State.post_tally (s : State) (k : EventKind) (w : Option Win) (d : Word) : (s.post k w d).main.tally = s.main.tally := by
  obtain ⟨_, _, h, _⟩ := s.post_spec k w d
  rw [h]

/-- A hand-on changes the window's slot, the queue and the overrun flag, and keeps the queue's bound. -/
theorem State.handOn_spec (s : State) (w : Win) (o : ReceiptOutcome) (r : ReceiptReason) (q : Byte) (n : Nat) :
    ∃ x l b, s.handOn w o r q n
        = { s with main.slots := winSet s.main.slots w x, main.queue := l, main.overrun := b }
      ∧ (s.main.queue.length ≤ Config.queueCapacity → l.length ≤ Config.queueCapacity) := by
  have same : winSet s.main.slots w (winGet s.main.slots w) = s.main.slots := by
    simp [winSet, winGet]
  unfold State.handOn
  split
  · exact ⟨winGet s.main.slots w, s.main.queue, s.main.overrun, by rw [same], id⟩
  · split
    · obtain ⟨l, b, h, hb⟩ := State.post_spec
        (s.setSlot w (.pending (receiptWord o r q true w n) (s.desc w).receiptWord)) .receiptSuperseded (some w)
        (detailSuperseded (by assumption))
      exact ⟨_, l, b, by rw [h]; rfl, hb⟩
    · exact ⟨_, s.main.queue, s.main.overrun, rfl, id⟩
    · exact ⟨_, s.main.queue, s.main.overrun, rfl, id⟩

@[simp] theorem State.handOn_power (s : State) (w : Win) (o : ReceiptOutcome) (r : ReceiptReason) (q : Byte) (n : Nat) : (s.handOn w o r q n).power = s.power := by
  obtain ⟨_, _, _, h, _⟩ := s.handOn_spec w o r q n
  rw [h]
@[simp] theorem State.handOn_signature (s : State) (w : Win) (o : ReceiptOutcome) (r : ReceiptReason) (q : Byte) (n : Nat) : (s.handOn w o r q n).signature = s.signature := by
  obtain ⟨_, _, _, h, _⟩ := s.handOn_spec w o r q n
  rw [h]
@[simp] theorem State.handOn_vdd (s : State) (w : Win) (o : ReceiptOutcome) (r : ReceiptReason) (q : Byte) (n : Nat) : (s.handOn w o r q n).vdd = s.vdd := by
  obtain ⟨_, _, _, h, _⟩ := s.handOn_spec w o r q n
  rw [h]
@[simp] theorem State.handOn_pfail (s : State) (w : Win) (o : ReceiptOutcome) (r : ReceiptReason) (q : Byte) (n : Nat) : (s.handOn w o r q n).pfail = s.pfail := by
  obtain ⟨_, _, _, h, _⟩ := s.handOn_spec w o r q n
  rw [h]
@[simp] theorem State.handOn_rst (s : State) (w : Win) (o : ReceiptOutcome) (r : ReceiptReason) (q : Byte) (n : Nat) : (s.handOn w o r q n).rst = s.rst := by
  obtain ⟨_, _, _, h, _⟩ := s.handOn_spec w o r q n
  rw [h]
@[simp] theorem State.handOn_port (s : State) (w : Win) (o : ReceiptOutcome) (r : ReceiptReason) (q : Byte) (n : Nat) : (s.handOn w o r q n).port = s.port := by
  obtain ⟨_, _, _, h, _⟩ := s.handOn_spec w o r q n
  rw [h]
@[simp] theorem State.handOn_ret (s : State) (w : Win) (o : ReceiptOutcome) (r : ReceiptReason) (q : Byte) (n : Nat) : (s.handOn w o r q n).ret = s.ret := by
  obtain ⟨_, _, _, h, _⟩ := s.handOn_spec w o r q n
  rw [h]
@[simp] theorem State.handOn_ma (s : State) (w : Win) (o : ReceiptOutcome) (r : ReceiptReason) (q : Byte) (n : Nat) : (s.handOn w o r q n).ma = s.ma := by
  obtain ⟨_, _, _, h, _⟩ := s.handOn_spec w o r q n
  rw [h]
@[simp] theorem State.handOn_mbe (s : State) (w : Win) (o : ReceiptOutcome) (r : ReceiptReason) (q : Byte) (n : Nat) : (s.handOn w o r q n).mbe = s.mbe := by
  obtain ⟨_, _, _, h, _⟩ := s.handOn_spec w o r q n
  rw [h]
@[simp] theorem State.handOn_osc (s : State) (w : Win) (o : ReceiptOutcome) (r : ReceiptReason) (q : Byte) (n : Nat) : (s.handOn w o r q n).osc = s.osc := by
  obtain ⟨_, _, _, h, _⟩ := s.handOn_spec w o r q n
  rw [h]
@[simp] theorem State.handOn_sram (s : State) (w : Win) (o : ReceiptOutcome) (r : ReceiptReason) (q : Byte) (n : Nat) : (s.handOn w o r q n).sram = s.sram := by
  obtain ⟨_, _, _, h, _⟩ := s.handOn_spec w o r q n
  rw [h]
@[simp] theorem State.handOn_pending (s : State) (w : Win) (o : ReceiptOutcome) (r : ReceiptReason) (q : Byte) (n : Nat) : (s.handOn w o r q n).pending = s.pending := by
  obtain ⟨_, _, _, h, _⟩ := s.handOn_spec w o r q n
  rw [h]
@[simp] theorem State.handOn_freeCount (s : State) (w : Win) (o : ReceiptOutcome) (r : ReceiptReason) (q : Byte) (n : Nat) : (s.handOn w o r q n).freeCount = s.freeCount := by
  obtain ⟨_, _, _, h, _⟩ := s.handOn_spec w o r q n
  rw [h]
@[simp] theorem State.handOn_access (s : State) (w : Win) (o : ReceiptOutcome) (r : ReceiptReason) (q : Byte) (n : Nat) : (s.handOn w o r q n).main.access = s.main.access := by
  obtain ⟨_, _, _, h, _⟩ := s.handOn_spec w o r q n
  rw [h]
@[simp] theorem State.handOn_holdTimer (s : State) (w : Win) (o : ReceiptOutcome) (r : ReceiptReason) (q : Byte) (n : Nat) : (s.handOn w o r q n).main.holdTimer = s.main.holdTimer := by
  obtain ⟨_, _, _, h, _⟩ := s.handOn_spec w o r q n
  rw [h]
@[simp] theorem State.handOn_prdy (s : State) (w : Win) (o : ReceiptOutcome) (r : ReceiptReason) (q : Byte) (n : Nat) : (s.handOn w o r q n).main.prdy = s.main.prdy := by
  obtain ⟨_, _, _, h, _⟩ := s.handOn_spec w o r q n
  rw [h]
@[simp] theorem State.handOn_pd (s : State) (w : Win) (o : ReceiptOutcome) (r : ReceiptReason) (q : Byte) (n : Nat) : (s.handOn w o r q n).main.pd = s.main.pd := by
  obtain ⟨_, _, _, h, _⟩ := s.handOn_spec w o r q n
  rw [h]
@[simp] theorem State.handOn_owner (s : State) (w : Win) (o : ReceiptOutcome) (r : ReceiptReason) (q : Byte) (n : Nat) : (s.handOn w o r q n).main.owner = s.main.owner := by
  obtain ⟨_, _, _, h, _⟩ := s.handOn_spec w o r q n
  rw [h]
@[simp] theorem State.handOn_cycle (s : State) (w : Win) (o : ReceiptOutcome) (r : ReceiptReason) (q : Byte) (n : Nat) : (s.handOn w o r q n).main.cycle = s.main.cycle := by
  obtain ⟨_, _, _, h, _⟩ := s.handOn_spec w o r q n
  rw [h]
@[simp] theorem State.handOn_lastGrantProc (s : State) (w : Win) (o : ReceiptOutcome) (r : ReceiptReason) (q : Byte) (n : Nat) : (s.handOn w o r q n).main.lastGrantProc = s.main.lastGrantProc := by
  obtain ⟨_, _, _, h, _⟩ := s.handOn_spec w o r q n
  rw [h]
@[simp] theorem State.handOn_examining (s : State) (w : Win) (o : ReceiptOutcome) (r : ReceiptReason) (q : Byte) (n : Nat) : (s.handOn w o r q n).main.examining = s.main.examining := by
  obtain ⟨_, _, _, h, _⟩ := s.handOn_spec w o r q n
  rw [h]
@[simp] theorem State.handOn_pendSet (s : State) (w : Win) (o : ReceiptOutcome) (r : ReceiptReason) (q : Byte) (n : Nat) : (s.handOn w o r q n).main.pendSet = s.main.pendSet := by
  obtain ⟨_, _, _, h, _⟩ := s.handOn_spec w o r q n
  rw [h]
@[simp] theorem State.handOn_walk (s : State) (w : Win) (o : ReceiptOutcome) (r : ReceiptReason) (q : Byte) (n : Nat) : (s.handOn w o r q n).main.walk = s.main.walk := by
  obtain ⟨_, _, _, h, _⟩ := s.handOn_spec w o r q n
  rw [h]
@[simp] theorem State.handOn_stopped (s : State) (w : Win) (o : ReceiptOutcome) (r : ReceiptReason) (q : Byte) (n : Nat) : (s.handOn w o r q n).main.stopped = s.main.stopped := by
  obtain ⟨_, _, _, h, _⟩ := s.handOn_spec w o r q n
  rw [h]
@[simp] theorem State.handOn_counters (s : State) (w : Win) (o : ReceiptOutcome) (r : ReceiptReason) (q : Byte) (n : Nat) : (s.handOn w o r q n).main.counters = s.main.counters := by
  obtain ⟨_, _, _, h, _⟩ := s.handOn_spec w o r q n
  rw [h]
@[simp] theorem State.handOn_stamp (s : State) (w : Win) (o : ReceiptOutcome) (r : ReceiptReason) (q : Byte) (n : Nat) : (s.handOn w o r q n).main.stamp = s.main.stamp := by
  obtain ⟨_, _, _, h, _⟩ := s.handOn_spec w o r q n
  rw [h]
@[simp] theorem State.handOn_ignored (s : State) (w : Win) (o : ReceiptOutcome) (r : ReceiptReason) (q : Byte) (n : Nat) : (s.handOn w o r q n).main.ignored = s.main.ignored := by
  obtain ⟨_, _, _, h, _⟩ := s.handOn_spec w o r q n
  rw [h]
@[simp] theorem State.handOn_target (s : State) (w : Win) (o : ReceiptOutcome) (r : ReceiptReason) (q : Byte) (n : Nat) : (s.handOn w o r q n).main.target = s.main.target := by
  obtain ⟨_, _, _, h, _⟩ := s.handOn_spec w o r q n
  rw [h]
@[simp] theorem State.handOn_xfer (s : State) (w : Win) (o : ReceiptOutcome) (r : ReceiptReason) (q : Byte) (n : Nat) : (s.handOn w o r q n).main.xfer = s.main.xfer := by
  obtain ⟨_, _, _, h, _⟩ := s.handOn_spec w o r q n
  rw [h]
@[simp] theorem State.handOn_index (s : State) (w : Win) (o : ReceiptOutcome) (r : ReceiptReason) (q : Byte) (n : Nat) : (s.handOn w o r q n).main.index = s.main.index := by
  obtain ⟨_, _, _, h, _⟩ := s.handOn_spec w o r q n
  rw [h]
@[simp] theorem State.handOn_reqCode (s : State) (w : Win) (o : ReceiptOutcome) (r : ReceiptReason) (q : Byte) (n : Nat) : (s.handOn w o r q n).main.reqCode = s.main.reqCode := by
  obtain ⟨_, _, _, h, _⟩ := s.handOn_spec w o r q n
  rw [h]
@[simp] theorem State.handOn_waiting (s : State) (w : Win) (o : ReceiptOutcome) (r : ReceiptReason) (q : Byte) (n : Nat) : (s.handOn w o r q n).main.waiting = s.main.waiting := by
  obtain ⟨_, _, _, h, _⟩ := s.handOn_spec w o r q n
  rw [h]
@[simp] theorem State.handOn_arg (s : State) (w : Win) (o : ReceiptOutcome) (r : ReceiptReason) (q : Byte) (n : Nat) : (s.handOn w o r q n).main.arg = s.main.arg := by
  obtain ⟨_, _, _, h, _⟩ := s.handOn_spec w o r q n
  rw [h]
@[simp] theorem State.handOn_response (s : State) (w : Win) (o : ReceiptOutcome) (r : ReceiptReason) (q : Byte) (n : Nat) : (s.handOn w o r q n).main.response = s.main.response := by
  obtain ⟨_, _, _, h, _⟩ := s.handOn_spec w o r q n
  rw [h]
@[simp] theorem State.handOn_txnView (s : State) (w : Win) (o : ReceiptOutcome) (r : ReceiptReason) (q : Byte) (n : Nat) : (s.handOn w o r q n).main.txnView = s.main.txnView := by
  obtain ⟨_, _, _, h, _⟩ := s.handOn_spec w o r q n
  rw [h]
@[simp] theorem State.handOn_recView (s : State) (w : Win) (o : ReceiptOutcome) (r : ReceiptReason) (q : Byte) (n : Nat) : (s.handOn w o r q n).main.recView = s.main.recView := by
  obtain ⟨_, _, _, h, _⟩ := s.handOn_spec w o r q n
  rw [h]
@[simp] theorem State.handOn_occLatch (s : State) (w : Win) (o : ReceiptOutcome) (r : ReceiptReason) (q : Byte) (n : Nat) : (s.handOn w o r q n).main.occLatch = s.main.occLatch := by
  obtain ⟨_, _, _, h, _⟩ := s.handOn_spec w o r q n
  rw [h]
@[simp] theorem State.handOn_stampLatch (s : State) (w : Win) (o : ReceiptOutcome) (r : ReceiptReason) (q : Byte) (n : Nat) : (s.handOn w o r q n).main.stampLatch = s.main.stampLatch := by
  obtain ⟨_, _, _, h, _⟩ := s.handOn_spec w o r q n
  rw [h]
@[simp] theorem State.handOn_eventLatch (s : State) (w : Win) (o : ReceiptOutcome) (r : ReceiptReason) (q : Byte) (n : Nat) : (s.handOn w o r q n).main.eventLatch = s.main.eventLatch := by
  obtain ⟨_, _, _, h, _⟩ := s.handOn_spec w o r q n
  rw [h]
@[simp] theorem State.handOn_ack (s : State) (w : Win) (o : ReceiptOutcome) (r : ReceiptReason) (q : Byte) (n : Nat) : (s.handOn w o r q n).main.ack = s.main.ack := by
  obtain ⟨_, _, _, h, _⟩ := s.handOn_spec w o r q n
  rw [h]
@[simp] theorem State.handOn_sent (s : State) (w : Win) (o : ReceiptOutcome) (r : ReceiptReason) (q : Byte) (n : Nat) : (s.handOn w o r q n).main.sent = s.main.sent := by
  obtain ⟨_, _, _, h, _⟩ := s.handOn_spec w o r q n
  rw [h]
@[simp] theorem State.handOn_phase (s : State) (w : Win) (o : ReceiptOutcome) (r : ReceiptReason) (q : Byte) (n : Nat) : (s.handOn w o r q n).main.phase = s.main.phase := by
  obtain ⟨_, _, _, h, _⟩ := s.handOn_spec w o r q n
  rw [h]
@[simp] theorem State.handOn_tally (s : State) (w : Win) (o : ReceiptOutcome) (r : ReceiptReason) (q : Byte) (n : Nat) : (s.handOn w o r q n).main.tally = s.main.tally := by
  obtain ⟨_, _, _, h, _⟩ := s.handOn_spec w o r q n
  rw [h]

theorem State.post_bound {s : State} (h : s.main.queue.length ≤ Config.queueCapacity) (k : EventKind) (w : Option Win)
    (d : Word) : (s.post k w d).main.queue.length ≤ Config.queueCapacity := by
  obtain ⟨_, _, e, hb⟩ := s.post_spec k w d
  rw [e]
  exact hb h

theorem State.handOn_bound {s : State} (h : s.main.queue.length ≤ Config.queueCapacity) (w : Win) (o : ReceiptOutcome)
    (r : ReceiptReason) (q : Byte) (n : Nat) : (s.handOn w o r q n).main.queue.length ≤ Config.queueCapacity := by
  obtain ⟨_, _, _, e, hb⟩ := s.handOn_spec w o r q n
  rw [e]
  exact hb h

/-- Another window's slot is as it was. -/
theorem State.handOn_slot_ne (s : State) {w v : Win} (o : ReceiptOutcome) (r : ReceiptReason) (q : Byte) (n : Nat)
    (hv : v ≠ w) : (s.handOn w o r q n).slot v = s.slot v := by
  obtain ⟨x, _, _, h, _⟩ := s.handOn_spec w o r q n
  rw [h]
  exact winGet_winSet_ne s.main.slots x hv

/-- A receipt handed on while the main well runs is PENDING, with the superseded bit where one was waiting. -/
theorem State.handOn_slot (s : State) (w : Win) (o : ReceiptOutcome) (r : ReceiptReason) (q : Byte) (n : Nat)
    (hr : s.mainRuns = true) :
    (s.handOn w o r q n).slot w
      = .pending (receiptWord o r q (match s.slot w with | .pending _ _ => true | .empty => false | .writing => false) w n)
          (s.desc w).receiptWord := by
  unfold State.handOn
  simp only [hr, Bool.not_true, Bool.false_eq_true, if_false]
  split <;> simp_all [State.slot]

/-! ## What the registers hold after an update -/

@[simp] theorem State.setEntry_desc (s : State) (w : Win) (e : Option Entry) (v : Win) : (s.setEntry w e).desc v = s.desc v := rfl
@[simp] theorem State.setEntry_counter (s : State) (w : Win) (e : Option Entry) (v : Win) : (s.setEntry w e).counter v = s.counter v := rfl
@[simp] theorem State.setEntry_slot (s : State) (w : Win) (e : Option Entry) (v : Win) : (s.setEntry w e).slot v = s.slot v := rfl
@[simp] theorem State.setEntry_isPending (s : State) (w : Win) (e : Option Entry) (v : Win) : (s.setEntry w e).isPending v = s.isPending v := rfl
@[simp] theorem State.setEntry_deadline (s : State) (w : Win) (e : Option Entry) (v : Win) : (s.setEntry w e).deadline v = s.deadline v := rfl
@[simp] theorem State.setEntry_mainRuns (s : State) (w : Win) (e : Option Entry) : (s.setEntry w e).mainRuns = s.mainRuns := rfl
@[simp] theorem State.setJournal_entry (s : State) (j : Journal) (v : Win) : (s.setJournal j).entry v = s.entry v := rfl
@[simp] theorem State.setJournal_desc (s : State) (j : Journal) (v : Win) : (s.setJournal j).desc v = s.desc v := rfl
@[simp] theorem State.setJournal_txnState (s : State) (j : Journal) (v : Win) : (s.setJournal j).txnState v = s.txnState v := rfl
@[simp] theorem State.setJournal_enabled (s : State) (j : Journal) (v : Win) : (s.setJournal j).enabled v = s.enabled v := rfl
@[simp] theorem State.setJournal_counter (s : State) (j : Journal) (v : Win) : (s.setJournal j).counter v = s.counter v := rfl
@[simp] theorem State.setJournal_slot (s : State) (j : Journal) (v : Win) : (s.setJournal j).slot v = s.slot v := rfl
@[simp] theorem State.setJournal_isPending (s : State) (j : Journal) (v : Win) : (s.setJournal j).isPending v = s.isPending v := rfl
@[simp] theorem State.setJournal_deadline (s : State) (j : Journal) (v : Win) : (s.setJournal j).deadline v = s.deadline v := rfl
@[simp] theorem State.setJournal_countOf (s : State) (j : Journal) (v : Win) : (s.setJournal j).countOf v = s.countOf v := rfl
@[simp] theorem State.setJournal_mainRuns (s : State) (j : Journal) : (s.setJournal j).mainRuns = s.mainRuns := rfl
@[simp] theorem State.setCounter_entry (s : State) (w : Win) (c : Counter) (v : Win) : (s.setCounter w c).entry v = s.entry v := rfl
@[simp] theorem State.setCounter_desc (s : State) (w : Win) (c : Counter) (v : Win) : (s.setCounter w c).desc v = s.desc v := rfl
@[simp] theorem State.setCounter_txnState (s : State) (w : Win) (c : Counter) (v : Win) : (s.setCounter w c).txnState v = s.txnState v := rfl
@[simp] theorem State.setCounter_enabled (s : State) (w : Win) (c : Counter) (v : Win) : (s.setCounter w c).enabled v = s.enabled v := rfl
@[simp] theorem State.setCounter_slot (s : State) (w : Win) (c : Counter) (v : Win) : (s.setCounter w c).slot v = s.slot v := rfl
@[simp] theorem State.setCounter_isPending (s : State) (w : Win) (c : Counter) (v : Win) : (s.setCounter w c).isPending v = s.isPending v := rfl
@[simp] theorem State.setCounter_deadline (s : State) (w : Win) (c : Counter) (v : Win) : (s.setCounter w c).deadline v = s.deadline v := rfl
@[simp] theorem State.setCounter_countOf (s : State) (w : Win) (c : Counter) (v : Win) : (s.setCounter w c).countOf v = s.countOf v := rfl
@[simp] theorem State.setCounter_mainRuns (s : State) (w : Win) (c : Counter) : (s.setCounter w c).mainRuns = s.mainRuns := rfl
@[simp] theorem State.discardCounter_entry (s : State) (w : Win) (v : Win) : (s.discardCounter w).entry v = s.entry v := rfl
@[simp] theorem State.discardCounter_desc (s : State) (w : Win) (v : Win) : (s.discardCounter w).desc v = s.desc v := rfl
@[simp] theorem State.discardCounter_txnState (s : State) (w : Win) (v : Win) : (s.discardCounter w).txnState v = s.txnState v := rfl
@[simp] theorem State.discardCounter_enabled (s : State) (w : Win) (v : Win) : (s.discardCounter w).enabled v = s.enabled v := rfl
@[simp] theorem State.discardCounter_slot (s : State) (w : Win) (v : Win) : (s.discardCounter w).slot v = s.slot v := rfl
@[simp] theorem State.discardCounter_isPending (s : State) (w : Win) (v : Win) : (s.discardCounter w).isPending v = s.isPending v := rfl
@[simp] theorem State.discardCounter_deadline (s : State) (w : Win) (v : Win) : (s.discardCounter w).deadline v = s.deadline v := rfl
@[simp] theorem State.discardCounter_countOf (s : State) (w : Win) (v : Win) : (s.discardCounter w).countOf v = s.countOf v := rfl
@[simp] theorem State.discardCounter_mainRuns (s : State) (w : Win) : (s.discardCounter w).mainRuns = s.mainRuns := rfl
@[simp] theorem State.setSlot_entry (s : State) (w : Win) (x : ReceiptSlot) (v : Win) : (s.setSlot w x).entry v = s.entry v := rfl
@[simp] theorem State.setSlot_desc (s : State) (w : Win) (x : ReceiptSlot) (v : Win) : (s.setSlot w x).desc v = s.desc v := rfl
@[simp] theorem State.setSlot_txnState (s : State) (w : Win) (x : ReceiptSlot) (v : Win) : (s.setSlot w x).txnState v = s.txnState v := rfl
@[simp] theorem State.setSlot_enabled (s : State) (w : Win) (x : ReceiptSlot) (v : Win) : (s.setSlot w x).enabled v = s.enabled v := rfl
@[simp] theorem State.setSlot_counter (s : State) (w : Win) (x : ReceiptSlot) (v : Win) : (s.setSlot w x).counter v = s.counter v := rfl
@[simp] theorem State.setSlot_isPending (s : State) (w : Win) (x : ReceiptSlot) (v : Win) : (s.setSlot w x).isPending v = s.isPending v := rfl
@[simp] theorem State.setSlot_deadline (s : State) (w : Win) (x : ReceiptSlot) (v : Win) : (s.setSlot w x).deadline v = s.deadline v := rfl
@[simp] theorem State.setSlot_countOf (s : State) (w : Win) (x : ReceiptSlot) (v : Win) : (s.setSlot w x).countOf v = s.countOf v := rfl
@[simp] theorem State.setSlot_mainRuns (s : State) (w : Win) (x : ReceiptSlot) : (s.setSlot w x).mainRuns = s.mainRuns := rfl
@[simp] theorem State.setPending_entry (s : State) (w : Win) (b : Bool) (v : Win) : (s.setPending w b).entry v = s.entry v := rfl
@[simp] theorem State.setPending_desc (s : State) (w : Win) (b : Bool) (v : Win) : (s.setPending w b).desc v = s.desc v := rfl
@[simp] theorem State.setPending_txnState (s : State) (w : Win) (b : Bool) (v : Win) : (s.setPending w b).txnState v = s.txnState v := rfl
@[simp] theorem State.setPending_enabled (s : State) (w : Win) (b : Bool) (v : Win) : (s.setPending w b).enabled v = s.enabled v := rfl
@[simp] theorem State.setPending_counter (s : State) (w : Win) (b : Bool) (v : Win) : (s.setPending w b).counter v = s.counter v := rfl
@[simp] theorem State.setPending_slot (s : State) (w : Win) (b : Bool) (v : Win) : (s.setPending w b).slot v = s.slot v := rfl
@[simp] theorem State.setPending_deadline (s : State) (w : Win) (b : Bool) (v : Win) : (s.setPending w b).deadline v = s.deadline v := rfl
@[simp] theorem State.setPending_countOf (s : State) (w : Win) (b : Bool) (v : Win) : (s.setPending w b).countOf v = s.countOf v := rfl
@[simp] theorem State.setPending_mainRuns (s : State) (w : Win) (b : Bool) : (s.setPending w b).mainRuns = s.mainRuns := rfl
@[simp] theorem State.setAccess_entry (s : State) (a : Option Access) (v : Win) : (s.setAccess a).entry v = s.entry v := rfl
@[simp] theorem State.setAccess_desc (s : State) (a : Option Access) (v : Win) : (s.setAccess a).desc v = s.desc v := rfl
@[simp] theorem State.setAccess_txnState (s : State) (a : Option Access) (v : Win) : (s.setAccess a).txnState v = s.txnState v := rfl
@[simp] theorem State.setAccess_enabled (s : State) (a : Option Access) (v : Win) : (s.setAccess a).enabled v = s.enabled v := rfl
@[simp] theorem State.setAccess_counter (s : State) (a : Option Access) (v : Win) : (s.setAccess a).counter v = s.counter v := rfl
@[simp] theorem State.setAccess_slot (s : State) (a : Option Access) (v : Win) : (s.setAccess a).slot v = s.slot v := rfl
@[simp] theorem State.setAccess_isPending (s : State) (a : Option Access) (v : Win) : (s.setAccess a).isPending v = s.isPending v := rfl
@[simp] theorem State.setAccess_deadline (s : State) (a : Option Access) (v : Win) : (s.setAccess a).deadline v = s.deadline v := rfl
@[simp] theorem State.setAccess_countOf (s : State) (a : Option Access) (v : Win) : (s.setAccess a).countOf v = s.countOf v := rfl
@[simp] theorem State.setAccess_mainRuns (s : State) (a : Option Access) : (s.setAccess a).mainRuns = s.mainRuns := rfl
@[simp] theorem State.setWalk_entry (s : State) (k : Option Walk) (v : Win) : (s.setWalk k).entry v = s.entry v := rfl
@[simp] theorem State.setWalk_desc (s : State) (k : Option Walk) (v : Win) : (s.setWalk k).desc v = s.desc v := rfl
@[simp] theorem State.setWalk_txnState (s : State) (k : Option Walk) (v : Win) : (s.setWalk k).txnState v = s.txnState v := rfl
@[simp] theorem State.setWalk_enabled (s : State) (k : Option Walk) (v : Win) : (s.setWalk k).enabled v = s.enabled v := rfl
@[simp] theorem State.setWalk_counter (s : State) (k : Option Walk) (v : Win) : (s.setWalk k).counter v = s.counter v := rfl
@[simp] theorem State.setWalk_slot (s : State) (k : Option Walk) (v : Win) : (s.setWalk k).slot v = s.slot v := rfl
@[simp] theorem State.setWalk_isPending (s : State) (k : Option Walk) (v : Win) : (s.setWalk k).isPending v = s.isPending v := rfl
@[simp] theorem State.setWalk_deadline (s : State) (k : Option Walk) (v : Win) : (s.setWalk k).deadline v = s.deadline v := rfl
@[simp] theorem State.setWalk_countOf (s : State) (k : Option Walk) (v : Win) : (s.setWalk k).countOf v = s.countOf v := rfl
@[simp] theorem State.setWalk_mainRuns (s : State) (k : Option Walk) : (s.setWalk k).mainRuns = s.mainRuns := rfl
@[simp] theorem State.setSram_entry (s : State) (m : List Host.Cell) (v : Win) : (s.setSram m).entry v = s.entry v := rfl
@[simp] theorem State.setSram_desc (s : State) (m : List Host.Cell) (v : Win) : (s.setSram m).desc v = s.desc v := rfl
@[simp] theorem State.setSram_txnState (s : State) (m : List Host.Cell) (v : Win) : (s.setSram m).txnState v = s.txnState v := rfl
@[simp] theorem State.setSram_enabled (s : State) (m : List Host.Cell) (v : Win) : (s.setSram m).enabled v = s.enabled v := rfl
@[simp] theorem State.setSram_counter (s : State) (m : List Host.Cell) (v : Win) : (s.setSram m).counter v = s.counter v := rfl
@[simp] theorem State.setSram_slot (s : State) (m : List Host.Cell) (v : Win) : (s.setSram m).slot v = s.slot v := rfl
@[simp] theorem State.setSram_isPending (s : State) (m : List Host.Cell) (v : Win) : (s.setSram m).isPending v = s.isPending v := rfl
@[simp] theorem State.setSram_deadline (s : State) (m : List Host.Cell) (v : Win) : (s.setSram m).deadline v = s.deadline v := rfl
@[simp] theorem State.setSram_countOf (s : State) (m : List Host.Cell) (v : Win) : (s.setSram m).countOf v = s.countOf v := rfl
@[simp] theorem State.setSram_mainRuns (s : State) (m : List Host.Cell) : (s.setSram m).mainRuns = s.mainRuns := rfl
@[simp] theorem State.useFree_entry (s : State) (n : Nat) (v : Win) : (s.useFree n).entry v = s.entry v := rfl
@[simp] theorem State.useFree_desc (s : State) (n : Nat) (v : Win) : (s.useFree n).desc v = s.desc v := rfl
@[simp] theorem State.useFree_txnState (s : State) (n : Nat) (v : Win) : (s.useFree n).txnState v = s.txnState v := rfl
@[simp] theorem State.useFree_enabled (s : State) (n : Nat) (v : Win) : (s.useFree n).enabled v = s.enabled v := rfl
@[simp] theorem State.useFree_counter (s : State) (n : Nat) (v : Win) : (s.useFree n).counter v = s.counter v := rfl
@[simp] theorem State.useFree_slot (s : State) (n : Nat) (v : Win) : (s.useFree n).slot v = s.slot v := rfl
@[simp] theorem State.useFree_isPending (s : State) (n : Nat) (v : Win) : (s.useFree n).isPending v = s.isPending v := rfl
@[simp] theorem State.useFree_deadline (s : State) (n : Nat) (v : Win) : (s.useFree n).deadline v = s.deadline v := rfl
@[simp] theorem State.useFree_countOf (s : State) (n : Nat) (v : Win) : (s.useFree n).countOf v = s.countOf v := rfl
@[simp] theorem State.useFree_mainRuns (s : State) (n : Nat) : (s.useFree n).mainRuns = s.mainRuns := rfl
@[simp] theorem State.drive_entry (s : State) (o : Owner) (c : Cycle) (v : Win) : (s.drive o c).entry v = s.entry v := rfl
@[simp] theorem State.drive_desc (s : State) (o : Owner) (c : Cycle) (v : Win) : (s.drive o c).desc v = s.desc v := rfl
@[simp] theorem State.drive_txnState (s : State) (o : Owner) (c : Cycle) (v : Win) : (s.drive o c).txnState v = s.txnState v := rfl
@[simp] theorem State.drive_enabled (s : State) (o : Owner) (c : Cycle) (v : Win) : (s.drive o c).enabled v = s.enabled v := rfl
@[simp] theorem State.drive_counter (s : State) (o : Owner) (c : Cycle) (v : Win) : (s.drive o c).counter v = s.counter v := rfl
@[simp] theorem State.drive_slot (s : State) (o : Owner) (c : Cycle) (v : Win) : (s.drive o c).slot v = s.slot v := rfl
@[simp] theorem State.drive_isPending (s : State) (o : Owner) (c : Cycle) (v : Win) : (s.drive o c).isPending v = s.isPending v := rfl
@[simp] theorem State.drive_deadline (s : State) (o : Owner) (c : Cycle) (v : Win) : (s.drive o c).deadline v = s.deadline v := rfl
@[simp] theorem State.drive_countOf (s : State) (o : Owner) (c : Cycle) (v : Win) : (s.drive o c).countOf v = s.countOf v := rfl
@[simp] theorem State.drive_mainRuns (s : State) (o : Owner) (c : Cycle) : (s.drive o c).mainRuns = s.mainRuns := rfl
@[simp] theorem State.endGrant_entry (s : State) (v : Win) : (s.endGrant).entry v = s.entry v := rfl
@[simp] theorem State.endGrant_desc (s : State) (v : Win) : (s.endGrant).desc v = s.desc v := rfl
@[simp] theorem State.endGrant_txnState (s : State) (v : Win) : (s.endGrant).txnState v = s.txnState v := rfl
@[simp] theorem State.endGrant_enabled (s : State) (v : Win) : (s.endGrant).enabled v = s.enabled v := rfl
@[simp] theorem State.endGrant_counter (s : State) (v : Win) : (s.endGrant).counter v = s.counter v := rfl
@[simp] theorem State.endGrant_slot (s : State) (v : Win) : (s.endGrant).slot v = s.slot v := rfl
@[simp] theorem State.endGrant_isPending (s : State) (v : Win) : (s.endGrant).isPending v = s.isPending v := rfl
@[simp] theorem State.endGrant_deadline (s : State) (v : Win) : (s.endGrant).deadline v = s.deadline v := rfl
@[simp] theorem State.endGrant_countOf (s : State) (v : Win) : (s.endGrant).countOf v = s.countOf v := rfl
@[simp] theorem State.endGrant_mainRuns (s : State) : (s.endGrant).mainRuns = s.mainRuns := rfl
@[simp] theorem State.respond_entry (s : State) (r : Response) (v : Win) : (s.respond r).entry v = s.entry v := rfl
@[simp] theorem State.respond_desc (s : State) (r : Response) (v : Win) : (s.respond r).desc v = s.desc v := rfl
@[simp] theorem State.respond_txnState (s : State) (r : Response) (v : Win) : (s.respond r).txnState v = s.txnState v := rfl
@[simp] theorem State.respond_enabled (s : State) (r : Response) (v : Win) : (s.respond r).enabled v = s.enabled v := rfl
@[simp] theorem State.respond_counter (s : State) (r : Response) (v : Win) : (s.respond r).counter v = s.counter v := rfl
@[simp] theorem State.respond_slot (s : State) (r : Response) (v : Win) : (s.respond r).slot v = s.slot v := rfl
@[simp] theorem State.respond_isPending (s : State) (r : Response) (v : Win) : (s.respond r).isPending v = s.isPending v := rfl
@[simp] theorem State.respond_deadline (s : State) (r : Response) (v : Win) : (s.respond r).deadline v = s.deadline v := rfl
@[simp] theorem State.respond_countOf (s : State) (r : Response) (v : Win) : (s.respond r).countOf v = s.countOf v := rfl
@[simp] theorem State.respond_mainRuns (s : State) (r : Response) : (s.respond r).mainRuns = s.mainRuns := rfl
@[simp] theorem State.byteTaken_entry (s : State) (v : Win) : (s.byteTaken).entry v = s.entry v := rfl
@[simp] theorem State.byteTaken_desc (s : State) (v : Win) : (s.byteTaken).desc v = s.desc v := rfl
@[simp] theorem State.byteTaken_txnState (s : State) (v : Win) : (s.byteTaken).txnState v = s.txnState v := rfl
@[simp] theorem State.byteTaken_enabled (s : State) (v : Win) : (s.byteTaken).enabled v = s.enabled v := rfl
@[simp] theorem State.byteTaken_counter (s : State) (v : Win) : (s.byteTaken).counter v = s.counter v := rfl
@[simp] theorem State.byteTaken_slot (s : State) (v : Win) : (s.byteTaken).slot v = s.slot v := rfl
@[simp] theorem State.byteTaken_isPending (s : State) (v : Win) : (s.byteTaken).isPending v = s.isPending v := rfl
@[simp] theorem State.byteTaken_deadline (s : State) (v : Win) : (s.byteTaken).deadline v = s.deadline v := rfl
@[simp] theorem State.byteTaken_countOf (s : State) (v : Win) : (s.byteTaken).countOf v = s.countOf v := rfl
@[simp] theorem State.byteTaken_mainRuns (s : State) : (s.byteTaken).mainRuns = s.mainRuns := rfl
@[simp] theorem State.send_entry (s : State) (b : Byte) (v : Win) : (s.send b).entry v = s.entry v := rfl
@[simp] theorem State.send_desc (s : State) (b : Byte) (v : Win) : (s.send b).desc v = s.desc v := rfl
@[simp] theorem State.send_txnState (s : State) (b : Byte) (v : Win) : (s.send b).txnState v = s.txnState v := rfl
@[simp] theorem State.send_enabled (s : State) (b : Byte) (v : Win) : (s.send b).enabled v = s.enabled v := rfl
@[simp] theorem State.send_counter (s : State) (b : Byte) (v : Win) : (s.send b).counter v = s.counter v := rfl
@[simp] theorem State.send_slot (s : State) (b : Byte) (v : Win) : (s.send b).slot v = s.slot v := rfl
@[simp] theorem State.send_isPending (s : State) (b : Byte) (v : Win) : (s.send b).isPending v = s.isPending v := rfl
@[simp] theorem State.send_deadline (s : State) (b : Byte) (v : Win) : (s.send b).deadline v = s.deadline v := rfl
@[simp] theorem State.send_countOf (s : State) (b : Byte) (v : Win) : (s.send b).countOf v = s.countOf v := rfl
@[simp] theorem State.send_mainRuns (s : State) (b : Byte) : (s.send b).mainRuns = s.mainRuns := rfl
@[simp] theorem State.post_entry (s : State) (k : EventKind) (w : Option Win) (d : Word) (v : Win) : (s.post k w d).entry v = s.entry v := by
  simp [State.entry]
@[simp] theorem State.post_desc (s : State) (k : EventKind) (w : Option Win) (d : Word) (v : Win) : (s.post k w d).desc v = s.desc v := by
  simp [State.desc]
@[simp] theorem State.post_txnState (s : State) (k : EventKind) (w : Option Win) (d : Word) (v : Win) : (s.post k w d).txnState v = s.txnState v := by
  simp [State.txnState, State.entry]
@[simp] theorem State.post_enabled (s : State) (k : EventKind) (w : Option Win) (d : Word) (v : Win) : (s.post k w d).enabled v = s.enabled v := by
  simp [State.enabled, State.entry]
@[simp] theorem State.post_counter (s : State) (k : EventKind) (w : Option Win) (d : Word) (v : Win) : (s.post k w d).counter v = s.counter v := by
  simp [State.counter]
@[simp] theorem State.post_slot (s : State) (k : EventKind) (w : Option Win) (d : Word) (v : Win) : (s.post k w d).slot v = s.slot v := by
  simp [State.slot]
@[simp] theorem State.post_isPending (s : State) (k : EventKind) (w : Option Win) (d : Word) (v : Win) : (s.post k w d).isPending v = s.isPending v := by
  simp [State.isPending]
@[simp] theorem State.post_deadline (s : State) (k : EventKind) (w : Option Win) (d : Word) (v : Win) : (s.post k w d).deadline v = s.deadline v := by
  simp [State.deadline, State.desc]
@[simp] theorem State.post_countOf (s : State) (k : EventKind) (w : Option Win) (d : Word) (v : Win) : (s.post k w d).countOf v = s.countOf v := by
  simp [State.countOf, State.entry]
@[simp] theorem State.post_mainRuns (s : State) (k : EventKind) (w : Option Win) (d : Word) : (s.post k w d).mainRuns = s.mainRuns := by
  simp [State.mainRuns]
@[simp] theorem State.handOn_entry (s : State) (w : Win) (o : ReceiptOutcome) (r : ReceiptReason) (q : Byte) (n : Nat) (v : Win) : (s.handOn w o r q n).entry v = s.entry v := by
  simp [State.entry]
@[simp] theorem State.handOn_desc (s : State) (w : Win) (o : ReceiptOutcome) (r : ReceiptReason) (q : Byte) (n : Nat) (v : Win) : (s.handOn w o r q n).desc v = s.desc v := by
  simp [State.desc]
@[simp] theorem State.handOn_txnState (s : State) (w : Win) (o : ReceiptOutcome) (r : ReceiptReason) (q : Byte) (n : Nat) (v : Win) : (s.handOn w o r q n).txnState v = s.txnState v := by
  simp [State.txnState, State.entry]
@[simp] theorem State.handOn_enabled (s : State) (w : Win) (o : ReceiptOutcome) (r : ReceiptReason) (q : Byte) (n : Nat) (v : Win) : (s.handOn w o r q n).enabled v = s.enabled v := by
  simp [State.enabled, State.entry]
@[simp] theorem State.handOn_counter (s : State) (w : Win) (o : ReceiptOutcome) (r : ReceiptReason) (q : Byte) (n : Nat) (v : Win) : (s.handOn w o r q n).counter v = s.counter v := by
  simp [State.counter]
@[simp] theorem State.handOn_isPending (s : State) (w : Win) (o : ReceiptOutcome) (r : ReceiptReason) (q : Byte) (n : Nat) (v : Win) : (s.handOn w o r q n).isPending v = s.isPending v := by
  simp [State.isPending]
@[simp] theorem State.handOn_deadline (s : State) (w : Win) (o : ReceiptOutcome) (r : ReceiptReason) (q : Byte) (n : Nat) (v : Win) : (s.handOn w o r q n).deadline v = s.deadline v := by
  simp [State.deadline, State.desc]
@[simp] theorem State.handOn_countOf (s : State) (w : Win) (o : ReceiptOutcome) (r : ReceiptReason) (q : Byte) (n : Nat) (v : Win) : (s.handOn w o r q n).countOf v = s.countOf v := by
  simp [State.countOf, State.entry]
@[simp] theorem State.handOn_mainRuns (s : State) (w : Win) (o : ReceiptOutcome) (r : ReceiptReason) (q : Byte) (n : Nat) : (s.handOn w o r q n).mainRuns = s.mainRuns := by
  simp [State.mainRuns]

theorem State.setEntry_entry (s : State) (w v : Win) (e : Option Entry) :
    (s.setEntry w e).entry v = if v = w then e else s.entry v := winGet_winSet s.ret.entries w v e

@[simp] theorem State.setEntry_entry_self (s : State) (w : Win) (e : Option Entry) : (s.setEntry w e).entry w = e :=
  winGet_winSet_eq s.ret.entries w e

theorem State.setCounter_counter (s : State) (w v : Win) (c : Counter) :
    (s.setCounter w c).counter v = if v = w then c else s.counter v := winGet_winSet s.main.counters w v c

@[simp] theorem State.setCounter_counter_self (s : State) (w : Win) (c : Counter) : (s.setCounter w c).counter w = c :=
  winGet_winSet_eq s.main.counters w c

theorem State.discardCounter_counter (s : State) (w v : Win) :
    (s.discardCounter w).counter v = if v = w then .absent else s.counter v :=
  winGet_winSet s.main.counters w v .absent

@[simp] theorem State.discardCounter_counter_self (s : State) (w : Win) : (s.discardCounter w).counter w = .absent :=
  winGet_winSet_eq s.main.counters w .absent

theorem State.setSlot_slot (s : State) (w v : Win) (x : ReceiptSlot) :
    (s.setSlot w x).slot v = if v = w then x else s.slot v := winGet_winSet s.main.slots w v x

@[simp] theorem State.setSlot_slot_self (s : State) (w : Win) (x : ReceiptSlot) : (s.setSlot w x).slot w = x :=
  winGet_winSet_eq s.main.slots w x

theorem State.setPending_isPending (s : State) (w v : Win) (b : Bool) :
    (s.setPending w b).isPending v = if v = w then b else s.isPending v := winGet_winSet s.main.pendSet w v b

@[simp] theorem State.setPending_isPending_self (s : State) (w : Win) (b : Bool) : (s.setPending w b).isPending w = b :=
  winGet_winSet_eq s.main.pendSet w b

/-! ## The check code (R41) -/

/-- One bit shifted into the check code's register at its upper end (R41; log 18). -/
theorem checkShift_xor (r x : Byte) :
    checkShift (r ^^^ x)
      = ((r <<< 1) ^^^ (if (r.msb ^^ x.msb) = true then 0x07#8 else 0x00#8)) ^^^ (x <<< 1) := by
  unfold checkShift
  rw [BitVec.msb_xor, BitVec.shiftLeft_xor_distrib]
  split
  · rw [BitVec.xor_assoc, BitVec.xor_assoc, BitVec.xor_comm (x <<< 1)]
  · simp

/-- A byte shifted in is its eight bits shifted in, the most significant first (R41; log 18). -/
theorem checkByte_bits (r b : Byte) :
    checkByte r b
      = (List.range 8).foldl
          (fun (r : Byte) i => (r <<< 1) ^^^ (if (r.msb ^^ b.getLsbD (7 - i)) = true then 0x07#8 else 0x00#8)) r := by
  have hb : ∀ i, i < 8 → (b <<< i).msb = b.getLsbD (7 - i) := by
    intro i hi
    rw [BitVec.msb_eq_getLsbD_last, BitVec.getLsbD_shiftLeft]
    have : ¬ (8 - 1 < i) := by omega
    simp [this]
  have step : ∀ (q : Byte) i, i < 8 → checkShift (q ^^^ (b <<< i))
      = ((q <<< 1) ^^^ (if (q.msb ^^ b.getLsbD (7 - i)) = true then 0x07#8 else 0x00#8)) ^^^ (b <<< (i + 1)) := by
    intro q i hi
    rw [checkShift_xor, hb i hi, BitVec.shiftLeft_add]
  have h0 : r ^^^ b = r ^^^ (b <<< 0) := by rw [BitVec.shiftLeft_zero]
  have h8 : ∀ q : Byte, q ^^^ (b <<< 8) = q := by
    intro q
    have : b <<< 8 = 0#8 := BitVec.shiftLeft_eq_zero (Nat.le_refl 8)
    rw [this, BitVec.xor_zero]
  have e : checkByte r b = checkShift (checkShift (checkShift (checkShift (checkShift (checkShift (checkShift (checkShift
      (r ^^^ (b <<< 0))))))))) := by rw [← h0]; rfl
  rw [e, step _ 0 (by omega), step _ 1 (by omega), step _ 2 (by omega), step _ 3 (by omega), step _ 4 (by omega),
    step _ 5 (by omega), step _ 6 (by omega), step _ 7 (by omega), h8]
  rfl

end Sys2Proof.Machine
end

