-- ==== Sys2Proof/Laws/Access.lean ====
section
/-! SUPPORT. The access path: everything that routing, voiding, dropping, completing and taking an access can change. -/

namespace Sys2Proof.Machine

/-- Everything the access path changes outside the memory port: the access and its timer, PRDY and PD, receipt slots,
the event queue within its bound, and the drop-reported mark of a BROKEN window. -/
structure AccessMoves (s t : State) : Prop where
  shape : ∃ en x ht p d sl q o,
    t = { s with
          ret.entries := en
          main := { s.main with access := x, holdTimer := ht, prdy := p, pd := d, slots := sl, queue := q, overrun := o } }
  bound : s.main.queue.length ≤ Config.queueCapacity → t.main.queue.length ≤ Config.queueCapacity
  entry : ∀ v, t.entry v = s.entry v
    ∨ ∃ e, s.entry v = some e ∧ e.state = .broken ∧ t.entry v = some { e with dropReported := true }

theorem AccessMoves.refl (s : State) : AccessMoves s s := ⟨⟨_, _, _, _, _, _, _, _, rfl⟩, id, fun _ => Or.inl rfl⟩

theorem AccessMoves.trans {s t u : State} (h : AccessMoves s t) (g : AccessMoves t u) : AccessMoves s u := by
  refine ⟨?_, fun x => g.bound (h.bound x), fun v => ?_⟩
  · obtain ⟨_, _, _, _, _, _, _, _, e⟩ := h.shape
    obtain ⟨_, _, _, _, _, _, _, _, e'⟩ := g.shape
    rw [e', e]
    exact ⟨_, _, _, _, _, _, _, _, rfl⟩
  · rcases h.entry v with a | ⟨e, a1, a2, a3⟩
    · rw [← a]
      exact g.entry v
    · right
      rcases g.entry v with b | ⟨e', b1, b2, b3⟩
      · exact ⟨e, a1, a2, b.trans a3⟩
      · refine ⟨e, a1, a2, ?_⟩
        rw [a3] at b1
        obtain rfl := Option.some.inj b1
        exact b3

theorem AccessMoves.txnState {s t : State} (h : AccessMoves s t) (v : Win) : t.txnState v = s.txnState v := by
  unfold State.txnState
  rcases h.entry v with e | ⟨e, h1, h2, h3⟩
  · rw [e]
  · rw [h3, h1]
    rfl

theorem AccessMoves.post (s : State) (k : EventKind) (w : Option Win) (d : Word) : AccessMoves s (s.post k w d) := by
  obtain ⟨q, o, e, hb⟩ := s.post_spec k w d
  exact ⟨⟨s.ret.entries, s.main.access, s.main.holdTimer, s.main.prdy, s.main.pd, s.main.slots, q, o, e⟩,
    fun h => by rw [e]; exact hb h, fun v => Or.inl (by simp)⟩

theorem AccessMoves.handOn (s : State) (w : Win) (o : ReceiptOutcome) (r : ReceiptReason) (q : Byte) (n : Nat) :
    AccessMoves s (s.handOn w o r q n) := by
  obtain ⟨x, l, b, e, hb⟩ := s.handOn_spec w o r q n
  exact ⟨⟨s.ret.entries, s.main.access, s.main.holdTimer, s.main.prdy, s.main.pd, _, l, b, e⟩,
    fun h => by rw [e]; exact hb h, fun v => Or.inl (by simp)⟩

/-- An access path's own registers set. -/
theorem AccessMoves.set (s : State) (x : Option Access) (ht : Option Nat) (p : Prdy) (d : Option Word) :
    AccessMoves s { s with main.access := x, main.holdTimer := ht, main.prdy := p, main.pd := d } :=
  ⟨⟨s.ret.entries, x, ht, p, d, s.main.slots, s.main.queue, s.main.overrun, rfl⟩, id, fun _ => Or.inl rfl⟩

theorem AccessMoves.complete (s : State) (a : Access) (r : Option Word) : AccessMoves s (s.complete a r) := by
  unfold State.complete
  split
  · exact AccessMoves.set s _ _ s.main.prdy s.main.pd
  · exact AccessMoves.set s _ _ _ _

theorem AccessMoves.voidAccess (s : State) (a : Access) (w : Win) : AccessMoves s (s.voidAccess a w) := by
  unfold State.voidAccess
  refine AccessMoves.trans (t := if s.voidsMarker a w then s.handOn w .refused .busy (markerSeq a.data) (s.countOf w) else s)
    ?_ ((AccessMoves.post _ _ _ _).trans (AccessMoves.complete _ _ _))
  split
  · exact AccessMoves.handOn _ _ _ _ _ _
  · exact AccessMoves.refl _

theorem AccessMoves.hold (s : State) (a : Access) (w : Win) : AccessMoves s (s.hold a w) := by
  unfold State.hold
  split
  · exact AccessMoves.voidAccess _ _ _
  · exact AccessMoves.set s _ _ s.main.prdy s.main.pd

theorem AccessMoves.noteDrop (s : State) (w : Win) (a : Addr) : AccessMoves s (s.noteDrop w a) := by
  unfold State.noteDrop
  split
  · exact AccessMoves.refl s
  · rename_i e he
    split
    · rename_i hb
      simp only [Bool.and_eq_true, decide_eq_true_eq] at hb
      refine AccessMoves.trans ?_ (AccessMoves.post _ _ _ _)
      refine ⟨⟨_, s.main.access, s.main.holdTimer, s.main.prdy, s.main.pd, s.main.slots, s.main.queue, s.main.overrun,
        rfl⟩, id, fun v => ?_⟩
      rw [State.setEntry_entry]
      split
      · rename_i hv
        rw [hv]
        exact Or.inr ⟨e, he, hb.1, rfl⟩
      · exact Or.inl rfl
    · exact AccessMoves.refl s

theorem AccessMoves.reportDrop (s : State) (w : Win) (y : TxnState) (a : Addr) : AccessMoves s (s.reportDrop w y a) := by
  unfold State.reportDrop
  split
  · exact AccessMoves.post _ _ _ _
  · exact AccessMoves.noteDrop _ _ _
  · exact AccessMoves.post _ _ _ _
  · exact AccessMoves.refl _
  · exact AccessMoves.refl _

theorem AccessMoves.claim (s : State) (a : Access) (c : AccessClass) (w : Option Win) : AccessMoves s (s.claim a c w) :=
  AccessMoves.set s _ _ s.main.prdy s.main.pd

theorem AccessMoves.proceed (s : State) (a : Access) (v : Verdict) : AccessMoves s (s.proceed a v) := by
  cases v with
  | passes w => exact AccessMoves.claim _ _ _ _
  | journals w => exact AccessMoves.claim _ _ _ _
  | writesControl w => exact AccessMoves.claim _ _ _ _
  | holds w => exact AccessMoves.hold _ _ _
  | drops w why => exact (AccessMoves.reportDrop _ _ _ _).trans (AccessMoves.complete _ _ _)

theorem AccessMoves.route (s : State) (a : Access) : AccessMoves s (s.route a) := by
  unfold State.route
  split
  · exact AccessMoves.complete _ _ _
  · exact AccessMoves.proceed _ _ _

theorem AccessMoves.takePresented (s : State) : AccessMoves s s.takePresented := by
  unfold State.takePresented
  split
  · exact (AccessMoves.set s s.main.access s.main.holdTimer _ _).trans (AccessMoves.route _ _)
  · exact AccessMoves.refl _

theorem AccessMoves.settle (s : State) : AccessMoves s s.settle := by
  unfold State.settle
  split
  · split
    · split
      · exact (AccessMoves.set s none s.main.holdTimer s.main.prdy s.main.pd).trans (AccessMoves.takePresented _)
      · exact AccessMoves.set s none s.main.holdTimer _ _
    · exact AccessMoves.refl _
  · exact AccessMoves.refl _

theorem AccessMoves.releaseHeld (s : State) (w : Win) : AccessMoves s (s.releaseHeld w) := by
  unfold State.releaseHeld
  split
  · split
    · exact (AccessMoves.set s s.main.access none s.main.prdy s.main.pd).trans
        ((AccessMoves.route _ _).trans (AccessMoves.settle _))
    · exact AccessMoves.refl _
  · exact AccessMoves.refl _

theorem AccessMoves.refuse (s : State) (w : Win) (r : ReceiptReason) (q : Byte) : AccessMoves s (s.refuse w r q) :=
  (AccessMoves.handOn _ _ _ _ _ _).trans (AccessMoves.post _ _ _ _)

/-! ## What the access path leaves -/

section Same
variable {s t : State}

theorem AccessMoves.power (h : AccessMoves s t) : t.power = s.power := by obtain ⟨_, _, _, _, _, _, _, _, e⟩ := h.shape; rw [e]
theorem AccessMoves.signature (h : AccessMoves s t) : t.signature = s.signature := by
  obtain ⟨_, _, _, _, _, _, _, _, e⟩ := h.shape; rw [e]
theorem AccessMoves.vdd (h : AccessMoves s t) : t.vdd = s.vdd := by obtain ⟨_, _, _, _, _, _, _, _, e⟩ := h.shape; rw [e]
theorem AccessMoves.pfail (h : AccessMoves s t) : t.pfail = s.pfail := by obtain ⟨_, _, _, _, _, _, _, _, e⟩ := h.shape; rw [e]
theorem AccessMoves.rst (h : AccessMoves s t) : t.rst = s.rst := by obtain ⟨_, _, _, _, _, _, _, _, e⟩ := h.shape; rw [e]
theorem AccessMoves.port (h : AccessMoves s t) : t.port = s.port := by obtain ⟨_, _, _, _, _, _, _, _, e⟩ := h.shape; rw [e]
theorem AccessMoves.ma (h : AccessMoves s t) : t.ma = s.ma := by obtain ⟨_, _, _, _, _, _, _, _, e⟩ := h.shape; rw [e]
theorem AccessMoves.mbe (h : AccessMoves s t) : t.mbe = s.mbe := by obtain ⟨_, _, _, _, _, _, _, _, e⟩ := h.shape; rw [e]
theorem AccessMoves.osc (h : AccessMoves s t) : t.osc = s.osc := by obtain ⟨_, _, _, _, _, _, _, _, e⟩ := h.shape; rw [e]
theorem AccessMoves.sram (h : AccessMoves s t) : t.sram = s.sram := by obtain ⟨_, _, _, _, _, _, _, _, e⟩ := h.shape; rw [e]
theorem AccessMoves.pending (h : AccessMoves s t) : t.pending = s.pending := by
  obtain ⟨_, _, _, _, _, _, _, _, e⟩ := h.shape; rw [e]
theorem AccessMoves.freeCount (h : AccessMoves s t) : t.freeCount = s.freeCount := by
  obtain ⟨_, _, _, _, _, _, _, _, e⟩ := h.shape; rw [e]

/-- The retained state but the entries. -/
theorem AccessMoves.ret (h : AccessMoves s t) : t.ret = { s.ret with entries := t.ret.entries } := by
  obtain ⟨_, _, _, _, _, _, _, _, e⟩ := h.shape; rw [e]

/-- The main well but the access path's registers, the slots and the queue. -/
theorem AccessMoves.main (h : AccessMoves s t) :
    t.main = { s.main with
               access := t.main.access, holdTimer := t.main.holdTimer, prdy := t.main.prdy, pd := t.main.pd,
               slots := t.main.slots, queue := t.main.queue, overrun := t.main.overrun } := by
  obtain ⟨_, _, _, _, _, _, _, _, e⟩ := h.shape; rw [e]

theorem AccessMoves.desc (h : AccessMoves s t) (v : Win) : t.desc v = s.desc v := by
  unfold State.desc; rw [h.ret]
theorem AccessMoves.journal (h : AccessMoves s t) : t.ret.journal = s.ret.journal := by rw [h.ret]
theorem AccessMoves.counter (h : AccessMoves s t) (v : Win) : t.counter v = s.counter v := by
  unfold State.counter; rw [h.main]
theorem AccessMoves.isPending (h : AccessMoves s t) (v : Win) : t.isPending v = s.isPending v := by
  unfold State.isPending; rw [h.main]
theorem AccessMoves.walk (h : AccessMoves s t) : t.main.walk = s.main.walk := by rw [h.main]
theorem AccessMoves.owner (h : AccessMoves s t) : t.main.owner = s.main.owner := by rw [h.main]
theorem AccessMoves.cycle (h : AccessMoves s t) : t.main.cycle = s.main.cycle := by rw [h.main]

end Same

/-! ## An access that reaches its outcome -/

/-- An access that reaches its outcome with no new access in its place. -/
theorem State.settle_complete (s : State) (a : Access) (r : Option Word) (h : s.noneFollows a) :
    (s.complete a r).settle
      = if a.withdrawn = true then
          { s with main.access := none, main.holdTimer := none, main.prdy := .pulsed, main.pd := none }
        else
          { s with
            main.access := some { a with cond := .complete }, main.holdTimer := none, main.prdy := .asserted,
            main.pd := if a.wr then none else r } := by
  unfold State.complete State.settle
  rcases h with h | h
  · simp [h]
  · by_cases hw : a.withdrawn = true
    · simp [hw, h]
    · simp [hw]

/-- It has its outcome in the sense of R70 and R85. -/
theorem State.settle_complete_ended (s : State) (a : Access) (r : Option Word) (h : s.noneFollows a) :
    ((s.complete a r).settle).ended a (if a.wr then none else r) := by
  rw [State.settle_complete s a r h]
  unfold State.ended
  split <;> simp [*]

end Sys2Proof.Machine
end

