-- ==== Sys2Proof/Laws/Events.lean ====
section
/-! SUPPORT. The events a chain of posts and hand-ons leaves, read off the state before it. -/

namespace Sys2Proof.Machine

/-- Two states in which a post does the same. -/
structure PostSame (s t : State) : Prop where
  power : t.power = s.power
  mask : t.ret.kindMask = s.ret.kindMask
  stamp : t.main.stamp = s.main.stamp
  queue : t.main.queue = s.main.queue
  overrun : t.main.overrun = s.main.overrun

theorem PostSame.refl (s : State) : PostSame s s := ⟨rfl, rfl, rfl, rfl, rfl⟩

theorem PostSame.post {s t : State} (h : PostSame s t) (k : EventKind) (w : Option Win) (d : Word) :
    PostSame (s.post k w d) (t.post k w d) := by
  have hm : t.mainRuns = s.mainRuns := by simp [State.mainRuns, h.power]
  have hk : t.kindEnabled k = s.kindEnabled k := by simp [State.kindEnabled, h.mask]
  refine ⟨by simp [h.power], by simp [h.mask], by simp [h.stamp], ?_, ?_⟩ <;>
  · unfold State.post
    rw [hm, hk, h.queue]
    split
    · simp [h.queue, h.overrun]
    · split
      · simp [h.queue, h.overrun]
      · split <;> simp [h.queue, h.overrun, h.stamp]

theorem PostSame.postAll {s t : State} (h : PostSame s t) (l : List (EventKind × Option Win × Word)) :
    PostSame (s.postAll l) (t.postAll l) := by
  unfold State.postAll
  induction l generalizing s t with
  | nil => exact h
  | cons e l ih => exact ih (h.post _ _ _)

theorem EventsAre.nil (s : State) : EventsAre s s [] := ⟨rfl, rfl⟩

theorem EventsAre.of_same {s t : State} (h : SameEvents s t) : EventsAre s t [] := ⟨h.1, h.2⟩

/-- Events read off a state in which posts do the same. -/
theorem EventsAre.congr {s s' t : State} {l : List (EventKind × Option Win × Word)} (h : PostSame s s')
    (e : EventsAre s' t l) : EventsAre s t l :=
  ⟨e.1.trans (h.postAll l).queue, e.2.trans (h.postAll l).overrun⟩

/-- A later state with the same queue. -/
theorem EventsAre.same {s t t' : State} {l : List (EventKind × Option Win × Word)} (e : EventsAre s t l)
    (h : SameEvents t t') : EventsAre s t' l := ⟨h.1.trans e.1, h.2.trans e.2⟩

/-- Events of two parts of a taking, one after the other. -/
theorem EventsAre.append {s t u : State} {l m : List (EventKind × Option Win × Word)} (hp : t.power = s.power)
    (hk : t.ret.kindMask = s.ret.kindMask) (hs : t.main.stamp = s.main.stamp) (h : EventsAre s t l)
    (g : EventsAre t u m) : EventsAre s u (l ++ m) := by
  have aux : ∀ (v : State) (n : List (EventKind × Option Win × Word)),
      (v.postAll n).power = v.power ∧ (v.postAll n).ret.kindMask = v.ret.kindMask
        ∧ (v.postAll n).main.stamp = v.main.stamp := by
    intro v n
    unfold State.postAll
    induction n generalizing v with
    | nil => exact ⟨rfl, rfl, rfl⟩
    | cons e n ih =>
      obtain ⟨a, b, c⟩ := ih (v.post e.1 e.2.1 e.2.2)
      exact ⟨by simpa using a, by simpa using b, by simpa using c⟩
  have hps : PostSame (s.postAll l) t := by
    obtain ⟨a, b, c⟩ := aux s l
    exact ⟨hp.trans a.symm, hk.trans b.symm, hs.trans c.symm, h.1, h.2⟩
  have e : s.postAll (l ++ m) = (s.postAll l).postAll m := by simp [State.postAll, List.foldl_append]
  have := hps.postAll m
  exact ⟨by rw [e]; exact g.1.trans this.queue, by rw [e]; exact g.2.trans this.overrun⟩

theorem EventsAre.post (s : State) (k : EventKind) (w : Option Win) (d : Word) :
    EventsAre s (s.post k w d) [(k, w, d)] := ⟨rfl, rfl⟩

/-- A hand-on posts what superseding posts, and nothing else. -/
theorem EventsAre.handOn (s : State) (w : Win) (o : ReceiptOutcome) (r : ReceiptReason) (q : Byte) (n : Nat)
    (hr : s.mainRuns = true) : EventsAre s (s.handOn w o r q n) (s.superseding w) := by
  unfold State.handOn State.superseding
  simp only [hr, Bool.not_true, Bool.false_eq_true, if_false]
  cases s.slot w with
  | empty => exact ⟨rfl, rfl⟩
  | pending old x =>
    exact EventsAre.congr (s' := s.setSlot w (.pending (receiptWord o r q true w n) (s.desc w).receiptWord))
      ⟨rfl, rfl, rfl, rfl, rfl⟩ (EventsAre.post _ _ _ _)
  | writing => exact ⟨rfl, rfl⟩

/-- The receipt a hand-on leaves, in the words of the statements. -/
theorem HandedOn.handOn (s : State) (w : Win) (o : ReceiptOutcome) (r : ReceiptReason) (q : Byte) (n : Nat)
    (hr : s.mainRuns = true) : HandedOn s (s.handOn w o r q n) w o r q n := by
  unfold HandedOn
  rw [State.handOn_slot s w o r q n hr]
  unfold State.receiptWaits
  rfl

/-- A receipt handed on from a state with the same slot and descriptor. -/
theorem HandedOn.congr {s s' t : State} {w : Win} {o : ReceiptOutcome} {r : ReceiptReason} {q : Byte} {n : Nat}
    (hs : s'.slot w = s.slot w) (hd : s'.desc w = s.desc w) (h : HandedOn s' t w o r q n) : HandedOn s t w o r q n := by
  unfold HandedOn State.receiptWaits at *
  rw [← hs, ← hd]
  exact h

theorem superseding_congr {s s' : State} {w : Win} (hs : s'.slot w = s.slot w) : s'.superseding w = s.superseding w := by
  unfold State.superseding
  rw [hs]

end Sys2Proof.Machine
end

