-- ==== Sys2Proof/Laws/Moves.lean ====
section
/-! SUPPORT. The takings and the engine: everything that they can change, said once. -/

namespace Sys2Proof.Machine

/-- Everything the takings, the access path and the engine change: entries, journal, the access, the pending set, the
walk, counters, slots, the tally, used free values, and the event queue within its bound. -/
structure Moves (s t : State) : Prop where
  shape : ∃ en j f x ht p d ps k c sl q o y,
    t = { s with
          ret.entries := en, ret.journal := j, freeCount := f
          main := { s.main with
                    access := x, holdTimer := ht, prdy := p, pd := d, pendSet := ps, walk := k, counters := c,
                    slots := sl, queue := q, overrun := o, tally := y } }
  bound : s.main.queue.length ≤ Config.queueCapacity → t.main.queue.length ≤ Config.queueCapacity

theorem Moves.refl (s : State) : Moves s s := ⟨⟨_, _, _, _, _, _, _, _, _, _, _, _, _, _, rfl⟩, id⟩

theorem Moves.trans {s t u : State} (h : Moves s t) (g : Moves t u) : Moves s u := by
  refine ⟨?_, fun x => g.bound (h.bound x)⟩
  obtain ⟨_, _, _, _, _, _, _, _, _, _, _, _, _, _, e⟩ := h.shape
  obtain ⟨_, _, _, _, _, _, _, _, _, _, _, _, _, _, e'⟩ := g.shape
  rw [e', e]
  exact ⟨_, _, _, _, _, _, _, _, _, _, _, _, _, _, rfl⟩

theorem AccessMoves.moves {s t : State} (h : AccessMoves s t) : Moves s t := by
  refine ⟨?_, h.bound⟩
  obtain ⟨_, _, _, _, _, _, _, _, e⟩ := h.shape
  rw [e]
  exact ⟨_, s.ret.journal, s.freeCount, _, _, _, _, s.main.pendSet, s.main.walk, s.main.counters, _, _, _, s.main.tally,
    rfl⟩

section Same
variable {s t : State}

theorem Moves.sram (h : Moves s t) : t.sram = s.sram := by
  obtain ⟨_, _, _, _, _, _, _, _, _, _, _, _, _, _, e⟩ := h.shape; rw [e]
theorem Moves.pending (h : Moves s t) : t.pending = s.pending := by
  obtain ⟨_, _, _, _, _, _, _, _, _, _, _, _, _, _, e⟩ := h.shape; rw [e]
theorem Moves.port (h : Moves s t) : t.port = s.port := by
  obtain ⟨_, _, _, _, _, _, _, _, _, _, _, _, _, _, e⟩ := h.shape; rw [e]
theorem Moves.power (h : Moves s t) : t.power = s.power := by
  obtain ⟨_, _, _, _, _, _, _, _, _, _, _, _, _, _, e⟩ := h.shape; rw [e]
theorem Moves.signature (h : Moves s t) : t.signature = s.signature := by
  obtain ⟨_, _, _, _, _, _, _, _, _, _, _, _, _, _, e⟩ := h.shape; rw [e]
theorem Moves.vdd (h : Moves s t) : t.vdd = s.vdd := by
  obtain ⟨_, _, _, _, _, _, _, _, _, _, _, _, _, _, e⟩ := h.shape; rw [e]
theorem Moves.pfail (h : Moves s t) : t.pfail = s.pfail := by
  obtain ⟨_, _, _, _, _, _, _, _, _, _, _, _, _, _, e⟩ := h.shape; rw [e]
theorem Moves.rst (h : Moves s t) : t.rst = s.rst := by
  obtain ⟨_, _, _, _, _, _, _, _, _, _, _, _, _, _, e⟩ := h.shape; rw [e]
theorem Moves.ma (h : Moves s t) : t.ma = s.ma := by
  obtain ⟨_, _, _, _, _, _, _, _, _, _, _, _, _, _, e⟩ := h.shape; rw [e]
theorem Moves.mbe (h : Moves s t) : t.mbe = s.mbe := by
  obtain ⟨_, _, _, _, _, _, _, _, _, _, _, _, _, _, e⟩ := h.shape; rw [e]
theorem Moves.osc (h : Moves s t) : t.osc = s.osc := by
  obtain ⟨_, _, _, _, _, _, _, _, _, _, _, _, _, _, e⟩ := h.shape; rw [e]

/-- The retained state but the entries and the journal. -/
theorem Moves.ret (h : Moves s t) : t.ret = { s.ret with entries := t.ret.entries, journal := t.ret.journal } := by
  obtain ⟨_, _, _, _, _, _, _, _, _, _, _, _, _, _, e⟩ := h.shape; rw [e]

/-- The main well but what `Moves` names. -/
theorem Moves.main (h : Moves s t) :
    t.main = { s.main with
               access := t.main.access, holdTimer := t.main.holdTimer, prdy := t.main.prdy, pd := t.main.pd,
               pendSet := t.main.pendSet, walk := t.main.walk, counters := t.main.counters, slots := t.main.slots,
               queue := t.main.queue, overrun := t.main.overrun, tally := t.main.tally } := by
  obtain ⟨_, _, _, _, _, _, _, _, _, _, _, _, _, _, e⟩ := h.shape; rw [e]

theorem Moves.config (h : Moves s t) : SameConfig s t := by
  unfold SameConfig; rw [h.ret]; exact ⟨rfl, rfl, rfl, rfl, rfl⟩
theorem Moves.sequencer (h : Moves s t) : SameSequencer s t := by
  unfold SameSequencer; rw [h.main, h.ma, h.mbe]; exact ⟨rfl, rfl, rfl, rfl, rfl, rfl⟩
theorem Moves.management (h : Moves s t) : SameManagement s t := by
  unfold SameManagement; rw [h.main]; exact ⟨rfl, rfl, rfl, rfl, rfl, rfl, rfl, rfl, rfl, rfl, rfl, rfl, rfl, rfl, rfl⟩
theorem Moves.stamp (h : Moves s t) : t.main.stamp = s.main.stamp := by rw [h.main]
theorem Moves.phase (h : Moves s t) : t.main.phase = s.main.phase := by rw [h.main]
theorem Moves.stopped (h : Moves s t) : t.main.stopped = s.main.stopped := by rw [h.main]
theorem Moves.desc (h : Moves s t) (v : Win) : t.desc v = s.desc v := by unfold State.desc; rw [h.ret]
theorem Moves.mainRuns (h : Moves s t) : t.mainRuns = s.mainRuns := by simp [State.mainRuns, h.power]

end Same

/-! ## One register set -/

theorem Moves.setEntry (s : State) (w : Win) (e : Option Entry) : Moves s (s.setEntry w e) :=
  ⟨⟨_, s.ret.journal, s.freeCount, s.main.access, s.main.holdTimer, s.main.prdy, s.main.pd, s.main.pendSet, s.main.walk,
    s.main.counters, s.main.slots, s.main.queue, s.main.overrun, s.main.tally, rfl⟩, id⟩
theorem Moves.setJournal (s : State) (j : Journal) : Moves s (s.setJournal j) :=
  ⟨⟨s.ret.entries, j, s.freeCount, s.main.access, s.main.holdTimer, s.main.prdy, s.main.pd, s.main.pendSet, s.main.walk,
    s.main.counters, s.main.slots, s.main.queue, s.main.overrun, s.main.tally, rfl⟩, id⟩
theorem Moves.setCounter (s : State) (w : Win) (c : Counter) : Moves s (s.setCounter w c) :=
  ⟨⟨s.ret.entries, s.ret.journal, s.freeCount, s.main.access, s.main.holdTimer, s.main.prdy, s.main.pd, s.main.pendSet,
    s.main.walk, _, s.main.slots, s.main.queue, s.main.overrun, s.main.tally, rfl⟩, id⟩
theorem Moves.discardCounter (s : State) (w : Win) : Moves s (s.discardCounter w) := Moves.setCounter s w _
theorem Moves.setPending (s : State) (w : Win) (b : Bool) : Moves s (s.setPending w b) :=
  ⟨⟨s.ret.entries, s.ret.journal, s.freeCount, s.main.access, s.main.holdTimer, s.main.prdy, s.main.pd, _, s.main.walk,
    s.main.counters, s.main.slots, s.main.queue, s.main.overrun, s.main.tally, rfl⟩, id⟩
theorem Moves.setWalk (s : State) (k : Option Walk) : Moves s (s.setWalk k) :=
  ⟨⟨s.ret.entries, s.ret.journal, s.freeCount, s.main.access, s.main.holdTimer, s.main.prdy, s.main.pd, s.main.pendSet, k,
    s.main.counters, s.main.slots, s.main.queue, s.main.overrun, s.main.tally, rfl⟩, id⟩
theorem Moves.setTally (s : State) (y : Option Tally) : Moves s { s with main.tally := y } :=
  ⟨⟨s.ret.entries, s.ret.journal, s.freeCount, s.main.access, s.main.holdTimer, s.main.prdy, s.main.pd, s.main.pendSet,
    s.main.walk, s.main.counters, s.main.slots, s.main.queue, s.main.overrun, y, rfl⟩, id⟩
theorem Moves.useFree (s : State) (n : Nat) : Moves s (s.useFree n) :=
  ⟨⟨s.ret.entries, s.ret.journal, _, s.main.access, s.main.holdTimer, s.main.prdy, s.main.pd, s.main.pendSet,
    s.main.walk, s.main.counters, s.main.slots, s.main.queue, s.main.overrun, s.main.tally, rfl⟩, id⟩
theorem Moves.post (s : State) (k : EventKind) (w : Option Win) (d : Word) : Moves s (s.post k w d) :=
  (AccessMoves.post s k w d).moves
theorem Moves.handOn (s : State) (w : Win) (o : ReceiptOutcome) (r : ReceiptReason) (q : Byte) (n : Nat) :
    Moves s (s.handOn w o r q n) := (AccessMoves.handOn s w o r q n).moves
theorem Moves.refuse (s : State) (w : Win) (r : ReceiptReason) (q : Byte) : Moves s (s.refuse w r q) :=
  (AccessMoves.refuse s w r q).moves

/-! ## The takings -/

theorem Moves.startRollback (s : State) (w : Win) (e : Entry) (c : RollbackCause) : Moves s (s.startRollback w e c) :=
  (Moves.setEntry _ _ _).trans (Moves.setPending _ _ _)
theorem Moves.voidAllToIdle (s : State) (w : Win) (e : Entry) : Moves s (s.voidAllToIdle w e) :=
  (Moves.setJournal _ _).trans (Moves.setEntry _ _ _)
theorem Moves.reloadIfIdle (s : State) (w : Win) : Moves s (s.reloadIfIdle w) := by
  unfold State.reloadIfIdle; split
  · exact Moves.setCounter _ _ _
  · exact Moves.refl _
theorem Moves.takeOpen (s : State) (w : Win) (q : Byte) : Moves s (s.takeOpen w q) := by
  unfold State.takeOpen; split
  · exact Moves.refl _
  · split
    · exact (Moves.setEntry _ _ _).trans ((Moves.setCounter _ _ _).trans (Moves.handOn _ _ _ _ _ _))
    · exact Moves.refuse _ _ _ _
    · exact Moves.refuse _ _ _ _
    · exact Moves.refuse _ _ _ _
    · exact Moves.refl _
theorem Moves.commitTaken (s : State) (w : Win) (q : Byte) (e : Entry) : Moves s (s.commitTaken w q e) := by
  unfold State.commitTaken; split
  · exact Moves.refuse _ _ _ _
  · exact (Moves.voidAllToIdle _ _ _).trans ((Moves.discardCounter _ _).trans (Moves.handOn _ _ _ _ _ _))
theorem Moves.abortTaken (s : State) (w : Win) (e : Entry) : Moves s (s.abortTaken w e) := by
  unfold State.abortTaken; split
  · exact (Moves.setEntry _ _ _).trans ((Moves.discardCounter _ _).trans (Moves.handOn _ _ _ _ _ _))
  · exact (Moves.startRollback _ _ _ _).trans (Moves.discardCounter _ _)
theorem Moves.saveTaken (s : State) (w : Win) (q : Byte) (e : Entry) : Moves s (s.saveTaken w q e) := by
  unfold State.saveTaken; split
  · exact Moves.refuse _ _ _ _
  · exact (Moves.setEntry _ _ _).trans (Moves.handOn _ _ _ _ _ _)
theorem Moves.returnTaken (s : State) (w : Win) (q : Byte) (e : Entry) : Moves s (s.returnTaken w q e) := by
  unfold State.returnTaken; split
  · exact Moves.refuse _ _ _ _
  · split
    · exact (Moves.setEntry _ _ _).trans ((Moves.reloadIfIdle _ _).trans (Moves.handOn _ _ _ _ _ _))
    · exact (Moves.startRollback _ _ _ _).trans (Moves.setCounter _ _ _)
theorem Moves.endMarker (s : State) (w : Win) (q : Byte) (k : Entry → State) (h : ∀ e, Moves s (k e)) :
    Moves s (s.endMarker w q k) := by
  unfold State.endMarker; split
  · exact Moves.refl _
  · split
    · exact Moves.refuse _ _ _ _
    · exact Moves.refuse _ _ _ _
    · exact Moves.refl _
    · split
      · exact h _
      · exact Moves.refuse _ _ _ _
    · split
      · exact h _
      · exact Moves.refuse _ _ _ _
theorem Moves.takeMarker (s : State) (w : Win) (k : MarkerKind) (q : Byte) : Moves s (s.takeMarker w k q) := by
  cases k
  · exact Moves.takeOpen _ _ _
  · exact Moves.endMarker _ _ _ _ fun e => Moves.commitTaken _ _ _ _
  · exact Moves.endMarker _ _ _ _ fun e => Moves.abortTaken _ _ _
  · exact Moves.endMarker _ _ _ _ fun e => Moves.saveTaken _ _ _ _
  · exact Moves.endMarker _ _ _ _ fun e => Moves.returnTaken _ _ _ _
theorem Moves.breakTxn (s : State) (w : Win) (r : BreakReason) : Moves s (s.breakTxn w r) := by
  unfold State.breakTxn; split
  · exact Moves.refl _
  · exact (Moves.setEntry _ _ _).trans ((Moves.handOn _ _ _ _ _ _).trans (Moves.post _ _ _ _))
theorem Moves.highWaterTest (s : State) (w : Win) : Moves s (s.highWaterTest w) := by
  unfold State.highWaterTest; split
  · exact Moves.post _ _ _ _
  · exact Moves.refl _
theorem Moves.appendBody (s : State) (w : Win) (a : Addr) (x : Word) (l : Lanes) : Moves s (s.appendBody w a x l) :=
  Moves.setJournal _ _
theorem Moves.appendMark (s : State) (w : Win) : Moves s (s.appendMark w) := by
  unfold State.appendMark; dsimp only; split
  · exact Moves.setJournal _ _
  · exact (Moves.setJournal _ _).trans (Moves.setEntry _ _ _)
theorem Moves.takeExpiry (s : State) (w : Win) (q : Byte) : Moves s (s.takeExpiry w q) := by
  unfold State.takeExpiry; split
  · exact Moves.refl _
  · split
    · dsimp only; split
      · exact (Moves.setEntry _ _ _).trans ((Moves.discardCounter _ _).trans
          ((Moves.handOn _ _ _ _ _ _).trans (Moves.post _ _ _ _)))
      · exact (Moves.startRollback _ _ _ _).trans ((Moves.discardCounter _ _).trans (Moves.post _ _ _ _))
    · exact Moves.refl _
theorem Moves.placeWindow (s : State) (w : Win) : Moves s (s.placeWindow w) := by
  unfold State.placeWindow
  split
  · exact Moves.refl _
  · split
    · exact Moves.refl _
    · exact Moves.refl _
    all_goals
      split
      · exact (Moves.startRollback _ _ _ _).trans (Moves.discardCounter _ _)
      · exact ((Moves.voidAllToIdle _ _ _).trans ((Moves.discardCounter _ _).trans (Moves.handOn _ _ _ _ _ _))).trans
          (Moves.setTally _ _)
theorem Moves.placeAll (s : State) (ws : List Win) : Moves s (s.placeAll ws) := by
  unfold State.placeAll
  induction ws generalizing s with
  | nil => exact Moves.refl _
  | cons w ws ih => exact (Moves.placeWindow s w).trans (ih _)

/-! ## The engine -/

theorem Moves.resumeCounter (s : State) (w : Win) (c : RollbackCause) : Moves s (s.resumeCounter w c) := by
  unfold State.resumeCounter; split
  · split
    · exact Moves.setCounter _ _ _
    · exact Moves.setCounter _ _ _
  all_goals exact Moves.refl _
theorem Moves.tallyRollback (s : State) (c : RollbackCause) : Moves s (s.tallyRollback c) := by
  unfold State.tallyRollback; split
  · exact Moves.setTally _ _
  all_goals exact Moves.refl _
theorem Moves.completeRollback (s : State) (w : Win) : Moves s (s.completeRollback w) := by
  unfold State.completeRollback; split
  · exact Moves.refl _
  · split
    · exact Moves.refl _
    · exact ((Moves.setEntry _ _ _).trans ((Moves.setWalk _ _).trans ((Moves.resumeCounter _ _ _).trans
        (Moves.tallyRollback _ _)))).trans ((Moves.handOn _ _ _ _ _ _).trans ((Moves.post _ _ _ _).trans
        (AccessMoves.releaseHeld _ _).moves))
theorem Moves.damage (s : State) (w : Win) (p : Nat) : Moves s (s.damage w p) := by
  unfold State.damage; split
  · exact Moves.refl _
  · exact ((Moves.setEntry _ _ _).trans ((Moves.setWalk _ _).trans (Moves.discardCounter _ _))).trans
      ((Moves.handOn _ _ _ _ _ _).trans ((Moves.post _ _ _ _).trans (AccessMoves.releaseHeld _ _).moves))
theorem Moves.examine (n : Nat) (s : State) : Moves s (State.examine n s) := by
  induction n generalizing s with
  | zero => exact Moves.refl _
  | succ n ih =>
    unfold State.examine; split
    · exact Moves.refl _
    · split
      · exact Moves.completeRollback _ _
      · split
        · exact Moves.damage _ _ _
        · split
          · exact (Moves.damage _ _ _).trans (Moves.useFree _ _)
          · dsimp only; split
            · split
              · exact Moves.setWalk _ _
              · exact Moves.damage _ _ _
            · exact (Moves.setWalk _ _).trans (ih _)
theorem Moves.createWalk (s : State) (w : Win) : Moves s (s.createWalk w) :=
  (Moves.setPending _ _ _).trans (Moves.setWalk _ _)
theorem Moves.singleVoid (s : State) (k : Walk) : Moves s (s.singleVoid k) := by
  unfold State.singleVoid; split
  · dsimp only; split
    · exact Moves.setJournal _ _
    · exact (Moves.setJournal _ _).trans (Moves.setEntry _ _ _)
  · exact Moves.refl _

end Sys2Proof.Machine
end

