-- ==== Sys2Proof/Laws/Commands.lean ====
section
/-! SUPPORT. The shared frames of the commands: the cycle in flight, the end of RECOVERING and the taking of a request. -/

namespace Sys2Proof.Machine

/-- What `atMemory` finds. -/
theorem State.atMemory_spec {s : State} {c : AccessClass} {a : Access} {k : Cycle} (h : s.atMemory c = some (a, k)) :
   s.main.access = some a ∧ s.main.cycle = some k ∧ a.cond = .atMemory ∧ a.cls = c ∧ s.main.owner = .processor := by
  unfold State.atMemory at h
  split at h
  · rename_i h1 h2
    split at h
    · rename_i h3
      simp only [Bool.and_eq_true, decide_eq_true_eq] at h3
      simp only [Option.some.injEq, Prod.mk.injEq] at h
      obtain ⟨rfl, rfl⟩ := h
      exact ⟨h1, h2, h3.1.1, h3.1.2, h3.2⟩
    · simp at h
  · simp at h

@[simp] theorem State.land_pending (s : State) (c : Cycle) : (s.land c).pending = s.pending := by unfold State.land; split <;> rfl
@[simp] theorem State.land_main (s : State) (c : Cycle) : (s.land c).main = s.main := by unfold State.land; split <;> rfl
@[simp] theorem State.land_ret (s : State) (c : Cycle) : (s.land c).ret = s.ret := by unfold State.land; split <;> rfl
@[simp] theorem State.land_power (s : State) (c : Cycle) : (s.land c).power = s.power := by unfold State.land; split <;> rfl

/-! ## The control-word write in flight (R78, R97) -/

/-- The cycle of the control-word write in flight completes, or no such cycle is being driven. -/
theorem State.performControl_cases (s : State) :
    s.performControl = s ∨
      ∃ a c, s.atMemory .controlWord = some (a, c)
        ∧ s.performControl = { (s.land c).endGrant with main.examining := true } := by
  unfold State.performControl
  split
  · rename_i a c h
    exact Or.inr ⟨a, c, h, rfl⟩
  · exact Or.inl rfl

/-- Everything the completion of a control-word write's cycle can change: the SRAM and the memory port. -/
theorem State.performControl_spec (s : State) :
    ∃ m o k x, s.performControl = { s with sram := m, main.owner := o, main.cycle := k, main.examining := x } := by
  rcases s.performControl_cases with h | ⟨a, c, _, h⟩ <;> rw [h]
  · exact ⟨s.sram, s.main.owner, s.main.cycle, s.main.examining, rfl⟩
  · unfold State.land
    split
    · exact ⟨_, .nobody, none, true, rfl⟩
    · exact ⟨s.sram, .nobody, none, true, rfl⟩

@[simp] theorem State.performControl_pending (s : State) : s.performControl.pending = s.pending := by
  obtain ⟨_, _, _, _, h⟩ := s.performControl_spec; rw [h]
@[simp] theorem State.performControl_ret (s : State) : s.performControl.ret = s.ret := by
  obtain ⟨_, _, _, _, h⟩ := s.performControl_spec; rw [h]
@[simp] theorem State.performControl_power (s : State) : s.performControl.power = s.power := by
  obtain ⟨_, _, _, _, h⟩ := s.performControl_spec; rw [h]
@[simp] theorem State.performControl_access (s : State) : s.performControl.main.access = s.main.access := by
  obtain ⟨_, _, _, _, h⟩ := s.performControl_spec; rw [h]
@[simp] theorem State.performControl_slots (s : State) : s.performControl.main.slots = s.main.slots := by
  obtain ⟨_, _, _, _, h⟩ := s.performControl_spec; rw [h]
@[simp] theorem State.performControl_walk (s : State) : s.performControl.main.walk = s.main.walk := by
  obtain ⟨_, _, _, _, h⟩ := s.performControl_spec; rw [h]

/-- Where the port is not the processor's, no control-word write is being driven. -/
theorem State.performControl_other {s : State} (h : s.main.owner ≠ .processor) : s.performControl = s := by
  rcases s.performControl_cases with e | ⟨a, c, ha, _⟩
  · exact e
  · exact absurd (State.atMemory_spec ha).2.2.2.2 h

/-- Which access is the control-word write in flight: it stands at the memory, and either the Marker Decoder has its
word or its cycle is being driven. -/
theorem State.controlInFlight_eq (s : State) :
    s.controlInFlight = match s.main.access with
      | some a =>
        if a.cond = .atMemory && a.cls = .controlWord
            && (s.main.examining || (s.main.owner = .processor && s.main.cycle.isSome)) then some a
        else none
      | none => none := by
  unfold State.controlInFlight State.underExamination
  rw [s.performControl_access]
  cases ha : s.main.access with
  | none => rfl
  | some a =>
    have hx : a.cond = .atMemory → a.cls = .controlWord →
        s.performControl.main.examining = (s.main.examining || (s.main.owner = .processor && s.main.cycle.isSome)) := by
      intro h1 h2
      unfold State.performControl State.atMemory
      rw [ha]
      cases hc : s.main.cycle with
      | none => simp
      | some k =>
        by_cases ho : s.main.owner = .processor
        · simp [h1, h2, ho]
        · simp [ho]
    by_cases h1 : a.cond = .atMemory
    · by_cases h2 : a.cls = .controlWord
      · simp [h1, h2, hx]
      · simp [h2]
    · simp [h1]

/-- The state in which the Marker Decoder's finding is taken: the word has landed and the grant has ended. -/
def State.landedWord (s : State) : State := { s.performControl with main.examining := false }

/-- A control-word write that completes lands if it has not yet, and then only moves what takings and accesses move. -/
theorem State.finishControlWrite_spec (s : State) (ex : Examination → Bool) (take : State → Win → Byte → State)
    (ht : ∀ t w q, Moves t (take t w q)) :
    s.finishControlWrite ex take = s ∨ Moves s.landedWord (s.finishControlWrite ex take) := by
  unfold State.finishControlWrite
  split
  · exact Or.inl rfl
  · split
    · exact Or.inl rfl
    · split
      · exact Or.inr ((ht _ _ _).trans ((AccessMoves.complete _ _ _).trans (AccessMoves.settle _)).moves)
      · exact Or.inl rfl

/-- A control-word write whose cycle is being driven is found by the sequencer. -/
theorem State.ControlWrite.atMemory {s : State} {a : Access} {w : Win} (h : s.ControlWrite a w)
    (hx : s.main.examining = false) : s.atMemory .controlWord = some (a, a.cycle) := by
  rcases h.phase with ⟨_, h2, h3⟩ | ⟨h1, _⟩
  · unfold State.atMemory
    rw [h.access, h3]
    simp [h.cond, h.cls, h2]
  · rw [hx] at h1
    exact absurd h1 (by simp)

/-- A control-word write in flight, in either phase, is what the decoder has to examine. -/
theorem State.ControlWrite.inFlight {s : State} {a : Access} {w : Win} (h : s.ControlWrite a w) :
    s.controlInFlight = some a := by
  unfold State.controlInFlight State.underExamination
  rw [s.performControl_access, h.access]
  have hx : s.performControl.main.examining = true := by
    rcases h.phase with ⟨h1, _⟩ | ⟨h1, h2⟩
    · unfold State.performControl
      rw [h.atMemory h1]
    · rw [State.performControl_other h2, h1]
  simp [hx, h.cond, h.cls]

/-- What the SRAM and the memory port are as the Marker Decoder's finding is taken. -/
theorem State.ControlWrite.landed {s : State} {a : Access} {w : Win} (h : s.ControlWrite a w) :
    (s.main.examining = false →
        s.landedWord = { s with
          sram := Memory.write s.sram a.addr a.lanes a.data
          main := { s.main with owner := .nobody, cycle := none } })
      ∧ (s.main.examining = true → s.landedWord = { s with main.examining := false }) := by
  refine ⟨fun hx => ?_, fun hx => ?_⟩
  · unfold State.landedWord State.performControl
    rw [h.atMemory hx]
    have e : s.land a.cycle = { s with sram := Memory.write s.sram a.addr a.lanes a.data } := by
      unfold State.land
      rw [if_pos (show a.cycle.wr = true from h.wr)]
      rfl
    dsimp only
    rw [e]
    conv => rhs; rw [hx]
    rfl
  · unfold State.landedWord
    rcases h.phase with ⟨h1, _⟩ | ⟨_, h2⟩
    · rw [hx] at h1
      exact absurd h1 (by simp)
    · rw [State.performControl_other h2]

theorem State.landedWord_same (s : State) :
    s.landedWord.ret = s.ret ∧ s.landedWord.power = s.power
      ∧ s.landedWord.main = { s.main with
          owner := s.landedWord.main.owner, cycle := s.landedWord.main.cycle, examining := false } := by
  unfold State.landedWord
  obtain ⟨_, _, _, _, h⟩ := s.performControl_spec
  rw [h]
  exact ⟨rfl, rfl, rfl⟩

theorem State.landedWord_posts (s : State) : PostSame s s.landedWord := by
  obtain ⟨h1, h2, h3⟩ := s.landedWord_same
  exact ⟨h2, by rw [h1], by rw [h3], by rw [h3], by rw [h3]⟩

/-- A control-word write that completes (R78): what it leaves whatever its word makes the Marker Decoder and the table
do, which is `u`. -/
theorem State.finishControlWrite_landed {s u : State} {a : Access} {w : Win} (h : s.ControlWrite a w)
    (hm : Memory.wf s.sram = true) (hn : s.noneFollows a) {ex : Examination → Bool} {take : State → Win → Byte → State}
    (hx : ex (s.examination a w) = true) (hu : take s.landedWord w (markerSeq a.data) = u)
    (hv : Moves s.landedWord u) (htally : u.main.tally = s.main.tally) (hwalk : u.main.walk = s.main.walk)
    (ho : OthersSame s u w) :
    ControlLanded s (s.finishControlWrite ex take) a w ∧ (s.finishControlWrite ex take).ret = u.ret
      ∧ (∀ v, (s.finishControlWrite ex take).slot v = u.slot v)
      ∧ (∀ v, (s.finishControlWrite ex take).counter v = u.counter v)
      ∧ (∀ v, (s.finishControlWrite ex take).isPending v = u.isPending v) ∧ SameEvents u (s.finishControlWrite ex take) := by
  have e : s.finishControlWrite ex take = (u.complete a none).settle := by
    unfold State.finishControlWrite
    rw [h.inFlight]
    simp only [h.window, hx, if_true]
    rw [← hu]
    rfl
  obtain ⟨l1, l2, l3⟩ := s.landedWord_same
  have lrest : s.landedWord.port = s.port ∧ s.landedWord.signature = s.signature ∧ s.landedWord.vdd = s.vdd
      ∧ s.landedWord.pfail = s.pfail ∧ s.landedWord.rst = s.rst ∧ s.landedWord.ma = s.ma ∧ s.landedWord.mbe = s.mbe
      ∧ s.landedWord.osc = s.osc := by
    unfold State.landedWord
    obtain ⟨_, _, _, _, g⟩ := s.performControl_spec
    rw [g]
    exact ⟨rfl, rfl, rfl, rfl, rfl, rfl, rfl, rfl⟩
  obtain ⟨lport, lrest⟩ := lrest
  have hf : u.noneFollows a := by
    unfold State.noneFollows
    rw [hv.port, lport]
    exact hn
  rw [e, State.settle_complete u a none hf]
  have hsram : s.main.examining = false → u.sram = Memory.write s.sram a.addr a.lanes a.data := by
    intro hx
    rw [hv.sram, h.landed.1 hx]
  have hsame : s.main.examining = true → u.sram = s.sram := by
    intro hx
    rw [hv.sram, h.landed.2 hx]
  have hmain := hv.main
  rw [l3] at hmain
  have hret := hv.ret
  rw [l1] at hret
  have base : ∀ t : State, t.ret = u.ret → t.sram = u.sram → t.port = u.port → t.power = u.power
      → t.signature = u.signature → t.vdd = u.vdd → t.pfail = u.pfail → t.rst = u.rst → t.ma = u.ma → t.mbe = u.mbe
      → t.osc = u.osc
      → (∃ x p d, t.main = { u.main with access := x, holdTimer := none, prdy := p, pd := d }) → t.ended a none
      → ControlLanded s t a w := by
    rintro t t1 t2 t3 t4 t5 t6 t7 t8 t9 t10 tosc ⟨x, p, d, t11⟩ t12
    refine { landed := ?_, elsewhere := ?_, free := ?_, before := ?_, lines := ?_, examined := ?_, ended := t12, port := ?_, others := ?_, walk := ?_, config := ?_,
             management := ?_, power := ?_, clock := ⟨?_, ?_⟩ }
    · intro hx n hn hl
      rw [t2, hsram hx]
      exact Memory.readLane_write_eq hm _ _ _ hn hl
    · intro b n hn hb
      rw [t2]
      rcases Bool.eq_false_or_eq_true s.main.examining with hx | hx
      · rw [hsame hx]
      · rw [hsram hx]
        exact Memory.readLane_write_ne _ _ _ hn (hb.elim (fun q => Or.inl (Ne.symm q)) Or.inr)
    · intro hx
      rw [t11, hmain, h.landed.1 hx]
      exact ⟨rfl, rfl⟩
    · intro hx
      rw [t2, t11, hsame hx, hmain, h.landed.2 hx]
      exact ⟨rfl, rfl, rfl⟩
    · rw [t9, t10, hv.ma, hv.mbe, t11, hmain]
      exact ⟨rfl, lrest.2.2.2.2.1, lrest.2.2.2.2.2.1⟩
    · rw [t11, hmain]
    · rw [t3, hv.port, lport]
    · intro v hvw
      obtain ⟨o1, o2, o3, o4⟩ := ho v hvw
      refine ⟨?_, ?_, ?_, ?_⟩
      · rw [← o1]; unfold State.entry; rw [t1]
      · rw [← o2]; unfold State.counter; rw [t11]
      · rw [← o3]; unfold State.slot; rw [t11]
      · rw [← o4]; unfold State.isPending; rw [t11]
    · rw [t11]; exact ⟨hwalk, by rw [hmain]⟩
    · unfold SameConfig; rw [t1, hret]; exact ⟨rfl, rfl, rfl, rfl, rfl⟩
    · unfold SameManagement; rw [t11, hmain]
      exact ⟨rfl, rfl, rfl, rfl, rfl, rfl, rfl, rfl, rfl, rfl, rfl, rfl, rfl, rfl, rfl⟩
    · unfold SamePower
      rw [t4, t5, t6, t7, t8, hv.power, hv.signature, hv.vdd, hv.pfail, hv.rst, t11]
      refine ⟨l2, lrest.1, lrest.2.1, lrest.2.2.1, lrest.2.2.2.1, ?_, htally⟩
      rw [hmain]
    · rw [t11, hmain]
    · rw [tosc, hv.osc]; exact lrest.2.2.2.2.2.2
  split
  · rename_i hw
    refine ⟨base _ rfl rfl rfl rfl rfl rfl rfl rfl rfl rfl rfl ⟨_, _, _, rfl⟩ ?_, rfl, fun _ => rfl, fun _ => rfl, fun _ => rfl,
      rfl, rfl⟩
    unfold State.ended
    rw [if_pos hw]
    exact ⟨rfl, rfl, rfl, rfl⟩
  · rename_i hw
    refine ⟨base _ rfl rfl rfl rfl rfl rfl rfl rfl rfl rfl rfl ⟨_, _, _, rfl⟩ ?_, rfl, fun _ => rfl, fun _ => rfl, fun _ => rfl,
      rfl, rfl⟩
    unfold State.ended
    rw [if_neg hw]
    simp [h.wr]

/-- The end of RECOVERING moves the power state, the phase, the tally and the queue, or nothing. -/
theorem State.endRecovering_spec (s : State) : s.endRecovering = s ∨
   ∃ q o, s.power = .recovering ∧ s.endRecovering = { s with power := .active, main.queue := q, main.overrun := o, main.phase := none, main.tally := none }
     ∧ (s.main.queue.length ≤ Config.queueCapacity → q.length ≤ Config.queueCapacity) := by
  unfold State.endRecovering
  split
  · rename_i h
    simp only [Bool.and_eq_true, decide_eq_true_eq] at h
    right
    obtain ⟨q, o, e, hb⟩ := s.post_spec .recoveryDone none (detailTally (s.main.tally.getD { rolledBack := 0, kept := 0 }))
    refine ⟨q, o, h.1.1, ?_, hb⟩
    dsimp only
    rw [e]
  · exact Or.inl rfl
@[simp] theorem State.endRecovering_pending (s : State) : s.endRecovering.pending = s.pending := by
  rcases State.endRecovering_spec s with h | ⟨_, _, _, h, _⟩ <;> rw [h]
@[simp] theorem State.endRecovering_sram (s : State) : s.endRecovering.sram = s.sram := by
  rcases State.endRecovering_spec s with h | ⟨_, _, _, h, _⟩ <;> rw [h]
@[simp] theorem State.endRecovering_ret (s : State) : s.endRecovering.ret = s.ret := by
  rcases State.endRecovering_spec s with h | ⟨_, _, _, h, _⟩ <;> rw [h]
theorem State.endRecovering_bound (s : State) (h : s.main.queue.length ≤ Config.queueCapacity) :
    s.endRecovering.main.queue.length ≤ Config.queueCapacity := by
  rcases State.endRecovering_spec s with e | ⟨_, _, _, e, hb⟩ <;> rw [e]
  · exact h
  · exact hb h

/-! ## The taking of a request -/

@[simp] theorem byteCode_requestByte (x c : BitVec 4) : byteCode (requestByte x c) = c := by
  unfold byteCode requestByte
  revert x c
  decide

@[simp] theorem byteExt_requestByte (x c : BitVec 4) : byteExt (requestByte x c) = x := by
  unfold byteExt requestByte
  revert x c
  decide

/-- The state in which an A0h byte has been received: held, acknowledged, the index at A1h. -/
def State.received (s : State) (b : Byte) : State := State.byteTaken { s with main.reqCode := b }

/-- The receipt of an A0h byte ends and begins no taking. -/
theorem State.received_requestBusy (s : State) (b c : Byte) : (s.received b).requestBusy c = s.requestBusy c := by
  have h : (s.received b).controlTakingOpen = s.controlTakingOpen := by
    unfold State.controlTakingOpen
    rw [State.controlInFlight_eq, State.controlInFlight_eq]
    rfl
  unfold State.requestBusy
  rw [h]
  rfl

/-- An A0h byte meets no transfer that stands at A0h, or makes its request wait, or has it taken whole. -/
theorem State.request_cases (s : State) (b : Byte) :
    s.request b = s
      ∨ (s.AtRequest ∧ (s.received b).requestBusy b = true
          ∧ s.request b = { s.received b with main.waiting := true })
      ∨ (s.AtRequest ∧ (s.received b).requestBusy b = false ∧ s.request b = (s.received b).takeRequest b) := by
  unfold State.request
  split
  · rename_i h
    simp only [State.writingAt, State.portReady, Bool.and_eq_true, decide_eq_true_eq, Bool.not_eq_true'] at h
    have hr : s.AtRequest := ⟨h.1.1.1, h.1.2, h.2, h.1.1.2⟩
    rcases (Bool.eq_false_or_eq_true ((s.received b).requestBusy b)) with hb | hb
    · exact Or.inr (Or.inl ⟨hr, hb, if_pos hb⟩)
    · refine Or.inr (Or.inr ⟨hr, hb, ?_⟩)
      show (if (s.received b).requestBusy b = true then _ else _) = _
      rw [hb]
      rfl
  · exact Or.inl rfl

/-- A received request that meets no open taking is taken at once. -/
theorem State.request_taken {s : State} {b : Byte} (h : s.AtRequest) (hb : s.requestBusy b = false) :
    s.request b = (s.received b).takeRequest b := by
  obtain ⟨h1, h2, h3, h4⟩ := h
  have hb' : (s.received b).requestBusy b = false := (s.received_requestBusy b b).trans hb
  unfold State.request
  rw [if_pos (by simp [State.writingAt, State.portReady, h1, h2, h3, h4])]
  show (if (s.received b).requestBusy b = true then _ else _) = _
  rw [hb']
  rfl

/-- A received request that meets an open taking waits. -/
theorem State.request_waits {s : State} {b : Byte} (h : s.AtRequest) (hb : s.requestBusy b = true) :
    s.request b = { s.received b with main.waiting := true } := by
  obtain ⟨h1, h2, h3, h4⟩ := h
  have hb' : (s.received b).requestBusy b = true := (s.received_requestBusy b b).trans hb
  unfold State.request
  rw [if_pos (by simp [State.writingAt, State.portReady, h1, h2, h3, h4])]
  show (if (s.received b).requestBusy b = true then _ else _) = _
  rw [hb']
  rfl

/-- With no request waiting, the end of a taking takes none. -/
theorem State.takeWaiting_idle {s : State} (h : s.main.waiting = false) : s.takeWaiting = s := by
  unfold State.takeWaiting
  rw [h]
  rfl

/-- What a request's taking can change: the retained state, the signature, the power state of a part that is RECOVERING,
and of the main well the pending set, the counters, the stamp, the slots, the IGNORED flag, the queue, the response, the
views, the phase and the tally. -/
structure RequestMoves (s t : State) : Prop where
  shape : ∃ pw sg re ps c st sl ig q o rs tv rv ph ty,
    t = { s with
          power := pw, signature := sg, ret := re
          main := { s.main with
                    pendSet := ps, counters := c, stamp := st, slots := sl, ignored := ig, queue := q, overrun := o,
                    response := rs, txnView := tv, recView := rv, phase := ph, tally := ty } }
  bound : s.main.queue.length ≤ Config.queueCapacity → t.main.queue.length ≤ Config.queueCapacity

theorem RequestMoves.refl (s : State) : RequestMoves s s :=
  ⟨⟨_, _, _, _, _, _, _, _, _, _, _, _, _, _, _, rfl⟩, id⟩

theorem RequestMoves.trans {s t u : State} (h : RequestMoves s t) (g : RequestMoves t u) : RequestMoves s u := by
  refine ⟨?_, fun x => g.bound (h.bound x)⟩
  obtain ⟨_, _, _, _, _, _, _, _, _, _, _, _, _, _, _, e⟩ := h.shape
  obtain ⟨_, _, _, _, _, _, _, _, _, _, _, _, _, _, _, e'⟩ := g.shape
  rw [e', e]
  exact ⟨_, _, _, _, _, _, _, _, _, _, _, _, _, _, _, rfl⟩

theorem RequestMoves.respond (s : State) (r : Response) : RequestMoves s (s.respond r) :=
  ⟨⟨s.power, s.signature, s.ret, s.main.pendSet, s.main.counters, s.main.stamp, s.main.slots, s.main.ignored,
    s.main.queue, s.main.overrun, _, s.main.txnView, s.main.recView, s.main.phase, s.main.tally, rfl⟩, id⟩

theorem RequestMoves.setEntry (s : State) (w : Win) (e : Option Entry) : RequestMoves s (s.setEntry w e) :=
  ⟨⟨s.power, s.signature, _, s.main.pendSet, s.main.counters, s.main.stamp, s.main.slots, s.main.ignored,
    s.main.queue, s.main.overrun, s.main.response, s.main.txnView, s.main.recView, s.main.phase, s.main.tally, rfl⟩, id⟩

theorem RequestMoves.setJournal (s : State) (j : Journal) : RequestMoves s (s.setJournal j) :=
  ⟨⟨s.power, s.signature, _, s.main.pendSet, s.main.counters, s.main.stamp, s.main.slots, s.main.ignored,
    s.main.queue, s.main.overrun, s.main.response, s.main.txnView, s.main.recView, s.main.phase, s.main.tally, rfl⟩, id⟩

theorem RequestMoves.setPending (s : State) (w : Win) (b : Bool) : RequestMoves s (s.setPending w b) :=
  ⟨⟨s.power, s.signature, s.ret, _, s.main.counters, s.main.stamp, s.main.slots, s.main.ignored,
    s.main.queue, s.main.overrun, s.main.response, s.main.txnView, s.main.recView, s.main.phase, s.main.tally, rfl⟩, id⟩

theorem RequestMoves.setCounter (s : State) (w : Win) (c : Counter) : RequestMoves s (s.setCounter w c) :=
  ⟨⟨s.power, s.signature, s.ret, s.main.pendSet, _, s.main.stamp, s.main.slots, s.main.ignored,
    s.main.queue, s.main.overrun, s.main.response, s.main.txnView, s.main.recView, s.main.phase, s.main.tally, rfl⟩, id⟩

theorem RequestMoves.discardCounter (s : State) (w : Win) : RequestMoves s (s.discardCounter w) :=
  RequestMoves.setCounter s w _

theorem RequestMoves.setQueue (s : State) (q : List EventRecord) (o : Bool)
    (h : s.main.queue.length ≤ Config.queueCapacity → q.length ≤ Config.queueCapacity) :
    RequestMoves s { s with main.queue := q, main.overrun := o } :=
  ⟨⟨s.power, s.signature, s.ret, s.main.pendSet, s.main.counters, s.main.stamp, s.main.slots, s.main.ignored,
    q, o, s.main.response, s.main.txnView, s.main.recView, s.main.phase, s.main.tally, rfl⟩, h⟩

theorem RequestMoves.setViews (s : State) (v : TxnView) (r : RecordView) :
    RequestMoves s { s with main.txnView := v, main.recView := r } :=
  ⟨⟨s.power, s.signature, s.ret, s.main.pendSet, s.main.counters, s.main.stamp, s.main.slots, s.main.ignored,
    s.main.queue, s.main.overrun, s.main.response, v, r, s.main.phase, s.main.tally, rfl⟩, id⟩

theorem RequestMoves.post (s : State) (k : EventKind) (w : Option Win) (d : Word) : RequestMoves s (s.post k w d) := by
  obtain ⟨q, o, e, hb⟩ := s.post_spec k w d
  rw [e]
  exact RequestMoves.setQueue s q o hb

theorem RequestMoves.handOn (s : State) (w : Win) (o : ReceiptOutcome) (r : ReceiptReason) (q : Byte) (n : Nat) :
    RequestMoves s (s.handOn w o r q n) := by
  obtain ⟨x, l, b, e, hb⟩ := s.handOn_spec w o r q n
  rw [e]
  exact ⟨⟨s.power, s.signature, s.ret, s.main.pendSet, s.main.counters, s.main.stamp, _, s.main.ignored,
    l, b, s.main.response, s.main.txnView, s.main.recView, s.main.phase, s.main.tally, rfl⟩, hb⟩

/-- The argument names a window, or the request is answered BAD_ARG. -/
theorem State.onArgWin_cases (s : State) (take : Win → State) :
    (8 ≤ s.main.arg.toNat ∧ s.onArgWin take = s.respond .badArg) ∨
      ∃ w : Win, s.main.arg.toNat = w.val ∧ s.onArgWin take = take w := by
  unfold State.onArgWin State.argWin
  by_cases h : s.main.arg.toNat < 8
  · rw [dif_pos h]
    exact Or.inr ⟨⟨_, h⟩, rfl, rfl⟩
  · rw [dif_neg h]
    exact Or.inl ⟨by omega, rfl⟩

theorem RequestMoves.onArgWin (s : State) (take : Win → State) (h : ∀ w, RequestMoves s (take w)) :
    RequestMoves s (s.onArgWin take) := by
  rcases s.onArgWin_cases take with ⟨_, e⟩ | ⟨w, _, e⟩ <;> rw [e]
  · exact RequestMoves.respond _ _
  · exact h w

theorem RequestMoves.takeEnable (s : State) (w : Win) : RequestMoves s (s.takeEnable w) := by
  unfold State.takeEnable
  split
  · exact (RequestMoves.setEntry _ _ _).trans (RequestMoves.respond _ _)
  · exact RequestMoves.respond _ _

theorem RequestMoves.takeDisable (s : State) (w : Win) : RequestMoves s (s.takeDisable w) := by
  unfold State.takeDisable
  split
  · exact (RequestMoves.setEntry _ _ _).trans (RequestMoves.respond _ _)
  · exact RequestMoves.respond _ _

theorem RequestMoves.takeForceAbort (s : State) (w : Win) : RequestMoves s (s.takeForceAbort w) := by
  have ends : ∀ e : Entry, RequestMoves s
      (if e.count = 0 then
        (((s.setEntry w (some { e with lastEnded := some { seq := e.seq, kind := .forced } }.toIdle)).discardCounter w).handOn
          w .aborted .forced e.seq 0).respond .done
      else ((s.startRollback w { e with lastEnded := some { seq := e.seq, kind := .forced } } .forced).discardCounter
        w).respond .done) := by
    intro e
    split
    · exact (RequestMoves.setEntry _ _ _).trans ((RequestMoves.discardCounter _ _).trans
        ((RequestMoves.handOn _ _ _ _ _ _).trans (RequestMoves.respond _ _)))
    · exact (RequestMoves.setEntry _ _ _).trans ((RequestMoves.setPending _ _ _).trans
        ((RequestMoves.discardCounter _ _).trans (RequestMoves.respond _ _)))
  unfold State.takeForceAbort
  split
  · exact RequestMoves.respond _ _
  · split
    · exact RequestMoves.respond _ _
    · exact RequestMoves.respond _ _
    · exact RequestMoves.respond _ _
    · exact ends _
    · exact ends _

theorem RequestMoves.takeRelease (s : State) (w : Win) : RequestMoves s (s.takeRelease w) := by
  unfold State.takeRelease
  split
  · exact RequestMoves.respond _ _
  · split
    · exact (RequestMoves.setJournal _ _).trans ((RequestMoves.setEntry _ _ _).trans (RequestMoves.respond _ _))
    · exact RequestMoves.respond _ _

theorem RequestMoves.takeClearAll (s : State) : RequestMoves s s.takeClearAll := by
  unfold State.takeClearAll
  split
  · unfold State.clearEverything
    refine RequestMoves.trans ?_ ((RequestMoves.post _ _ _ _).trans (RequestMoves.respond _ _))
    exact ⟨⟨_, _, _, s.main.pendSet, _, _, _, _, _, _, s.main.response, _, _, _, _, rfl⟩, fun _ => Nat.zero_le _⟩
  · exact RequestMoves.respond _ _

/-- Everything the taking of a request can change. -/
theorem RequestMoves.takeRequest (s : State) (b : Byte) : RequestMoves s (s.takeRequest b) := by
  unfold State.takeRequest
  repeat' split
  · exact RequestMoves.onArgWin _ _ fun w => RequestMoves.takeEnable _ _
  · exact RequestMoves.onArgWin _ _ fun w => RequestMoves.takeDisable _ _
  · exact RequestMoves.onArgWin _ _ fun w => RequestMoves.takeForceAbort _ _
  · exact RequestMoves.onArgWin _ _ fun w => RequestMoves.takeRelease _ _
  · exact RequestMoves.takeClearAll _
  · unfold State.takePop
    split
    · exact RequestMoves.respond _ _
    · rename_i e l hq
      refine RequestMoves.trans (RequestMoves.setQueue s l s.main.overrun ?_) (RequestMoves.respond _ _)
      rw [hq]
      simp only [List.length_cons]
      omega
  · exact (RequestMoves.setQueue s s.main.queue false id).trans (RequestMoves.respond _ _)
  · exact RequestMoves.onArgWin _ _ fun w => (RequestMoves.setViews s _ s.main.recView).trans (RequestMoves.respond _ _)
  · unfold State.takeLoadRecord
    split
    · exact RequestMoves.respond _ _
    · exact (RequestMoves.setViews s s.main.txnView _).trans (RequestMoves.respond _ _)
  · exact RequestMoves.respond _ _

/-- The end of a taking takes a waiting request, which no longer waits, or leaves everything. -/
theorem State.takeWaiting_spec (s : State) :
    s.takeWaiting = s
      ∨ (s.main.waiting = true ∧ s.requestBusy s.main.reqCode = false
          ∧ RequestMoves { s with main.waiting := false } s.takeWaiting) := by
  unfold State.takeWaiting
  split
  · rename_i h
    simp only [Bool.and_eq_true, Bool.not_eq_true'] at h
    exact Or.inr ⟨h.1, h.2, RequestMoves.takeRequest _ _⟩
  · exact Or.inl rfl

section Same
variable {s t : State}

theorem RequestMoves.access (h : RequestMoves s t) : SameAccess s t := by
  obtain ⟨_, _, _, _, _, _, _, _, _, _, _, _, _, _, _, e⟩ := h.shape
  rw [e]
  exact ⟨rfl, rfl, rfl, rfl, rfl⟩
theorem RequestMoves.sequencer (h : RequestMoves s t) : SameSequencer s t := by
  obtain ⟨_, _, _, _, _, _, _, _, _, _, _, _, _, _, _, e⟩ := h.shape
  rw [e]
  exact ⟨rfl, rfl, rfl, rfl, rfl, rfl⟩
theorem RequestMoves.sram (h : RequestMoves s t) : t.sram = s.sram := by
  obtain ⟨_, _, _, _, _, _, _, _, _, _, _, _, _, _, _, e⟩ := h.shape; rw [e]
theorem RequestMoves.pending (h : RequestMoves s t) : t.pending = s.pending := by
  obtain ⟨_, _, _, _, _, _, _, _, _, _, _, _, _, _, _, e⟩ := h.shape; rw [e]
theorem RequestMoves.osc (h : RequestMoves s t) : t.osc = s.osc := by
  obtain ⟨_, _, _, _, _, _, _, _, _, _, _, _, _, _, _, e⟩ := h.shape; rw [e]
theorem RequestMoves.waiting (h : RequestMoves s t) : t.main.waiting = s.main.waiting := by
  obtain ⟨_, _, _, _, _, _, _, _, _, _, _, _, _, _, _, e⟩ := h.shape; rw [e]

end Same

end Sys2Proof.Machine
end

