-- ==== Sys2Proof/Laws/Journal.lean ====
section
/-! SUPPORT. The ring: what each journal operation does to the slots, the counts of LIVE records and the ring law. -/

namespace Sys2Proof.Machine

/-! ## Counting -/

/-- How many listed cells hold a value that satisfies `q`. -/
def cellsCount {α : Type} (q : α → Bool) (m : List (Nat × α)) : Nat := (m.filter fun c => q c.2).length

theorem cellsCount_cons {α : Type} (q : α → Bool) (c : Nat × α) (m : List (Nat × α)) :
    cellsCount q (c :: m) = (if q c.2 then 1 else 0) + cellsCount q m := by
  unfold cellsCount
  rw [List.filter_cons]
  split <;> simp [Nat.add_comm]

/-- Setting one cell moves the count by that cell's own part. -/
theorem cellsCount_set {α : Type} [DecidableEq α] {d : α} (q : α → Bool) (hd : q d = false) {m : List (Nat × α)} {lo : Nat}
    (h : cellsWfFrom d lo m = true) (a : Nat) (v : α) :
    cellsCount q (cellsSet d m a v) + (if q (cellsGet d m a) then 1 else 0)
      = cellsCount q m + (if q v then 1 else 0) := by
  induction m generalizing lo with
  | nil =>
    simp only [cellsSet, cellsGet, hd]
    split
    · rename_i e; simp [e, hd, cellsCount]
    · rw [cellsCount_cons]; simp [cellsCount]
  | cons c t ih =>
    obtain ⟨k, x⟩ := c
    simp only [cellsWfFrom, Bool.and_eq_true, decide_eq_true_eq] at h
    simp only [cellsSet]
    split
    · rename_i hlt
      have hb : cellsGet d ((k, x) :: t) a = d :=
        cellsGet_below (lo := k) (by simp [cellsWfFrom, h.1.2, h.2]) hlt
      rw [hb]
      split
      · rename_i e; simp [e, hd]
      · rw [cellsCount_cons]; simp [hd, Nat.add_comm]
    · split
      · rename_i e
        subst e
        simp only [cellsGet, if_true]
        split
        · rename_i e'; rw [cellsCount_cons]; simp [e', hd, Nat.add_comm]
        · rw [cellsCount_cons, cellsCount_cons]; simp only; omega
      · rename_i hk
        have hk' : ¬ k = a := fun e => hk e.symm
        simp only [cellsGet, hk', if_false]
        rw [cellsCount_cons, cellsCount_cons]
        have := ih h.2
        omega

theorem Journal.liveCount_eq (j : Journal) (w : Win) : j.liveCount w = cellsCount (fun x => x.liveOf w) j.slots := rfl

theorem Slot.clear_liveOf (w : Win) : Slot.clear.liveOf w = false := rfl

/-! ## One slot replaced -/

theorem Journal.slot_setSlot {j : Journal} (h : cellsWf Slot.clear j.slots = true) (p q : Nat) (x : Slot) :
    (j.setSlot p x).slot q = if q = p then x else j.slot q := cellsGet_set h p q x

theorem Journal.setSlot_cells {j : Journal} (h : cellsWf Slot.clear j.slots = true) (p : Nat) (x : Slot) :
    cellsWf Slot.clear (j.setSlot p x).slots = true := cellsSet_wf h p x

theorem Journal.liveCount_setSlot {j : Journal} (h : cellsWf Slot.clear j.slots = true) (p : Nat) (x : Slot) (w : Win) :
    (j.setSlot p x).liveCount w + (if (j.slot p).liveOf w then 1 else 0)
      = j.liveCount w + (if x.liveOf w then 1 else 0) :=
  cellsCount_set (fun y : Slot => y.liveOf w) (Slot.clear_liveOf w) h p x

@[simp] theorem Journal.setSlot_head (j : Journal) (p : Nat) (x : Slot) : (j.setSlot p x).head = j.head := rfl
@[simp] theorem Journal.setSlot_tail (j : Journal) (p : Nat) (x : Slot) : (j.setSlot p x).tail = j.tail := rfl
@[simp] theorem Journal.setSlot_occ (j : Journal) (p : Nat) (x : Slot) : (j.setSlot p x).occ = j.occ := rfl

/-! ## Ring arithmetic -/

theorem nextPos_lt (p : Nat) : nextPos p < Config.journalSlots := Nat.mod_lt _ (by decide)
theorem prevPos_lt (p : Nat) : prevPos p < Config.journalSlots := Nat.mod_lt _ (by decide)

theorem prevPos_nextPos {p : Nat} (h : p < Config.journalSlots) : prevPos (nextPos p) = p := by
  unfold prevPos nextPos
  simp only [Config.journalSlots] at *
  omega

theorem Journal.inSpan_iff (j : Journal) (p : Nat) :
    j.inSpan p = true ↔ p < 1024 ∧ (p + 1024 - j.tail) % 1024 < j.occ := by
  simp [Journal.inSpan, Config.journalSlots]

/-- The head lies outside the span of a journal with room. -/
theorem Journal.Lawful.head_free {j : Journal} (h : j.Lawful) (ho : j.occ < Config.journalSlots) :
    (j.slot j.head).valid = false := by
  rw [h.span]
  have h1 := h.head; have h2 := h.tail; have h3 := h.ring
  simp only [Config.journalSlots] at *
  by_contra hc
  have := (Journal.inSpan_iff j j.head).mp (by simpa using hc)
  omega

/-- The tail lies inside the span of a journal that is not empty. -/
theorem Journal.Lawful.tail_valid {j : Journal} (h : j.Lawful) (ho : j.occ ≠ 0) : (j.slot j.tail).valid = true := by
  rw [h.span, Journal.inSpan_iff]
  have h2 := h.tail
  simp only [Config.journalSlots] at *
  omega

theorem Journal.Lawful.live_inSpan {j : Journal} (h : j.Lawful) {p : Nat} (hp : (j.slot p).live = true) :
    j.inSpan p = true := by
  rw [← h.span]
  simp [Slot.live] at hp
  exact hp.1

/-! ## Append (R33) -/

theorem Journal.appendBody_lawful {j : Journal} (h : j.Lawful) (ho : j.occ < Config.journalSlots) {x : Slot}
    (hv : x.valid = false) (hw : x.voided = false) : (j.appendBody x).Lawful := by
  have hf := h.head_free ho
  have hs := fun q => Journal.slot_setSlot h.cells j.head q x
  refine { head := h.head, tail := h.tail, occ := h.occ, ring := h.ring, cells := Journal.setSlot_cells h.cells _ _,
           bound := ?_, span := ?_, marks := ?_, tailLive := ?_ }
  · intro p hp
    show (j.setSlot j.head x).slot p = _
    rw [hs, if_neg (by have := h.head; omega)]
    exact h.bound p hp
  · intro p
    show ((j.setSlot j.head x).slot p).valid = j.inSpan p
    rw [hs]
    split
    · rename_i e; rw [hv, e, ← h.span, hf]
    · exact h.span p
  · intro p
    show ((j.setSlot j.head x).slot p).voided = true → ((j.setSlot j.head x).slot p).valid = true
    rw [hs]
    split
    · simp [hw]
    · exact h.marks p
  · intro ho'
    show ((j.setSlot j.head x).slot j.tail).voided = false
    rw [hs]
    split
    · exact hw
    · exact h.tailLive ho'

theorem Journal.appendBody_liveCount {j : Journal} (h : j.Lawful) (ho : j.occ < Config.journalSlots) {x : Slot}
    (hv : x.valid = false) (w : Win) : (j.appendBody x).liveCount w = j.liveCount w := by
  have hf := h.head_free ho
  have := Journal.liveCount_setSlot h.cells j.head x w
  show (j.setSlot j.head x).liveCount w = _
  simpa [Slot.liveOf, Slot.live, hf, hv] using this

theorem Journal.appendBody_slot {j : Journal} (h : j.Lawful) (x : Slot) (q : Nat) :
    (j.appendBody x).slot q = if q = j.head then x else j.slot q := Journal.slot_setSlot h.cells j.head q x

/-- What the mark step leaves at each position. -/
theorem Journal.appendMark_slot {j : Journal} (h : j.Lawful) (q : Nat) :
    j.appendMark.slot q = if q = j.head then { j.slot j.head with valid := true } else j.slot q :=
  Journal.slot_setSlot h.cells j.head q _

theorem Journal.appendMark_lawful {j : Journal} (h : j.Lawful) (ho : j.occ < Config.journalSlots) :
    j.appendMark.Lawful := by
  have hf := h.head_free ho
  have hvd : (j.slot j.head).voided = false := by
    by_contra hc
    have := h.marks j.head (by simpa using hc)
    simp [hf] at this
  have hs := Journal.appendMark_slot h
  have h1 := h.head; have h2 := h.tail; have h3 := h.ring; have h4 := h.occ
  refine { head := nextPos_lt _, tail := h.tail, occ := by show j.occ + 1 ≤ _; omega, ring := ?_,
           cells := Journal.setSlot_cells h.cells _ _, bound := ?_, span := ?_, marks := ?_, tailLive := ?_ }
  · show (j.tail + (j.occ + 1)) % _ = nextPos j.head
    unfold nextPos
    simp only [Config.journalSlots] at *
    omega
  · intro p hp
    rw [hs, if_neg (by omega)]
    exact h.bound p hp
  · intro p
    rw [hs]
    have e1 := Journal.inSpan_iff j.appendMark p
    have e2 := Journal.inSpan_iff j p
    have t1 : j.appendMark.tail = j.tail := rfl
    have t2 : j.appendMark.occ = j.occ + 1 := rfl
    rw [t1, t2] at e1
    simp only [Config.journalSlots] at *
    split
    · rename_i e
      symm
      rw [e1]
      omega
    · rename_i e
      rw [h.span, Bool.eq_iff_iff, e1, e2]
      omega
  · intro p
    rw [hs]
    split
    · intro _; rfl
    · exact h.marks p
  · intro _
    show (j.appendMark.slot j.tail).voided = false
    rw [hs]
    split
    · exact hvd
    · by_cases h0 : j.occ = 0
      · exfalso
        simp only [Config.journalSlots] at *
        omega
      · exact h.tailLive h0

theorem Journal.appendMark_liveCount {j : Journal} (h : j.Lawful) (ho : j.occ < Config.journalSlots) (w : Win) :
    j.appendMark.liveCount w = j.liveCount w + if (j.slot j.head).window = w then 1 else 0 := by
  have hf := h.head_free ho
  have hvd : (j.slot j.head).voided = false := by
    by_contra hc
    have := h.marks j.head (by simpa using hc)
    simp [hf] at this
  have := Journal.liveCount_setSlot h.cells j.head { j.slot j.head with valid := true } w
  show (j.setSlot j.head { j.slot j.head with valid := true }).liveCount w = _
  simpa [Slot.liveOf, Slot.live, hf, hvd] using this

/-! ## Reclaim (R40) -/

/-- The ring law without its last clause, as it stands between a void and the reclaim that follows. -/
structure Journal.NearlyLawful (j : Journal) : Prop where
  head : j.head < Config.journalSlots
  tail : j.tail < Config.journalSlots
  occ : j.occ ≤ Config.journalSlots
  ring : (j.tail + j.occ) % Config.journalSlots = j.head
  cells : cellsWf Slot.clear j.slots = true
  bound : ∀ p, Config.journalSlots ≤ p → j.slot p = Slot.clear
  span : ∀ p, (j.slot p).valid = j.inSpan p
  marks : ∀ p, (j.slot p).voided = true → (j.slot p).valid = true

theorem Journal.Lawful.nearly {j : Journal} (h : j.Lawful) : j.NearlyLawful :=
  ⟨h.head, h.tail, h.occ, h.ring, h.cells, h.bound, h.span, h.marks⟩

/-- What a reclaim leaves of `j`: LIVE slots and the head as they were, every other field of every slot as it was, no
slot made valid, and no more slots occupied. -/
structure Journal.Reclaimed (j k : Journal) : Prop where
  head : k.head = j.head
  occ : k.occ ≤ j.occ
  live : ∀ p, (j.slot p).live = true → k.slot p = j.slot p
  notLive : ∀ p, (j.slot p).live = false → (k.slot p).live = false
  fields : ∀ p, (k.slot p).window = (j.slot p).window ∧ (k.slot p).ordinal = (j.slot p).ordinal
    ∧ (k.slot p).addr = (j.slot p).addr ∧ (k.slot p).old = (j.slot p).old ∧ (k.slot p).lanes = (j.slot p).lanes
    ∧ (k.slot p).check = (j.slot p).check
  valid : ∀ p, (k.slot p).valid = true → k.slot p = j.slot p
  count : ∀ w, k.liveCount w = j.liveCount w

theorem Journal.Reclaimed.refl (j : Journal) : j.Reclaimed j :=
  ⟨rfl, Nat.le_refl _, fun _ _ => rfl, fun _ h => h, fun _ => ⟨rfl, rfl, rfl, rfl, rfl, rfl⟩, fun _ _ => rfl, fun _ => rfl⟩

theorem Journal.Reclaimed.trans {j k l : Journal} (h : j.Reclaimed k) (g : k.Reclaimed l) : j.Reclaimed l where
  head := g.head.trans h.head
  occ := Nat.le_trans g.occ h.occ
  live p hp := by
    have e := h.live p hp
    rw [g.live p (by rw [e]; exact hp), e]
  notLive p hp := g.notLive p (h.notLive p hp)
  fields p := by
    obtain ⟨a1, a2, a3, a4, a5, a6⟩ := h.fields p
    obtain ⟨b1, b2, b3, b4, b5, b6⟩ := g.fields p
    exact ⟨b1.trans a1, b2.trans a2, b3.trans a3, b4.trans a4, b5.trans a5, b6.trans a6⟩
  valid p hp := by
    have e := g.valid p hp
    rw [e] at hp ⊢
    exact h.valid p hp
  count w := (g.count w).trans (h.count w)

theorem Journal.reclaimOne_spec {j : Journal} (h : j.NearlyLawful) (ho : j.occ ≠ 0)
    (hv : (j.slot j.tail).isVoided = true) : j.reclaimOne.NearlyLawful ∧ j.Reclaimed j.reclaimOne := by
  simp only [Slot.isVoided, Bool.and_eq_true] at hv
  have hs : ∀ q, j.reclaimOne.slot q
      = if q = j.tail then { j.slot j.tail with valid := false, voided := false } else j.slot q :=
    fun q => Journal.slot_setSlot h.cells j.tail q _
  have h1 := h.head; have h2 := h.tail; have h3 := h.ring; have h4 := h.occ
  have t1 : j.reclaimOne.tail = nextPos j.tail := rfl
  have t2 : j.reclaimOne.occ = j.occ - 1 := rfl
  constructor
  · refine { head := h.head, tail := nextPos_lt _, occ := by rw [t2]; omega, ring := ?_,
             cells := Journal.setSlot_cells h.cells _ _, bound := ?_, span := ?_, marks := ?_ }
    · show (j.reclaimOne.tail + j.reclaimOne.occ) % _ = j.head
      rw [t1, t2]
      unfold nextPos
      simp only [Config.journalSlots] at *
      omega
    · intro p hp
      rw [hs, if_neg (by omega)]
      exact h.bound p hp
    · intro p
      rw [hs]
      have e1 := Journal.inSpan_iff j.reclaimOne p
      have e2 := Journal.inSpan_iff j p
      rw [t1, t2] at e1
      unfold nextPos at e1
      simp only [Config.journalSlots] at *
      split
      · rename_i e
        rw [Bool.eq_iff_iff, e1]
        simp only [Bool.false_eq_true, false_iff]
        omega
      · rename_i e
        rw [h.span, Bool.eq_iff_iff, e1, e2]
        omega
    · intro p
      rw [hs]
      split
      · simp
      · exact h.marks p
  · refine { head := rfl, occ := by rw [t2]; omega, live := ?_, notLive := ?_, fields := ?_, valid := ?_, count := ?_ }
    · intro p hp
      rw [hs]
      split
      · rename_i e
        rw [e] at hp
        simp [Slot.live, hv.2] at hp
      · rfl
    · intro p hp
      rw [hs]
      split
      · rfl
      · exact hp
    · intro p
      rw [hs]
      split
      · rename_i e; rw [e]; exact ⟨rfl, rfl, rfl, rfl, rfl, rfl⟩
      · exact ⟨rfl, rfl, rfl, rfl, rfl, rfl⟩
    · intro p hp
      rw [hs] at hp ⊢
      split
      · rename_i e; rw [if_pos e] at hp; simp at hp
      · rfl
    · intro w
      have := Journal.liveCount_setSlot h.cells j.tail { j.slot j.tail with valid := false, voided := false } w
      show (j.setSlot j.tail { j.slot j.tail with valid := false, voided := false }).liveCount w = _
      simpa [Slot.liveOf, Slot.live, hv.2] using this

theorem Journal.reclaimUpTo_spec (n : Nat) {j : Journal} (h : j.NearlyLawful) :
    (Journal.reclaimUpTo n j).NearlyLawful ∧ j.Reclaimed (Journal.reclaimUpTo n j)
      ∧ (j.occ ≤ n → (Journal.reclaimUpTo n j).occ ≠ 0 →
          ((Journal.reclaimUpTo n j).slot (Journal.reclaimUpTo n j).tail).isVoided = false) := by
  induction n generalizing j with
  | zero =>
    refine ⟨h, Journal.Reclaimed.refl j, fun h0 h1 => ?_⟩
    simp only [Journal.reclaimUpTo] at h1
    omega
  | succ n ih =>
    simp only [Journal.reclaimUpTo]
    split
    · rename_i hc
      simp only [ne_eq, Bool.and_eq_true, decide_eq_true_eq] at hc
      obtain ⟨a, b⟩ := Journal.reclaimOne_spec h hc.1 hc.2
      obtain ⟨c, d, e⟩ := ih a
      refine ⟨c, b.trans d, fun h0 => e ?_⟩
      show j.occ - 1 ≤ n
      omega
    · rename_i hc
      refine ⟨h, Journal.Reclaimed.refl j, fun _ h1 => ?_⟩
      simpa [h1] using hc

/-- The reclaim: it restores the ring law and touches no LIVE record. -/
theorem Journal.reclaim_spec {j : Journal} (h : j.NearlyLawful) : j.reclaim.Lawful ∧ j.Reclaimed j.reclaim := by
  obtain ⟨a, b, c⟩ := Journal.reclaimUpTo_spec j.occ h
  refine ⟨⟨a.head, a.tail, a.occ, a.ring, a.cells, a.bound, a.span, a.marks, fun ho => ?_⟩, b⟩
  have := c (Nat.le_refl _) ho
  have hv : ((Journal.reclaimUpTo j.occ j).slot (Journal.reclaimUpTo j.occ j).tail).valid = true := by
    rw [a.span, Journal.inSpan_iff]
    have h2 := a.tail
    simp only [Journal.reclaim, Config.journalSlots] at *
    omega
  show ((Journal.reclaimUpTo j.occ j).slot (Journal.reclaimUpTo j.occ j).tail).voided = false
  simpa [Slot.isVoided, hv] using this

/-! ## Voids (R38, R39) -/

theorem Journal.markVoid_nearly {j : Journal} (h : j.NearlyLawful) {p : Nat} (hp : (j.slot p).valid = true) :
    (j.setSlot p { j.slot p with voided := true }).NearlyLawful := by
  have hs := fun q => Journal.slot_setSlot h.cells p q { j.slot p with voided := true }
  have hlt : p < Config.journalSlots := by
    by_contra hc
    rw [h.bound p (by omega)] at hp
    simp [Slot.clear] at hp
  refine { head := h.head, tail := h.tail, occ := h.occ, ring := h.ring, cells := Journal.setSlot_cells h.cells _ _,
           bound := ?_, span := ?_, marks := ?_ }
  · intro q hq
    rw [hs, if_neg (by omega)]
    exact h.bound q hq
  · intro q
    show _ = j.inSpan q
    rw [hs]
    split
    · rename_i e; rw [e]; exact h.span p
    · exact h.span q
  · intro q
    rw [hs]
    split
    · intro _; exact hp
    · exact h.marks q

/-- The single void of a LIVE record: the ring law, one LIVE record fewer of its window, and no other LIVE record
touched. -/
theorem Journal.voidOne_spec {j : Journal} (h : j.Lawful) {p : Nat} (hp : (j.slot p).live = true) :
    (j.voidOne p).Lawful
      ∧ (∀ w, (j.voidOne p).liveCount w + (if (j.slot p).window = w then 1 else 0) = j.liveCount w)
      ∧ (∀ q, q ≠ p → (j.slot q).live = true → (j.voidOne p).slot q = j.slot q)
      ∧ ((j.voidOne p).slot p).live = false ∧ (j.voidOne p).head = j.head ∧ (j.voidOne p).occ ≤ j.occ := by
  have hpv := hp
  simp only [Slot.live, Bool.and_eq_true] at hpv
  have hn := Journal.markVoid_nearly h.nearly hpv.1
  obtain ⟨a, b⟩ := Journal.reclaim_spec hn
  have hs := fun q => Journal.slot_setSlot h.cells p q { j.slot p with voided := true }
  have e : j.voidOne p = (j.setSlot p { j.slot p with voided := true }).reclaim := by
    unfold Journal.voidOne
    rw [if_pos hp]
  rw [e]
  refine ⟨a, fun w => ?_, fun q hq hl => ?_, ?_, b.head, b.occ⟩
  · rw [b.count]
    have := Journal.liveCount_setSlot h.cells p { j.slot p with voided := true } w
    simpa [Slot.liveOf, Slot.live, hpv.1, hpv.2] using this
  · rw [b.live q (by rw [hs, if_neg hq]; exact hl), hs, if_neg hq]
  · apply b.notLive
    rw [hs, if_pos rfl]
    simp [Slot.live]

theorem cellsGet_map {α : Type} {d : α} (f : α → α) (hd : f d = d) (m : List (Nat × α)) (p : Nat) :
    cellsGet d (m.map fun c => (c.1, f c.2)) p = f (cellsGet d m p) := by
  induction m with
  | nil => simp [cellsGet, hd]
  | cons c t ih =>
    simp only [List.map_cons, cellsGet]
    split
    · rfl
    · exact ih

theorem cellsWfFrom_map {α : Type} [DecidableEq α] {d : α} (f : α → α) (hf : ∀ x, x ≠ d → f x ≠ d)
    {m : List (Nat × α)} {lo : Nat} (h : cellsWfFrom d lo m = true) :
    cellsWfFrom d lo (m.map fun c => (c.1, f c.2)) = true := by
  induction m generalizing lo with
  | nil => rfl
  | cons c t ih =>
    simp only [cellsWfFrom, List.map_cons, Bool.and_eq_true, decide_eq_true_eq] at h ⊢
    exact ⟨⟨h.1.1, hf _ h.1.2⟩, ih h.2⟩

/-- A slot as the void-all for window `w` leaves it before the reclaim. -/
def Slot.voidFor (w : Win) (x : Slot) : Slot := if x.liveOf w then { x with voided := true } else x

theorem voidCell_eq (w : Win) (c : Nat × Slot) : voidCell w c = (c.1, c.2.voidFor w) := by
  unfold voidCell Slot.voidFor Slot.liveOf
  split <;> simp_all

theorem Slot.voidFor_ne_clear (w : Win) (x : Slot) (h : x ≠ Slot.clear) : x.voidFor w ≠ Slot.clear := by
  unfold Slot.voidFor
  split
  · intro e
    have := congrArg Slot.voided e
    simp [Slot.clear] at this
  · exact h

theorem Slot.voidFor_valid (w : Win) (x : Slot) : (x.voidFor w).valid = x.valid := by
  unfold Slot.voidFor
  split <;> rfl

theorem Slot.voidFor_of_not {w : Win} {x : Slot} (h : x.liveOf w = false) : x.voidFor w = x := by
  unfold Slot.voidFor
  simp [h]

/-- The ring with every LIVE record of `w` marked voided. -/
def Journal.markAll (j : Journal) (w : Win) : Journal := { j with slots := j.slots.map (voidCell w) }

theorem Journal.markAll_slot (j : Journal) (w : Win) (p : Nat) : (j.markAll w).slot p = (j.slot p).voidFor w := by
  unfold Journal.markAll Journal.slot
  have : (voidCell w) = fun c => (c.1, Slot.voidFor w c.2) := funext (voidCell_eq w)
  simp only [this]
  exact cellsGet_map (Slot.voidFor w) rfl j.slots p

theorem Journal.markAll_nearly {j : Journal} (h : j.NearlyLawful) (w : Win) : (j.markAll w).NearlyLawful := by
  have hs := Journal.markAll_slot j w
  refine { head := h.head, tail := h.tail, occ := h.occ, ring := h.ring, cells := ?_, bound := ?_, span := ?_, marks := ?_ }
  · have : (voidCell w) = fun c => (c.1, Slot.voidFor w c.2) := funext (voidCell_eq w)
    show cellsWf Slot.clear (j.slots.map (voidCell w)) = true
    rw [this]
    exact cellsWfFrom_map (Slot.voidFor w) (Slot.voidFor_ne_clear w) h.cells
  · intro p hp
    rw [hs, h.bound p hp]
    rfl
  · intro p
    rw [hs, Slot.voidFor_valid]
    exact h.span p
  · intro p hv
    rw [hs, Slot.voidFor_valid]
    rw [hs] at hv
    by_cases hl : (j.slot p).liveOf w
    · simp only [Slot.liveOf, Slot.live, Bool.and_eq_true] at hl
      exact hl.1.1
    · rw [Slot.voidFor_of_not (by simpa using hl)] at hv
      exact h.marks p hv

theorem Slot.voidFor_liveOf (w v : Win) (x : Slot) : (x.voidFor w).liveOf v = (x.liveOf v && v ≠ w) := by
  unfold Slot.voidFor
  split
  · rename_i h
    simp only [Slot.liveOf, Slot.live, Bool.and_eq_true, decide_eq_true_eq] at h ⊢
    simp only [Bool.not_true, Bool.and_false, Bool.false_and, ne_eq, Bool.false_eq, Bool.and_eq_false_iff]
    by_cases e : v = w
    · right; simp [e]
    · left
      right
      simp only [decide_eq_false_iff_not]
      intro e'
      exact e (by rw [← e', h.2])
  · rename_i h
    by_cases e : v = w
    · subst e
      simp only [ne_eq, not_true_eq_false, decide_false, Bool.and_false]
      simpa using h
    · simp [e]

theorem Journal.markAll_liveCount (j : Journal) (w v : Win) :
    (j.markAll w).liveCount v = if v = w then 0 else j.liveCount v := by
  rw [Journal.liveCount_eq, Journal.liveCount_eq]
  show cellsCount _ (j.slots.map (voidCell w)) = _
  induction j.slots with
  | nil => simp [cellsCount]
  | cons c t ih =>
    rw [List.map_cons, cellsCount_cons, ih, cellsCount_cons, voidCell_eq, Slot.voidFor_liveOf]
    by_cases e : v = w <;> simp [e]

/-- The void-all: the ring law, no LIVE record of `w` left, and every other window's LIVE records as they were. -/
theorem Journal.voidAll_spec {j : Journal} (h : j.Lawful) (w : Win) :
    (j.voidAll w).Lawful ∧ (∀ v, (j.voidAll w).liveCount v = if v = w then 0 else j.liveCount v)
      ∧ (∀ q, (j.slot q).live = true → (j.slot q).window ≠ w → (j.voidAll w).slot q = j.slot q)
      ∧ (∀ q, ((j.voidAll w).slot q).liveOf w = false) ∧ (j.voidAll w).head = j.head ∧ (j.voidAll w).occ ≤ j.occ := by
  obtain ⟨a, b⟩ := Journal.reclaim_spec (Journal.markAll_nearly h.nearly w)
  have e : j.voidAll w = (j.markAll w).reclaim := rfl
  have hs := Journal.markAll_slot j w
  rw [e]
  refine ⟨a, fun v => ?_, fun q hl hw => ?_, fun q => ?_, b.head, b.occ⟩
  · rw [b.count, Journal.markAll_liveCount]
  · have e1 : (j.slot q).voidFor w = j.slot q := Slot.voidFor_of_not (by simp [Slot.liveOf, hw])
    rw [b.live q (by rw [hs, e1]; exact hl), hs, e1]
  · have : ((j.markAll w).slot q).liveOf w = false := by
      rw [hs, Slot.voidFor_liveOf]
      simp
    by_cases hl : ((j.markAll w).slot q).live = true
    · rw [b.live q hl]
      exact this
    · have := b.notLive q (by simpa using hl)
      simp [Slot.liveOf, this]

/-! ## The discard (R50) -/

theorem Journal.discard_lawful {j : Journal} (h : j.Lawful) : j.discard.Lawful := by
  unfold Journal.discard
  split
  · rename_i ho
    have := Journal.appendBody_lawful h ho (x := Slot.clear) rfl rfl
    exact this
  · exact h

theorem Journal.discard_liveCount {j : Journal} (h : j.Lawful) (w : Win) : j.discard.liveCount w = j.liveCount w := by
  unfold Journal.discard
  split
  · rename_i ho
    exact Journal.appendBody_liveCount h ho (x := Slot.clear) rfl w
  · rfl

theorem Journal.cold_lawful : Journal.cold.Lawful := by
  refine { head := by decide, tail := by decide, occ := by decide, ring := by decide, cells := rfl,
           bound := fun _ _ => rfl, span := fun p => ?_, marks := fun p h => ?_, tailLive := fun h => ?_ }
  · show false = Journal.cold.inSpan p
    simp [Journal.inSpan, Journal.cold]
  · exact absurd h (by simp [Journal.slot, Journal.cold, cellsGet, Slot.clear])
  · exact absurd rfl h

@[simp] theorem Journal.cold_liveCount (w : Win) : Journal.cold.liveCount w = 0 := rfl

/-- A LIVE record of `w` makes its count positive. -/
theorem Journal.liveCount_pos {j : Journal} {p : Nat} {w : Win} (h : (j.slot p).liveOf w = true) : 0 < j.liveCount w := by
  rw [Journal.liveCount_eq]
  unfold Journal.slot at h
  have : ∀ m : List (Nat × Slot), (cellsGet Slot.clear m p).liveOf w = true → 0 < cellsCount (fun x => x.liveOf w) m := by
    intro m
    induction m with
    | nil => intro h; simp [cellsGet, Slot.clear_liveOf] at h
    | cons c t ih =>
      intro h
      rw [cellsCount_cons]
      simp only [cellsGet] at h
      split at h
      · simp [h]
      · have := ih h
        omega
  exact this _ h

end Sys2Proof.Machine
end

