-- ==== Sys2Proof/Laws/Engine.lean ====
section
/-! SUPPORT. The engine's examination: from the cursor back to the walked window's first LIVE record, or to the tail. -/

namespace Sys2Proof.Machine

/-! ## Ages in the span -/

theorem Journal.age_lt (j : Journal) (p : Nat) : j.age p < Config.journalSlots := Nat.mod_lt _ (by decide)

theorem Journal.inSpan_age {j : Journal} {p : Nat} (h : j.inSpan p = true) :
    p < Config.journalSlots ∧ j.age p < j.occ := by
  rw [Journal.inSpan_iff] at h
  exact h

theorem Journal.age_tail {j : Journal} (h : j.tail < Config.journalSlots) :
    j.age j.tail = 0 := by
  unfold Journal.age
  simp only [Config.journalSlots] at *
  omega

theorem Journal.age_eq_zero {j : Journal} (h : j.tail < Config.journalSlots) {p : Nat} (hp : p < Config.journalSlots)
    (h0 : j.age p = 0) : p = j.tail := by
  unfold Journal.age at h0
  simp only [Config.journalSlots] at *
  omega

theorem Journal.age_inj {j : Journal} (h : j.tail < Config.journalSlots) {p q : Nat} (hp : p < Config.journalSlots)
    (hq : q < Config.journalSlots) (e : j.age p = j.age q) : p = q := by
  unfold Journal.age at e
  simp only [Config.journalSlots] at *
  omega

theorem Journal.age_prevPos {j : Journal} (h : j.tail < Config.journalSlots) {p : Nat} (hp : p < Config.journalSlots)
    (hn : p ≠ j.tail) : j.age (prevPos p) + 1 = j.age p := by
  unfold Journal.age prevPos
  simp only [Config.journalSlots] at *
  omega

theorem Journal.inSpan_prevPos {j : Journal} (h : j.tail < Config.journalSlots) {p : Nat} (hp : j.inSpan p = true)
    (hn : p ≠ j.tail) : j.inSpan (prevPos p) = true := by
  obtain ⟨h1, h2⟩ := Journal.inSpan_age hp
  have h3 := Journal.age_prevPos h h1 hn
  rw [Journal.inSpan_iff]
  refine ⟨prevPos_lt p, ?_⟩
  have : j.age (prevPos p) < j.occ := by omega
  exact this

/-- The position before the head is the newest of the span. -/
theorem Journal.Lawful.prevPos_head {j : Journal} (h : j.Lawful) (ho : j.occ ≠ 0) :
    j.inSpan (prevPos j.head) = true ∧ j.age (prevPos j.head) + 1 = j.occ := by
  have h1 := h.head; have h2 := h.tail; have h3 := h.ring; have h4 := h.occ
  have : j.age (prevPos j.head) + 1 = j.occ := by
    unfold Journal.age prevPos
    simp only [Config.journalSlots] at *
    omega
  refine ⟨?_, this⟩
  rw [Journal.inSpan_iff]
  refine ⟨prevPos_lt _, ?_⟩
  have h5 : j.age (prevPos j.head) < j.occ := by omega
  exact h5

/-! ## Damage and completion -/

/-- Damage does not look at the walk, which it ends. -/
theorem State.damage_setWalk {s : State} {w : Win} {e : Entry} (h : s.entry w = some e) (k : Option Walk) (p : Nat) :
    (s.setWalk k).damage w p = s.damage w p := by
  unfold State.damage
  have h' : (s.setWalk k).entry w = some e := h
  rw [h, h']
  rfl

theorem State.setWalk_setWalk (s : State) (k l : Option Walk) : (s.setWalk k).setWalk l = s.setWalk l := rfl

/-! ## Examination -/

/-- The walk as it stands when it claims the record at `p` of journal `j`. -/
def Walk.claiming (k : Walk) (j : Journal) (p : Nat) : Walk :=
  { k with cursor := p, claim := .waiting, lastPos := some p, lastAtTail := p = j.tail }

/-- Position `p` is the walked window's newest LIVE record at or behind the position `c`. -/
def Journal.FirstFrom (j : Journal) (w : Win) (c p : Nat) : Prop :=
  (j.slot p).liveOf w = true ∧ j.age p ≤ j.age c
    ∧ ∀ q, (j.slot q).liveOf w = true → j.age q ≤ j.age c → j.age q ≤ j.age p

/-- The examination of a walk with records still to meet: the first LIVE record of the window at or behind the cursor is
claimed or damaged; with none, the walk runs to the tail and is damaged there. -/
theorem State.examine_spec (n : Nat) {s : State} {k : Walk} {e : Entry} (hj : s.ret.journal.Lawful)
    (hk : s.main.walk = some k) (he : s.entry k.window = some e) (hc : e.count ≠ k.target)
    (hr : k.outOfRecords s.ret.journal = false) (hs : s.ret.journal.inSpan k.cursor = true)
    (hn : s.ret.journal.age k.cursor + 2 ≤ n) :
    (∀ p, s.ret.journal.FirstFrom k.window k.cursor p →
        ((s.ret.journal.slot p).checks = true → State.examine n s = s.setWalk (some (k.claiming s.ret.journal p)))
          ∧ ((s.ret.journal.slot p).checks = false → State.examine n s = s.damage k.window p))
      ∧ ((∀ q, (s.ret.journal.slot q).liveOf k.window = true → s.ret.journal.age k.cursor < s.ret.journal.age q) →
          State.examine n s = s.damage k.window s.ret.journal.tail) := by
  induction n generalizing s k with
  | zero => omega
  | succ n ih =>
    obtain ⟨hs1, hs2⟩ := Journal.inSpan_age hs
    have hcnt : s.countOf k.window = e.count := by unfold State.countOf; rw [he]
    have hocc : s.ret.journal.occ ≠ 0 := by omega
    have step : State.examine (n + 1) s =
        (let x := s.ret.journal.slot k.cursor
         let k' := { k with lastPos := some k.cursor, lastAtTail := k.cursor = s.ret.journal.tail }
         if x.live && x.window = k.window then
           if x.checks then s.setWalk (some { k' with claim := .waiting })
           else s.damage k.window k.cursor
         else State.examine n (s.setWalk (some { k' with cursor := prevPos k.cursor }))) := by
      conv => lhs; unfold State.examine
      simp only [hk, hcnt, hc, hr, hocc, if_false, Bool.false_eq_true]
    rw [step]
    dsimp only
    by_cases hl : (s.ret.journal.slot k.cursor).liveOf k.window = true
    · have hl' : ((s.ret.journal.slot k.cursor).live && decide ((s.ret.journal.slot k.cursor).window = k.window)) = true := hl
      rw [hl']
      simp only [if_true]
      refine ⟨fun p hp => ?_, fun hq => absurd (hq _ hl) (by omega)⟩
      have hpc : p = k.cursor := by
        have h1 := hp.2.2 k.cursor hl (Nat.le_refl _)
        have h2 := hp.2.1
        have h3 : (s.ret.journal.slot p).live = true := by
          have := hp.1
          simp only [Slot.liveOf, Bool.and_eq_true] at this
          exact this.1
        exact Journal.age_inj hj.tail (Journal.inSpan_age (hj.live_inSpan h3)).1 hs1 (by omega)
      subst hpc
      refine ⟨fun hx => ?_, fun hx => ?_⟩
      · rw [hx]
        rfl
      · rw [hx]
        rfl
    · have hl' : ((s.ret.journal.slot k.cursor).live && decide ((s.ret.journal.slot k.cursor).window = k.window)) = false := by
        simpa [Slot.liveOf] using hl
      rw [hl']
      simp only [Bool.false_eq_true, if_false]
      generalize hk' : ({ k with lastPos := some k.cursor, lastAtTail := decide (k.cursor = s.ret.journal.tail), cursor := prevPos k.cursor } : Walk) = k'
      have w1 : k'.window = k.window := by rw [← hk']
      have w2 : k'.target = k.target := by rw [← hk']
      have w3 : k'.cursor = prevPos k.cursor := by rw [← hk']
      have w4 : k'.lastPos = some k.cursor := by rw [← hk']
      have w5 : k'.lastAtTail = decide (k.cursor = s.ret.journal.tail) := by rw [← hk']
      have hval : (s.ret.journal.slot k.cursor).valid = true := by rw [hj.span]; exact hs
      by_cases ht : k.cursor = s.ret.journal.tail
      · have hout : k'.outOfRecords s.ret.journal = true := by
          unfold Walk.outOfRecords
          rw [w4, w5]
          simp [ht]
        have hex : State.examine n (s.setWalk (some k')) = s.damage k.window k.cursor := by
          obtain ⟨m, rfl⟩ : ∃ m, n = m + 1 := ⟨n - 1, by omega⟩
          conv => lhs; unfold State.examine
          have c1 : (s.setWalk (some k')).main.walk = some k' := rfl
          have c2 : (s.setWalk (some k')).countOf k'.window = e.count := by rw [w1]; exact hcnt
          have c3 : k'.outOfRecords (s.setWalk (some k')).ret.journal = true := hout
          simp only [c1, c2, c3, if_true]
          rw [if_neg (by rw [w2]; exact hc), w4, w1]
          exact State.damage_setWalk he _ _
        rw [hex]
        refine ⟨fun p hp => ?_, fun _ => by rw [ht]⟩
        exfalso
        have h0 := Journal.age_tail hj.tail
        have h2 := hp.2.1
        have h3 : (s.ret.journal.slot p).live = true := by
          have := hp.1
          simp only [Slot.liveOf, Bool.and_eq_true] at this
          exact this.1
        rw [ht, h0] at h2
        have := Journal.age_eq_zero hj.tail (Journal.inSpan_age (hj.live_inSpan h3)).1 (by omega)
        rw [this, ← ht] at hp
        exact hl hp.1
      · have hage := Journal.age_prevPos hj.tail hs1 ht
        have hin := Journal.inSpan_prevPos hj.tail hs ht
        have hout : k'.outOfRecords s.ret.journal = false := by
          unfold Walk.outOfRecords
          rw [w4, w5]
          simp [ht, hval]
        have := ih (s := s.setWalk (some k')) (k := k') hj rfl (by rw [w1]; exact he) (by rw [w2]; exact hc) hout
          (by rw [w3]; exact hin) (by rw [w3]; show s.ret.journal.age _ + 2 ≤ n; omega)
        obtain ⟨i1, i2⟩ := this
        have jr : (s.setWalk (some k')).ret.journal = s.ret.journal := rfl
        rw [jr, w1, w3] at i1 i2
        have conv' : ∀ q, (s.ret.journal.slot q).liveOf k.window = true →
            (s.ret.journal.age q ≤ s.ret.journal.age k.cursor ↔ s.ret.journal.age q ≤ s.ret.journal.age (prevPos k.cursor)) := by
          intro q hq
          constructor
          · intro hle
            by_contra hgt
            have heq : s.ret.journal.age q = s.ret.journal.age k.cursor := by omega
            have h3 : (s.ret.journal.slot q).live = true := by
              simp only [Slot.liveOf, Bool.and_eq_true] at hq
              exact hq.1
            have := Journal.age_inj hj.tail (Journal.inSpan_age (hj.live_inSpan h3)).1 hs1 heq
            rw [this] at hq
            exact hl hq
          · omega
        refine ⟨fun p hp => ?_, fun hq => ?_⟩
        · obtain ⟨j1, j2⟩ := i1 p ⟨hp.1, (conv' p hp.1).mp hp.2.1, fun q hq hle => hp.2.2 q hq ((conv' q hq).mpr hle)⟩
          refine ⟨fun hx => ?_, fun hx => ?_⟩
          · rw [j1 hx, State.setWalk_setWalk]
            have w7 : k'.claiming s.ret.journal p = k.claiming s.ret.journal p := by
              simp only [Walk.claiming, w1, w2]
            exact congrArg (fun x => s.setWalk (some x)) w7
          · rw [j2 hx]
            exact State.damage_setWalk he _ _
        · rw [i2 fun q hql => by have := hq q hql; omega]
          exact State.damage_setWalk he _ _

end Sys2Proof.Machine
end

