-- ==== Sys2Proof/Laws/Fail.lean ====
section
/-! SUPPORT. The power sequence: a failure inside a step is a failure of the state that the step had reached, and a
recovery may stop and go on between any two windows. -/

namespace Sys2Proof.Machine

/-! ## Failures -/

/-- While the main well runs, FAILING_ENTRY enters FAILING. -/
theorem exec_failingEntry {s : State} (h : s.mainRuns = true) (cause : FailCause) (cut : CutPoint) :
    exec (.failingEntry cause cut) s = .next (s.enterFailing cause cut) := by
  show Host.Outcome.next _ = _
  simp only [State.mainRuns, Bool.or_eq_true, decide_eq_true_eq] at h
  rcases h with h | h <;> simp [h]

/-- A failure inside a step is one between steps from the state that the step had reached. -/
theorem exec_failingEntry_cut {s : State} (h : s.mainRuns = true) (cause : FailCause) (cut : CutPoint)
    (hc : (s.applyCut cut).mainRuns = true) :
    exec (.failingEntry cause cut) s = exec (.failingEntry cause .between) (s.applyCut cut) := by
  rw [exec_failingEntry h, exec_failingEntry hc]
  rfl

/-- Only the records queued before the queue stopped taking posts are kept; nothing else of the taking is lost. -/
theorem State.postedOnly_same (s t : State) (n : Nat) :
    (s.postedOnly t n).ret = t.ret ∧ (s.postedOnly t n).sram = t.sram ∧ (s.postedOnly t n).power = t.power
      ∧ (s.postedOnly t n).main.slots = t.main.slots ∧ (s.postedOnly t n).main.cycle = t.main.cycle :=
  ⟨rfl, rfl, rfl, rfl, rfl⟩

/-- A control-word write in flight is completed by the command that its examination names. -/
theorem State.ControlWrite.completes {s : State} {a : Access} {w : Win} (h : s.ControlWrite a w) :
    exec (s.examination a w).command s = .next s.completeControlWrite := by
  unfold State.completeControlWrite
  rw [h.inFlight]
  dsimp only
  rw [h.window]
  dsimp only
  cases s.examination a w with
  | ordinary => rfl
  | malformed => rfl
  | marker k q => cases k <;> rfl

/-- The taking of a control-word write alone is what the command named by its examination does, with no request waiting
and no access presented. -/
theorem State.ControlWrite.markerTaken {s : State} {a : Access} {w : Win} (h : s.ControlWrite a w) :
    ∃ u, exec (s.examination a w).command { s with port.pcen := false, main.waiting := false } = .next u
      ∧ s.markerTaken = { u with port := s.port, main.waiting := s.main.waiting } :=
  have g : State.ControlWrite { s with port.pcen := false, main.waiting := false } a w :=
    ⟨h.runs, h.access, h.phase, h.cond, h.cls, h.window, h.wr⟩
  ⟨_, g.completes, rfl⟩

/-! ## Recoveries -/

/-- The windows from `m` to below `k` are those from `m` to below `n` and then those from `n` to below `k`. -/
theorem allWins_between {m n k : Fin 9} (h : m ≤ n) (g : n ≤ k) :
    (allWins.filter fun w => m.val ≤ w.val && w.val < n.val) ++ (allWins.filter fun w => n.val ≤ w.val && w.val < k.val)
      = allWins.filter fun w => m.val ≤ w.val && w.val < k.val := by
  revert h g
  revert m n k
  decide +kernel

/-- The recovery requests may be made in two goes. -/
theorem State.placeFrom_trans (s : State) {m n k : Fin 9} (h : m ≤ n) (g : n ≤ k) :
    (s.placeFrom m n).placeFrom n k = s.placeFrom m k := by
  unfold State.placeFrom State.placeAll
  rw [← List.foldl_append, allWins_between h g]

end Sys2Proof.Machine
end

