-- ==== Sys2Proof/Laws/Route.lean ====
section
/-! SUPPORT. The classification of an access: what routing, holding and voiding it leave, in the words of the
statements. -/

namespace Sys2Proof.Machine

theorem ProcPort.capture_withdrawn (p : ProcPort) : p.capture.withdrawn = false := rfl

/-- The access path moves nothing but the processor port's side. -/
theorem AccessMoves.only {s t : State} (h : AccessMoves s t) : AccessOnly s t where
  sequencer := by unfold SameSequencer; rw [h.main, h.ma, h.mbe]; exact ⟨rfl, rfl, rfl, rfl, rfl, rfl⟩
  memory := h.sram
  journal := h.journal
  config := by unfold SameConfig; rw [h.ret]; exact ⟨rfl, rfl, rfl, rfl, rfl⟩
  engine := by unfold SameEngine; rw [h.main]; exact ⟨rfl, rfl, rfl⟩
  management := by
    unfold SameManagement; rw [h.main]; exact ⟨rfl, rfl, rfl, rfl, rfl, rfl, rfl, rfl, rfl, rfl, rfl, rfl, rfl, rfl, rfl⟩
  power := by unfold SamePower; rw [h.main, h.power, h.signature, h.vdd, h.pfail, h.rst]; exact ⟨rfl, rfl, rfl, rfl, rfl, rfl, rfl⟩
  time := ⟨by rw [h.main], by rw [h.main], h.osc⟩

/-- A completed access leaves entries, slots and events. -/
theorem State.settle_complete_quiet (s : State) (a : Access) (r : Option Word) (h : s.noneFollows a) :
    Quiet s ((s.complete a r).settle) := by
  rw [State.settle_complete s a r h]
  split <;> exact ⟨rfl, rfl, rfl, rfl⟩

/-- An access that is short of its outcome has nothing to settle. -/
theorem State.settle_of_cond {s : State} {a : Access} (h : s.main.access = some a) (hc : a.cond ≠ .complete) :
    s.settle = s := by
  unfold State.settle
  rw [h]
  simp [hc]

/-- What the void of an access leaves (R83). -/
theorem State.voidAccess_settled (s : State) (a : Access) (w : Win) (h : s.noneFollows a) (hr : s.mainRuns = true) :
    Voided s ((s.voidAccess a w).settle) a w := by
  have hb : s.voidsMarker a w = true ↔ s.busyDue a w := by
    unfold State.voidsMarker State.busyDue markerKey
    rw [Bool.and_eq_true, Bool.and_eq_true, Bool.and_eq_true, decide_eq_true_iff, decide_eq_true_iff, decide_eq_true_iff,
      and_assoc, and_assoc]
  unfold State.voidAccess
  by_cases hv : s.voidsMarker a w = true
  · rw [if_pos hv]
    dsimp only
    generalize hu : s.handOn w .refused .busy (markerSeq a.data) (s.countOf w) = u
    have hf : (u.post .voidAccess (some w) (detailVoid a.wr a.addr)).noneFollows a := by
      rw [← hu]
      simpa [State.noneFollows] using h
    refine ⟨State.settle_complete_ended _ a (some s.ret.fillWord) hf, ?_, fun _ => ⟨?_, ?_, ?_⟩, fun hn => absurd (hb.mp hv) hn⟩
    · rw [(State.settle_complete_quiet _ a _ hf).1, ← hu]
      simp
    · have hq := (State.settle_complete_quiet _ a (some s.ret.fillWord) hf).2.1
      have := HandedOn.handOn s w .refused .busy (markerSeq a.data) (s.countOf w) hr
      rw [hu] at this
      unfold HandedOn State.slot at *
      rw [hq]
      simpa [markerSeq] using this
    · intro v hvw
      have hq := (State.settle_complete_quiet _ a (some s.ret.fillWord) hf).2.1
      unfold State.slot
      rw [hq]
      have := State.handOn_slot_ne s (v := v) .refused .busy (markerSeq a.data) (s.countOf w) hvw
      rw [hu] at this
      simpa [State.slot] using this
    · have hq := (State.settle_complete_quiet _ a (some s.ret.fillWord) hf).2.2
      have e1 := EventsAre.handOn s w .refused .busy (markerSeq a.data) (s.countOf w) hr
      rw [hu] at e1
      refine EventsAre.same ?_ hq
      refine EventsAre.append (t := u) ?_ ?_ ?_ e1 (EventsAre.post _ _ _ _)
      all_goals rw [← hu]; simp
  · have hv' : s.voidsMarker a w = false := by simpa using hv
    rw [hv']
    simp only [Bool.false_eq_true, if_false]
    have hf : (s.post .voidAccess (some w) (detailVoid a.wr a.addr)).noneFollows a := by
      simpa [State.noneFollows] using h
    have hq := State.settle_complete_quiet _ a (some s.ret.fillWord) hf
    refine ⟨State.settle_complete_ended _ a (some s.ret.fillWord) hf, ?_, fun hn => absurd (hb.mpr hn) hv, fun _ => ⟨?_, ?_⟩⟩
    · rw [hq.1]; simp
    · rw [hq.2.1]; simp
    · exact EventsAre.same (EventsAre.post _ _ _ _) hq.2.2

/-- What the hold of an access leaves (R80). -/
theorem State.hold_settled (s : State) (a : Access) (w : Win) (h : s.noneFollows a) (hr : s.mainRuns = true) :
    HeldOrVoided s ((s.hold a w).settle) a w := by
  unfold State.hold
  dsimp only
  split
  · rename_i h0
    exact ⟨fun hn => absurd h0 hn, fun _ => State.voidAccess_settled _ _ _ h hr⟩
  · rename_i h0
    rw [State.settle_of_cond rfl (by simp)]
    exact ⟨fun _ => ⟨rfl, rfl, rfl, rfl, rfl, rfl, rfl, rfl⟩, fun hn => absurd hn h0⟩

/-- What a claim leaves (R71). -/
theorem State.claim_settled (s : State) (a : Access) (c : AccessClass) (w : Option Win) :
    Waits s ((s.claim a c w).settle) a c w := by
  rw [State.settle_of_cond (s := s.claim a c w) rfl (by simp)]
  exact ⟨rfl, rfl, rfl, rfl, rfl, rfl, rfl, rfl⟩

/-- What a drop leaves of the access (R77). -/
theorem State.drop_settled (s : State) (a : Access) (w : Win) (h : s.noneFollows a) :
    ((s.complete { a with cls := .dropped, window := some w } none).settle).droppedFor a w
      ∧ Quiet s ((s.complete { a with cls := .dropped, window := some w } none).settle) := by
  refine ⟨?_, State.settle_complete_quiet _ _ _ h⟩
  have := State.settle_complete_ended s { a with cls := .dropped, window := some w } none h
  unfold State.droppedFor
  simpa using this

/-- The owner of a granule is enabled. -/
theorem State.answer_range {s : State} {a : Addr} {w : Win} (h : s.answer a = .range w) : s.enabled w = true := by
  unfold State.answer at h
  split at h
  · simp at h
  · split at h
    · simp at h
    · split at h
      · rename_i v hv
        unfold State.owner at hv
        rw [firstWin_eq_some] at hv
        simp only [Answer.range.injEq] at h
        subst h
        simp only [Bool.and_eq_true] at hv
        exact hv.1.1
      · simp at h

/-- What an access to the effective range of an enabled window leaves (R72, R77, R80). -/
theorem State.range_settled (s : State) (a : Access) {w : Win} {e : Entry} (h : s.noneFollows a) (hr : s.mainRuns = true)
    (he : s.entry w = some e) : RangeProceeds s ((s.proceed a (s.rangeVerdict w a.wr)).settle) a w := by
  have hx : s.txnState w = some e.state := by simp [State.txnState, he]
  have passed : s.rangeVerdict w a.wr = .passes (some w) →
      Waits s ((s.proceed a (s.rangeVerdict w a.wr)).settle) a .passed (some w) := by
    intro hv
    rw [hv]
    exact State.claim_settled _ _ _ _
  unfold RangeProceeds
  rw [hx]
  cases hs : e.state
  case rollingBack =>
    have hv : s.rangeVerdict w a.wr = .holds w := by simp [State.rangeVerdict, hx, hs]
    rw [hv]
    refine ⟨fun _ => State.hold_settled _ _ _ h hr, ?_, ?_, ?_, ?_, ?_, ?_⟩ <;> simp
    intro e' h1 h2
    rw [he] at h1
    cases h1
    simp [hs] at h2
  all_goals rcases (Bool.eq_false_or_eq_true a.wr).symm with hw | hw
  all_goals refine ⟨by simp, fun _ _ hw' => ?_, fun h1 hw' hm => ?_, fun h1 hw' hm => ?_, fun h1 hw' => ?_, fun e' h1 h2 hw' => ?_,
    fun h1 hw' => ?_⟩
  all_goals try (exact absurd (hw.symm.trans hw') (by decide))
  all_goals try (exact absurd h1 (by decide))
  all_goals try (rw [he] at h1; cases h1; exact absurd (hs.symm.trans h2) (by decide))
  · exact passed (by simp [State.rangeVerdict, hx, hs, hw])
  · exact passed (by simp [State.rangeVerdict, hx, hs, hw, hm])
  · have hv : s.rangeVerdict w a.wr = .drops w .idle := by simp [State.rangeVerdict, hx, hs, hw, hm]
    rw [hv]
    have hd := State.drop_settled (s.post .strayWrite (some w) (detailAddr a.addr)) a w
      (by simpa [State.noneFollows] using h)
    refine ⟨hd.1, hd.2.1.trans (by simp), hd.2.2.1.trans (by simp), ?_⟩
    exact EventsAre.same (EventsAre.post _ _ _ _) hd.2.2.2
  · exact passed (by simp [State.rangeVerdict, hx, hs, hw])
  · have hv : s.rangeVerdict w a.wr = .journals w := by simp [State.rangeVerdict, hx, hs, hw]
    rw [hv]
    exact State.claim_settled _ _ _ _
  · exact passed (by simp [State.rangeVerdict, hx, hs, hw])
  · have hv : s.rangeVerdict w a.wr = .drops w .broken := by simp [State.rangeVerdict, hx, hs, hw]
    rw [hv]
    rw [he] at h1
    cases h1
    cases hr' : e.dropReported
    · have hu : s.reportDrop w .broken a.addr
          = (s.setEntry w (some { e with dropReported := true })).post .droppedWrite (some w) (detailAddr a.addr) := by
        simp [State.reportDrop, State.noteDrop, he, hs, hr']
      unfold State.proceed
      dsimp only
      rw [hu]
      have hd := State.drop_settled ((s.setEntry w (some { e with dropReported := true })).post .droppedWrite (some w)
        (detailAddr a.addr)) a w (by simpa [State.noneFollows] using h)
      refine ⟨hd.1, hd.2.2.1.trans (by simp), ?_, ?_, ?_⟩
      · intro v hv
        unfold State.entry
        rw [hd.2.1]
        have := State.setEntry_entry s w v (some { e with dropReported := true })
        rw [if_neg hv] at this
        simpa [State.entry] using this
      · unfold State.entry
        rw [hd.2.1]
        simp [State.setEntry]
      · exact EventsAre.same (EventsAre.congr (s' := s.setEntry w (some { e with dropReported := true }))
          ⟨rfl, rfl, rfl, rfl, rfl⟩ (EventsAre.post _ _ _ _)) hd.2.2.2
    · have hu : s.reportDrop w .broken a.addr = s := by simp [State.reportDrop, State.noteDrop, he, hs, hr']
      unfold State.proceed
      dsimp only
      rw [hu]
      have hd := State.drop_settled s a w h
      refine ⟨hd.1, hd.2.2.1, ?_, ?_, ?_⟩
      · intro v _
        unfold State.entry
        rw [hd.2.1]
      · have : { e with dropReported := true } = e := by cases e; simp_all
        rw [this]
        unfold State.entry
        rw [hd.2.1]
        exact he
      · exact EventsAre.of_same hd.2.2.2
  · exact passed (by simp [State.rangeVerdict, hx, hs, hw])
  · have hv : s.rangeVerdict w a.wr = .drops w .damaged := by simp [State.rangeVerdict, hx, hs, hw]
    rw [hv]
    have hd := State.drop_settled (s.post .damagedAccess (some w) (detailAddr a.addr)) a w
      (by simpa [State.noneFollows] using h)
    refine ⟨hd.1, hd.2.1.trans (by simp), hd.2.2.1.trans (by simp), ?_⟩
    exact EventsAre.same (EventsAre.post _ _ _ _) hd.2.2.2

/-- What the routing of an access leaves (R72, R73, R77, R80). -/
theorem State.route_settled (s : State) (a : Access) (h : s.noneFollows a) (hr : s.mainRuns = true) :
    Classified s ((s.route a).settle) a := by
  unfold Classified State.route
  by_cases h0 : a.wr = true ∧ a.lanes = 0
  · simp only [h0, Bool.true_and, decide_true, if_true, and_self]
    have := State.settle_complete_ended s { a with cls := .noLanes, window := none } none h
    rw [h0.1, if_pos rfl] at this
    have h1 : a.lanes = 0 := h0.2
    have h2 : a.wr = true := h0.1
    refine ⟨?_, State.settle_complete_quiet _ _ _ h⟩
    simpa [h1, h2] using this
  · have h0' : (a.wr && decide (a.lanes = 0)) = false := by
      cases hw : a.wr <;> simp_all
    rw [if_neg h0, h0']
    simp only [Bool.false_eq_true, if_false]
    cases hA : s.answer a.addr with
    | unguarded =>
      have hv : s.classify a.addr a.wr = .passes none := by simp [State.classify, hA]
      rw [hv]
      exact State.claim_settled _ _ _ _
    | receipt w =>
      have hv : s.classify a.addr a.wr = .passes none := by simp [State.classify, hA]
      rw [hv]
      exact State.claim_settled _ _ _ _
    | control w =>
      dsimp only
      by_cases hR : s.txnState w = some .rollingBack
      · have hv : s.classify a.addr a.wr = .holds w := by simp [State.classify, hA, hR]
        rw [hv]
        exact ⟨fun _ => State.hold_settled _ _ _ h hr, fun hn => absurd hR hn⟩
      · rcases (Bool.eq_false_or_eq_true a.wr).symm with hw | hw
        · have hv : s.classify a.addr a.wr = .passes (some w) := by simp [State.classify, hA, hR, hw]
          rw [hv]
          refine ⟨fun hn => absurd hn hR, fun _ => ⟨?_, fun _ => State.claim_settled _ _ _ _⟩⟩
          simp [hw]
        · have hv : s.classify a.addr a.wr = .writesControl w := by simp [State.classify, hA, hR, hw]
          rw [hv]
          refine ⟨fun hn => absurd hn hR, fun _ => ⟨fun _ => State.claim_settled _ _ _ _, ?_⟩⟩
          simp [hw]
    | range w =>
      obtain ⟨e, he⟩ := Option.isSome_iff_exists.mp (State.answer_range hA)
      have hv : s.classify a.addr a.wr = s.rangeVerdict w a.wr := by simp [State.classify, hA]
      rw [hv]
      exact State.range_settled s a h hr he

/-! ## The access that routing leaves -/

/-- The access `b` and its registers after `a` has been dealt with in `s`: waiting with a claim, held, or with its
outcome. -/
inductive AccessLeft (s t : State) (a : Access) : Access → Prop where
  | waits (c : AccessClass) (w : Option Win)
      (hc : c = .passed ∨ (c = .journaled ∨ c = .controlWord) ∧ a.wr = true ∧ w.isSome = true)
      (timer : t.main.holdTimer = none) (prdy : t.main.prdy = s.main.prdy) (pd : t.main.pd = s.main.pd) :
      AccessLeft s t a { a with cls := c, window := w, cond := .waiting }
  | held (w : Win) (hw : s.txnState w = some .rollingBack) (timer : t.main.holdTimer = some 0)
      (prdy : t.main.prdy = s.main.prdy) (pd : t.main.pd = s.main.pd) :
      AccessLeft s t a { a with cls := .held, window := some w, cond := .held }
  | ended (c : AccessClass) (w : Option Win) (timer : t.main.holdTimer = none)
      (prdy : a.withdrawn = false → t.main.prdy = .asserted ∧ (t.main.pd.isSome = true → a.wr = false))
      (old : a.withdrawn = true → t.main.prdy = s.main.prdy ∧ t.main.pd = s.main.pd) :
      AccessLeft s t a { a with cls := c, window := w, cond := .complete }

/-- A completed access, and the registers beside it. -/
theorem State.complete_left (s u : State) (a : Access) (c : AccessClass) (w : Option Win) (r : Option Word)
    (hp : u.main.prdy = s.main.prdy) (hd : u.main.pd = s.main.pd) :
    (u.complete { a with cls := c, window := w } r).main.access = some { a with cls := c, window := w, cond := .complete }
      ∧ AccessLeft s (u.complete { a with cls := c, window := w } r) a { a with cls := c, window := w, cond := .complete } := by
  unfold State.complete
  rcases (Bool.eq_false_or_eq_true a.withdrawn).symm with h | h
  · simp only [h, Bool.false_eq_true, if_false]
    refine ⟨trivial, ?_⟩
    simp only [← h]
    refine .ended c w rfl (fun _ => ⟨rfl, ?_⟩) (fun hn => absurd (h.symm.trans hn) (by decide))
    rcases (Bool.eq_false_or_eq_true a.wr).symm with hw | hw <;> simp [hw]
  · simp only [h, if_true]
    refine ⟨trivial, ?_⟩
    simp only [← h]
    exact .ended c w rfl (fun hn => absurd (h.symm.trans hn) (by decide)) (fun _ => ⟨hp, hd⟩)

/-- A voided access. -/
theorem State.voidAccess_left (s : State) (a : Access) (c : AccessClass) (o : Option Win) (w : Win) :
    (s.voidAccess { a with cls := c, window := o } w).main.access = some { a with cls := c, window := o, cond := .complete }
      ∧ AccessLeft s (s.voidAccess { a with cls := c, window := o } w) a { a with cls := c, window := o, cond := .complete } := by
  unfold State.voidAccess
  refine State.complete_left s _ a c o _ ?_ ?_
  · dsimp only; split <;> simp
  · dsimp only; split <;> simp

/-- A held access, or one voided at once. -/
theorem State.hold_left (s : State) (a : Access) (w : Win) (hw : s.txnState w = some .rollingBack) :
    ∃ b, (s.hold a w).main.access = some b ∧ AccessLeft s (s.hold a w) a b := by
  unfold State.hold
  dsimp only
  split
  · exact ⟨_, State.voidAccess_left s { a with cond := .held } .held (some w) w |>.1, by
      have := (State.voidAccess_left s { a with cond := .held } .held (some w) w).2
      cases this with
      | ended _ _ t p o => exact .ended .held (some w) t p o⟩
  · exact ⟨_, rfl, .held w hw rfl rfl rfl⟩

/-- What the verdicts say of the access and of the window's state (R72). -/
theorem State.classify_sound (s : State) (a : Addr) (wr : Bool) :
    (∀ w, s.classify a wr = .journals w → wr = true ∧ s.txnState w = some .opened)
      ∧ (∀ w, s.classify a wr = .writesControl w → wr = true ∧ s.txnState w ≠ some .rollingBack)
      ∧ ∀ w, s.classify a wr = .holds w → s.txnState w = some .rollingBack := by
  unfold State.classify
  split
  · simp
  · simp
  · rename_i w _
    by_cases h : s.txnState w = some .rollingBack
    · simp only [h, if_true]
      simpa using h
    · cases wr <;> simp [h]
  · rename_i w _
    unfold State.rangeVerdict
    split
    · simp
    · rename_i h
      simp only [reduceCtorEq, false_implies, implies_true, Verdict.holds.injEq, true_and]
      rintro v rfl
      exact h
    · split <;> simp
    · rename_i h
      cases wr
      · simp
      · simp only [if_true, Verdict.journals.injEq, reduceCtorEq, false_implies, implies_true, and_true, true_and]
        rintro v rfl
        exact h
    · cases wr <;> simp
    · cases wr <;> simp

@[simp] theorem State.reportDrop_prdy (s : State) (w : Win) (y : TxnState) (a : Addr) :
    (s.reportDrop w y a).main.prdy = s.main.prdy := by
  unfold State.reportDrop State.noteDrop
  split <;> (try split) <;> (try split) <;> simp
@[simp] theorem State.reportDrop_pd (s : State) (w : Win) (y : TxnState) (a : Addr) :
    (s.reportDrop w y a).main.pd = s.main.pd := by
  unfold State.reportDrop State.noteDrop
  split <;> (try split) <;> (try split) <;> simp

/-- Routing leaves the access in one of the three places. -/
theorem State.route_left (s : State) (a : Access) :
    ∃ b, (s.route a).main.access = some b ∧ AccessLeft s (s.route a) a b := by
  obtain ⟨h1, h2, h3⟩ := State.classify_sound s a.addr a.wr
  unfold State.route
  split
  · exact ⟨_, State.complete_left s s a _ _ _ rfl rfl⟩
  · unfold State.proceed
    split
    · rename_i w _
      exact ⟨_, rfl, .waits .passed w (Or.inl rfl) rfl rfl rfl⟩
    · rename_i w hv
      exact ⟨_, rfl, .waits .journaled (some w) (Or.inr ⟨Or.inl rfl, (h1 w hv).1, rfl⟩) rfl rfl rfl⟩
    · rename_i w hv
      exact ⟨_, rfl, .waits .controlWord (some w) (Or.inr ⟨Or.inr rfl, (h2 w hv).1, rfl⟩) rfl rfl rfl⟩
    · rename_i w hv
      exact State.hold_left s a w (h3 w hv)
    · exact ⟨_, State.complete_left s _ a _ _ _ (by simp) (by simp)⟩

/-- An access left keeps what the processor captured. -/
theorem AccessLeft.captured {s t : State} {a b : Access} (h : AccessLeft s t a b) :
    b.addr = a.addr ∧ b.lanes = a.lanes ∧ b.wr = a.wr ∧ b.data = a.data ∧ b.withdrawn = a.withdrawn := by
  cases h <;> exact ⟨rfl, rfl, rfl, rfl, rfl⟩

/-- Nothing is settled for an access that is not withdrawn. -/
theorem State.settle_route (s : State) (a : Access) (h : a.withdrawn = false) : (s.route a).settle = s.route a := by
  obtain ⟨b, hb, hl⟩ := State.route_left s a
  unfold State.settle
  rw [hb]
  simp [hl.captured.2.2.2.2, h]

/-! ## The same from a state that differs elsewhere -/

/-- Two states in which an access is dealt with alike. -/
structure RouteSame (s t : State) : Prop where
  ret : t.ret = s.ret
  slots : t.main.slots = s.main.slots
  posts : PostSame s t
  prdy : t.main.prdy = s.main.prdy
  pd : t.main.pd = s.main.pd

theorem Quiet.congr {s s' t : State} (h : RouteSame s s') (q : Quiet s' t) : Quiet s t :=
  ⟨q.1.trans (by rw [h.ret]), q.2.1.trans h.slots, q.2.2.1.trans h.posts.queue, q.2.2.2.trans h.posts.overrun⟩

theorem Waits.congr {s s' t : State} {a : Access} {c : AccessClass} {w : Option Win} (h : RouteSame s s')
    (x : Waits s' t a c w) : Waits s t a c w :=
  ⟨x.1, x.2.1, x.2.2.1.trans h.prdy, x.2.2.2.1.trans h.pd, Quiet.congr h x.2.2.2.2⟩

theorem Voided.congr {s s' t : State} {a : Access} {w : Win} (h : RouteSame s s') (v : Voided s' t a w) : Voided s t a w := by
  have hd : s'.desc w = s.desc w := by unfold State.desc; rw [h.ret]
  have hc : s'.countOf w = s.countOf w := by unfold State.countOf State.entry; rw [h.ret]
  have hs : ∀ v, s'.slot v = s.slot v := fun v => by unfold State.slot; rw [h.slots]
  have hb : s'.busyDue a w ↔ s.busyDue a w := by unfold State.busyDue; rw [hd]
  obtain ⟨v1, v2, v3, v4⟩ := v
  refine ⟨by rw [← h.ret]; exact v1, v2.trans (by rw [h.ret]), fun hn => ?_, fun hn => ?_⟩
  · obtain ⟨x1, x2, x3⟩ := v3 (hb.mpr hn)
    rw [hc] at x1
    refine ⟨HandedOn.congr (hs w) hd x1, fun v hv => (x2 v hv).trans (hs v), ?_⟩
    rw [superseding_congr (hs w)] at x3
    exact EventsAre.congr h.posts x3
  · obtain ⟨x1, x2⟩ := v4 (fun hp => hn (hb.mp hp))
    exact ⟨x1.trans h.slots, EventsAre.congr h.posts x2⟩

theorem HeldOrVoided.congr {s s' t : State} {a : Access} {w : Win} (h : RouteSame s s') (v : HeldOrVoided s' t a w) :
    HeldOrVoided s t a w := by
  refine ⟨fun hn => ?_, fun hn => Voided.congr h (v.2 (by rw [h.ret]; exact hn))⟩
  obtain ⟨x1, x2, x3, x4, x5⟩ := v.1 (by rw [h.ret]; exact hn)
  exact ⟨x1, x2, x3.trans h.prdy, x4.trans h.pd, Quiet.congr h x5⟩

theorem RangeProceeds.congr {s s' t : State} {a : Access} {w : Win} (h : RouteSame s s') (c : RangeProceeds s' t a w) :
    RangeProceeds s t a w := by
  have he : ∀ w, s'.entry w = s.entry w := fun w => by unfold State.entry; rw [h.ret]
  have hx : ∀ w, s'.txnState w = s.txnState w := fun w => by unfold State.txnState; rw [he]
  have hd : ∀ w, s'.desc w = s.desc w := fun w => by unfold State.desc; rw [h.ret]
  unfold RangeProceeds at *
  simp only [hx, he, hd] at c
  obtain ⟨c1, c2, c3, c4, c5, c6, c7⟩ := c
  refine ⟨fun hn => HeldOrVoided.congr h (c1 hn), fun h0 h1 h2 => Waits.congr h (c2 h0 h1 h2),
    fun h1 h2 h3 => Waits.congr h (c3 h1 h2 h3), fun h1 h2 h3 => ?_, fun h1 h2 => Waits.congr h (c5 h1 h2), fun e h1 h2 h3 => ?_, fun h1 h2 => ?_⟩
  · obtain ⟨x1, x2, x3, x4⟩ := c4 h1 h2 h3
    exact ⟨x1, x2.trans (by rw [h.ret]), x3.trans h.slots, EventsAre.congr h.posts x4⟩
  · obtain ⟨x1, x2, x3, x4, x5⟩ := c6 e h1 h2 h3
    exact ⟨x1, x2.trans h.slots, x3, x4, EventsAre.congr h.posts x5⟩
  · obtain ⟨x1, x2, x3, x4⟩ := c7 h1 h2
    exact ⟨x1, x2.trans (by rw [h.ret]), x3.trans h.slots, EventsAre.congr h.posts x4⟩

theorem Classified.congr {s s' t : State} {a : Access} (h : RouteSame s s') (c : Classified s' t a) : Classified s t a := by
  have he : ∀ w, s'.entry w = s.entry w := fun w => by unfold State.entry; rw [h.ret]
  have hx : ∀ w, s'.txnState w = s.txnState w := fun w => by unfold State.txnState; rw [he]
  have hd : ∀ w, s'.desc w = s.desc w := fun w => by unfold State.desc; rw [h.ret]
  have ha : s'.answer a.addr = s.answer a.addr := by
    have hen : s'.enabled = s.enabled := by funext w; unfold State.enabled; rw [he]
    have hds : s'.desc = s.desc := funext hd
    unfold State.answer State.owner
    rw [hen, hds]
  unfold Classified at *
  rw [ha] at c
  split
  · rename_i h0
    rw [if_pos h0] at c
    exact ⟨c.1, Quiet.congr h c.2⟩
  · rename_i h0
    rw [if_neg h0] at c
    cases hA : s.answer a.addr <;> rw [hA] at c
    · rename_i w
      simp only [hx] at c
      exact ⟨fun hn => HeldOrVoided.congr h (c.1 hn), 
        fun hn => ⟨fun hw => Waits.congr h ((c.2 hn).1 hw), fun hw => Waits.congr h ((c.2 hn).2 hw)⟩⟩
    · exact Waits.congr h c
    · exact RangeProceeds.congr h c
    · exact Waits.congr h c

end Sys2Proof.Machine
end

