-- ==== Sys2Proof/Laws/Time.lean ====
section
/-! SUPPORT. Time: everything that microsecond events, with the ticks and millisecond events among them, can change. -/

namespace Sys2Proof.Machine

/-- Everything the passing of time changes: what the access path changes, the counters, the stamp and the oscillator. -/
structure TimeMoves (s t : State) : Prop where
  shape : ∃ en x ht p d sl q o c st os,
    t = { s with
          ret.entries := en, osc := os
          main := { s.main with
                    access := x, holdTimer := ht, prdy := p, pd := d, slots := sl, queue := q, overrun := o,
                    counters := c, stamp := st } }
  bound : s.main.queue.length ≤ Config.queueCapacity → t.main.queue.length ≤ Config.queueCapacity
  entry : ∀ v, t.entry v = s.entry v
    ∨ ∃ e, s.entry v = some e ∧ e.state = .broken ∧ t.entry v = some { e with dropReported := true }

theorem TimeMoves.refl (s : State) : TimeMoves s s :=
  ⟨⟨_, _, _, _, _, _, _, _, _, _, _, rfl⟩, id, fun _ => Or.inl rfl⟩

theorem TimeMoves.trans {s t u : State} (h : TimeMoves s t) (g : TimeMoves t u) : TimeMoves s u := by
  refine ⟨?_, fun x => g.bound (h.bound x), fun v => ?_⟩
  · obtain ⟨_, _, _, _, _, _, _, _, _, _, _, e⟩ := h.shape
    obtain ⟨_, _, _, _, _, _, _, _, _, _, _, e'⟩ := g.shape
    rw [e', e]
    exact ⟨_, _, _, _, _, _, _, _, _, _, _, rfl⟩
  · rcases h.entry v with a | ⟨e, a1, a2, a3⟩
    · rw [← a]
      exact g.entry v
    · right
      rcases g.entry v with b | ⟨e', b1, b2, b3⟩
      · exact ⟨e, a1, a2, b.trans a3⟩
      · refine ⟨e, a1, a2, ?_⟩
        rw [a3] at b1
        obtain rfl := Option.some.inj b1
        exact b3

theorem AccessMoves.time {s t : State} (h : AccessMoves s t) : TimeMoves s t := by
  refine ⟨?_, h.bound, h.entry⟩
  obtain ⟨_, _, _, _, _, _, _, _, e⟩ := h.shape
  rw [e]
  exact ⟨_, _, _, _, _, _, _, _, s.main.counters, s.main.stamp, s.osc, rfl⟩

/-- The counters, the stamp and the oscillator set. -/
theorem TimeMoves.set (s : State) (c : Vector Counter 8) (x : BitVec 16) (o : Oscillator) :
    TimeMoves s { s with main.counters := c, main.stamp := x, osc := o } :=
  ⟨⟨s.ret.entries, s.main.access, s.main.holdTimer, s.main.prdy, s.main.pd, s.main.slots, s.main.queue, s.main.overrun,
    c, x, o, rfl⟩, id, fun _ => Or.inl rfl⟩

theorem TimeMoves.takeTick (s : State) : TimeMoves s s.takeTick := TimeMoves.set s _ s.main.stamp _

theorem TimeMoves.takeMillisecond (s : State) : TimeMoves s s.takeMillisecond := TimeMoves.set s s.main.counters _ _

theorem TimeMoves.takeDue (s : State) : TimeMoves s s.takeDue := by
  unfold State.takeDue
  split
  · dsimp only
    split
    · exact (TimeMoves.takeTick _).trans (TimeMoves.takeMillisecond _)
    · exact TimeMoves.takeTick _
  · dsimp only
    split
    · exact TimeMoves.takeMillisecond _
    · exact TimeMoves.refl _

theorem AccessMoves.holdMicrosecond (s : State) : AccessMoves s s.holdMicrosecond := by
  unfold State.holdMicrosecond
  split
  · split
    · split
      · split
        · exact (AccessMoves.voidAccess _ _ _).trans (AccessMoves.settle _)
        · exact AccessMoves.set s s.main.access _ s.main.prdy s.main.pd
      · exact AccessMoves.refl _
    · exact AccessMoves.refl _
  · exact AccessMoves.refl _

theorem TimeMoves.microsecond (s : State) : TimeMoves s s.microsecond :=
  (TimeMoves.takeDue s).trans
    ((TimeMoves.set _ s.takeDue.main.counters s.takeDue.main.stamp _).trans (AccessMoves.holdMicrosecond _).time)

theorem TimeMoves.untilTick (n : Nat) (s : State) : TimeMoves s (State.untilTick n s) := by
  induction n generalizing s with
  | zero => exact TimeMoves.refl _
  | succ n ih =>
    unfold State.untilTick
    split
    · exact TimeMoves.refl _
    · exact (TimeMoves.microsecond s).trans (ih _)

theorem TimeMoves.untilMillisecond (n : Nat) (s : State) : TimeMoves s (State.untilMillisecond n s) := by
  induction n generalizing s with
  | zero => exact TimeMoves.refl _
  | succ n ih =>
    unfold State.untilMillisecond
    split
    · exact TimeMoves.refl _
    · exact (TimeMoves.microsecond s).trans (ih _)

/-! ## The trains (R118) -/

theorem State.takeDue_micros (s : State) : s.takeDue.osc.micros = s.osc.micros := by
  unfold State.takeDue
  split <;> (dsimp only; split) <;> rfl

/-- A microsecond event moves the oscillator on by one. -/
theorem State.microsecond_osc (s : State) : s.microsecond.osc = s.osc.next := by
  have h := (AccessMoves.holdMicrosecond { s.takeDue with osc := s.takeDue.osc.next }).osc
  unfold State.microsecond
  rw [h]
  show s.takeDue.osc.next = s.osc.next
  unfold Oscillator.next
  rw [s.takeDue_micros]

/-- Enough microsecond events reach a tick. -/
theorem State.untilTick_due (n : Nat) (s : State) (h : s.osc.tickDue = true ∨ 100 - s.osc.micros % 100 ≤ n) :
    (State.untilTick n s).osc.tickDue = true := by
  induction n generalizing s with
  | zero =>
    rcases h with h | h
    · exact h
    · omega
  | succ n ih =>
    unfold State.untilTick
    split
    · assumption
    · rename_i hd
      refine ih _ ?_
      rw [s.microsecond_osc]
      rcases h with h | h
      · exact absurd h hd
      · by_cases hm : (s.osc.micros + 1) % 100 = 0
        · left
          have : (s.osc.micros + 1) % 1000 % 100 = 0 := by omega
          simp [Oscillator.next, this]
        · right
          show 100 - (s.osc.micros + 1) % 1000 % 100 ≤ n
          omega

/-- Enough microsecond events reach a millisecond event. -/
theorem State.untilMillisecond_due (n : Nat) (s : State)
    (h : s.osc.milliDue = true ∨ 1000 - s.osc.micros % 1000 ≤ n) :
    (State.untilMillisecond n s).osc.milliDue = true := by
  induction n generalizing s with
  | zero =>
    rcases h with h | h
    · exact h
    · omega
  | succ n ih =>
    unfold State.untilMillisecond
    split
    · assumption
    · rename_i hd
      refine ih _ ?_
      rw [s.microsecond_osc]
      rcases h with h | h
      · exact absurd h hd
      · by_cases hm : (s.osc.micros + 1) % 1000 = 0
        · left
          simp [Oscillator.next, hm]
        · right
          show 1000 - (s.osc.micros + 1) % 1000 % 1000 ≤ n
          omega

theorem State.untilTick_succ (n : Nat) (s : State) (h : s.osc.tickDue = false) :
    State.untilTick (n + 1) s = State.untilTick n s.microsecond := by
  conv => lhs; unfold State.untilTick
  rw [h]
  rfl

/-- More microsecond events than reach the tick change nothing. -/
theorem State.untilTick_more (n : Nat) (s : State) (h : (State.untilTick n s).osc.tickDue = true) :
    State.untilTick (n + 1) s = State.untilTick n s := by
  induction n generalizing s with
  | zero =>
    have h' : s.osc.tickDue = true := h
    unfold State.untilTick
    rw [if_pos h']
  | succ n ih =>
    unfold State.untilTick at h ⊢
    split
    · rfl
    · rename_i hd
      rw [if_neg hd] at h
      exact ih _ h

theorem State.untilMillisecond_succ (n : Nat) (s : State) (h : s.osc.milliDue = false) :
    State.untilMillisecond (n + 1) s = State.untilMillisecond n s.microsecond := by
  conv => lhs; unfold State.untilMillisecond
  rw [h]
  rfl

/-- More microsecond events than reach the millisecond event change nothing. -/
theorem State.untilMillisecond_more (n : Nat) (s : State) (h : (State.untilMillisecond n s).osc.milliDue = true) :
    State.untilMillisecond (n + 1) s = State.untilMillisecond n s := by
  induction n generalizing s with
  | zero =>
    have h' : s.osc.milliDue = true := h
    unfold State.untilMillisecond
    rw [if_pos h']
  | succ n ih =>
    unfold State.untilMillisecond at h ⊢
    split
    · rfl
    · rename_i hd
      rw [if_neg hd] at h
      exact ih _ h

/-- Where the tick has not yet fallen, a microsecond event brings it nearer. -/
theorem State.untilTick_step (s : State) (h : s.osc.tickDue = false) :
    State.untilTick 100 s = State.untilTick 100 s.microsecond := by
  have e : State.untilTick 100 s = State.untilTick 99 s.microsecond := State.untilTick_succ 99 s h
  rw [e]
  refine (State.untilTick_more 99 _ (State.untilTick_due 99 _ ?_)).symm
  rw [s.microsecond_osc]
  by_cases hm : (s.osc.micros + 1) % 100 = 0
  · left
    have : (s.osc.micros + 1) % 1000 % 100 = 0 := by omega
    simp [Oscillator.next, this]
  · right
    show 100 - (s.osc.micros + 1) % 1000 % 100 ≤ 99
    omega

/-- Where the millisecond event has not yet fallen, a microsecond event brings it nearer. -/
theorem State.untilMillisecond_step (s : State) (h : s.osc.milliDue = false) :
    State.untilMillisecond 1000 s = State.untilMillisecond 1000 s.microsecond := by
  have e : State.untilMillisecond 1000 s = State.untilMillisecond 999 s.microsecond := State.untilMillisecond_succ 999 s h
  rw [e]
  refine (State.untilMillisecond_more 999 _ (State.untilMillisecond_due 999 _ ?_)).symm
  rw [s.microsecond_osc]
  by_cases hm : (s.osc.micros + 1) % 1000 = 0
  · left
    simp [Oscillator.next, hm]
  · right
    show 1000 - (s.osc.micros + 1) % 1000 % 1000 ≤ 999
    omega

end Sys2Proof.Machine
end

