-- ==== Sys2Proof/Tests/Slice0.lean ====
section
/-! SUPPORT. Small checks of single commands, and for every statement with hypotheses a state that meets them. -/

namespace Sys2Proof.Tests

-- One proof at a time: hundreds of decided proofs at once take more threads than the check's memory limit allows.
set_option Elab.async false

open Sys2Proof Sys2Proof.Machine

/-! ## States to start from -/

/-- The state a command leaves. -/
def after (c : Instr) (s : State) : State :=
  match exec c s with
  | .next t => t
  | .fault _ => s
  | .refused _ => s

/-- A descriptor: 1024 words from 008000h, control word 3E0000h, receipt word 3E0001h, key 3C5Ah, quota 16, no deadline. -/
def desc0 : Descriptor :=
  { base := 0x0200, limit := 0x020F, controlWord := 0x3E0000, receiptWord := 0x3E0001, key := 0x3C5A, quota := 16,
    mode := .strict, policy := .rollback, deadlineMode := .absolute, deadline := 0 }

/-- ACTIVE, nothing enabled, no event queued. -/
def bare : State := { State.reset with main := MainWell.cold 0 }

/-- `s` with window `w` described by `d` and holding entry `e`. -/
def putWindow (s : State) (w : Win) (d : Descriptor) (e : Option Entry) : State :=
  State.setEntry { s with ret.descriptors := winSet s.ret.descriptors w d } w e

/-- W0 as `desc0`, IDLE. -/
def idle0 : State := putWindow bare 0 desc0 (some Entry.fresh)

/-- An OPEN entry with a seq and a count. -/
def openEntry (q : Byte) (n : Nat) : Entry := { Entry.fresh with state := .opened, seq := q, count := n }

/-- An entry in ROLLING_BACK. -/
def rollingEntry (q : Byte) (n : Nat) (c : RollbackCause) : Entry :=
  { Entry.fresh with state := .rollingBack, seq := q, count := n, cause := some c, restored := some 0 }

/-- W0 with an entry. -/
def withEntry (e : Entry) : State := idle0.setEntry 0 (some e)

/-- A record of W0 at position 0: word 008010h held 00000041h. -/
def record0 : Slot := { recordBody 0 1 0x8010 0x41 allLanes with valid := true }

/-- The journal that holds `record0` alone. -/
def journal0 : Journal := (Journal.cold.appendBody (recordBody 0 1 0x8010 0x41 allLanes)).appendMark

/-- An access as the processor presents it, at a place of the access path. -/
def access (addr : Addr) (wr : Bool) (data : Word) (cls : AccessClass) (w : Option Win) (cond : AccessCond) : Access :=
  { addr := addr, lanes := allLanes, wr := wr, data := data, cls := cls, window := w, cond := cond, withdrawn := false }

/-- `s` with access `a` waiting. -/
def waiting (s : State) (a : Access) : State := { s with main.access := some a }

/-- `s` with access `a` driving cycle `c`. -/
def driving (s : State) (a : Access) (c : Cycle) : State :=
  { s with main.access := some a, main.owner := .processor, main.cycle := some c, main.lastGrantProc := true }

/-- The write of word `x` to W0's control word. -/
def control (x : Word) : Access := access 0x3E0000 true x .controlWord (some 0) .atMemory

/-- `s` with the write of `x` to W0's control word in flight. -/
def marking (s : State) (x : Word) : State := driving s (control x) (control x).cycle

/-- `s` with a write transfer after its index byte, at index `i`, the argument `g` written before. -/
def transfer (s : State) (i g : Byte) : State := { s with main.xfer := .writing, main.index := i, main.arg := g }

/-- `s` with a read transfer at index `i`. -/
def readingFrom (s : State) (i : Byte) : State := { s with main.xfer := .reading none, main.index := i }

theorem journal0_lawful : journal0.Lawful := by
  have h := Journal.appendBody_lawful Journal.cold_lawful (x := recordBody 0 1 0x8010 0x41 allLanes) (by decide) rfl rfl
  exact Journal.appendMark_lawful h (by decide)

/-- `s` just after the microsecond event `n` of its millisecond, nothing due. -/
def atMicro (s : State) (n : Nat) : State := { s with osc := { micros := n, tickDue := false, milliDue := false } }

/-- `s` just after a microsecond event that is a tick and a millisecond event, both due. -/
def atDue (s : State) : State := { s with osc := { micros := 0, tickDue := true, milliDue := true } }

/-! ## Commands that have not the form of their row -/

theorem test_illformed_accessBegin : (Instr.accessBegin 0 0 false false 0).wellFormed = false := by decide
theorem test_illformed_unknownRequest : (Instr.unknownRequestCode 0x39#8).wellFormed = false := by decide
theorem test_wellformed_edges :
    (Instr.accessBegin 0 0 true false 0).wellFormed = true ∧ (Instr.unknownRequestCode 0x00#8).wellFormed = true
      ∧ (Instr.unknownRequestCode 0xFA#8).wellFormed = true := by decide

/-- An ill-formed command does nothing (log 3). -/
theorem test_illformed_does_nothing :
    exec (.unknownRequestCode 0x39#8) (transfer idle0 0xA0 0) = .next (transfer idle0 0xA0 0) := by rfl

/-! ## No word spells a command (log 27) -/

theorem test_no_words : decodeTableWord 32 0xFFFFFFFF = none ∧ bare.withFetchWord 32 5 = bare := by decide

/-! ## The laws of the layouts (file 11) -/

/-- The OPENED receipt of seq 04h for W2: 1, 0, 04h, window 2, count 0. -/
theorem test_receipt_layout :
    receiptWord .opened .noReason 0x04 false 2 0 = 0x10041000#32
      ∧ receiptWord .aborted .forced 0x0B false 2 4 = 0x3C0B1004#32
      ∧ detailReceipt .aborted .forced 0x0B 4 = 0x3C0B0004#32 := by decide

/-- A marker word is taken apart as R176 lays it out. -/
theorem test_examination :
    examineWord 0x3C5A allLanes 0x3C5A1021 = .marker .openM 0x21
      ∧ examineWord 0x3C5A allLanes 0x3C5A5021 = .marker .returnM 0x21
      ∧ examineWord 0x3C5A allLanes 0x3C5A1121 = .malformed ∧ examineWord 0x3C5A allLanes 0x3C5A0021 = .malformed
      ∧ examineWord 0x3C5A allLanes 0x3C5A6021 = .malformed ∧ examineWord 0x3C5A 0x7 0x3C5A1021 = .ordinary
      ∧ examineWord 0x3C5A allLanes 0x3C5B1021 = .ordinary := by decide

/-- The transaction view of section 12.6's example: W2 after a forced abort of seq 0Bh. -/
theorem test_transaction_view :
    (List.range 16).map
        (TxnView.byte
          { window := 2, counter := .absent,
            entry := some { Entry.fresh with seq := 0x0B, lastEnded := some { seq := 0x0B, kind := .forced } } })
      = [0x02, 0x01, 0x0B, 0x30, 0, 0, 0, 0, 0, 0, 0, 0, 0, 0x0B, 0, 0] := by decide

/-- The record view of section 12.7's example, but for its check code. -/
theorem test_record_view :
    (List.range 13).map
        (RecordView.byte
          { pos := 40, slot := { recordBody 1 6 0x010402 0x11223344 0x3 with valid := true } })
      = [0x00, 0x28, 0x31, 0x01, 0x00, 0x06, 0x01, 0x04, 0x02, 0x11, 0x22, 0x33, 0x44] := by decide

/-! ## The access path -/

/-- W0's table as the Window Table answers it, at the edges of its range. -/
theorem test_answers :
    idle0.answer 0x3E0000 = .control 0 ∧ idle0.answer 0x3E0001 = .receipt 0 ∧ idle0.answer 0x007FFF = .unguarded
      ∧ idle0.answer 0x008000 = .range 0 ∧ idle0.answer 0x0083FF = .range 0 ∧ idle0.answer 0x008400 = .unguarded := by
  decide

theorem idle0_only : ∀ w, (winGet idle0.ret.entries w).isSome = true → w = 0 := by decide

theorem test_meets_WindowTableAnswers : idle0.ret.WindowsLawful := by
  refine ⟨fun w h => ?_, fun v w hn hv hw => ?_⟩
  · obtain rfl := idle0_only w h
    refine ⟨by decide, by decide, by decide, by decide, ?_⟩
    rintro a (rfl | rfl) <;> decide
  · exact absurd ((idle0_only v hv).trans (idle0_only w hw).symm) hn

/-- A port that presents a write of 1 at word 6. -/
def presenting : ProcPort := { pcen := true, pwen := true, poen := false, pa := 6, pbe := allLanes, pd := 1 }

/-- A free port in every state of W0; an access in flight; FAILING; a port that presents an access. -/
theorem test_meets_AccessBeginClassifies :
    (∀ e, (withEntry e).FreePort) ∧ (true || false) = true ∧ (withEntry (rollingEntry 1 2 .abort)).txnState 0 = some .rollingBack
      ∧ (withEntry (rollingEntry 1 2 .abort)).answer 0x8000 = .range 0
      ∧ (withEntry (rollingEntry 1 2 .abort)).answer 0x3E0000 = .control 0 ∧ idle0.answer 0x3E0000 = .control 0
      ∧ idle0.port.presents = false ∧ (waiting bare (access 5 true 9 .passed none .waiting)).main.access ≠ none
      ∧ { bare with power := .failing : State }.takesAccesses = false
      ∧ { bare with port := presenting : State }.port.presents = true :=
  ⟨fun _ => ⟨rfl, rfl, rfl⟩, rfl, by decide, by decide, by decide, by decide, rfl, by decide, by decide, rfl⟩

/-- A write into an IDLE STRICT window is dropped with PRDY and a STRAY_WRITE event; a read passes. In ROLLING_BACK the
access is held; a write of the control word waits for its grant; a write with no lanes is complete at once. -/
theorem test_accessBegin :
    (after (.accessBegin 0x8000 allLanes true false 7) idle0).main.prdy = .asserted
      ∧ (after (.accessBegin 0x8000 allLanes true false 7) idle0).main.queue
        = [{ kind := .strayWrite, window := some 0, detail := 0x8000, stamp := 0 }]
      ∧ (after (.accessBegin 0x8000 allLanes false true 0) idle0).main.access
        = some (access 0x8000 false 0 .passed (some 0) .waiting)
      ∧ (after (.accessBegin 0x8000 allLanes false true 0) (withEntry (rollingEntry 1 2 .abort))).main.access
        = some (access 0x8000 false 0 .held (some 0) .held)
      ∧ (after (.accessBegin 0x8000 allLanes false true 0) (withEntry (rollingEntry 1 2 .abort))).main.prdy = .inactive
      ∧ (after (.accessBegin 0x3E0000 allLanes true false 1) idle0).main.access
        = some { control 1 with cond := .waiting }
      ∧ (after (.accessBegin 0x8000 0 true false 7) idle0).main.prdy = .asserted := by decide

/-- In FAILING and with an access in flight the lines alone move; while PCEN presents an access nothing does. -/
theorem test_accessBegin_not_taken :
    after (.accessBegin 6 allLanes true false 1) { bare with power := .failing } = { bare with power := .failing, port := presenting }
      ∧ after (.accessBegin 6 allLanes true false 1) (waiting bare (access 5 true 9 .passed none .waiting))
        = { waiting bare (access 5 true 9 .passed none .waiting) with port := presenting }
      ∧ after (.accessBegin 7 allLanes true false 1) { bare with port := presenting } = { bare with port := presenting } := by
  decide +kernel

/-- The access waits, is complete, or is absent as PCEN is withdrawn. -/
theorem test_accessWithdraw :
    (after .accessWithdraw (waiting bare (access 5 true 9 .passed none .waiting))).main.access
        = some { access 5 true 9 .passed none .waiting with withdrawn := true }
      ∧ (after .accessWithdraw (waiting bare (access 5 true 9 .passed none .complete))).main.access = none
      ∧ (after .accessWithdraw bare).main.access = none := by decide

/-- A withdrawn passed write, its cycle being driven, with and without a new access at the port. -/
def withdrawnWrite (presents : Bool) : State :=
  let a := { access 5 true 9 .passed none .atMemory with withdrawn := true }
  { driving bare a a.cycle with
    port := { pcen := presents, pwen := true, poen := false, pa := 6, pbe := allLanes, pd := 1 } }

theorem test_meets_WithdrawnAccessKeepsItsOutcome :
    (withdrawnWrite true).takesAccesses = true ∧ (withdrawnWrite true).port.presents = true
      ∧ (withdrawnWrite false).port.presents = false
      ∧ (after .passedCycleComplete (withdrawnWrite true)).main.access = some (access 6 true 1 .passed none .waiting)
      ∧ (after .passedCycleComplete (withdrawnWrite false)).main.prdy = .pulsed
      ∧ (after .passedCycleComplete (withdrawnWrite false)).main.access = none := by decide

/-- A new access begun and withdrawn again while the old one is in flight is not taken, and the old one has its PRDY
(log 37). -/
theorem test_new_access_withdrawn_again :
    (let a := { access 5 true 9 .passed none .atMemory with withdrawn := true }
     let s := after .accessWithdraw (after (.accessBegin 6 allLanes true false 1) (driving bare a a.cycle))
     s.port.presents = false ∧ s.main.access = some a ∧ (after .passedCycleComplete s).main.prdy = .pulsed
      ∧ (after .passedCycleComplete s).main.access = none) := by decide +kernel

/-- A withdrawn access of W0, waiting for a grant. -/
theorem test_withdrawn_waits :
    (after .passedAccessGrant (waiting bare { access 5 true 9 .passed none .waiting with withdrawn := true })).main.access
      = some { access 5 true 9 .passed none .atMemory with withdrawn := true } := by decide

theorem test_meets_ProcessorGrantsDriveTheirCycle :
    (waiting bare (access 5 true 9 .passed none .waiting)).ProcGrant (access 5 true 9 .passed none .waiting) .passed
      ∧ (waiting (withEntry (openEntry 1 15)) (access 0x8000 true 9 .journaled (some 0) .waiting)).ProcGrant
          (access 0x8000 true 9 .journaled (some 0) .waiting) .journaled
      ∧ (withEntry (openEntry 1 15)).entry 0 = some (openEntry 1 15) ∧ 15 < ((withEntry (openEntry 1 15)).desc 0).quota.toNat
      ∧ (withEntry (openEntry 1 15)).ret.journal.occ ≠ 1024 := by
  refine ⟨⟨by decide, rfl, rfl, rfl, rfl, Or.inl rfl⟩, ⟨by decide, rfl, rfl, rfl, rfl, Or.inl rfl⟩, by decide, by decide,
    by decide⟩

/-- A passed write's grant drives its own cycle; a journaled write's reads the whole old word. -/
theorem test_grants :
    (after .passedAccessGrant (waiting bare (access 5 true 9 .passed none .waiting))).main.cycle
        = some { addr := 5, lanes := allLanes, wr := true, data := 9 }
      ∧ (after .journaledWriteGrant (waiting (withEntry (openEntry 1 15)) { access 0x8000 true 9 .journaled (some 0) .waiting with lanes := 1 })).main.cycle
        = some { addr := 0x8000, lanes := allLanes, wr := false, data := 0 } := by decide

theorem test_meets_PassedCycleCompletes :
    (driving bare (access 5 true 9 .passed none .atMemory) (access 5 true 9 .passed none .atMemory).cycle).AtMemory
        (access 5 true 9 .passed none .atMemory) .passed
      ∧ (driving bare (access 5 false 0 .passed none .atMemory) (access 5 false 0 .passed none .atMemory).cycle).AtMemory
        (access 5 false 0 .passed none .atMemory) .passed
      ∧ Memory.wf bare.sram = true := by
  exact ⟨⟨by decide, rfl, rfl, rfl, rfl⟩, ⟨by decide, rfl, rfl, rfl, rfl⟩, rfl⟩

/-- A passed write lands; a passed read drives what stands there. -/
theorem test_passedCycleComplete :
    Memory.readWord (after .passedCycleComplete (driving bare (access 5 true 0x11223344 .passed none .atMemory)
        (access 5 true 0x11223344 .passed none .atMemory).cycle)).sram 5 = 0x11223344
      ∧ (after .passedCycleComplete (driving { bare with sram := Memory.write [] 5 allLanes 0x55 }
        (access 5 false 0 .passed none .atMemory) (access 5 false 0 .passed none .atMemory).cycle)).main.pd = some 0x55 := by
  decide

/-- W0 OPEN at its quota, and W0 OPEN below it with a full journal. -/
def atQuota : State := waiting (withEntry (openEntry 1 16)) (access 0x8000 true 9 .journaled (some 0) .waiting)
def atFull : State :=
  { waiting (withEntry (openEntry 1 15)) (access 0x8000 true 9 .journaled (some 0) .waiting) with
    ret.journal.occ := 1024 }

theorem test_meets_BreakDropsTheWrite :
    atQuota.ProcGrant (access 0x8000 true 9 .journaled (some 0) .waiting) .journaled
      ∧ atQuota.entry 0 = some (openEntry 1 16) ∧ (openEntry 1 16).count = (atQuota.desc 0).quota.toNat
      ∧ atFull.ProcGrant (access 0x8000 true 9 .journaled (some 0) .waiting) .journaled
      ∧ atFull.entry 0 = some (openEntry 1 15) ∧ (openEntry 1 15).count < (atFull.desc 0).quota.toNat
      ∧ atFull.ret.journal.occ = 1024 := by
  exact ⟨⟨by decide, rfl, rfl, rfl, rfl, Or.inl rfl⟩, by decide, by decide, ⟨by decide, rfl, rfl, rfl, rfl, Or.inl rfl⟩,
    by decide, by decide, rfl⟩

theorem test_break :
    (after .journaledWriteGrant atQuota).slot 0 = .pending 0xAA010010#32 0x3E0001
      ∧ (after .journaledWriteGrant atFull).slot 0 = .pending 0xA901000F#32 0x3E0001 := by decide

theorem test_meets_RefusedAppendIsClassifiedAgain :
    (waiting idle0 (access 0x8000 true 9 .journaled (some 0) .waiting)).ProcGrant
        (access 0x8000 true 9 .journaled (some 0) .waiting) .journaled
      ∧ idle0.txnState 0 ≠ some .opened ∧ idle0.enabled 0 = true
      ∧ (waiting bare (access 0x8000 true 9 .journaled (some 0) .waiting)).ProcGrant
        (access 0x8000 true 9 .journaled (some 0) .waiting) .journaled
      ∧ bare.txnState 0 ≠ some .opened ∧ bare.enabled 0 = false := by
  exact ⟨⟨by decide, rfl, rfl, rfl, rfl, Or.inl rfl⟩, by decide, by decide, ⟨by decide, rfl, rfl, rfl, rfl, Or.inl rfl⟩,
    by decide, by decide⟩

/-- W0 is IDLE and STRICT: the write is dropped by its own window's state, though a lower LOOSE one now owns the granule;
with W0 disabled it passes (log 33). -/
theorem test_refusedAppend :
    (let s := waiting
        (putWindow (putWindow bare 1 desc0 (some Entry.fresh)) 0
          { desc0 with mode := .loose, controlWord := 0x3E0002, receiptWord := 0x3E0003 } (some Entry.fresh))
        (access 0x8000 true 9 .journaled (some 1) .waiting)
     s.answer 0x8000 = .range 0
      ∧ (after .journaledWriteGrant s).main.queue
        = [{ kind := .strayWrite, window := some 1, detail := 0x8000, stamp := 0 }])
      ∧ (after .journaledWriteGrant (waiting bare (access 0x8000 true 9 .journaled (some 0) .waiting))).main.access
        = some (access 0x8000 true 9 .passed none .waiting) := by decide

/-- W0 OPEN with no record, its journaled write reading the old word. -/
def readingOld : State :=
  driving (withEntry (openEntry 1 0)) (access 0x8010 true 9 .journaled (some 0) .atMemory)
    (access 0x8010 true 9 .journaled (some 0) .atMemory).oldReadCycle

theorem test_meets_OldWordReadAppendsTheRecord :
    readingOld.AtMemory (access 0x8010 true 9 .journaled (some 0) .atMemory) .journaled
      ∧ readingOld.entry 0 = some (openEntry 1 0) ∧ readingOld.ret.journal.Lawful ∧ readingOld.ret.journal.occ < 1024 := by
  exact ⟨⟨by decide, rfl, rfl, rfl, rfl⟩, by decide, Journal.cold_lawful, by
    have h : readingOld.ret.journal.occ = 0 := rfl
    omega⟩

/-- The check code of `record0`, by its bits, and a record whose ordinal and address use all their bits. -/
theorem test_checkCode :
    checkCode 0 1 0x8010 0x41
        = (List.range 80).foldl
            (fun (r : Byte) i =>
              (r <<< 1) ^^^ (if (r.msb ^^ (0x00000100801000000041#80).getLsbD (79 - i)) = true then 0x07#8 else 0x00#8)) 0xFF#8
      ∧ checkCode 7 1024 0x3FFFFF 0x89ABCDEF
        = (List.range 80).foldl
            (fun (r : Byte) i =>
              (r <<< 1) ^^^ (if (r.msb ^^ (0x0704003FFFFF89ABCDEF#80).getLsbD (79 - i)) = true then 0x07#8 else 0x00#8)) 0xFF#8
      ∧ record0.checks = true := by decide +kernel

/-- The record is LIVE at position 0 with the old word, and the write of the new data is driven. -/
theorem test_oldWordReadComplete :
    ((after .oldWordReadComplete { readingOld with sram := Memory.write [] 0x8010 allLanes 0x41 }).ret.journal.slot 0) = record0
      ∧ (after .oldWordReadComplete readingOld).main.cycle
        = some { addr := 0x8010, lanes := allLanes, wr := true, data := 9 } := by decide +kernel

/-- W0 OPEN with one record, the new data being written, and the command that ends the write waiting. -/
def writingNew : State :=
  driving
    { withEntry (openEntry 1 1) with
      ret.journal := journal0, sram := Memory.write [] 0x8010 allLanes 0x41, pending := [.newDataWriteComplete] }
    (access 0x8010 true 9 .journaled (some 0) .atMemory) (access 0x8010 true 9 .journaled (some 0) .atMemory).cycle

theorem test_meets_NewDataWriteLands :
    writingNew.AtMemory (access 0x8010 true 9 .journaled (some 0) .atMemory) .journaled
      ∧ Memory.wf writingNew.sram = true := by
  exact ⟨⟨by decide, rfl, rfl, rfl, rfl⟩, by decide⟩

theorem test_newDataWriteComplete :
    Memory.readWord (after .newDataWriteComplete writingNew).sram 0x8010 = 9
      ∧ (after .newDataWriteComplete writingNew).main.prdy = .asserted := by decide

theorem test_meets_ControlWordGrantTestsTheState :
    (waiting idle0 { control 1 with cond := .waiting }).ProcGrant { control 1 with cond := .waiting } .controlWord
      ∧ idle0.txnState 0 ≠ some .rollingBack
      ∧ (waiting (withEntry (rollingEntry 1 2 .abort)) { control 1 with cond := .waiting }).ProcGrant
          { control 1 with cond := .waiting } .controlWord
      ∧ (withEntry (rollingEntry 1 2 .abort)).txnState 0 = some .rollingBack := by
  exact ⟨⟨by decide, rfl, rfl, rfl, rfl, Or.inl rfl⟩, by decide, ⟨by decide, rfl, rfl, rfl, rfl, Or.inl rfl⟩, by decide⟩

/-- In ROLLING_BACK the write is held; outside it drives its cycle. -/
theorem test_controlWordWriteGrant :
    (after .controlWordWriteGrant (waiting (withEntry (rollingEntry 1 2 .abort)) { control 1 with cond := .waiting })).main.holdTimer
        = some 0
      ∧ (after .controlWordWriteGrant (waiting idle0 { control 1 with cond := .waiting })).main.cycle = some (control 1).cycle := by
  decide

/-- W0 rolling back with a read held for it, its timer at `n`, under a hold limit of 32. -/
def holding (n : Nat) : State :=
  { withEntry (rollingEntry 1 2 .abort) with
    main.access := some (access 0x8000 false 0 .held (some 0) .held), main.holdTimer := some n }

theorem test_meets_HoldTimerVoidsAtTheLimit :
    (holding 30).main.access = some (access 0x8000 false 0 .held (some 0) .held) ∧ (holding 30).main.holdTimer = some 30
      ∧ 30 + 1 < (holding 30).ret.holdLimit.toNat ∧ (holding 31).ret.holdLimit.toNat ≤ 31 + 1
      ∧ (holding 31).mainRuns = true ∧ (holding 31).clockRuns = true ∧ (holding 31).osc.tickDue = false ∧ (holding 31).osc.milliDue = false := by decide

/-- The thirty-second microsecond voids the access; the thirty-first does not. -/
theorem test_hold_limit :
    (after .microsecondEvent (holding 30)).main.holdTimer = some 31
      ∧ (after .microsecondEvent (holding 31)).main.prdy = .asserted
      ∧ after .holdLimitRunOut (holding 31) = after .microsecondEvent (holding 31)
      ∧ after .holdLimitRunOut (holding 30) = holding 30 := by decide

/-- A hold runs out on the thousandth microsecond event: VOID_ACCESS carries the stamp from before it (log 19). -/
theorem test_void_before_the_stamp :
    (let t := after .microsecondEvent (atMicro (holding 31) 999)
     t.osc.milliDue = true ∧ t.main.queue.map (fun r => (r.kind, r.stamp)) = [(.voidAccess, 0#16)]
      ∧ (after .millisecondEvent t).main.stamp = 1) := by decide +kernel

theorem test_meets_OneClaimIsGranted : idle0.portFree = true := by decide

/-! ## Markers -/

/-- W0 with entry `e`, a well-formed marker of kind `k` and seq `q` in flight for it. -/
def inFlight (e : Entry) (k : MarkerKind) (q : Byte) : State := marking (withEntry e) (markerWord 0x3C5A k.code q)

/-- W0 with entry `e`, a well-formed marker for it whose word has landed, the marker yet to be taken (R97). -/
def underExamination (e : Entry) (k : MarkerKind) (q : Byte) : State :=
  { withEntry e with main.access := some (control (markerWord 0x3C5A k.code q)), main.examining := true }

/-- The premise of the marker statements holds for every entry, kind and seq, before the word lands and after. -/
theorem underExamination_meets (e : Entry) (k : MarkerKind) (q : Byte) :
    (underExamination e k q).MarkerInFlight (control (markerWord 0x3C5A k.code q)) 0 e k q where
  write := ⟨by rfl, rfl, Or.inr ⟨rfl, fun h => by cases h⟩, rfl, rfl, rfl, rfl⟩
  lanes := rfl
  word := rfl
  entry := State.setEntry_entry_self idle0 0 (some e)
  memory := rfl
  follows := Or.inl rfl

/-- The same while the cycle is being driven. -/
theorem inFlight_meets (e : Entry) (k : MarkerKind) (q : Byte) :
    (inFlight e k q).MarkerInFlight (control (markerWord 0x3C5A k.code q)) 0 e k q where
  write := ⟨by rfl, rfl, Or.inl ⟨rfl, rfl, rfl⟩, rfl, rfl, rfl, rfl⟩
  lanes := rfl
  word := rfl
  entry := State.setEntry_entry_self idle0 0 (some e)
  memory := rfl
  follows := Or.inl rfl

/-- An OPEN entry with a savepoint. -/
def savedEntry (q : Byte) (n p : Nat) : Entry := { openEntry q n with savepoint := some p }

/-- A BROKEN entry. -/
def brokenEntry (q : Byte) (n : Nat) : Entry :=
  { Entry.fresh with state := .broken, seq := q, count := n, breakReason := some .quota }

/-- A DAMAGED entry. -/
def damagedEntry (q : Byte) (n : Nat) : Entry :=
  { Entry.fresh with state := .damaged, seq := q, count := n, damagePos := some 0 }

theorem test_meets_OpenMarkerOpensAnIdleWindow :
    (inFlight Entry.fresh .openM 0x21).MarkerInFlight (control (markerWord 0x3C5A 1 0x21)) 0 Entry.fresh .openM 0x21
      ∧ (underExamination Entry.fresh .openM 0x21).MarkerInFlight (control (markerWord 0x3C5A 1 0x21)) 0 Entry.fresh .openM 0x21
      ∧ Entry.fresh.state = .idle := ⟨inFlight_meets _ _ _, underExamination_meets _ _ _, rfl⟩

theorem test_openMarker :
    (after .openMarker (inFlight Entry.fresh .openM 0x21)).entry 0 = some (openEntry 0x21 0)
      ∧ (after .openMarker (inFlight Entry.fresh .openM 0x21)).slot 0 = .pending 0x10210000#32 0x3E0001
      ∧ Memory.readWord (after .openMarker (inFlight Entry.fresh .openM 0x21)).sram 0x3E0000 = 0x3C5A1021 := by
  decide +kernel

/-- Every reason of R7 to R10 and R14 is given by some entry. -/
theorem test_meets_RefusedMarkerLeavesTheEntry :
    (∀ e k q, (inFlight e k q).MarkerInFlight (control (markerWord 0x3C5A k.code q)) 0 e k q)
      ∧ refusalReason .commitM Entry.fresh 5 = some .notOpen
      ∧ refusalReason .saveM { Entry.fresh with lastEnded := some { seq := 5, kind := .expired } } 5 = some .late
      ∧ refusalReason .openM (openEntry 5 0) 5 = some .alreadyOpen
      ∧ refusalReason .abortM (openEntry 5 0) 6 = some .seqMismatch
      ∧ refusalReason .commitM (brokenEntry 5 0) 5 = some .isBroken
      ∧ refusalReason .returnM (openEntry 5 0) 5 = some .noSavepoint
      ∧ refusalReason .openM (damagedEntry 5 1) 5 = some .damagedWindow := by
  refine ⟨inFlight_meets, ?_⟩
  decide

theorem test_refused :
    (after .commitMarker (inFlight (openEntry 5 3) .commitM 6)).slot 0 = .pending 0x73060003#32 0x3E0001
      ∧ (after .commitMarker (inFlight (openEntry 5 3) .commitM 6)).main.queue
        = [{ kind := .markerRefused, window := some 0, detail := 0x73060000#32, stamp := 0 }] := by decide +kernel

theorem test_meets_CommitPointRetiresTheRecords :
    (inFlight (openEntry 5 0) .commitM 5).MarkerInFlight (control (markerWord 0x3C5A 2 5)) 0 (openEntry 5 0) .commitM 5
      ∧ (openEntry 5 0).state = .opened ∧ (openEntry 5 0).seq = 5
      ∧ (inFlight (openEntry 5 0) .commitM 5).ret.journal.Lawful :=
  ⟨inFlight_meets _ _ _, rfl, rfl, Journal.cold_lawful⟩

/-- A commit voids the record and reclaims its slot. -/
theorem test_commitMarker :
    (after .commitMarker { inFlight (openEntry 5 1) .commitM 5 with ret.journal := journal0,
                                                                    ret.entries := winSet idle0.ret.entries 0 (some (openEntry 5 1)) }).ret.journal.occ = 0
      ∧ (after .commitMarker (inFlight (openEntry 5 1) .commitM 5)).slot 0 = .pending 0x20050001#32 0x3E0001 := by
  decide +kernel

theorem test_meets_AbortMarkerEndsOrRollsBack :
    (inFlight (openEntry 5 0) .abortM 5).MarkerInFlight (control (markerWord 0x3C5A 3 5)) 0 (openEntry 5 0) .abortM 5
      ∧ (inFlight (brokenEntry 5 1) .abortM 5).MarkerInFlight (control (markerWord 0x3C5A 3 5)) 0 (brokenEntry 5 1) .abortM 5
      ∧ (openEntry 5 0).state = .opened ∧ (brokenEntry 5 1).state = .broken ∧ (openEntry 5 0).count = 0
      ∧ (brokenEntry 5 1).count ≠ 0 :=
  ⟨inFlight_meets _ _ _, inFlight_meets _ _ _, rfl, rfl, rfl, by decide⟩

theorem test_abortMarker :
    (after .abortMarker (inFlight (openEntry 5 0) .abortM 5)).txnState 0 = some .idle
      ∧ (after .abortMarker (inFlight (openEntry 5 1) .abortM 5)).entry 0 = some (rollingEntry 5 1 .abort)
      ∧ (after .abortMarker (inFlight (openEntry 5 1) .abortM 5)).isPending 0 = true := by decide +kernel

theorem test_meets_SaveMarkerNotesTheCount :
    (inFlight (openEntry 5 2) .saveM 5).MarkerInFlight (control (markerWord 0x3C5A 4 5)) 0 (openEntry 5 2) .saveM 5
      ∧ (openEntry 5 2).state = .opened ∧ (openEntry 5 2).seq = 5 := ⟨inFlight_meets _ _ _, rfl, rfl⟩

theorem test_saveMarker :
    (after .saveMarker (inFlight (openEntry 5 2) .saveM 5)).entry 0 = some (savedEntry 5 2 2) := by decide +kernel

theorem test_meets_ReturnMarkerGoesToTheSavepoint :
    (inFlight (savedEntry 5 2 2) .returnM 5).MarkerInFlight (control (markerWord 0x3C5A 5 5)) 0 (savedEntry 5 2 2) .returnM 5
      ∧ (inFlight (savedEntry 5 3 2) .returnM 5).MarkerInFlight (control (markerWord 0x3C5A 5 5)) 0 (savedEntry 5 3 2) .returnM 5
      ∧ (savedEntry 5 2 2).state = .opened ∧ (savedEntry 5 2 2).count = 2 ∧ (savedEntry 5 3 2).count ≠ 2
      ∧ (savedEntry 5 3 2).savepoint = some 2 :=
  ⟨inFlight_meets _ _ _, inFlight_meets _ _ _, rfl, rfl, by decide, rfl⟩

theorem test_returnMarker :
    (after .returnMarker (inFlight (savedEntry 5 2 2) .returnM 5)).slot 0 = .pending 0x60050000#32 0x3E0001
      ∧ (after .returnMarker (inFlight (savedEntry 5 3 2) .returnM 5)).entry 0
        = some { rollingEntry 5 3 .returned with savepoint := some 2 } := by decide +kernel

/-- The premises common to the statements on words that are no well-formed marker. -/
theorem marking_meets (x : Word) : (marking idle0 x).ControlWrite (control x) 0 := ⟨by rfl, rfl, Or.inl ⟨rfl, rfl, rfl⟩, rfl, rfl, rfl, rfl⟩

theorem test_meets_MalformedIsRefusedAndOrdinaryOnlyLands :
    (∀ x, (marking idle0 x).ControlWrite (control x) 0) ∧ idle0.entry 0 = some Entry.fresh ∧ Memory.wf idle0.sram = true
      ∧ (0x3C5A1121#32).extractLsb' 8 4 ≠ 0#4 ∧ (0x3C5A0021#32).extractLsb' 12 4 = 0#4
      ∧ 6 ≤ ((0x3C5A6021#32).extractLsb' 12 4).toNat ∧ 6 ≤ ((0x3C5AF021#32).extractLsb' 12 4).toNat
      ∧ (0x3C5AF021#32).extractLsb' 16 16 = (idle0.desc 0).key := by
  refine ⟨marking_meets, ?_⟩
  decide

theorem test_malformedMarker :
    (after .malformedMarker (marking idle0 0x3C5A0021)).slot 0 = .pending 0x74210000#32 0x3E0001 := by decide +kernel

theorem test_meets_MalformedIsRefusedAndOrdinaryOnlyLands_ordinary :
    (∀ x, (marking idle0 x).ControlWrite (control x) 0) ∧ (0x3C5B1021#32).extractLsb' 16 16 ≠ (idle0.desc 0).key
      ∧ (marking bare 5).ControlWrite (control 5) 0 ∧ bare.entry 0 = none
      ∧ (driving idle0 { control 0x3C5A1021 with lanes := 0x7 } { control 0x3C5A1021 with lanes := 0x7 : Access }.cycle).ControlWrite
          { control 0x3C5A1021 with lanes := 0x7 } 0
      ∧ { control 0x3C5A1021 with lanes := 0x7 : Access }.lanes ≠ allLanes := by
  refine ⟨marking_meets, by decide, ⟨by rfl, rfl, Or.inl ⟨rfl, rfl, rfl⟩, rfl, rfl, rfl, rfl⟩, by decide,
    ⟨by rfl, rfl, Or.inl ⟨rfl, rfl, rfl⟩, rfl, rfl, rfl, rfl⟩, by decide⟩

theorem test_controlWordOrdinaryWrite :
    Memory.readWord (after .controlWordOrdinaryWrite (marking idle0 0x3C5B1021)).sram 0x3E0000 = 0x3C5B1021
      ∧ (after .controlWordOrdinaryWrite (marking idle0 0x3C5B1021)).ret = idle0.ret := by decide +kernel

/-! ## Receipts -/

/-- W0's slot EMPTY, PENDING and WRITING. -/
theorem test_meets_ReceiptHandOnAndWord :
    idle0.mainRuns = true ∧ idle0.slot 0 = .empty ∧ (idle0.setSlot 0 .writing).slot 0 = .writing
      ∧ (idle0.setSlot 0 (.pending 0x10210000 7)).slot 0 = .pending 0x10210000 7
      ∧ { idle0 with power := .failing : State }.power = .failing := by decide

/-- A waiting receipt is superseded, and the event carries its outcome code. -/
theorem test_superseding :
    ((idle0.setSlot 0 (.pending 0x10210000 7)).handOn 0 .committed .noReason 0x21 3).slot 0 = .pending 0x20218003 0x3E0001
      ∧ ((idle0.setSlot 0 (.pending 0x10210000 7)).handOn 0 .committed .noReason 0x21 3).main.queue
        = [{ kind := .receiptSuperseded, window := some 0, detail := 0x10000000, stamp := 0 }] := by decide

/-- Receipts wait for W1 and W3; the write of W1's is then driven. -/
def receipts : State := (bare.setSlot 3 (.pending 0x30 8)).setSlot 1 (.pending 0x10 7)
def receiptDriven : State :=
  { bare.setSlot 1 .writing with
    main.owner := .receiptWriter, main.cycle := some { addr := 7, lanes := allLanes, wr := true, data := 0x10 } }

theorem test_meets_ReceiptsAreWrittenLowestSlotFirst :
    receipts.mainRuns = true ∧ receipts.main.owner = .nobody ∧ receipts.procClaim = false
      ∧ receipts.slot 1 = .pending 0x10 7 ∧ (∀ v, v < (1 : Win) → (receipts.slot v).isPending = false)
      ∧ receiptDriven.main.owner = .receiptWriter
      ∧ receiptDriven.main.cycle = some { addr := 7, lanes := allLanes, wr := true, data := 0x10 }
      ∧ Memory.wf receiptDriven.sram = true := by decide

/-- W1 rolling back with the restore claim of its walk waiting, or W3's receipt, while an OPEN marker's write is driven
for W0 (R97). -/
def besideWalk : State :=
  { putWindow (marking idle0 0x3C5A1021) 1 desc0 (some (rollingEntry 5 1 .abort)) with
    ret.journal := (Journal.cold.appendBody (recordBody 1 1 0x8010 0x41 allLanes)).appendMark
    main.walk := some { window := 1, target := 0, cursor := 0, claim := .waiting, lastPos := some 0, lastAtTail := true } }
def besideReceipt : State := (marking idle0 0x3C5A1021).setSlot 3 (.pending 0x30 8)

theorem test_meets_grants_within_a_control_word_write :
    besideWalk.ControlWrite (control 0x3C5A1021) 0 ∧ besideWalk.main.examining = false ∧ Memory.wf besideWalk.sram = true
      ∧ besideWalk.restoreClaim = true ∧ besideWalk.receiptClaim = false
      ∧ besideReceipt.ControlWrite (control 0x3C5A1021) 0 ∧ besideReceipt.main.examining = false
      ∧ Memory.wf besideReceipt.sram = true ∧ besideReceipt.receiptClaim = true
      ∧ (marking idle0 0x3C5A1021).receiptClaim = false ∧ (marking idle0 0x3C5A1021).restoreClaim = false :=
  ⟨⟨by rfl, rfl, Or.inl ⟨rfl, rfl, rfl⟩, rfl, rfl, rfl, rfl⟩, rfl, rfl, by decide +kernel, by decide +kernel,
    ⟨by rfl, rfl, Or.inl ⟨rfl, rfl, rfl⟩, rfl, rfl, rfl, rfl⟩, rfl, rfl, by decide +kernel, by decide +kernel,
    by decide +kernel⟩

/-- The marker's word has landed as the restore write begins and the receipt slot is still EMPTY; the marker is taken
afterwards, and PRDY given. -/
theorem test_grant_before_the_marker_is_taken :
    (let t := after .restoreWriteGrant besideWalk
     t.main.owner = .rollbackEngine ∧ Memory.readWord t.sram 0x3E0000 = 0x3C5A1021 ∧ t.slot 0 = .empty
      ∧ t.main.prdy = .inactive ∧ (after .openMarker t).slot 0 = .pending 0x10210000#32 0x3E0001
      ∧ (after .openMarker t).main.prdy = .asserted ∧ (after .openMarker t).main.owner = .rollbackEngine
      ∧ (after .openMarker (after .restoreWriteComplete t)).txnState 0 = some .opened
      ∧ (after .receiptWriteGrant besideReceipt).main.owner = .receiptWriter
      ∧ (after .openMarker (after .receiptWriteGrant besideReceipt)).txnState 0 = some .opened) := by decide +kernel

theorem test_receiptWrite :
    (after .receiptWriteGrant receipts).slot 1 = .writing
      ∧ (after .receiptWriteGrant receipts).main.cycle = receiptDriven.main.cycle
      ∧ (after .receiptWriteComplete receiptDriven).slot 1 = .empty
      ∧ Memory.readWord (after .receiptWriteComplete receiptDriven).sram 7 = 0x10 := by decide +kernel

/-! ## The Rollback Engine -/

/-- A journal with the one record `x`, marked. -/
def single (x : Slot) : Journal := (Journal.cold.appendBody x).appendMark

theorem single_body {x : Slot} (hv : x.valid = false) (hw : x.voided = false) : (Journal.cold.appendBody x).Lawful :=
  Journal.appendBody_lawful Journal.cold_lawful (Nat.zero_lt_succ _) hv hw

theorem single_lawful {x : Slot} (hv : x.valid = false) (hw : x.voided = false) : (single x).Lawful :=
  Journal.appendMark_lawful (single_body hv hw) (Nat.zero_lt_succ _)

theorem single_slot {x : Slot} (hv : x.valid = false) (hw : x.voided = false) (q : Nat) :
    (single x).slot q = if q = 0 then { x with valid := true } else Slot.clear := by
  have h := Journal.appendMark_slot (single_body hv hw) q
  have g := Journal.appendBody_slot Journal.cold_lawful x
  have e : (Journal.cold.appendBody x).head = 0 := rfl
  have e' : Journal.cold.head = 0 := rfl
  rw [e, g, g, e', if_pos rfl] at h
  rw [single, h]
  split
  · rfl
  · rfl

/-- Position 0 holds the newest LIVE record of the one window such a journal has. -/
theorem single_newest {x : Slot} (hv : x.valid = false) (hw : x.voided = false) : (single x).Newest x.window 0 := by
  refine ⟨by rw [single_slot hv hw, if_pos rfl]; simp [Slot.liveOf, Slot.live, hw], fun q hq => ?_⟩
  rw [single_slot hv hw] at hq
  split at hq
  · rename_i h
    rw [h]
  · simp [Slot.liveOf, Slot.live, Slot.clear] at hq

/-- The bodies of records: of W0, of W0 with a wrong check code, and of W1. -/
def body0 : Slot := recordBody 0 1 0x8010 0x41 allLanes
def bodyBad : Slot := { body0 with check := body0.check ^^^ 1#8 }
def bodyOther : Slot := recordBody 1 1 0x8010 0x41 allLanes

/-- W0 in the pending set with entry `e` and the one record `x`. -/
def pendingWith (e : Entry) (x : Slot) : State := State.setPending { withEntry e with ret.journal := single x } 0 true

theorem pendingWith_entry (e : Entry) (x : Slot) : (pendingWith e x).entry 0 = some e :=
  State.setEntry_entry_self idle0 0 (some e)

theorem test_meets_SelectionExaminesOrCompletes :
    (∀ e x, (pendingWith e x).mainRuns = true ∧ (pendingWith e x).engine = .idle ∧ (pendingWith e x).isPending 0 = true
        ∧ (∀ v, v < (0 : Win) → (pendingWith e x).isPending v = false) ∧ (pendingWith e x).entry 0 = some e
        ∧ (pendingWith e x).noHeld 0)
      ∧ (rollingEntry 5 1 .abort).count ≠ (rollingEntry 5 1 .abort).target
      ∧ (single body0).Lawful ∧ (single body0).Newest 0 0 ∧ ((single body0).slot 0).checks = true
      ∧ (single bodyBad).Lawful ∧ (single bodyBad).Newest 0 0 ∧ ((single bodyBad).slot 0).checks = false
      ∧ (single bodyOther).Lawful ∧ (∀ p, ((single bodyOther).slot p).liveOf 0 = false) ∧ (single bodyOther).occ ≠ 0
      ∧ (rollingEntry 5 0 .recovery).cause = some .recovery
      ∧ (rollingEntry 5 0 .recovery).count = (rollingEntry 5 0 .recovery).target := by
  refine ⟨fun e x => ⟨rfl, rfl, rfl, fun v hv => absurd hv (Fin.not_lt_zero v), pendingWith_entry e x, ?_⟩, by decide,
    single_lawful rfl rfl, single_newest rfl rfl, by decide +kernel, single_lawful rfl rfl, single_newest rfl rfl,
    by decide +kernel, single_lawful rfl rfl, fun p => ?_, by decide +kernel, rfl, rfl⟩
  · intro a h
    cases h
  · rw [single_slot rfl rfl]
    split <;> rfl

/-- A good record is claimed, a bad one is damage at its position, and a rollback at its target is complete. -/
theorem test_selection :
    ((after .selection (pendingWith (rollingEntry 5 1 .abort) body0)).main.walk.map fun k => (k.cursor, k.claim))
        = some (0, .waiting)
      ∧ (after .selection (pendingWith (rollingEntry 5 1 .abort) bodyBad)).main.queue
        = [{ kind := .recordDamaged, window := some 0, detail := 0, stamp := 0 }]
      ∧ (after .selection (pendingWith (rollingEntry 5 0 .recovery) body0)).slot 0 = .pending 0x80050000 0x3E0001 := by
  decide +kernel

/-- W0's walk at position 0 with its claim waiting. -/
def walk0 (c : Claim) : Walk :=
  { window := 0, target := 0, cursor := 0, claim := c, lastPos := some 0, lastAtTail := true }
def claiming : State := { withEntry (rollingEntry 5 1 .abort) with ret.journal := single body0, main.walk := some (walk0 .waiting) }

theorem test_meets_RestoreGrantWritesTheOldData :
    claiming.mainRuns = true ∧ claiming.main.owner = .nobody ∧ claiming.main.walk = some (walk0 .waiting)
      ∧ (walk0 .waiting).claim = .waiting ∧ claiming.main.stopped = false ∧ claiming.receiptClaim = false
      ∧ claiming.procClaim = false := by decide +kernel

theorem test_restoreWriteGrant :
    (after .restoreWriteGrant claiming).main.cycle = some { addr := 0x8010, lanes := allLanes, wr := true, data := 0x41 } := by
  decide +kernel

/-- Two records of W0, at positions 0 and 1. -/
def double : Journal := ((single body0).appendBody (recordBody 0 2 0x8011 0x42 allLanes)).appendMark

theorem double_lawful : double.Lawful :=
  Journal.appendMark_lawful
    (Journal.appendBody_lawful (single_lawful rfl rfl) (show 1 < 1024 by omega) rfl rfl) (show 1 < 1024 by omega)

theorem double_slot (q : Nat) :
    double.slot q = if q = 1 then { recordBody 0 2 0x8011 0x42 allLanes with valid := true } else (single body0).slot q := by
  have hs := single_lawful (x := body0) rfl rfl
  have h := Journal.appendMark_slot
    (Journal.appendBody_lawful hs (x := recordBody 0 2 0x8011 0x42 allLanes) (show 1 < 1024 by omega) rfl rfl) q
  have g := Journal.appendBody_slot hs (recordBody 0 2 0x8011 0x42 allLanes)
  have e : ((single body0).appendBody (recordBody 0 2 0x8011 0x42 allLanes)).head = 1 := rfl
  have e' : (single body0).head = 1 := rfl
  rw [e, g, g, e', if_pos rfl] at h
  rw [double, h]
  split
  · rfl
  · rfl

/-- W0's walk at position `p` with its restore write driven. -/
def walkAt (p : Nat) (tail : Bool) : Walk :=
  { window := 0, target := 0, cursor := p, claim := .granted, lastPos := some p, lastAtTail := tail }

/-- W0's walk of cause `c` restores the record at `p` of journal `j`, with count `n` left. -/
def restoring (c : RollbackCause) (j : Journal) (p n : Nat) (tail : Bool) : State :=
  { withEntry (rollingEntry 5 n c) with
    ret.journal := j
    main.walk := some (walkAt p tail)
    main.owner := .rollbackEngine
    main.cycle := some { addr := (j.slot p).addr, lanes := allLanes, wr := true, data := (j.slot p).old } }

/-- `s` in phase WALKING of a recovery that has rolled two windows back and kept one. -/
def walking (s : State) : State :=
  { s with power := .recovering, main.phase := some .walking, main.tally := some { rolledBack := 2, kept := 1 } }

theorem restoring_meets (c : RollbackCause) (j : Journal) (p n : Nat) (tail : Bool) (hj : j.Lawful)
    (hr : (j.slot p).liveOf 0 = true) (ht : tail = true → p = j.tail) :
    (restoring c j p n tail).Restoring (walkAt p tail) (rollingEntry 5 n c)
      ∧ (walking (restoring c j p n tail)).Restoring (walkAt p tail) (rollingEntry 5 n c) :=
  have e := State.setEntry_entry_self idle0 0 (some (rollingEntry 5 n c))
  ⟨⟨rfl, rfl, rfl, rfl, rfl, hj, hr, ⟨rfl, ht⟩, e, rfl, fun a h => by cases h⟩,
    ⟨rfl, rfl, rfl, rfl, rfl, hj, hr, ⟨rfl, ht⟩, e, rfl, fun a h => by cases h⟩⟩

theorem single_live {x : Slot} (hv : x.valid = false) (hw : x.voided = false) : ((single x).slot 0).liveOf x.window = true :=
  (single_newest hv hw).1

theorem double_live : (double.slot 1).liveOf 0 = true := by
  rw [double_slot, if_pos rfl]
  rfl

/-- Position 0 holds the next older record of W0. -/
theorem double_older : double.NextOlder 0 1 0 := by
  refine ⟨?_, by decide +kernel, fun q _ h => ?_⟩
  · rw [double_slot, if_neg (by decide)]
    exact single_live (x := body0) rfl rfl
  · have : double.age 1 = 1 := rfl
    omega

/-- The last record; the newer of two, whose next older one is at position 0; and a record with no older one though the
count says there is. -/
theorem test_meets_RestoreCompletesThenVoids :
    (∀ c, (restoring c (single body0) 0 1 true).Restoring (walkAt 0 true) (rollingEntry 5 1 c)
        ∧ (walking (restoring c (single body0) 0 1 true)).Restoring (walkAt 0 true) (rollingEntry 5 1 c)
        ∧ (rollingEntry 5 1 c).count - 1 = (walkAt 0 true).target ∧ (rollingEntry 5 1 c).cause = some c)
      ∧ (∀ c, (restoring c double 1 2 false).Restoring (walkAt 1 false) (rollingEntry 5 2 c)
        ∧ (rollingEntry 5 2 c).count - 1 ≠ 0)
      ∧ double.NextOlder 0 1 0 ∧ (double.slot 0).checks = true
      ∧ (restoring .abort (single body0) 0 2 true).Restoring (walkAt 0 true) (rollingEntry 5 2 .abort)
      ∧ ∀ q, ((single body0).slot q).liveOf 0 = true → (single body0).age 0 ≤ (single body0).age q := by
  have hl : ((single body0).slot 0).liveOf 0 = true := single_live (x := body0) rfl rfl
  have hz : (single body0).age 0 = 0 := rfl
  have h1 := fun c n => restoring_meets c (single body0) 0 n true (single_lawful rfl rfl) hl fun _ => rfl
  have h2 := fun c => restoring_meets c double 1 2 false double_lawful double_live (by decide)
  refine ⟨fun c => ⟨(h1 c 1).1, (h1 c 1).2, rfl, rfl⟩, fun c => ⟨(h2 c).1, by show 2 - 1 ≠ 0; decide⟩, double_older,
    by decide +kernel, (h1 .abort 2).1, fun q _ => ?_⟩
  rw [hz]
  exact Nat.zero_le _

theorem test_restoreWriteComplete :
    Memory.readWord (after .restoreWriteComplete (restoring .abort (single body0) 0 1 true)).sram 0x8010 = 0x41
      ∧ (after .restoreWriteComplete (restoring .abort (single body0) 0 1 true)).slot 0 = .pending 0x30050001 0x3E0001
      ∧ ((after .restoreWriteComplete (restoring .abort double 1 2 false)).main.walk.map fun k => (k.cursor, k.claim))
        = some (0, .waiting) := by decide +kernel

/-- `s` with a read held for W0. -/
def holdingRead (s : State) : State :=
  { s with main.access := some (access 0x8000 false 0 .held (some 0) .held), main.holdTimer := some 3 }

/-- Damage at the first record, a claim of it, and the restore of the last record, each with a read held; the last also
in RECOVERING. -/
def heldStates : List (Instr × State) :=
  [(.selection, holdingRead (pendingWith (rollingEntry 5 1 .abort) bodyBad)),
    (.selection, holdingRead (pendingWith (rollingEntry 5 1 .abort) body0)),
    (.restoreWriteComplete, holdingRead (restoring .abort (single body0) 0 1 true)),
    (.restoreWriteComplete, holdingRead (walking (restoring .recovery (single body0) 0 1 true)))]

theorem test_meets_HeldAccessIsReleasedAtTheEnd :
    ∀ x, x ∈ heldStates → x.1 ∈ [Instr.selection, .restoreWriteComplete] ∧ x.2.mainRuns = true
      ∧ x.2.main.access = some (access 0x8000 false 0 .held (some 0) .held)
      ∧ (access 0x8000 false 0 .held (some 0) .held).cond = .held ∧ x.2.txnState 0 = some .rollingBack
      ∧ (access 0x8000 false 0 .held (some 0) .held).withdrawn = false := by decide +kernel

/-- The window is DAMAGED, still ROLLING_BACK, and IDLE; the read held for it passes once the window has left
ROLLING_BACK. -/
theorem test_held_release :
    (heldStates.map fun x => (after x.1 x.2).txnState 0)
        = [some .damaged, some .rollingBack, some .idle, some .idle]
      ∧ (heldStates.map fun x => (after x.1 x.2).main.access.map fun a => (a.cls, a.cond))
        = [some (.passed, .waiting), some (.held, .held), some (.passed, .waiting), some (.passed, .waiting)]
      ∧ (heldStates.map fun x => (after x.1 x.2).power) = [.active, .active, .active, .active] := by decide +kernel

/-- A withdrawn read held for W0 is released by damage and by completion, with a new access at the port and without. -/
theorem test_meets_WithdrawnAccessKeepsItsOutcome_held :
    ∀ x, x ∈ heldStates →
      let s := { x.2 with main.access := some { access 0x8000 false 0 .held (some 0) .held with withdrawn := true } }
      s.takesAccesses = true ∧ x.1 ∈ [Instr.selection, .restoreWriteComplete]
        ∧ ((after x.1 s).main.access.map fun a => a.withdrawn) = some true := by decide +kernel

/-- RECOVERING with W0 the last window pending, its count 0. -/
def lastWalk : State := walking (pendingWith (rollingEntry 5 0 .recovery) body0)

theorem test_meets_LastWalkEndsRecovering :
    (walking bare).power = .recovering ∧ (walking bare).main.phase = some .walking ∧ (walking bare).engine = .idle
      ∧ (∀ w, (walking bare).isPending w = false) ∧ (walking bare).main.tally = some { rolledBack := 2, kept := 1 }
      ∧ bare.power ≠ .recovering
      ∧ lastWalk.power = .recovering ∧ lastWalk.main.phase = some .walking
      ∧ lastWalk.main.tally = some { rolledBack := 2, kept := 1 } ∧ lastWalk.engine = .idle
      ∧ lastWalk.isPending 0 = true ∧ (∀ v, v ≠ (0 : Win) → lastWalk.isPending v = false)
      ∧ lastWalk.entry 0 = some (rollingEntry 5 0 .recovery) ∧ lastWalk.noHeld 0 := by
  refine ⟨rfl, rfl, rfl, by decide +kernel, rfl, by decide, rfl, rfl, rfl, rfl, rfl, by decide +kernel, pendingWith_entry _ _,
    fun a h => by cases h⟩

/-- Two records of W0, the older with a wrong check code. -/
def doubleBad : Journal := ((single bodyBad).appendBody (recordBody 0 2 0x8011 0x42 allLanes)).appendMark

theorem doubleBad_lawful : doubleBad.Lawful :=
  Journal.appendMark_lawful
    (Journal.appendBody_lawful (single_lawful rfl rfl) (show 1 < 1024 by omega) rfl rfl) (show 1 < 1024 by omega)

theorem doubleBad_slot (q : Nat) : doubleBad.slot q
    = if q = 1 then { recordBody 0 2 0x8011 0x42 allLanes with valid := true } else (single bodyBad).slot q := by
  have hs := single_lawful (x := bodyBad) rfl rfl
  have h := Journal.appendMark_slot
    (Journal.appendBody_lawful hs (x := recordBody 0 2 0x8011 0x42 allLanes) (show 1 < 1024 by omega) rfl rfl) q
  have g := Journal.appendBody_slot hs (recordBody 0 2 0x8011 0x42 allLanes)
  have e : ((single bodyBad).appendBody (recordBody 0 2 0x8011 0x42 allLanes)).head = 1 := rfl
  have e' : (single bodyBad).head = 1 := rfl
  rw [e, g, g, e', if_pos rfl] at h
  rw [doubleBad, h]
  split
  · rfl
  · rfl

/-- The last walk at the restore of its last record, and at damage short of it. -/
theorem test_meets_LastWalkEndsRecovering_restore :
    (walking (restoring .recovery (single body0) 0 1 true)).Restoring (walkAt 0 true) (rollingEntry 5 1 .recovery)
      ∧ (rollingEntry 5 1 .recovery).count = (walkAt 0 true).target + 1
      ∧ (walking (restoring .recovery doubleBad 1 2 false)).Restoring (walkAt 1 false) (rollingEntry 5 2 .recovery)
      ∧ (rollingEntry 5 2 .recovery).count ≠ (walkAt 1 false).target + 1 ∧ doubleBad.NextOlder 0 1 0
      ∧ (doubleBad.slot 0).checks = false ∧ (rollingEntry 5 2 .recovery).restored = some 0
      ∧ ∀ v, (walking (restoring .recovery doubleBad 1 2 false)).isPending v = false := by
  have hl : ((single bodyBad).slot 0).liveOf 0 = true := single_live (x := bodyBad) rfl rfl
  have h2 : (doubleBad.slot 1).liveOf 0 = true := by
    rw [doubleBad_slot, if_pos rfl]
    rfl
  refine ⟨(restoring_meets .recovery (single body0) 0 1 true (single_lawful rfl rfl) (single_live (x := body0) rfl rfl)
    fun _ => rfl).2, rfl, (restoring_meets .recovery doubleBad 1 2 false doubleBad_lawful h2 (by decide)).2, by decide,
    ⟨?_, by decide +kernel, fun q _ h => ?_⟩, by decide +kernel, rfl, by decide +kernel⟩
  · rw [doubleBad_slot, if_neg (by decide)]
    exact hl
  · have : doubleBad.age 1 = 1 := rfl
    omega

theorem test_last_walks :
    ((after .restoreWriteComplete (walking (restoring .recovery (single body0) 0 1 true))).main.queue.map
        fun r => (r.kind, r.detail)) = [(.rollbackDone, 0x80050001#32), (.recoveryDone, 0x00000301#32)]
      ∧ ((after .restoreWriteComplete (walking (restoring .recovery doubleBad 1 2 false))).main.queue.map
        fun r => (r.kind, r.detail)) = [(.recordDamaged, 0x00000000#32), (.recoveryDone, 0x00000201#32)] := by
  decide +kernel

theorem test_recovery_done :
    (after .selection lastWalk).power = .active
      ∧ ((after .selection lastWalk).main.queue.map fun r => (r.kind, r.detail))
        = [(.rollbackDone, 0x80050000#32), (.recoveryDone, 0x00000301#32)] := by decide +kernel

/-! ## Deadlines and the stamp -/

/-- W0 with entry `e` and counter `c`. -/
def counting (e : Entry) (c : Counter) : State := (withEntry e).setCounter 0 c

theorem test_meets_TicksAndMillisecondsCount :
    (atDue (counting (openEntry 5 0) (.running 2 5))).counter 0 = .running 2 5
      ∧ (atDue (counting (openEntry 5 0) (.running 1 5))).counter 0 = .running 1 5
      ∧ (atDue (counting (openEntry 5 0) (.frozen 1 5))).counter 0 = .frozen 1 5 ∧ (atDue bare).power ≠ .retaining
      ∧ (atDue bare).clockRuns = true ∧ State.powerOn.clockRuns = false
      ∧ { atDue bare with power := .retaining : State }.clockRuns = true
      ∧ (atDue bare).osc.tickDue = true ∧ (atDue bare).osc.milliDue = true
      ∧ (atMicro bare 99).osc.tickDue = false ∧ (atMicro bare 999).osc.milliDue = false
      ∧ (atMicro bare 99).main.holdTimer = none
      ∧ ∃ u, exec .microsecondEvent (atMicro bare 99) = .next u :=
  ⟨by decide, by decide, by decide, by decide, rfl, rfl, rfl, rfl, rfl, rfl, rfl, rfl, _, rfl⟩

/-- In RETAINING with VDD back, and the other line still holding the part there, the trains run and the stamp does not. -/
theorem test_trains_in_retaining :
    (let s := after (.retainingExit 0 (.waits .pfailn)) State.powerOn
     s.power = .retaining ∧ s.vdd = .good ∧ s.pfail = true
      ∧ (after .microsecondEvent s).osc = { micros := 1, tickDue := false, milliDue := false }
      ∧ (after .millisecondEvent (atDue s)).osc.milliDue = false ∧ (after .millisecondEvent (atDue s)).main.stamp = 0
      ∧ (after .retainingEntry (after .microsecondEvent s)).vdd = .belowSwitchover
      ∧ (after .retainingEntry (after .microsecondEvent s)).osc = Oscillator.start) := by decide +kernel

/-- The tick that ends W0's counter is spent: the counter that a new OPEN loads meets the next one. -/
theorem test_one_tick_counts_once :
    (let d := { desc0 with deadline := 3 }
     let s := (putWindow bare 0 d (some (openEntry 5 0))).setCounter 0 (.running 1 5)
     let t := after (.expiryRequest 0) (after (.deadlineRunOut 0) (atDue s))
     t.osc.tickDue = false ∧ t.counter 0 = .absent
      ∧ (after .openMarker (marking t 0x3C5A1006)).counter 0 = .running 3 6
      ∧ (after .microsecondEvent (after .openMarker (marking t 0x3C5A1006))).counter 0 = .running 3 6) := by
  decide +kernel

/-- The tick lowers 2 to 1 and ends 1 as SPENT; DEADLINE_RUN_OUT is that tick. -/
theorem test_tick :
    (after .tick (atDue (counting (openEntry 5 0) (.running 2 5)))).counter 0 = .running 1 5
      ∧ (after .tick (atDue (counting (openEntry 5 0) (.running 1 5)))).counter 0 = .spent 5
      ∧ (after (.deadlineRunOut 0) (atDue (counting (openEntry 5 0) (.running 1 5)))).counter 0 = .spent 5
      ∧ (after .tick (atDue (counting (openEntry 5 0) (.frozen 1 5)))).counter 0 = .frozen 1 5 := by decide +kernel

theorem test_millisecond :
    (after .millisecondEvent { atDue bare with main.stamp := 65535 }).main.stamp = 0
      ∧ (after .millisecondEvent (atDue bare)).main.stamp = 1 := by decide +kernel

/-- The hundredth microsecond event is a tick and the thousandth a millisecond event too; a tick not taken by then is
taken at the next microsecond event, and a TICK before it lets the events up to it fall. -/
theorem test_trains :
    (after .microsecondEvent (atMicro bare 98)).osc = { micros := 99, tickDue := false, milliDue := false }
      ∧ (after .microsecondEvent (atMicro bare 99)).osc = { micros := 100, tickDue := true, milliDue := false }
      ∧ (after .microsecondEvent (atMicro bare 999)).osc = { micros := 0, tickDue := true, milliDue := true }
      ∧ (after .microsecondEvent (atDue (counting (openEntry 5 0) (.running 2 5)))).counter 0 = .running 1 5
      ∧ (after .microsecondEvent (atDue bare)).main.stamp = 1
      ∧ (after .tick (atMicro (counting (openEntry 5 0) (.running 2 5)) 97)).counter 0 = .running 1 5
      ∧ (after .tick (atMicro bare 97)).osc = { micros := 100, tickDue := false, milliDue := false } := by
  decide +kernel

theorem test_meets_ExpiryEndsTheTransaction :
    (∀ n, (counting (openEntry 5 n) (.spent 5)).entry 0 = some (openEntry 5 n))
      ∧ (counting (brokenEntry 5 0) (.spent 5)).entry 0 = some (brokenEntry 5 0)
      ∧ (counting (openEntry 5 0) (.spent 5)).counter 0 = .spent (openEntry 5 0).seq
      ∧ (counting (openEntry 5 0) (.spent 5)).takingOpen 0 = false
      ∧ (counting (openEntry 5 0) (.spent 5)).mainRuns = true :=
  ⟨fun _ => State.setEntry_entry_self idle0 0 _, State.setEntry_entry_self idle0 0 _, rfl, rfl, rfl⟩

theorem test_expiryRequest :
    (after (.expiryRequest 0) (counting (openEntry 5 0) (.spent 5))).slot 0 = .pending 0x40050000 0x3E0001
      ∧ (after (.expiryRequest 0) (counting (openEntry 5 3) (.spent 5))).entry 0
        = some { rollingEntry 5 3 .expiry with lastEnded := some { seq := 5, kind := .expired } } := by decide +kernel

/-! ## The management port -/

/-- `s` with a request waiting behind its transfer. -/
def clockHeld (s : State) (b : Byte) : State :=
  { transfer s 0xA1 0 with main.reqCode := b, main.waiting := true, main.ack := true }

theorem test_meets_TransferFraming :
    bare.portAnswers = true ∧ bare.main.waiting = false ∧ (0xB0#8).extractLsb' 1 7 = 0x58#7
      ∧ { bare with main.xfer := .writeIndex : State }.portAnswers = true
      ∧ { bare with main.target := 3 : State }.main.target.toNat = 3
      ∧ (clockHeld (marking idle0 0x3C5A1021) 0x05).main.waiting = true := by decide

/-- B0h and B1h address a part whose MADR is 0, for writing and reading; B7h one whose MADR is 3. With MSCL held low no
start falls. -/
theorem test_transferStart :
    (after (.transferStart ⟨0xB0, none⟩) bare).main.xfer = .writeIndex
      ∧ (after (.transferStart ⟨0xB1, none⟩) bare).main.xfer = .reading none
      ∧ (after (.transferStart ⟨0xB2, none⟩) bare).main.xfer = .ignored
      ∧ (after (.transferStart ⟨0xB2, none⟩) bare).main.ack = false
      ∧ (after (.transferStart ⟨0xB7, some 2⟩) { bare with main.target := 3 }).main.xfer = .reading (some 2)
      ∧ after (.transferStart ⟨0xB0, none⟩) (clockHeld (marking idle0 0x3C5A1021) 0x05)
        = clockHeld (marking idle0 0x3C5A1021) 0x05 := by decide +kernel

/-- After the byte that is not acknowledged MSDA is released, and nothing more is sent. -/
theorem test_not_acknowledged :
    (let s := { readingFrom bare 0x85 with main.xfer := .reading (some 1) }
     (after .statusRead s).main.xfer = .reading (some 0)
      ∧ (after .statusRead (after .statusRead s)).main.xfer = .released
      ∧ (after .statusRead (after .statusRead s)).main.sent = [0x20, 0x00]
      ∧ after .statusRead (after .statusRead (after .statusRead s)) = after .statusRead (after .statusRead s)) := by
  decide +kernel

theorem test_indexByteWrite_and_stop :
    (after (.indexByteWrite 0x85) { bare with main.xfer := .writeIndex }).main.index = 0x85
      ∧ (after (.indexByteWrite 0x85) bare).main.index = 0
      ∧ (after .transferStop (transfer bare 0x85 0)).main.xfer = .idle := by decide

theorem test_meets_DescriptorByteIsWrittenOrIgnored :
    (∀ w : Win, (transfer bare (BitVec.ofNat 8 (16 * w.val + 15)) 0).main.index.toNat = 16 * w.val + 15)
      ∧ (∀ i g, (transfer idle0 i g).portReady = true) ∧ (∀ i g, (transfer idle0 i g).main.xfer = .writing)
      ∧ (transfer idle0 0x00 0).enabled 0 = true ∧ (transfer bare 0x7F 0).enabled 7 = false :=
  ⟨by decide, fun _ _ => rfl, fun _ _ => rfl, by decide, by decide⟩

/-- Byte 12 of W1 sets a quota bit and the mode bits; W0 is enabled and keeps its byte. -/
theorem test_descriptorByteWrite :
    ((after (.descriptorByteWrite 0xFF) (transfer idle0 0x1C 0)).desc 1).byte 12 = 0xE7
      ∧ ((after (.descriptorByteWrite 0xFF) (transfer idle0 0x0C 0)).desc 0).byte 12 = 0x00
      ∧ (after (.descriptorByteWrite 0xFF) (transfer idle0 0x0C 0)).main.ignored = true := by decide

theorem test_meets_ConfigurationBytesAreWritten :
    (∀ i g, (transfer bare i g).portReady = true) ∧ (∀ i g, (transfer bare i g).main.xfer = .writing)
      ∧ (∀ i g, (transfer bare i g).main.index = i) ∧ (transfer bare 0x83 0).ret.highWater ≤ 1024 :=
  ⟨fun _ _ => rfl, fun _ _ => rfl, fun _ _ => rfl, by decide⟩

/-- FFh and FFh make a threshold of 2047, which is taken as 1024; the hold limit is the byte. -/
theorem test_threshold_and_hold_limit :
    (after (.highWaterThresholdWrite 0xFF) (transfer bare 0x83 0)).ret.highWater = 1024
      ∧ (after (.highWaterThresholdWrite 0xFF) (transfer bare 0x84 0)).ret.highWater = 255
      ∧ (after (.holdLimitWrite 0xFF) (transfer bare 0x85 0)).ret.holdLimit = 0xFF := by decide

theorem test_positionWrite :
    (after (.positionWrite 0xAB) (transfer bare 0x86 0)).ret.fillWord = 0xAB000000
      ∧ (after (.positionWrite 0xAB) (transfer bare 0x8B 0)).ret.kindMask = 0xFFAB
      ∧ (after (.positionWrite 0xAB) (transfer bare 0xA1 0)).main.arg = 0xAB
      ∧ (after (.positionWrite 0xAB) (transfer bare 0xFF 0)).main.index = 0x00
      ∧ (after (.positionWrite 0xAB) (transfer bare 0x80 0)).ret = bare.ret := by decide

/-- One event at the front of the queue. -/
def queued : State :=
  { bare with main.queue := [{ kind := .strayWrite, window := some 0, detail := 0x8000, stamp := 0x0102 }] }

theorem test_meets_StatusAndEventViewReads :
    (∀ i, (readingFrom queued i).portReady = true) ∧ (∀ i, (readingFrom queued i).main.xfer.isReading = true)
      ∧ (readingFrom queued 0xB0).main.index.toNat = 0xB0 + 0 ∧ (readingFrom queued 0xB7).main.index.toNat = 0xB0 + 7
      ∧ { bare with main.xfer := .released : State }.main.xfer = .released
      ∧ (readingFrom queued 0xB0).main.eventLatch = none ∧ hasReadRow 0x80 = false ∧ hasReadRow 0xFF = false :=
  ⟨fun _ => rfl, fun _ => rfl, by decide, by decide, rfl, rfl, by decide, by decide⟩

/-- The IGNORED flag is sent and cleared; the view's bytes are the record's. -/
theorem test_status_and_event_reads :
    (after .statusRead { readingFrom bare 0x80 with main.ignored := true }).main.sent = [0x80]
      ∧ (after .statusRead { readingFrom bare 0x80 with main.ignored := true }).main.ignored = false
      ∧ (after .statusRead (readingFrom idle0 0x90)).main.sent = [0x01]
      ∧ (List.range 8).map (fun i => (after .oldestEventViewRead (readingFrom queued (BitVec.ofNat 8 (0xB0 + i)))).main.sent)
        = [[0x03], [0x00], [0x00], [0x00], [0x80], [0x00], [0x01], [0x02]] := by decide

/-- The views hold a full entry and a record, with every field within its range. -/
def viewed : State :=
  { idle0 with
    ret.highWater := 1024
    main.txnView :=
      { window := 7, counter := .running 65535 5,
        entry := some { savedEntry 5 1024 1024 with lastEnded := some { seq := 4, kind := .forced } } }
    main.recView := { pos := 1023, slot := { recordBody 7 1024 0x3FFFFF 0x11223344 0x3 with valid := true } } }

theorem test_meets_PositionsReadAsLaidOut :
    viewed.ret.highWater ≤ 1024 ∧ viewed.main.queue.length ≤ 16 ∧ bare.main.txnView.entry = none
      ∧ viewed.main.txnView.counter.remaining ≤ 65535 ∧ viewed.main.recView.pos < 1024
      ∧ viewed.main.recView.slot.ordinal ≤ 1024 ∧ (savedEntry 5 1024 1024).count ≤ 1024
      ∧ (savedEntry 5 1024 1024).savepoint = some 1024 := by decide

theorem test_positions :
    ([0x00, 0x04, 0x0A, 0x0D, 0x1C, 0x83, 0x84, 0x85, 0x8C, 0x8F, 0x90, 0x91, 0xC0, 0xC1, 0xC3, 0xC4, 0xCE, 0xD0, 0xD2,
        0xD4, 0xD6, 0xD9, 0xDE, 0xFF].map viewed.positionByte)
      = [0x02, 0x3E, 0x3C, 0x10, 0x00, 0x04, 0x00, 0x20, 0x00, 0x00, 0x01, 0x00, 0x07, 0x12, 0x31, 0x04, 0xFF, 0x03, 0x31,
        0x04, 0x3F, 0x11, 0x00, 0x00] := by decide +kernel

theorem test_meets_TwoByteReadsAreOneValue :
    (∀ i, (readingFrom bare i).portReady = true) ∧ (∀ i, (readingFrom bare i).main.xfer.isReading = true)
      ∧ ∀ i, (readingFrom bare i).main.index = i := ⟨fun _ => rfl, fun _ => rfl, fun _ => rfl⟩

/-- The low byte comes from the latch whatever the counter reads by then. -/
theorem test_two_byte_reads :
    (after .stampCounterRead { readingFrom bare 0x8E with main.stampLatch := some 0x12FF, main.stamp := 0x1300 }).main.sent
        = [0xFF]
      ∧ (after .occupancyRead { readingFrom bare 0x82 with main.occLatch := some 255, ret.journal.occ := 256 }).main.sent
        = [0xFF] := by decide

/-! ## Requests -/

/-- W0 described by `d` and disabled, with ENABLE's argument 0 written. -/
def described (d : Descriptor) : State := transfer (putWindow bare 0 d none) 0xA0 0

/-- W0 enabled with entry `e`, W1 described by `d` and disabled, the argument 1 written. -/
def beside (e : Entry) (d : Descriptor) : State := transfer (putWindow (withEntry e) 1 d none) 0xA0 1

/-- A descriptor whose range is apart from W0's. -/
def desc1 : Descriptor := { desc0 with base := 0x0210, limit := 0x0210, controlWord := 0x3E0002, receiptWord := 0x3E0003 }

theorem test_meets_EnableTestsInOrder :
    (described desc0).AtRequest ∧ (described desc0).windowTestBusy = false
      ∧ (beside Entry.fresh desc1).AtRequest ∧ (beside Entry.fresh desc1).windowTestBusy = false
      ∧ (transfer idle0 0xA0 8).AtRequest ∧ (transfer idle0 0xA0 8).windowTestBusy = false :=
  ⟨⟨rfl, rfl, rfl, rfl⟩, by decide, ⟨rfl, rfl, rfl, rfl⟩, by decide, ⟨rfl, rfl, rfl, rfl⟩, by decide⟩

/-- Every response of the table, at a boundary of its condition. -/
theorem test_enable :
    (after (.enable 0) (described desc0)).main.response = 1
      ∧ (after (.enable 0) (described desc0)).entry 0 = some Entry.fresh
      ∧ (after (.enable 0) (transfer idle0 0xA0 0)).main.response = 5
      ∧ (after (.enable 0) (described { desc0 with limit := 0x01FF })).main.response = 6
      ∧ (after (.enable 0) (described { desc0 with key := 0xFFFF })).main.response = 7
      ∧ (after (.enable 0) (described { desc0 with quota := 1025 })).main.response = 8
      ∧ (after (.enable 0) (described { desc0 with receiptWord := 0x0083FF })).main.response = 9
      ∧ (after (.enable 0) (transfer idle0 0xA0 8)).main.response = 12 := by decide

theorem test_enable_beside :
    (after (.enable 0) (beside (openEntry 5 0) desc1)).main.response = 1
      ∧ (after (.enable 0) (beside (openEntry 5 0) { desc1 with base := 0x020F })).main.response = 10
      ∧ (after (.enable 0) (beside Entry.fresh { desc1 with base := 0x020F })).main.response = 1
      ∧ (after (.enable 0) (beside Entry.fresh { desc1 with controlWord := 0x3E0001 })).main.response = 9 := by decide

theorem test_meets_DisableTestsInOrder :
    (transfer idle0 0xA0 0).AtRequest ∧ (transfer idle0 0xA0 0).windowTestBusy = false
      ∧ (transfer idle0 0xA0 255).AtRequest ∧ (transfer idle0 0xA0 255).windowTestBusy = false :=
  ⟨⟨rfl, rfl, rfl, rfl⟩, by decide, ⟨rfl, rfl, rfl, rfl⟩, by decide⟩

theorem test_disable :
    (after (.disable 0) (transfer idle0 0xA0 0)).main.response = 1 ∧ (after (.disable 0) (transfer idle0 0xA0 0)).entry 0 = none
      ∧ (after (.disable 0) (transfer idle0 0xA0 1)).main.response = 5
      ∧ (after (.disable 0) (transfer (withEntry (openEntry 5 0)) 0xA0 0)).main.response = 2
      ∧ (after (.disable 0) (transfer idle0 0xA0 255)).main.response = 12 := by decide

theorem test_meets_ForceAbortByState :
    (∀ e, (transfer (withEntry e) 0xA0 0).AtRequest) ∧ (∀ e, (transfer (withEntry e) 0xA0 0).argWinBusy = false)
      ∧ (transfer bare 0xA0 7).AtRequest ∧ (transfer bare 0xA0 7).main.arg.toNat = (7 : Win).val
      ∧ (transfer bare 0xA0 8).AtRequest ∧ 8 ≤ (transfer bare 0xA0 8).main.arg.toNat
      ∧ (∀ e, (transfer (withEntry e) 0xA0 0).entry 0 = some e)
      ∧ (openEntry 5 0).count = 0 ∧ (brokenEntry 5 1).count ≠ 0 :=
  ⟨fun _ => ⟨rfl, rfl, rfl, rfl⟩, fun _ => rfl, ⟨rfl, rfl, rfl, rfl⟩, rfl, ⟨rfl, rfl, rfl, rfl⟩, by decide,
    fun e => State.setEntry_entry_self idle0 0 (some e), rfl, by decide⟩

theorem test_forceAbort :
    (after (.forceAbort 0) (transfer (withEntry (openEntry 5 0)) 0xA0 0)).slot 0 = .pending 0x3C050000 0x3E0001
      ∧ (after (.forceAbort 0) (transfer (withEntry (openEntry 5 2)) 0xA0 0)).txnState 0 = some .rollingBack
      ∧ (after (.forceAbort 0) (transfer (withEntry (damagedEntry 5 2)) 0xA0 0)).main.response = 2
      ∧ (after (.forceAbort 0) (transfer idle0 0xA0 0)).main.response = 3
      ∧ (after (.forceAbort 0) (transfer idle0 0xA0 8)).main.response = 12 := by decide +kernel

/-- W0 DAMAGED with one record, the argument 0 written. -/
def damaged0 : State := transfer { withEntry (damagedEntry 5 1) with ret.journal := journal0 } 0xA0 0

theorem test_meets_ReleaseFreesADamagedWindow :
    damaged0.AtRequest ∧ damaged0.argWinBusy = false ∧ damaged0.ret.journal.Lawful
      ∧ damaged0.entry 0 = some (damagedEntry 5 1) ∧ (transfer idle0 0xA0 0).txnState 0 ≠ some .damaged
      ∧ (transfer idle0 0xA0 8).AtRequest ∧ 8 ≤ (transfer idle0 0xA0 8).main.arg.toNat :=
  ⟨⟨rfl, rfl, rfl, rfl⟩, rfl, journal0_lawful, State.setEntry_entry_self idle0 0 _, by decide,
    ⟨rfl, rfl, rfl, rfl⟩, by decide⟩

theorem test_release :
    (after (.release 0) damaged0).ret.journal.occ = 0 ∧ (after (.release 0) damaged0).txnState 0 = some .idle
      ∧ (after (.release 0) damaged0).main.response = 1
      ∧ (after (.release 0) (transfer idle0 0xA0 8)).main.response = 12
      ∧ (after (.release 0) (transfer idle0 0xA0 0)).main.response = 4 := by decide +kernel

theorem test_meets_ClearAllMakesAColdInitialisation :
    (transfer idle0 0xA0 0).AtRequest ∧ (transfer idle0 0xA0 0).controlTakingOpen = false
      ∧ (transfer idle0 0xA0 0).allIdle = true
      ∧ (transfer (withEntry (openEntry 5 0)) 0xA0 0).AtRequest
      ∧ (transfer (withEntry (openEntry 5 0)) 0xA0 0).allIdle = false :=
  ⟨⟨rfl, rfl, rfl, rfl⟩, rfl, by decide, ⟨rfl, rfl, rfl, rfl⟩, by decide⟩

theorem test_clearAll :
    (after (.clearAll 0) (transfer idle0 0xA0 0)).ret = Retained.cold
      ∧ (after (.clearAll 0) (transfer idle0 0xA0 0)).main.response = 1
      ∧ (after (.clearAll 0) (transfer (withEntry (openEntry 5 0)) 0xA0 0)).main.response = 2 := by decide +kernel

theorem test_meets_EventQueueIsFirstInFirstOut :
    queued.mainRuns = true ∧ queued.kindEnabled .coldStart = true
      ∧ { queued with ret.kindMask := 0 : State }.kindEnabled .coldStart = false ∧ queued.main.queue.length < 16
      ∧ 16 ≤ (List.replicate 16 (default : EventRecord)).length ∧ (transfer queued 0xA0 0).AtRequest
      ∧ (transfer bare 0xA0 0).AtRequest ∧ bare.main.queue = [] :=
  ⟨rfl, by decide, by decide, by decide, by decide, ⟨rfl, rfl, rfl, rfl⟩, ⟨rfl, rfl, rfl, rfl⟩, rfl⟩

theorem test_events :
    (after (.popEvent 0) (transfer queued 0xA0 0)).main.queue = []
      ∧ (after (.popEvent 0) (transfer bare 0xA0 0)).main.response = 11
      ∧ (after (.clearOverrun 0) { transfer bare 0xA0 0 with main.overrun := true }).main.overrun = false := by decide

theorem test_meets_LoadsCopyAndBadCodesAreRefused :
    (transfer bare 0xA0 8).AtRequest ∧ 8 ≤ (transfer bare 0xA0 8).main.arg.toNat ∧ (transfer idle0 0xA0 0).AtRequest
      ∧ (transfer idle0 0xA0 0).main.arg.toNat = (0 : Win).val ∧ (transfer idle0 0xA0 0).argWinBusy = false
      ∧ (transfer idle0 0xA0 0).enabled 0 = true ∧ (transfer bare 0xA0 0).enabled 0 = false
      ∧ (3#4).toNat * 256 + (transfer bare 0xA0 0xFF).main.arg.toNat < 1024
      ∧ 1024 ≤ (4#4).toNat * 256 + (transfer bare 0xA0 0).main.arg.toNat
      ∧ (0x30#8).extractLsb' 0 4 = 0#4 ∧ 10 ≤ ((0x0A#8).extractLsb' 0 4).toNat :=
  ⟨⟨rfl, rfl, rfl, rfl⟩, by decide, ⟨rfl, rfl, rfl, rfl⟩, rfl, rfl, by decide, by decide, by decide, by decide, by decide, by decide⟩

/-- 39h with the argument 0Ah loads slot 778, as section 12.7 has it. -/
theorem test_loads :
    (after (.loadRecord 3) (transfer bare 0xA0 0x0A)).main.recView.pos = 778
      ∧ (after (.loadRecord 4) (transfer bare 0xA0 0)).main.response = 12
      ∧ (after (.loadTxn 0) (transfer idle0 0xA0 0)).main.txnView = { window := 0, entry := some Entry.fresh, counter := .absent }
      ∧ (after (.unknownRequestCode 0x3F) (transfer bare 0xA0 0)).main.response = 12 := by decide

/-- A request at a part whose W0 is in the middle of a marker's write, with the argument `g`. -/
def meeting (g : Byte) : State := transfer (marking idle0 0x3C5A1021) 0xA0 g

/-- The same request waiting, and its taking over. -/
def waitingOver : State := clockHeld idle0 0x01

theorem test_meets_ARequestMeetingAnOpenTakingWaits :
    (meeting 0).AtRequest ∧ (meeting 0).windowTestBusy = true ∧ (meeting 0).argWinBusy = true
      ∧ (meeting 0).controlTakingOpen = true ∧ idle0.main.waiting = false
      ∧ (clockHeld (marking idle0 0x3C5A1021) 0x05).requestBusy 0x05 = true
      ∧ waitingOver.main.waiting = true ∧ Instr.requestByte (.enable 0) = some 0x01 ∧ waitingOver.main.reqCode = 0x01
      ∧ waitingOver.requestBusy 0x01 = false ∧ waitingOver.portAnswers = true ∧ waitingOver.main.xfer = .writing
      ∧ waitingOver.main.index = 0xA1 ∧ waitingOver.main.ack = true
      ∧ readingOld.AtMemory (access 0x8010 true 9 .journaled (some 0) .atMemory) .journaled
      ∧ (marking idle0 0x3C5A1021).ControlWrite (control 0x3C5A1021) 0
      ∧ (underExamination Entry.fresh .openM 0x21).ControlWrite (control 0x3C5A1021) 0
      ∧ (∃ u, exec ((marking idle0 0x3C5A1021).examination (control 0x3C5A1021) 0).command (marking idle0 0x3C5A1021)
          = .next u)
      ∧ ∃ u, exec .oldWordReadComplete readingOld = .next u :=
  ⟨⟨rfl, rfl, rfl, rfl⟩, by decide, by decide, by decide, rfl, by decide, rfl, rfl, rfl, by decide, rfl, rfl, rfl, rfl,
    ⟨by decide, rfl, rfl, rfl, rfl⟩, marking_meets _, (underExamination_meets Entry.fresh .openM 0x21).write, ⟨_, rfl⟩, _,
    rfl⟩

/-- A FORCE_ABORT that meets an OPEN marker's write waits with MSCL held low and is taken when the marker has opened the
window, within the marker's command. -/
theorem test_waiting_request :
    (after (.forceAbort 0) (meeting 0)).msclHeld = true
      ∧ (after (.forceAbort 0) (meeting 0)).main.response = 0
      ∧ (after (.indexByteWrite 0) (after (.forceAbort 0) (meeting 0))) = after (.forceAbort 0) (meeting 0)
      ∧ (after .openMarker (after (.forceAbort 0) (meeting 0))).msclHeld = false
      ∧ (after .openMarker (after (.forceAbort 0) (meeting 0))).main.response = 1
      ∧ (after .openMarker (after (.forceAbort 0) (meeting 0))).entry 0
        = some { openEntry 0x21 0 with state := .idle, lastEnded := some { seq := 0x21, kind := .forced } } := by
  decide +kernel

/-! ## The power sequence -/

theorem test_meets_FailingEntryStopsEveryBlock :
    writingNew.mainRuns = true ∧ Memory.wf writingNew.sram = true ∧ readingOld.mainRuns = true
      ∧ (writingNew.main.cycle.map Cycle.wr) = some true ∧ (readingOld.main.cycle.map Cycle.wr) = some false
      ∧ bare.main.cycle = none := by decide

/-- A failure that falls while a marker is yet to be taken abandons it. -/
theorem test_failingEntry_examining :
    (let t := after (.failingEntry .rstn .between) (underExamination Entry.fresh .openM 0x21)
     t.main.examining = false ∧ t.main.access = none ∧ t.txnState 0 = some .idle
      ∧ (after (.failingEntry .rstn (.taking .controlWordWrite 0)) (underExamination Entry.fresh .openM 0x21)).txnState 0
        = some .opened) := by decide +kernel

theorem test_failingEntry :
    Memory.readWord (after (.failingEntry .pfailn .between) writingNew).sram 0x8010 = 9
      ∧ (after (.failingEntry .rstn .between) writingNew).power = .failing
      ∧ (after (.failingEntry .rstn .between) writingNew).main.prdy = .inactive
      ∧ (after (.failingEntry .rstn .between) writingNew).ret = writingNew.ret := by decide +kernel

theorem test_meets_FailureInsideAnAppend :
    readingOld.AtMemory (access 0x8010 true 9 .journaled (some 0) .atMemory) .journaled
      ∧ readingOld.main.cycle = some (access 0x8010 true 9 .journaled (some 0) .atMemory).oldReadCycle
      ∧ readingOld.entry 0 = some (openEntry 1 0) ∧ readingOld.ret.journal.Lawful ∧ readingOld.ret.journal.occ < 1024 :=
  ⟨test_meets_OldWordReadAppendsTheRecord.1, rfl, test_meets_OldWordReadAppendsTheRecord.2⟩

/-- A JOURNAL_HIGH due at the mark step had been queued, or not. -/
theorem test_cut_high_water :
    ((after (.failingEntry .pfailn (.appendMark true)) { readingOld with ret.highWater := 1 }).main.queue.map (·.kind),
        (after (.failingEntry .pfailn (.appendMark false)) { readingOld with ret.highWater := 1 }).main.queue)
      = ([.journalHigh], []) := by decide +kernel

theorem test_meets_FailureFallsInsideAStep :
    (restoring .recovery (single body0) 0 1 true).Restoring (walkAt 0 true) (rollingEntry 5 1 .recovery)
      ∧ (marking idle0 0x3C5A1121).mainRuns = true
      ∧ Taking.IsMadeBy .controlWordWrite (marking idle0 0x3C5A1121) .malformedMarker
      ∧ Taking.IsMadeBy .selection bare .selection ∧ Taking.begins .selection = false
      ∧ Taking.IsMadeBy (.accessBegin 5 1 true false 9) bare (.accessBegin 5 1 true false 9)
      ∧ Taking.begins (.accessBegin 5 1 true false 9) = true
      ∧ (transfer idle0 0xA0 0).AtRequest ∧ (transfer idle0 0xA0 0).controlTakingOpen = false
      ∧ ∀ w, (transfer idle0 0xA0 0).enabled w = true → (transfer idle0 0xA0 0).txnState w = some .idle :=
  ⟨(restoring_meets .recovery (single body0) 0 1 true (single_lawful rfl rfl) (single_live (x := body0) rfl rfl)
      fun _ => rfl).1, rfl, ⟨_, _, marking_meets _, by decide⟩, rfl, rfl, rfl, rfl, ⟨rfl, rfl, rfl, rfl⟩, rfl, by decide⟩

/-- FAILING after the last single void of a walk, before the walk's completion: ROLLING_BACK with count 0. -/
theorem test_cut_single_void :
    (let t := after (.failingEntry .pfailn .singleVoid) (restoring .abort (single body0) 0 1 true)
     t.power = .failing ∧ t.txnState 0 = some .rollingBack ∧ t.countOf 0 = 0 ∧ t.ret.journal.occ = 0
      ∧ Memory.readWord t.sram 0x8010 = 0x41 ∧ t.main.queue = []) := by decide +kernel

/-- A damage whose event was not queued, and one whose event was; in RECOVERING the third fails with its walks done and
no RECOVERY_DONE. -/
theorem test_cut_taking :
    (let s := pendingWith (rollingEntry 5 1 .abort) bodyBad
     (after (.failingEntry .rstn (.taking .selection 0)) s).txnState 0 = some .damaged
      ∧ (after (.failingEntry .rstn (.taking .selection 0)) s).main.queue = []
      ∧ (after (.failingEntry .rstn (.taking .selection 1)) s).main.queue.map (·.kind) = [.recordDamaged])
      ∧ ((after (.failingEntry .rstn (.taking .selection 1)) lastWalk).main.queue.map (·.kind) = [.rollbackDone]) := by
  decide +kernel

/-- A CLEAR_ALL part-way: its signature, its retained state and its event. -/
theorem test_cut_clearAll :
    (let f := fun c => after (.failingEntry .pfailn (.clearAll c)) { transfer idle0 0xA0 0 with main.queue := queued.main.queue }
     ((f .invalid).signature, (f .invalid).ret == idle0.ret, (f .invalid).main.queue.length) = (false, true, 1)
      ∧ ((f .defaulted).signature, (f .defaulted).ret == Retained.cold, (f .defaulted).main.queue.length) = (false, true, 1)
      ∧ ((f .unposted).signature, (f .unposted).ret == Retained.cold, (f .unposted).main.queue.length) = (true, true, 0)) := by
  decide +kernel

/-- W0 OPEN with a COMMIT of it in flight, and a CLEAR_ALL that waits for its end. -/
def clearBehind : State := clockHeld (inFlight (openEntry 5 0) .commitM 5) 0x05

theorem test_meets_FailureFallsInsideAStep_behind :
    clearBehind.ControlWrite (control (markerWord 0x3C5A 2 5)) 0 ∧ clearBehind.main.waiting = true
      ∧ clearBehind.main.reqCode.extractLsb' 0 4 = 5#4 ∧ clearBehind.allIdle = false
      ∧ (let u := after .commitMarker { clearBehind with port.pcen := false, main.waiting := false }
         ∀ v, u.enabled v = true → u.txnState v = some .idle) :=
  ⟨⟨by rfl, rfl, Or.inl ⟨rfl, rfl, rfl⟩, rfl, rfl, rfl, rfl⟩, rfl, by decide, by decide +kernel, by decide +kernel⟩

/-- The COMMIT makes W0 IDLE and the CLEAR_ALL behind it is cut: the exit completes the cold initialisation, with detail
0. Cut after nothing of it, the CLEAR_ALL finds W0 OPEN. -/
theorem test_cut_clearAll_behind :
    (let f := fun c => after (.failingEntry .pfailn c) clearBehind
     ((f (.clearAllBehind .invalid)).signature, (f (.clearAllBehind .invalid)).txnState 0) = (false, some .idle)
      ∧ ((f (.clearAllBehind .defaulted)).signature, (f (.clearAllBehind .defaulted)).txnState 0) = (false, none)
      ∧ (f (.clearAllBehind .unposted)).signature = true ∧ (f (.clearAllBehind .unposted)).main.waiting = false
      ∧ (after (.failingExit 0 .whole) (f (.clearAllBehind .invalid))).main.queue
        = [{ kind := .coldStart, window := none, detail := 0, stamp := 0 }]
      ∧ (f (.clearAll .invalid)).signature = true ∧ (f (.clearAll .invalid)).txnState 0 = some .opened
      ∧ after (.failingEntry .pfailn (.clearAllBehind .invalid)) idle0 = after (.failingEntry .pfailn .between) idle0) := by
  decide +kernel

/-- The body alone leaves the count; the mark raises it. -/
theorem test_cut_append :
    ((after (.failingEntry .pfailn .appendBody) readingOld).ret.journal.occ,
        (after (.failingEntry .pfailn (.appendMark true)) readingOld).ret.journal.occ) = (0, 1) := by decide +kernel

theorem test_meets_RetainingKeepsTheRetentionWell :
    { bare with power := .failing : State }.power = .failing ∧ bare.power ≠ .retaining ∧ State.powerOn.power = .retaining := by
  decide

theorem test_meets_RetainingKeepsTheRetentionWell_waits :
    State.powerOn.vdd = .belowSwitchover ∧ (after (.retainingExit 0 (.waits .vdd)) State.powerOn).power = .retaining
      ∧ (after (.retainingExit 0 (.waits .vdd)) State.powerOn).vdd ≠ .belowSwitchover := by decide +kernel

theorem test_retention :
    (after .retainingEntry { idle0 with power := .failing }).ret = idle0.ret
      ∧ (after .retainingEntry { idle0 with power := .failing }).power = .retaining
      ∧ (after .vretFall idle0).signature = false ∧ (after .vretFall idle0).ret = idle0.ret := by decide +kernel

/-- FAILING with `s`'s retained state and a signature. -/
def failed (s : State) (g : Bool) : State := { s with power := .failing, signature := g, main := s.main.failing }

theorem test_meets_InvalidSignatureStartsCold :
    (failed idle0 false).power = .failing ∧ State.powerOn.power = .retaining ∧ (failed idle0 false).signature = false
      ∧ State.powerOn.signature = false ∧ (failed idle0 false).port.presents = false
      ∧ (failed { idle0 with port := { pcen := true, pwen := false, poen := true, pa := 6, pbe := allLanes, pd := 1 } }
          false).port.presents = true := by decide

theorem test_coldExits :
    (after (.failingExit 2 .whole) (failed idle0 false)).ret = Retained.cold
      ∧ (after (.failingExit 2 .whole) (failed idle0 false)).main.target = 2
      ∧ (after (.retainingExit 0 (.coldCut .vdd .defaulted)) State.powerOn).power = .retaining
      ∧ (after (.failingExit 2 (.coldCut .rstn .invalid)) (failed idle0 false)).ret = idle0.ret := by decide +kernel

/-- A cold initialisation cut short after the main-well reset: the queue is empty and ALERTN released. -/
theorem test_cut_after_main_reset :
    (let t := after (.failingExit 2 (.coldCut .pfailn .mainReset)) (failed queued false)
     t.power = .failing ∧ t.signature = false ∧ t.pfail = true ∧ t.main = MainWell.cold 2 ∧ t.alertn = false
      ∧ (failed queued false).alertn = true ∧ (after (.failingExit 1 .whole) t).power = .active) := by decide +kernel

/-- W0 OPEN with the policy KEEP, as FAILING leaves it. -/
def keptWindow : State := failed (putWindow bare 0 { desc0 with policy := .keep } (some (openEntry 5 0))) true

theorem test_meets_RecoveryPlacesEveryUnfinishedWindow :
    (failed (withEntry (openEntry 5 0)) true).power = .failing ∧ (failed (withEntry (openEntry 5 0)) true).signature = true
      ∧ (failed (withEntry (openEntry 5 0)) true).ret.journal.Lawful
      ∧ (failed (withEntry (openEntry 5 0)) true).port.presents = false
      ∧ (failed (withEntry (openEntry 5 0)) true).txnState 0 = some .opened
      ∧ ((failed (withEntry (openEntry 5 0)) true).desc 0).policy = .rollback
      ∧ keptWindow.txnState 0 = some .opened ∧ (keptWindow.desc 0).policy = .keep ∧ keptWindow.ret.journal.Lawful
      ∧ keptWindow.port.presents = false ∧ keptWindow.signature = true :=
  ⟨rfl, rfl, Journal.cold_lawful, rfl, by decide, by decide, by decide, by decide, Journal.cold_lawful, rfl, rfl⟩

/-- A recovery that has stopped in phase PLACING, its requests to the windows below `n` made. -/
def placing (s : State) (n : Fin 9) : State := after (.failingExit 0 (.placing n)) (failed s true)

/-- W0 ROLLING_BACK with the one record `x`, as FAILING leaves it, and stopped in phase PLACING behind W0. -/
def placed0 : State := placing { withEntry (openEntry 5 1) with ret.journal := single body0 } 1

theorem test_meets_ExitsCanStopInPlacing :
    (failed (withEntry (openEntry 5 0)) true).power = .failing ∧ (failed (withEntry (openEntry 5 0)) true).signature = true
      ∧ (failed (withEntry (openEntry 5 0)) true).ret.journal.Lawful
      ∧ (failed (withEntry (openEntry 5 0)) true).unfinished 0 = true
      ∧ (placing bare 3).power = .recovering ∧ (placing bare 3).main.phase = some (.placing 3)
      ∧ (placing bare 3).main.tally = some { rolledBack := 0, kept := 0 } ∧ (placing bare 3).ret.journal.Lawful
      ∧ ∀ w : Win, (3 : Fin 9).val ≤ w.val → (placing bare 3).slot w = .empty :=
  ⟨rfl, rfl, Journal.cold_lawful, by decide, rfl, rfl, rfl, Journal.cold_lawful, by decide +kernel⟩

/-- In phase PLACING the engine selects and restores what has been placed; a failure there leaves the rest to the next
recovery, and the exit's command goes on. -/
theorem test_placing :
    placed0.main.phase = some (.placing 1) ∧ placed0.isPending 0 = true ∧ placed0.takesAccesses = false
      ∧ (after .selection placed0).main.walk.isSome = true
      ∧ (after .restoreWriteGrant (after .selection placed0)).main.owner = .rollbackEngine
      ∧ (after .restoreWriteComplete (after .restoreWriteGrant (after .selection placed0))).txnState 0 = some .idle
      ∧ (after .restoreWriteComplete (after .restoreWriteGrant (after .selection placed0))).power = .recovering
      ∧ (after (.failingExit 0 .whole)
          (after .restoreWriteComplete (after .restoreWriteGrant (after .selection placed0)))).power = .active := by
  decide +kernel

/-- KEPT carries the number of records voided, also where the count has decayed. -/
theorem test_kept_count :
    (after (.failingExit 0 .whole)
      { failed (putWindow bare 0 { desc0 with policy := .keep } (some (openEntry 5 7))) true with
        ret.journal := single body0 }).slot 0 = .pending 0x90050001 0x3E0001 := by decide +kernel

theorem test_recovery :
    (after (.failingExit 0 .whole) (failed (withEntry (openEntry 5 0)) true)).power = .recovering
      ∧ (after (.failingExit 0 .whole) (failed (withEntry (openEntry 5 0)) true)).txnState 0 = some .rollingBack
      ∧ (after (.failingExit 0 .whole) keptWindow).slot 0 = .pending 0x90050000 0x3E0001
      ∧ (after (.failingExit 0 .whole) keptWindow).power = .active := by decide +kernel

/-! ## One step -/

/-- The command at the front is run and leaves the queue; an empty queue idles. -/
theorem test_step :
    step { bare with pending := [.indexByteWrite 0x85, .transferStop], main.xfer := .writeIndex }
        = .next { bare with pending := [.transferStop], main.xfer := .writing, main.index := 0x85, main.ack := true }
      ∧ step bare = .next bare := by
  exact ⟨rfl, rfl⟩

/-- W0 with entry `e` and the one record of `journal0`. -/
def oneRecord (e : Entry) : State := { withEntry e with ret.journal := journal0 }

theorem oneRecord_only (e : Entry) (w : Win) (h : (winGet (oneRecord e).ret.entries w).isSome = true) : w = 0 := by
  by_contra hw
  have h' : (winGet (winSet idle0.ret.entries 0 (some e)) w).isSome = true := h
  rw [winGet_winSet, if_neg hw] at h'
  have key : ∀ x, x ≠ 0 → (winGet idle0.ret.entries x).isSome = false := by decide
  rw [key w hw] at h'
  cases h'

/-- Such a retained state is lawful if the entry is. -/
theorem oneRecord_retained (e : Entry) (he : e.Lawful 16 1) : (oneRecord e).ret.Lawful where
  journal := journal0_lawful
  windows := by
    refine ⟨fun w h => ?_, fun v w hn hv hw => ?_⟩
    · obtain rfl := oneRecord_only e w h
      show Descriptor.Enableable (winGet idle0.ret.descriptors 0)
      refine ⟨by decide, by decide, by decide, by decide, ?_⟩
      rintro a (rfl | rfl) <;> decide
    · exact absurd ((oneRecord_only e v hv).trans (oneRecord_only e w hw).symm) hn
  entries := fun w x h => by
    obtain rfl := oneRecord_only e w (by rw [h]; rfl)
    obtain rfl : e = x := Option.some.inj ((State.setEntry_entry_self idle0 0 (some e)).symm.trans h)
    have hl : journal0.liveCount 0 = 1 := by decide +kernel
    exact hl.symm ▸ he
  disabled := fun w h => by
    have key : ∀ v : Win, v ≠ 0 → journal0.liveCount v = 0 := by decide +kernel
    refine key w fun hw => ?_
    subst hw
    have := (State.setEntry_entry_self idle0 0 (some e)).symm.trans h
    cases this
  highWater := Nat.zero_le _

/-- The retained state of `writingNew`. -/
theorem writingNew_retained : writingNew.ret.Lawful :=
  oneRecord_retained (openEntry 1 1) (by constructor <;> simp [openEntry, Entry.fresh])

/-- A lawful state in which the new data of a journaled write is being written. -/
theorem writingNew_lawful : writingNew.Lawful where
  memory := by decide
  oscillator := ⟨by decide, fun h => (by cases h), fun h => (by cases h)⟩
  waiting := ⟨fun h => (by cases h), fun h => (by cases h), fun h => (by cases h)⟩
  queue := by decide
  power :=
    { recovering := by decide, walking := fun h => (by cases h), placing := fun n h => (by cases h),
      otherwise := by decide, good := by decide, stopped := by decide }
  retained := fun _ => writingNew_retained
  engine := fun _ =>
    { running := rfl
      pending := by decide +kernel
      above := fun w e h _ => (by
        have key : ∀ v, writingNew.isPending v = false := by decide +kernel
        rw [key w] at h
        cases h)
      walked := fun k h => (by cases h)
      all := fun w _ h => absurd h (by revert w; decide +kernel)
      placing := fun w h => (by cases h)
      record := fun k h => (by cases h) }
  counters := fun _ w => by
    have h : writingNew.counter w = .absent := by revert w; decide
    rw [State.CounterLawful, h]
    trivial
  access := fun _ => by
    have acc : ∀ a, writingNew.main.access = some a → a = access 0x8010 true 9 .journaled (some 0) .atMemory :=
      fun a h => (Option.some.inj h).symm
    constructor
    case idlePort => decide
    case processor => exact ⟨fun _ => ⟨rfl, _, rfl, rfl⟩, fun _ => rfl⟩
    case examined => exact fun h => (by cases h)
    case engine => exact ⟨fun h => (by cases h), fun ⟨k, h, _⟩ => (by cases h)⟩
    case restore => exact fun h => (by cases h)
    case receipt => exact fun h => (by cases h)
    case cycle => exact fun a c _ h hc => Or.inl (by rw [acc a h]; exact (Option.some.inj hc).symm)
    case claims => exact fun a h _ => Or.inr (by rw [acc a h]; exact ⟨Or.inl rfl, rfl, rfl⟩)
    case held => exact fun a h hc => (by rw [acc a h] at hc; cases hc)
    case timer => exact fun h => (by cases h)
    case ready => exact ⟨fun h => (by cases h), fun ⟨a, h, hc⟩ => (by rw [acc a h] at hc; cases hc)⟩
    case ended => exact fun a h hc => (by rw [acc a h] at hc; cases hc)
    case data => exact fun h => (by cases h)
    case append =>
      rintro a w ⟨c, _, hc, _, _, _, hr⟩
      obtain rfl := Option.some.inj hc
      cases hr
    case covered =>
      rintro a w ⟨c, h, _, _, _, hw, _⟩
      rw [acc a h] at hw ⊢
      obtain rfl := Option.some.inj hw
      refine ⟨?_, by decide +kernel⟩
      rw [State.covers]
      decide +kernel
    case marker => exact fun a w h _ hc => (by rw [acc a h] at hc; cases hc)

/-- W0 rolling back with its one record, in the pending set, and a read held for it, withdrawn or not. -/
def heldFor (b : Bool) : State :=
  { oneRecord (rollingEntry 5 1 .abort) with
    main.pendSet := winSet bare.main.pendSet 0 true
    main.holdTimer := some 3
    main.access := some { access 0x8000 false 0 .held (some 0) .held with withdrawn := b } }

theorem heldFor_lawful (b : Bool) : (heldFor b).Lawful where
  memory := rfl
  oscillator := ⟨show 0 < 1000 by decide, fun h => (by cases h), fun h => (by cases h)⟩
  waiting := ⟨fun h => (by cases h), fun h => (by cases h), fun h => (by cases h)⟩
  queue := Nat.zero_le _
  power :=
    { recovering := fun h => (by cases h), walking := fun h => (by cases h), placing := fun n h => (by cases h),
      otherwise := fun _ => ⟨rfl, rfl⟩, good := fun _ => ⟨rfl, rfl, rfl⟩, stopped := fun h => (by cases h) }
  retained := fun _ =>
    oneRecord_retained (rollingEntry 5 1 .abort) (by constructor <;> simp [rollingEntry, Entry.fresh])
  engine := fun _ => by
    have pend : ∀ w, (heldFor b).isPending w = true ↔ w = 0 := by revert b; decide
    have state : ∀ w, (heldFor b).txnState w = some .rollingBack ↔ w = 0 := by revert b; decide +kernel
    refine
      { running := rfl, pending := fun w h => (state w).mpr ((pend w).mp h), above := fun w e h he => ?_,
        walked := fun k h => (by cases h), all := fun w _ h => Or.inl ((pend w).mpr ((state w).mp h)),
        placing := fun w h => (by cases h), record := fun k h => (by cases h) }
    obtain rfl := (pend w).mp h
    obtain rfl : rollingEntry 5 1 .abort = e :=
      Option.some.inj ((State.setEntry_entry_self idle0 0 (some (rollingEntry 5 1 .abort))).symm.trans he)
    exact Or.inl (by decide)
  counters := fun _ w => by
    have h : (heldFor b).counter w = .absent := by revert w b; decide
    rw [State.CounterLawful, h]
    trivial
  access := fun _ => by
    have acc : ∀ a, (heldFor b).main.access = some a → a = { access 0x8000 false 0 .held (some 0) .held with withdrawn := b } :=
      fun a h => (Option.some.inj h).symm
    have state : (heldFor b).txnState 0 = some .rollingBack := by revert b; decide +kernel
    constructor
    case idlePort => exact ⟨fun _ => rfl, fun _ => rfl⟩
    case processor => exact ⟨fun h => (by cases h), fun ⟨_, a, h, hc⟩ => (by rw [acc a h] at hc; cases hc)⟩
    case examined => exact fun h => (by cases h)
    case engine => exact ⟨fun h => (by cases h), fun ⟨k, h, _⟩ => (by cases h)⟩
    case restore => exact fun h => (by cases h)
    case receipt => exact fun h => (by cases h)
    case cycle => exact fun a c h => (by cases h)
    case claims => exact fun a h hc => (by rw [acc a h] at hc; rcases hc with hc | hc <;> cases hc)
    case held => exact fun a h _ => (by rw [acc a h]; exact ⟨rfl, rfl, 0, rfl, state⟩)
    case timer => exact fun _ => ⟨_, rfl, rfl⟩
    case ready => exact ⟨fun h => (by cases h), fun ⟨a, h, hc⟩ => (by rw [acc a h] at hc; cases hc)⟩
    case ended => exact fun a h hc => (by rw [acc a h] at hc; cases hc)
    case data => exact fun h => (by cases h)
    case append => exact fun a w ⟨c, h, _, hc, _⟩ => (by rw [acc a h] at hc; cases hc)
    case covered => exact fun a w ⟨c, h, _, hc, _⟩ => (by rw [acc a h] at hc; cases hc)
    case marker => exact fun a w h hc => (by rw [acc a h] at hc; cases hc)

/-- All premises on a held access together, in a lawful state: released by a SELECTION, not withdrawn and withdrawn; and
the limit reached while it is withdrawn, inside a TICK too. -/
theorem test_meets_held_statements_lawfully :
    (∀ b, (heldFor b).Lawful) ∧ (heldFor false).mainRuns = true ∧ (heldFor true).takesAccesses = true
      ∧ (heldFor false).txnState 0 = some .rollingBack
      ∧ (heldFor false).main.access = some (access 0x8000 false 0 .held (some 0) .held)
      ∧ (heldFor true).main.access = some { access 0x8000 false 0 .held (some 0) .held with withdrawn := true }
      ∧ (heldFor true).clockRuns = true ∧ (heldFor true).osc.tickDue = false ∧ (heldFor true).osc.milliDue = false
      ∧ (after .selection (heldFor false)).main.access = some (access 0x8000 false 0 .held (some 0) .held)
      ∧ (after .tick (heldFor true)).main.prdy = .pulsed ∧ (after .tick (heldFor true)).main.access = none :=
  ⟨heldFor_lawful, rfl, rfl, by decide +kernel, rfl, rfl, rfl, rfl, rfl, by decide +kernel, by decide +kernel,
    by decide +kernel⟩

/-- Premises of the invariants, in a state that holds something. -/
theorem test_meets_the_invariants :
    Memory.wf writingNew.sram = true ∧ writingNew.main.queue.length ≤ 16 ∧ writingNew.ret.WindowsLawful
      ∧ writingNew.Lawful ∧ ∃ t, step writingNew = .next t ∧ Memory.readWord t.sram 0x8010 = 9 :=
  ⟨by decide, by decide, writingNew_retained.windows, writingNew_lawful, _, rfl, by decide⟩

/-- Premises of the frames: a cycle that lands, one of a read, and none. -/
theorem test_meets_the_frames :
    Instr.landsCycle .newDataWriteComplete = true ∧ (writingNew.main.cycle.map Cycle.wr) = some true
      ∧ (∃ t, exec .newDataWriteComplete writingNew = .next t) ∧ (readingOld.main.cycle.map Cycle.wr) = some false
      ∧ bare.main.cycle = none ∧ Instr.landsCycle .tick = false ∧ Instr.movesJournal .tick = false
      ∧ Instr.movesConfig .tick = false ∧ Instr.movesWindows .transferStop = false ∧ Instr.movesTime .transferStop = false
      ∧ Instr.movesSequencer .tick = false ∧ Instr.movesEngine .tick = false ∧ Instr.movesManagement .tick = false
      ∧ Instr.movesPower .tick = false := ⟨by decide, by decide, ⟨_, rfl⟩, by decide, by decide, by decide, by decide,
    by decide, by decide, by decide, by decide, by decide, by decide, by decide⟩

theorem test_meets_ReceiptHandOnAndWord_word :
    ((receiptWord .kept .noReason 0xFF true 7 1024).extractLsb' 0 11).toNat = 1024
      ∧ (receiptWord .kept .noReason 0xFF true 7 1024).extractLsb' 11 3 = 7#3 := by decide

theorem test_meets_NewDataIsWrittenAfterItsRecord :
    writingNew.Lawful ∧ writingNew.mainRuns = true
      ∧ writingNew.writing (access 0x8010 true 9 .journaled (some 0) .atMemory) 0
      ∧ ∃ t, exec .newDataWriteComplete writingNew = .next t :=
  ⟨writingNew_lawful, rfl, ⟨_, rfl, rfl, rfl, rfl, rfl, rfl⟩, _, rfl⟩

end Sys2Proof.Tests
end

section
/-! PROOFS. The break of a transaction (O10), and the requests FORCE_ABORT (O41) and RELEASE (O42). -/

namespace Sys2Proof.Machine

/-! ## A receipt handed on after an update of the table -/

/-- A hand-on made after an update that moves neither the window's slot, its descriptor nor the queue reports what it
would have reported before the update. -/
theorem State.handOn_reports {s u : State} {w : Win} (o : ReceiptOutcome) (r : ReceiptReason) (q : Byte) (n : Nat)
    (hr : s.mainRuns = true) (hp : PostSame s u) (hs : u.slot w = s.slot w) (hd : u.desc w = s.desc w) :
    HandedOn s (u.handOn w o r q n) w o r q n ∧ EventsAre s (u.handOn w o r q n) (s.superseding w) := by
  have hu : u.mainRuns = true := by
    unfold State.mainRuns
    rw [hp.power]
    exact hr
  refine ⟨HandedOn.congr hs hd (HandedOn.handOn u w o r q n hu), ?_⟩
  rw [← superseding_congr hs]
  exact EventsAre.congr hp (EventsAre.handOn u w o r q n hu)

/-! ## A break (R15, R16, R76) -/

/-- A claim that R87 grants is the grantable one of its class. -/
theorem State.ProcGrant.grantable {s : State} {a : Access} {c : AccessClass} (h : s.ProcGrant a c) :
    s.grantable c = some a := by
  have hclaim : s.procClaim = true := by simp [State.procClaim, h.access, h.waiting]
  have hgrant : s.grantsProc = true := by
    unfold State.grantsProc State.portFree
    rcases h.turn with ht | ⟨hc, hk⟩
    · simp [h.runs, h.free, hclaim, ht]
    · simp [h.runs, h.free, hclaim, hc, hk]
  simp [State.grantable, h.access, hgrant, h.cls]

/-- An append request in OPEN breaks the transaction where the quota is used up, or else where the journal is full. -/
theorem State.appendAnswer_breaks {s : State} {w : Win} {e : Entry} {r : BreakReason} (he : s.entry w = some e)
    (ho : e.state = .opened)
    (hr : r = .quota ∧ e.count = (s.desc w).quota.toNat
      ∨ r = .journalFull ∧ e.count < (s.desc w).quota.toNat ∧ s.ret.journal.occ = 1024) :
    s.appendAnswer w = .breaks r := by
  unfold State.appendAnswer
  rcases hr with ⟨rfl, hq⟩ | ⟨rfl, hq, hf⟩
  · simp [he, ho, hq]
  · simp [he, ho, Nat.not_le.mpr hq, Journal.full, hf]

/-- The state with the processor's claim noted as the last granted (R87) and window `w`'s entry broken (R16), before the
break is reported. -/
def State.brokenEntry (s : State) (w : Win) (e : Entry) (r : BreakReason) : State :=
  State.setEntry { s with main.lastGrantProc := true } w (some (e.toBroken r))

/-- The break reported: its BROKEN receipt handed on and TXN_BROKEN posted (R16). -/
def State.brokenReported (s : State) (w : Win) (e : Entry) (r : BreakReason) : State :=
  ((s.brokenEntry w e r).handOn w .broken r.receipt e.seq e.count).post .txnBroken (some w)
    (detailReceipt .broken r.receipt e.seq 0)

/-- The grant of a journaled write whose append request breaks the transaction reports the break and drops the write. -/
theorem exec_journaledWriteGrant_breaks {s : State} {a : Access} {w : Win} {e : Entry} {r : BreakReason}
    (hg : s.ProcGrant a .journaled) (hw : a.window = some w) (he : s.entry w = some e)
    (hr : s.appendAnswer w = .breaks r) :
    exec .journaledWriteGrant s
      = .next (((s.brokenReported w e r).complete { a with cls := .dropped } none).settle) := by
  have hb : State.breakTxn { s with main.lastGrantProc := true } w r = s.brokenReported w e r := by
    unfold State.breakTxn
    rw [show State.entry { s with main.lastGrantProc := true } w = some e from he]
    rfl
  show execJournaledWriteGrant s = _
  unfold execJournaledWriteGrant
  simp only [hg.grantable, hw, hr, hb]

/-- What a break reports: the BROKEN receipt, and TXN_BROKEN behind what superseding posts. -/
theorem State.brokenReported_reports {s : State} (w : Win) (e : Entry) (r : BreakReason) (hr : s.mainRuns = true) :
    HandedOn s (s.brokenReported w e r) w .broken r.receipt e.seq e.count
      ∧ EventsAre s (s.brokenReported w e r)
          (s.superseding w ++ [(.txnBroken, some w, detailReceipt .broken r.receipt e.seq 0)]) := by
  obtain ⟨hslot, hevents⟩ := State.handOn_reports (u := s.brokenEntry w e r) (w := w) .broken r.receipt e.seq e.count hr
    ⟨rfl, rfl, rfl, rfl, rfl⟩ rfl rfl
  refine ⟨?_, ?_⟩
  · unfold HandedOn State.brokenReported at *
    rw [State.post_slot]
    exact hslot
  · exact EventsAre.append (by simp [State.brokenEntry]) (by simp [State.brokenEntry]) (by simp [State.brokenEntry])
      hevents (EventsAre.post _ _ _ _)

/-- A break's reports leave every entry as the table's update made it, and another window's slot. -/
theorem State.brokenReported_windows (s : State) (w : Win) (e : Entry) (r : BreakReason) (v : Win) :
    (s.brokenReported w e r).entry v = (if v = w then some (e.toBroken r) else s.entry v)
      ∧ (v ≠ w → (s.brokenReported w e r).slot v = s.slot v) := by
  unfold State.brokenReported
  constructor
  · rw [State.post_entry, State.handOn_entry]
    exact State.setEntry_entry _ _ _ _
  · intro hv
    rw [State.post_slot, State.handOn_slot_ne _ _ _ _ _ hv]
    rfl

/-- Settles O10. The table's update moves the entry alone; its reports and the dropped access then move nothing but the
access path, the slots and the queue (`AccessMoves`), and the dropped access neither entries, slots nor events. -/
theorem breakDropsTheWrite : Obligations.BreakDropsTheWrite := by
  intro s a w e r hg hw he ho hf hr
  refine ⟨_, exec_journaledWriteGrant_breaks hg hw he (State.appendAnswer_breaks he ho hr), ?_⟩
  have hf' : (s.brokenReported w e r).noneFollows { a with cls := .dropped } := by
    simpa [State.noneFollows, State.brokenReported, State.brokenEntry] using hf
  have hended := State.settle_complete_ended (s.brokenReported w e r) { a with cls := .dropped } none hf'
  obtain ⟨hentries, hslots, hevents⟩ :=
    State.settle_complete_quiet (s.brokenReported w e r) { a with cls := .dropped } none hf'
  have hmoves : AccessMoves (s.brokenEntry w e r)
      (((s.brokenReported w e r).complete { a with cls := .dropped } none).settle) :=
    (AccessMoves.handOn _ _ _ _ _ _).trans ((AccessMoves.post _ _ _ _).trans
      ((AccessMoves.complete _ _ _).trans (AccessMoves.settle _)))
  generalize ((s.brokenReported w e r).complete { a with cls := .dropped } none).settle = t at *
  obtain ⟨hreceipt, hposts⟩ := State.brokenReported_reports w e r hg.runs
  have hentry (v : Win) : t.entry v = if v = w then some (e.toBroken r) else s.entry v := by
    rw [← (s.brokenReported_windows w e r v).1]
    exact congrArg (winGet · v) hentries
  have hslot (v : Win) : t.slot v = (s.brokenReported w e r).slot v := congrArg (winGet · v) hslots
  have honly := hmoves.only
  refine ⟨by rw [hentry, if_pos rfl]; rfl, ?_, hposts.same hevents, by simpa using hended, fun v hv => ?_,
    hmoves.counter w, hmoves.isPending w, honly.journal, honly.memory, honly.config, honly.management, honly.power,
    hmoves.walk, honly.time.2, hmoves.port, ?_, hmoves.cycle, ?_⟩
  · unfold HandedOn at *
    rw [hslot, hreceipt]
  · exact ⟨by rw [hentry, if_neg hv], hmoves.counter v,
      (hslot v).trans ((s.brokenReported_windows w e r v).2 hv), hmoves.isPending v⟩
  · exact hmoves.owner.trans hg.free
  · rw [hmoves.main]
    rfl

/-! ## A request for one window (R165, R166) -/

/-- The part runs where a request can be received. -/
theorem State.AtRequest.mainRuns {s : State} (h : s.AtRequest) : s.mainRuns = true := by
  have ha := h.1
  simp only [State.portAnswers, State.takesAccesses, Bool.or_eq_true, Bool.and_eq_true, decide_eq_true_eq] at ha
  rcases ha with ha | ⟨ha, -⟩ <;> simp [State.mainRuns, ha]

/-! The receipt of an A0h byte moves the port's own registers alone. -/

@[simp] theorem State.received_entry (s : State) (b : Byte) (v : Win) : (s.received b).entry v = s.entry v := rfl
@[simp] theorem State.received_txnState (s : State) (b : Byte) (v : Win) : (s.received b).txnState v = s.txnState v := rfl
@[simp] theorem State.received_desc (s : State) (b : Byte) (v : Win) : (s.received b).desc v = s.desc v := rfl
@[simp] theorem State.received_counter (s : State) (b : Byte) (v : Win) : (s.received b).counter v = s.counter v := rfl
@[simp] theorem State.received_slot (s : State) (b : Byte) (v : Win) : (s.received b).slot v = s.slot v := rfl
@[simp] theorem State.received_isPending (s : State) (b : Byte) (v : Win) :
    (s.received b).isPending v = s.isPending v := rfl
@[simp] theorem State.received_ret (s : State) (b : Byte) : (s.received b).ret = s.ret := rfl
@[simp] theorem State.received_argWin (s : State) (b : Byte) : (s.received b).argWin = s.argWin := rfl

theorem PostSame.received (s : State) (b : Byte) : PostSame s (s.received b) := ⟨rfl, rfl, rfl, rfl, rfl⟩

/-- What the Transaction Table changes as it takes a request for window `w`: entries, the journal, the pending set,
counters, slots and the event queue, and of another window nothing. -/
structure TakenFor (s u : State) (w : Win) : Prop where
  shape : ∃ en j ps c sl q o,
    u = { s with
          ret.entries := en, ret.journal := j
          main := { s.main with pendSet := ps, counters := c, slots := sl, queue := q, overrun := o } }
  others : OthersSame s u w

section TakenFor
variable {w : Win}

theorem TakenFor.refl (s : State) : TakenFor s s w :=
  ⟨⟨_, _, _, _, _, _, _, rfl⟩, fun _ _ => ⟨rfl, rfl, rfl, rfl⟩⟩

theorem TakenFor.trans {s t u : State} (h : TakenFor s t w) (g : TakenFor t u w) : TakenFor s u w := by
  refine ⟨?_, fun v hv => ?_⟩
  · obtain ⟨_, _, _, _, _, _, _, e⟩ := h.shape
    obtain ⟨_, _, _, _, _, _, _, e'⟩ := g.shape
    rw [e', e]
    exact ⟨_, _, _, _, _, _, _, rfl⟩
  · obtain ⟨he, hc, hs, hp⟩ := h.others v hv
    obtain ⟨ge, gc, gs, gp⟩ := g.others v hv
    exact ⟨ge.trans he, gc.trans hc, gs.trans hs, gp.trans hp⟩

theorem TakenFor.setEntry (s : State) (e : Option Entry) : TakenFor s (s.setEntry w e) w :=
  ⟨⟨_, s.ret.journal, s.main.pendSet, s.main.counters, s.main.slots, s.main.queue, s.main.overrun, rfl⟩,
    fun v hv => ⟨by rw [State.setEntry_entry, if_neg hv], rfl, rfl, rfl⟩⟩

theorem TakenFor.setJournal (s : State) (j : Journal) : TakenFor s (s.setJournal j) w :=
  ⟨⟨s.ret.entries, j, s.main.pendSet, s.main.counters, s.main.slots, s.main.queue, s.main.overrun, rfl⟩,
    fun _ _ => ⟨rfl, rfl, rfl, rfl⟩⟩

theorem TakenFor.setPending (s : State) (b : Bool) : TakenFor s (s.setPending w b) w :=
  ⟨⟨s.ret.entries, s.ret.journal, _, s.main.counters, s.main.slots, s.main.queue, s.main.overrun, rfl⟩,
    fun v hv => ⟨rfl, rfl, rfl, by rw [State.setPending_isPending, if_neg hv]⟩⟩

theorem TakenFor.discardCounter (s : State) : TakenFor s (s.discardCounter w) w :=
  ⟨⟨s.ret.entries, s.ret.journal, s.main.pendSet, _, s.main.slots, s.main.queue, s.main.overrun, rfl⟩,
    fun v hv => ⟨rfl, by rw [State.discardCounter_counter, if_neg hv], rfl, rfl⟩⟩

theorem TakenFor.handOn (s : State) (o : ReceiptOutcome) (r : ReceiptReason) (q : Byte) (n : Nat) :
    TakenFor s (s.handOn w o r q n) w := by
  obtain ⟨x, l, b, e, -⟩ := s.handOn_spec w o r q n
  exact ⟨⟨s.ret.entries, s.ret.journal, s.main.pendSet, s.main.counters, _, l, b, e⟩,
    fun v hv => ⟨by simp, by simp, s.handOn_slot_ne o r q n hv, by simp⟩⟩

/-- A request received, taken by the table and answered, in the words of the statements. -/
theorem TakenFor.requestTaken {s u : State} {b : Byte} (h : s.AtRequest) (m : TakenFor (s.received b) u w)
    (r : Response) : RequestTaken s (u.respond r) b r.code := by
  obtain ⟨_, hxfer, hindex, hwaiting⟩ := h
  obtain ⟨_, _, _, _, _, _, _, rfl⟩ := m.shape
  exact
    { code := by simp [State.received]
      response := by simp
      index := by simp [State.received, hindex]
      port := by simp [State.received, hwaiting]
      access := by simp [SameAccess, State.received]
      sequencer := by simp [SameSequencer, State.received]
      memory := by simp [State.received]
      walk := by simp [State.received]
      power := by simp [SamePower, State.received]
      config := by simp [SameConfig, State.received]
      clock := by simp [SameClock, State.received] }

/-- A request's taking loads no view. -/
theorem TakenFor.views {s u : State} {b : Byte} (m : TakenFor (s.received b) u w) (r : Response) :
    (u.respond r).main.txnView = s.main.txnView ∧ (u.respond r).main.recView = s.main.recView := by
  obtain ⟨_, _, _, _, _, _, _, rfl⟩ := m.shape
  simp [State.received]

/-- A request's taking leaves every other window as it was before the byte was received. -/
theorem TakenFor.othersSame {s u : State} {b : Byte} (m : TakenFor (s.received b) u w) (r : Response) :
    OthersSame s (u.respond r) w := fun v hv => by simpa using m.others v hv

end TakenFor

/-- A request that is only answered changes nothing but the port's own registers. -/
theorem State.received_respond {s : State} (b : Byte) (r : Response) (h : s.AtRequest) :
    RequestTaken s ((s.received b).respond r) b r.code ∧ ((s.received b).respond r).ret = s.ret
      ∧ SameTime s ((s.received b).respond r) ∧ ((s.received b).respond r).main.slots = s.main.slots
      ∧ ((s.received b).respond r).main.pendSet = s.main.pendSet ∧ SameEvents s ((s.received b).respond r)
      ∧ ((s.received b).respond r).main.txnView = s.main.txnView
      ∧ ((s.received b).respond r).main.recView = s.main.recView :=
  ⟨TakenFor.requestTaken (w := 0) h (TakenFor.refl _) r,
    by simp [State.received, SameTime, SameClock, SameEvents]⟩

/-- A request that is only answered leaves every window as it was. -/
theorem State.received_respond_windows (s : State) (b : Byte) (r : Response) (v : Win) :
    ((s.received b).respond r).entry v = s.entry v ∧ ((s.received b).respond r).counter v = s.counter v
      ∧ ((s.received b).respond r).slot v = s.slot v ∧ ((s.received b).respond r).isPending v = s.isPending v := by
  simp

/-- An argument above 7 names no window. -/
theorem State.argWin_of_large {s : State} (h : 8 ≤ s.main.arg.toNat) : s.argWin = none :=
  dif_neg (Nat.not_lt.mpr h)

/-- An argument up to 7 names its window. -/
theorem State.argWin_of_val {s : State} {w : Win} (h : s.main.arg.toNat = w.val) : s.argWin = some w := by
  have hlt : s.main.arg.toNat < 8 := h ▸ w.isLt
  unfold State.argWin
  rw [dif_pos hlt]
  exact congrArg some (Fin.ext h)

/-- A request for the argument's window is answered BAD_ARG for an argument above 7, and is otherwise taken for the
window if it meets no open taking of it. -/
theorem State.request_onArgWin {s : State} {b : Byte} {take : State → Win → State} (h : s.AtRequest)
    (hbusy : s.requestBusy b = s.argWinBusy) (htake : ∀ t : State, t.takeRequest b = t.onArgWin (take t)) :
    (8 ≤ s.main.arg.toNat → s.request b = (s.received b).respond .badArg)
      ∧ ∀ w : Win, s.argWinBusy = false → s.main.arg.toNat = w.val → s.request b = take (s.received b) w := by
  refine ⟨fun harg => ?_, fun w hfree harg => ?_⟩
  · have hwin := State.argWin_of_large harg
    rw [State.request_taken h (hbusy.trans (by simp [State.argWinBusy, hwin])), htake]
    simp only [State.onArgWin, State.received_argWin, hwin]
  · rw [State.request_taken h (hbusy.trans hfree), htake]
    simp only [State.onArgWin, State.received_argWin, State.argWin_of_val harg]

/-! ## FORCE_ABORT (R19) -/

/-- FORCE_ABORT answers BAD_ARG, or is taken for the argument's window. -/
theorem exec_forceAbort {s : State} (x : BitVec 4) (h : s.AtRequest) :
    (8 ≤ s.main.arg.toNat → exec (.forceAbort x) s = .next ((s.received (x ++ 3#4)).respond .badArg))
      ∧ ∀ w : Win, s.argWinBusy = false → s.main.arg.toNat = w.val →
        exec (.forceAbort x) s = .next ((s.received (x ++ 3#4)).takeForceAbort w) := by
  obtain ⟨hbad, htaken⟩ := State.request_onArgWin (b := requestByte x 3) (take := State.takeForceAbort) h
    (by simp [State.requestBusy]) (fun t => by simp [State.takeRequest])
  exact ⟨fun harg => congrArg Host.Outcome.next (hbad harg),
    fun w hb harg => congrArg Host.Outcome.next (htaken w hb harg)⟩

/-- The entry that a FORCE_ABORT ends the transaction of, with the mark of R19 in last ended. -/
def Entry.markForced (e : Entry) : Entry := { e with lastEnded := some { seq := e.seq, kind := .forced } }

/-- FORCE_ABORT of a transaction with no record: the window is IDLE and the ABORTED receipt handed on (R19). -/
def State.forcedIdle (s : State) (w : Win) (e : Entry) : State :=
  ((s.setEntry w (some e.markForced.toIdle)).discardCounter w).handOn w .aborted .forced e.seq 0

/-- FORCE_ABORT of a transaction with records: the window rolls back (R19). -/
def State.forcedRollback (s : State) (w : Win) (e : Entry) : State :=
  (s.startRollback w e.markForced .forced).discardCounter w

/-- FORCE_ABORT of an OPEN or BROKEN transaction, by its count (R19). -/
def State.forceEnded (s : State) (w : Win) (e : Entry) : State :=
  if e.count = 0 then s.forcedIdle w e else s.forcedRollback w e

theorem State.txnState_of_entry {s : State} {w : Win} {e : Entry} (h : s.entry w = some e) :
    s.txnState w = some e.state := congrArg (Option.map Entry.state) h

/-- What FORCE_ABORT does: a window with no transaction answers NOT_OPEN and one that rolls back or is DAMAGED answers
BUSY, with nothing else done; an OPEN or BROKEN transaction ends, by its count (R19). -/
theorem State.takeForceAbort_cases (s : State) (w : Win) :
    (∃ r, s.takeForceAbort w = s.respond r
        ∧ (s.entry w = none ∨ s.txnState w = some .idle → r = .notOpen)
        ∧ (s.txnState w = some .rollingBack ∨ s.txnState w = some .damaged → r = .busy)
        ∧ ∀ e, s.entry w = some e → ¬ (e.state = .opened ∨ e.state = .broken))
      ∨ ∃ e, s.entry w = some e ∧ (e.state = .opened ∨ e.state = .broken)
        ∧ s.takeForceAbort w = (s.forceEnded w e).respond .done := by
  unfold State.takeForceAbort
  cases he : s.entry w with
  | none => exact Or.inl ⟨.notOpen, by simp [State.txnState, he]⟩
  | some e =>
    have ends : (if e.count = 0 then (s.forcedIdle w e).respond .done else (s.forcedRollback w e).respond .done)
        = (s.forceEnded w e).respond .done := by
      unfold State.forceEnded
      split <;> rfl
    rw [State.txnState_of_entry he]
    cases hs : e.state with
    | idle => exact Or.inl ⟨.notOpen, by simp [hs]⟩
    | rollingBack => exact Or.inl ⟨.busy, by simp [hs]⟩
    | damaged => exact Or.inl ⟨.busy, by simp [hs]⟩
    | opened => exact Or.inr ⟨e, rfl, Or.inl hs, by simp only [hs]; exact ends⟩
    | broken => exact Or.inr ⟨e, rfl, Or.inr hs, by simp only [hs]; exact ends⟩

theorem TakenFor.forceEnded (s : State) (w : Win) (e : Entry) : TakenFor s (s.forceEnded w e) w := by
  unfold State.forceEnded
  split
  · exact (TakenFor.setEntry _ _).trans ((TakenFor.discardCounter _).trans (TakenFor.handOn _ _ _ _ _))
  · exact (TakenFor.setEntry _ _).trans ((TakenFor.setPending _ _).trans (TakenFor.discardCounter _))

/-- What FORCE_ABORT of a transaction with no record leaves. -/
theorem State.forcedIdle_spec {s : State} (w : Win) (e : Entry) (hr : s.mainRuns = true) :
    (s.forcedIdle w e).entry w = some e.markForced.toIdle ∧ (s.forcedIdle w e).isPending w = s.isPending w
      ∧ HandedOn s (s.forcedIdle w e) w .aborted .forced e.seq 0
      ∧ EventsAre s (s.forcedIdle w e) (s.superseding w) := by
  obtain ⟨hreceipt, hevents⟩ :=
    State.handOn_reports (u := (s.setEntry w (some e.markForced.toIdle)).discardCounter w) (w := w) .aborted .forced
      e.seq 0 hr ⟨rfl, rfl, rfl, rfl, rfl⟩ rfl rfl
  exact ⟨by simp [State.forcedIdle], by simp [State.forcedIdle], hreceipt, hevents⟩

/-- What FORCE_ABORT of a transaction with records leaves. -/
theorem State.forcedRollback_spec (s : State) (w : Win) (e : Entry) :
    (s.forcedRollback w e).entry w = some (e.markForced.toRollingBack .forced)
      ∧ (s.forcedRollback w e).isPending w = true ∧ (s.forcedRollback w e).slot w = s.slot w
      ∧ SameEvents s (s.forcedRollback w e) := by
  simp [State.forcedRollback, State.startRollback, SameEvents]

/-- FORCE_ABORT leaves the journal to the rollback. -/
theorem State.forceEnded_journal (s : State) (w : Win) (e : Entry) : (s.forceEnded w e).ret.journal = s.ret.journal := by
  unfold State.forceEnded
  split
  · simp [State.forcedIdle]
  · simp [State.forcedRollback, State.startRollback]

/-- FORCE_ABORT of a transaction leaves no counter to expire. -/
theorem State.forceEnded_counter (s : State) (w : Win) (e : Entry) : (s.forceEnded w e).counter w = .absent := by
  unfold State.forceEnded
  split
  · simp [State.forcedIdle]
  · simp [State.forcedRollback]

/-- Settles O41, by the rows of R19: a request that is refused is only answered; one that ends a transaction leaves the
window IDLE with its receipt, or rolling back. -/
theorem forceAbortByState : Obligations.ForceAbortByState := by
  refine ⟨fun s x h harg => ⟨_, (exec_forceAbort x h).1 harg, State.received_respond _ .badArg h⟩,
    fun s x w h hb harg => ?_⟩
  have htaken := (exec_forceAbort x h).2 w hb harg
  rcases (s.received (x ++ 3#4)).takeForceAbort_cases w with ⟨r, hr, hnone, hbusy, hends⟩ | ⟨e, he, ho, hr⟩
  · obtain ⟨hreq, hret, -, -, -, hevents, htxn, hrec⟩ := State.received_respond (x ++ 3#4) r h
    have hleft := s.received_respond_windows (x ++ 3#4) r
    obtain ⟨hentry, hcounter, hslot, hpend⟩ := hleft w
    exact ⟨_, r.code, by rw [htaken, hr], hreq, fun v _ => hleft v, by rw [hret], htxn, hrec,
      fun hrow => by rw [hnone hrow]; rfl, fun hrow => by rw [hbusy hrow]; rfl,
      fun _ => ⟨hentry, hcounter, hslot, hpend, hevents⟩, fun e he ho => absurd ho (hends e he)⟩
  · rw [hr] at htaken
    have hmoves := TakenFor.forceEnded (s.received (x ++ 3#4)) w e
    obtain ⟨htxn, hrec⟩ := hmoves.views .done
    have hstate : s.txnState w = some e.state := State.txnState_of_entry he
    refine ⟨_, 1#8, htaken, hmoves.requestTaken h .done, hmoves.othersSame .done, State.forceEnded_journal _ w e, htxn,
      hrec, fun hrow => ?_, fun hrow => ?_, fun hne => absurd rfl hne, fun e' he' _ => ?_⟩
    · rw [hstate, show s.entry w = some e from he] at hrow
      rcases ho with ho | ho <;> simp [ho] at hrow
    · rw [hstate] at hrow
      rcases ho with ho | ho <;> simp [ho] at hrow
    · obtain rfl : e = e' := Option.some.inj (he.symm.trans he')
      refine ⟨rfl, State.forceEnded_counter _ w e, fun hc => ?_, fun hc => ?_⟩
      · obtain ⟨hentry, hpend, hreceipt, hevents⟩ :=
          State.forcedIdle_spec (s := s.received (x ++ 3#4)) w e h.mainRuns
        rw [show (s.received (x ++ 3#4)).forceEnded w e = _ from if_pos hc]
        exact ⟨hentry, hpend, hreceipt, EventsAre.congr (PostSame.received s _) hevents⟩
      · obtain ⟨hentry, hpend, hslot, hevents⟩ := (s.received (x ++ 3#4)).forcedRollback_spec w e
        rw [show (s.received (x ++ 3#4)).forceEnded w e = _ from if_neg hc]
        exact ⟨hentry, hpend, hslot, hevents⟩

/-! ## RELEASE (R20) -/

/-- RELEASE answers BAD_ARG, or is taken for the argument's window. -/
theorem exec_release {s : State} (x : BitVec 4) (h : s.AtRequest) :
    (8 ≤ s.main.arg.toNat → exec (.release x) s = .next ((s.received (x ++ 4#4)).respond .badArg))
      ∧ ∀ w : Win, s.argWinBusy = false → s.main.arg.toNat = w.val →
        exec (.release x) s = .next ((s.received (x ++ 4#4)).takeRelease w) := by
  obtain ⟨hbad, htaken⟩ := State.request_onArgWin (b := requestByte x 4) (take := State.takeRelease) h
    (by simp [State.requestBusy]) (fun t => by simp [State.takeRequest])
  exact ⟨fun harg => congrArg Host.Outcome.next (hbad harg),
    fun w hb harg => congrArg Host.Outcome.next (htaken w hb harg)⟩

/-- What RELEASE does: a window that is not DAMAGED answers NOT_DAMAGED, with nothing else done; a DAMAGED one has its
records voided and is IDLE (R20). -/
theorem State.takeRelease_cases (s : State) (w : Win) :
    (s.txnState w ≠ some .damaged ∧ s.takeRelease w = s.respond .notDamaged)
      ∨ ∃ e, s.entry w = some e ∧ e.state = .damaged ∧ s.takeRelease w = (s.voidAllToIdle w e).respond .done := by
  unfold State.takeRelease
  cases he : s.entry w with
  | none => exact Or.inl ⟨by simp [State.txnState, he], rfl⟩
  | some e =>
    rw [State.txnState_of_entry he]
    by_cases hs : e.state = .damaged
    · exact Or.inr ⟨e, rfl, hs, if_pos hs⟩
    · exact Or.inl ⟨fun h => hs (Option.some.inj h), if_neg hs⟩

theorem TakenFor.voidAllToIdle (s : State) (w : Win) (e : Entry) : TakenFor s (s.voidAllToIdle w e) w :=
  (TakenFor.setJournal _ _).trans (TakenFor.setEntry _ _)

/-- Settles O42: a DAMAGED window's records go by the void-all of R39 (`Journal.voidAll_spec`); any other window's
RELEASE is only answered. -/
theorem releaseFreesADamagedWindow : Obligations.ReleaseFreesADamagedWindow := by
  refine ⟨fun s x h harg => ⟨_, (exec_release x h).1 harg, State.received_respond _ .badArg h⟩,
    fun s x w h hb harg hring => ?_⟩
  have htaken := (exec_release x h).2 w hb harg
  rcases (s.received (x ++ 4#4)).takeRelease_cases w with ⟨hs, hr⟩ | ⟨e, he, hs, hr⟩
  · obtain ⟨hreq, hret, -, -, -, hevents, htxn, hrec⟩ := State.received_respond (x ++ 4#4) .notDamaged h
    have hleft := s.received_respond_windows (x ++ 4#4) .notDamaged
    obtain ⟨-, hcounter, hslot, hpend⟩ := hleft w
    exact ⟨_, 4#8, by rw [htaken, hr], hreq, fun v _ => hleft v, hcounter, hslot, hpend, hevents, htxn, hrec,
      fun _ => ⟨rfl, hret⟩, fun e he hd => absurd (hd ▸ State.txnState_of_entry he) hs⟩
  · have hmoves := TakenFor.voidAllToIdle (s.received (x ++ 4#4)) w e
    obtain ⟨htxn, hrec⟩ := hmoves.views .done
    obtain ⟨hlawful, -, hothers, hnone, -, -⟩ := Journal.voidAll_spec hring w
    refine ⟨_, 1#8, by rw [htaken, hr], hmoves.requestTaken h .done, hmoves.othersSame .done,
      by simp [State.voidAllToIdle], by simp [State.voidAllToIdle], by simp [State.voidAllToIdle],
      by simp [State.voidAllToIdle, SameEvents, State.received], htxn, hrec,
      fun hn => absurd (hs ▸ State.txnState_of_entry he) hn, fun e' he' _ => ?_⟩
    obtain rfl : e = e' := Option.some.inj (he.symm.trans he')
    exact ⟨rfl, State.setEntry_entry_self _ _ _, hnone, hothers, hlawful⟩

end Sys2Proof.Machine
end

section
/-! PROOFS. The Window Table: its four answers (O4), and the requests ENABLE (O39) and DISABLE (O40). -/

namespace Sys2Proof.Machine

/-! ## Ownership of a granule (R52, R56) -/

/-- A range holds the granules from its base through its limit (R52). -/
theorem Descriptor.holdsGranule_iff (d : Descriptor) (g : Nat) :
    d.holdsGranule g = true ↔ d.base.toNat ≤ g ∧ g ≤ d.limit.toNat := by
  simp [Descriptor.holdsGranule]

theorem Descriptor.holds_iff (d : Descriptor) (a : Addr) :
    d.holds a = true ↔ d.base.toNat ≤ a.toNat / 64 ∧ a.toNat / 64 ≤ d.limit.toNat :=
  d.holdsGranule_iff (granule a)

theorem State.owner_eq_some (s : State) (a : Addr) (w : Win) :
    s.owner a = some w ↔
      (s.enabled w = true ∧ (s.desc w).holds a = true)
        ∧ ∀ v, v < w → ¬ (s.enabled v = true ∧ (s.desc v).holds a = true) := by
  unfold State.owner
  simp only [firstWin_eq_some, Bool.and_eq_true, ← Bool.not_eq_true]

theorem State.owner_eq_none (s : State) (a : Addr) :
    s.owner a = none ↔ ∀ v, ¬ (s.enabled v = true ∧ (s.desc v).holds a = true) := by
  unfold State.owner
  simp only [firstWin_eq_none, Bool.and_eq_true, ← Bool.not_eq_true]

/-! ## The table of answers (R57) -/

/-- A condition that holds of one window alone finds that window first. -/
theorem firstWin_of_unique {p : Win → Bool} {w : Win} (h : p w = true) (hu : ∀ v, p v = true → v = w) :
    firstWin p = some w :=
  (firstWin_eq_some p w).mpr ⟨h, fun v hv => Bool.eq_false_of_not_eq_true fun hp => hv.ne (hu v hp)⟩

/-- The condition under which R57's table gives each answer. -/
def State.AnswerRow (s : State) (a : Addr) : Answer → Prop
  | .control w => s.enabled w = true ∧ (s.desc w).controlWord = a
  | .receipt w => s.enabled w = true ∧ (s.desc w).receiptWord = a
  | .range w => s.owner a = some w
  | .unguarded =>
    s.owner a = none ∧ ∀ w, s.enabled w = true → (s.desc w).controlWord ≠ a ∧ (s.desc w).receiptWord ≠ a

/-- The condition of the answer that the Window Table gives holds, in every state. -/
theorem State.answer_row (s : State) (a : Addr) : s.AnswerRow a (s.answer a) := by
  unfold State.answer
  split
  next w hc => simpa [State.AnswerRow] using ((firstWin_eq_some _ w).mp hc).1
  next hc =>
    split
    next w hr => simpa [State.AnswerRow] using ((firstWin_eq_some _ w).mp hr).1
    next hr =>
      split
      next w ho => exact ho
      next ho =>
        refine ⟨ho, fun w he => ⟨?_, ?_⟩⟩
        · simpa [he] using (firstWin_eq_none _).mp hc w
        · simpa [he] using (firstWin_eq_none _).mp hr w

section Lawful
variable {s : State} {a : Addr} {v w : Win}

/-- A word names at most one enabled window. -/
theorem Retained.WindowsLawful.names_unique (hl : s.ret.WindowsLawful) (hv : s.enabled v = true)
    (hw : s.enabled w = true) (nv : (s.desc v).names a) (nw : (s.desc w).names a) : v = w := by
  by_contra hne
  exact (hl.apart v w hne hv hw a nv).1 nw

/-- A word that names an enabled window lies in no enabled window's range. -/
theorem Retained.WindowsLawful.owner_of_names (hl : s.ret.WindowsLawful) (hw : s.enabled w = true)
    (nw : (s.desc w).names a) : s.owner a = none := by
  rw [State.owner_eq_none]
  rintro v ⟨hv, hin⟩
  have hout : (s.desc v).holds a = false := by
    by_cases h : w = v
    · subst h
      exact (hl.each w hw).outside a nw
    · exact (hl.apart w v h hw hv a nw).2
  exact absurd hin (by simp [hout])

/-- A word whose granule is owned is no enabled window's control word or receipt word. -/
theorem Retained.WindowsLawful.not_names_of_owner (hl : s.ret.WindowsLawful) (ho : s.owner a = some w)
    (hv : s.enabled v = true) : (s.desc v).controlWord ≠ a ∧ (s.desc v).receiptWord ≠ a := by
  have hn : ¬ (s.desc v).names a := fun n => by simp [hl.owner_of_names hv n] at ho
  exact not_or.mp hn

end Lawful

/-- The Window Table finds no window by its words where the word names none. -/
theorem State.no_named_window {s : State} {a : Addr}
    (h : ∀ w, s.enabled w = true → (s.desc w).controlWord ≠ a ∧ (s.desc w).receiptWord ≠ a) :
    firstWin (fun w => s.enabled w && (s.desc w).controlWord = a) = none
      ∧ firstWin (fun w => s.enabled w && (s.desc w).receiptWord = a) = none :=
  ⟨(firstWin_eq_none _).mpr fun w => by simpa using fun he => (h w he).1,
    (firstWin_eq_none _).mpr fun w => by simpa using fun he => (h w he).2⟩

/-- Under the Window Table's law the conditions exclude each other, so each gives its answer. -/
theorem State.answer_eq_iff {s : State} (hl : s.ret.WindowsLawful) (a : Addr) (x : Answer) :
    s.answer a = x ↔ s.AnswerRow a x := by
  refine ⟨fun h => h ▸ s.answer_row a, fun h => ?_⟩
  cases x with
  | control w =>
    obtain ⟨hw, hc⟩ := h
    have hfirst : firstWin (fun v => s.enabled v && (s.desc v).controlWord = a) = some w :=
      firstWin_of_unique (by simp [hw, hc]) fun v hv => by
        simp only [Bool.and_eq_true, decide_eq_true_eq] at hv
        exact hl.names_unique hv.1 hw (Or.inl hv.2) (Or.inl hc)
    simp only [State.answer, hfirst]
  | receipt w =>
    obtain ⟨hw, hr⟩ := h
    have hnone : firstWin (fun v => s.enabled v && (s.desc v).controlWord = a) = none :=
      (firstWin_eq_none _).mpr fun v => by
        simp only [Bool.and_eq_false_imp, decide_eq_false_iff_not]
        intro hv hc
        obtain rfl := hl.names_unique hv hw (Or.inl hc) (Or.inr hr)
        exact (hl.each v hv).apart (hc.trans hr.symm)
    have hfirst : firstWin (fun v => s.enabled v && (s.desc v).receiptWord = a) = some w :=
      firstWin_of_unique (by simp [hw, hr]) fun v hv => by
        simp only [Bool.and_eq_true, decide_eq_true_eq] at hv
        exact hl.names_unique hv.1 hw (Or.inr hv.2) (Or.inr hr)
    simp only [State.answer, hnone, hfirst]
  | range w =>
    obtain ⟨hc, hr⟩ := State.no_named_window fun v hv => hl.not_names_of_owner h hv
    simp only [State.answer, hc, hr, show s.owner a = some w from h]
  | unguarded =>
    obtain ⟨ho, hn⟩ := h
    obtain ⟨hc, hr⟩ := State.no_named_window hn
    simp only [State.answer, hc, hr, ho]

/-- Settles O4: the owner is the first enabled window that holds the granule, and each answer is that of its row. -/
theorem windowTableAnswers : Obligations.WindowTableAnswers := by
  refine ⟨fun s a w => ?_, fun s a => ?_, fun s a hl =>
    ⟨fun w => State.answer_eq_iff hl a (.control w), fun w => State.answer_eq_iff hl a (.receipt w),
      fun w => State.answer_eq_iff hl a (.range w), State.answer_eq_iff hl a .unguarded⟩⟩
  · simpa only [Descriptor.holds_iff] using s.owner_eq_some a w
  · simpa only [Descriptor.holds_iff] using s.owner_eq_none a

/-! ## The tests of ENABLE and DISABLE (R59 to R61, R63) -/

/-- Two ranges overlap where a granule lies in both: then the higher of their bases does (R61). -/
theorem Descriptor.overlaps_iff (d e : Descriptor) :
    d.overlaps e = true ↔ ∃ g, d.holdsGranule g = true ∧ e.holdsGranule g = true := by
  simp only [Descriptor.overlaps, Descriptor.holdsGranule_iff, Bool.and_eq_true, decide_eq_true_eq]
  constructor
  · rintro ⟨⟨⟨hde, hed⟩, hd⟩, he⟩
    exact ⟨max d.base.toNat e.base.toNat, by omega⟩
  · rintro ⟨g, hd, he⟩
    omega

theorem State.someOverlapping_iff (s : State) (w : Win) (p : Win → Bool) :
    s.someOverlapping w p = true ↔
      ∃ v, v ≠ w ∧ s.enabled v = true ∧ (s.desc v).overlaps (s.desc w) = true ∧ p v = true := by
  simp [State.someOverlapping, mem_allWins, and_assoc]

theorem State.notIdle_iff (s : State) (w : Win) :
    s.notIdle w = true ↔ s.enabled w = true ∧ s.txnState w ≠ some .idle := by
  simp [State.notIdle]

/-- The overlap test is the one of R61. -/
theorem State.someOverlapping_notIdle (s : State) (w : Win) :
    s.someOverlapping w s.notIdle = true ↔ s.overlapBusy w := by
  simp only [State.someOverlapping_iff, State.notIdle_iff, Descriptor.overlaps_iff, State.overlapBusy]
  constructor
  · rintro ⟨v, hv, hen, ⟨g, hg⟩, -, hs⟩
    exact ⟨v, g, hv, hen, hs, hg⟩
  · rintro ⟨v, g, hv, hen, hs, hg⟩
    exact ⟨v, hv, hen, ⟨g, hg⟩, hen, hs⟩

/-- The placement test is the one of R60. -/
theorem State.misplaced_iff (s : State) (w : Win) : s.misplaced w = true ↔ s.placementFails w := by
  simp [State.misplaced, State.placementFails, mem_allWins, and_assoc, or_assoc]

/-! ## The answer to ENABLE, row by row (R59) -/

section EnableAnswer
variable {s : State} {w : Win}

theorem State.enableAnswer_already (hen : s.enabled w = true) : s.enableAnswer w = .already := if_pos hen

theorem State.enableAnswer_badRange (hen : s.enabled w = false)
    (hrange : (s.desc w).limit.toNat < (s.desc w).base.toNat) : s.enableAnswer w = .badRange := by
  simp [State.enableAnswer, hen, hrange]

theorem State.enableAnswer_badKey (hen : s.enabled w = false)
    (hrange : (s.desc w).base.toNat ≤ (s.desc w).limit.toNat)
    (hkey : (s.desc w).key = 0x0000#16 ∨ (s.desc w).key = 0xFFFF#16) : s.enableAnswer w = .badKey := by
  simp [State.enableAnswer, hen, hrange.not_gt, hkey]

theorem State.enableAnswer_badQuota (hen : s.enabled w = false)
    (hrange : (s.desc w).base.toNat ≤ (s.desc w).limit.toNat)
    (hkey : (s.desc w).key ≠ 0x0000#16 ∧ (s.desc w).key ≠ 0xFFFF#16)
    (hquota : (s.desc w).quota.toNat = 0 ∨ 1024 < (s.desc w).quota.toNat) : s.enableAnswer w = .badQuota := by
  simp [State.enableAnswer, hen, hrange.not_gt, hkey, hquota]

/-- Behind the tests of a window's own descriptor stand those that look at the other windows. -/
theorem State.enableAnswer_fields (hen : s.enabled w = false)
    (hrange : (s.desc w).base.toNat ≤ (s.desc w).limit.toNat)
    (hkey : (s.desc w).key ≠ 0x0000#16 ∧ (s.desc w).key ≠ 0xFFFF#16)
    (hquota : 1 ≤ (s.desc w).quota.toNat ∧ (s.desc w).quota.toNat ≤ 1024) :
    (s.placementFails w → s.enableAnswer w = .placement)
      ∧ (¬ s.placementFails w → s.overlapBusy w → s.enableAnswer w = .overlapBusy)
      ∧ (¬ s.placementFails w → ¬ s.overlapBusy w → s.enableAnswer w = .done) := by
  obtain ⟨hzero, hones⟩ := hkey
  have hq : ¬ ((s.desc w).quota.toNat = 0 ∨ 1024 < (s.desc w).quota.toNat) := by omega
  have hothers : s.enableAnswer w
      = if s.misplaced w then .placement else if s.someOverlapping w s.notIdle then .overlapBusy else .done := by
    simp [State.enableAnswer, hen, hrange.not_gt, hzero, hones, hq]
  simp only [hothers, ← s.misplaced_iff w, ← s.someOverlapping_notIdle w]
  exact ⟨fun hp => if_pos hp, fun hp ho => by rw [if_neg hp, if_pos ho], fun hp ho => by rw [if_neg hp, if_neg ho]⟩

end EnableAnswer

/-! ## The answer to DISABLE, row by row (R63) -/

theorem State.disableAnswer_already {s : State} {w : Win} (hen : s.enabled w = false) :
    s.disableAnswer w = .already := by
  simp [State.disableAnswer, hen]

theorem State.disableAnswer_busy {s : State} {w : Win} (hen : s.enabled w = true)
    (h : s.txnState w ≠ some .idle ∨ s.overlapBusy w) : s.disableAnswer w = .busy := by
  rw [← s.someOverlapping_notIdle w] at h
  rcases h with hs | ho
  · simp [State.disableAnswer, hen, (s.notIdle_iff w).mpr ⟨hen, hs⟩]
  · simp [State.disableAnswer, hen, ho]

theorem State.disableAnswer_done {s : State} {w : Win} (hen : s.enabled w = true) (hs : s.txnState w = some .idle)
    (ho : ¬ s.overlapBusy w) : s.disableAnswer w = .done := by
  rw [← s.someOverlapping_notIdle w] at ho
  simp [State.disableAnswer, State.notIdle, hen, hs, ho]

/-! ## A request to the Window Table (R59, R62 to R64) -/

/-- What a request to the Window Table leaves as it was: nothing moves but the port's own registers and, with response
DONE, the entries. -/
structure WindowTested (s t : State) (b r : Byte) : Prop where
  taken : RequestTaken s t b r
  journal : t.ret.journal = s.ret.journal
  slots : t.main.slots = s.main.slots
  counters : t.main.counters = s.main.counters
  events : SameEvents s t
  pendSet : t.main.pendSet = s.main.pendSet
  views : t.main.txnView = s.main.txnView ∧ t.main.recView = s.main.recView
  refused : r ≠ 1#8 → t.ret = s.ret

/-- The taking of a request that answers `answer` and, with DONE, gives window `w` the entry `e` or none (R62, R64). -/
def State.takeTest (s : State) (w : Win) (answer : Response) (e : Option Entry) : State :=
  if answer = .done then (s.setEntry w e).respond .done else s.respond answer

theorem State.takeEnable_eq (s : State) (w : Win) :
    s.takeEnable w = s.takeTest w (s.enableAnswer w) (some Entry.fresh) := by
  unfold State.takeEnable State.takeTest
  cases s.enableAnswer w <;> rfl

theorem State.takeDisable_eq (s : State) (w : Win) :
    s.takeDisable w = s.takeTest w (s.disableAnswer w) none := by
  unfold State.takeDisable State.takeTest
  cases s.disableAnswer w <;> rfl

/-- A request that is only answered keeps the whole retained state. -/
theorem WindowTested.respond {s : State} (b : Byte) (r : Response) (h : s.AtRequest) :
    WindowTested s ((s.received b).respond r) b r.code := by
  obtain ⟨htaken, hret, ⟨hcounters, -⟩, hslots, hpend, hevents, htxn, hrec⟩ := State.received_respond b r h
  exact ⟨htaken, by rw [hret], hslots, hcounters, hevents, hpend, ⟨htxn, hrec⟩, fun _ => hret⟩

/-- A request that is accepted, which changes window `w`'s entry alone. -/
theorem WindowTested.setEntry {s : State} (b : Byte) (w : Win) (e : Option Entry) (h : s.AtRequest) :
    WindowTested s (((s.received b).setEntry w e).respond .done) b Response.done.code := by
  have hmoves : TakenFor (s.received b) ((s.received b).setEntry w e) w := TakenFor.setEntry (s.received b) e
  exact
    { taken := hmoves.requestTaken h .done
      journal := by simp
      slots := by simp [State.received]
      counters := by simp [State.received]
      events := by simp [SameEvents, State.received]
      pendSet := by simp [State.received]
      views := hmoves.views .done
      refused := fun hne => absurd rfl hne }

theorem WindowTested.takeTest {s : State} (b : Byte) (w : Win) (r : Response) (e : Option Entry) (h : s.AtRequest) :
    WindowTested s ((s.received b).takeTest w r e) b r.code := by
  unfold State.takeTest
  split
  next hr =>
    subst hr
    exact WindowTested.setEntry b w e h
  next => exact WindowTested.respond b r h

/-- An accepted request leaves window `w` with the entry `e` or none, and every other window with its own. -/
theorem State.takeTest_entries (s : State) (b : Byte) (w : Win) (e : Option Entry) :
    ((s.received b).takeTest w .done e).entry w = e
      ∧ ∀ v, v ≠ w → ((s.received b).takeTest w .done e).entry v = s.entry v := by
  rw [State.takeTest, if_pos rfl]
  exact ⟨by simp, fun v hv => by simp [State.setEntry_entry, hv]⟩

/-- A request to the Window Table that meets no open taking is answered BAD_ARG for an argument above 7, and otherwise
by `answer` for the argument's window, which with DONE has the entry `e` or none from then on. -/
theorem State.request_windowTest {s : State} {b : Byte} {take : State → Win → State} {answer : State → Win → Response}
    {e : Option Entry} (h : s.AtRequest) (hbusy : s.requestBusy b = false)
    (htake : (s.received b).takeRequest b = (s.received b).onArgWin (take (s.received b)))
    (htest : ∀ w, take (s.received b) w = (s.received b).takeTest w (answer s w) e) :
    ∃ r, WindowTested s (s.request b) b r ∧ (8 ≤ s.main.arg.toNat → r = 12#8)
      ∧ ∀ w : Win, s.main.arg.toNat = w.val →
          r = (answer s w).code
            ∧ (answer s w = .done → (s.request b).entry w = e ∧ ∀ v, v ≠ w → (s.request b).entry v = s.entry v) := by
  rw [State.request_taken h hbusy, htake]
  rcases (s.received b).onArgWin_cases (take (s.received b)) with ⟨harg, hr⟩ | ⟨w, harg, hr⟩
  · have hlarge : 8 ≤ s.main.arg.toNat := harg
    rw [hr]
    exact ⟨_, WindowTested.respond b .badArg h, fun _ => rfl, fun w hw => by omega⟩
  · have hval : s.main.arg.toNat = w.val := harg
    rw [hr, htest w]
    refine ⟨_, WindowTested.takeTest b w (answer s w) e h, fun hlarge => by omega, fun v hv => ?_⟩
    obtain rfl : w = v := Fin.ext (hval.symm.trans hv)
    exact ⟨rfl, fun hdone => hdone ▸ State.takeTest_entries s b w e⟩

theorem exec_enable (s : State) (x : BitVec 4) : exec (.enable x) s = .next (s.request (requestByte x 1)) := rfl

theorem exec_disable (s : State) (x : BitVec 4) : exec (.disable x) s = .next (s.request (requestByte x 2)) := rfl

/-- Settles O39: the request is answered by the first row of R59 that holds (`enableAnswer_…`). -/
theorem enableTestsInOrder : Obligations.EnableTestsInOrder := by
  intro s x h hfree
  obtain ⟨r, ht, hbad, hwin⟩ :=
    State.request_windowTest (s := s) (b := requestByte x 1) (take := State.takeEnable) (answer := State.enableAnswer)
      (e := some Entry.fresh) h (by simpa [State.requestBusy] using hfree) (by simp [State.takeRequest])
      (fun w => State.takeEnable_eq _ w)
  refine ⟨_, r, exec_enable s x, ht.taken, ht.journal, ht.slots, ht.counters, ht.events, ht.pendSet,
    ht.views.1, ht.views.2, hbad, ht.refused, fun w harg => ?_⟩
  obtain ⟨rfl, hentries⟩ := hwin w harg
  refine ⟨fun hen => by rw [State.enableAnswer_already hen]; rfl, fun hen =>
    ⟨fun hrange => by rw [State.enableAnswer_badRange hen hrange]; rfl, fun hrange =>
    ⟨fun hkey => by rw [State.enableAnswer_badKey hen hrange hkey]; rfl, fun hzero hones =>
    ⟨fun hquota => by rw [State.enableAnswer_badQuota hen hrange ⟨hzero, hones⟩ hquota]; rfl, fun hlow hhigh => ?_⟩⟩⟩⟩
  obtain ⟨hplacement, hoverlap, hdone⟩ := State.enableAnswer_fields hen hrange ⟨hzero, hones⟩ ⟨hlow, hhigh⟩
  exact ⟨fun hp => by rw [hplacement hp]; rfl, fun hp => ⟨fun ho => by rw [hoverlap hp ho]; rfl, fun ho =>
    ⟨by rw [hdone hp ho]; rfl, hentries (hdone hp ho)⟩⟩⟩

/-- Settles O40: the request is answered by the first row of R63 that holds (`disableAnswer_…`). -/
theorem disableTestsInOrder : Obligations.DisableTestsInOrder := by
  intro s x h hfree
  obtain ⟨r, ht, hbad, hwin⟩ :=
    State.request_windowTest (s := s) (b := requestByte x 2) (take := State.takeDisable) (answer := State.disableAnswer)
      (e := none) h (by simpa [State.requestBusy] using hfree) (by simp [State.takeRequest])
      (fun w => State.takeDisable_eq _ w)
  refine ⟨_, r, exec_disable s x, ht.taken, ht.journal, ht.slots, ht.counters, ht.events, ht.pendSet,
    ht.views.1, ht.views.2, hbad, ht.refused, fun w harg => ?_⟩
  obtain ⟨rfl, hentries⟩ := hwin w harg
  refine ⟨fun hen => by rw [State.disableAnswer_already hen]; rfl, fun hen =>
    ⟨fun hs => by rw [State.disableAnswer_busy hen (Or.inl hs)]; rfl, fun hs =>
    ⟨fun ho => by rw [State.disableAnswer_busy hen (Or.inr ho)]; rfl, fun ho => ?_⟩⟩⟩
  have hdone := State.disableAnswer_done hen hs ho
  exact ⟨by rw [hdone]; rfl, hentries hdone⟩

end Sys2Proof.Machine
end

section
/-! PROOFS. A receipt handed on, and the fields of its word (O24). -/

namespace Sys2Proof.Machine

/-! ## The hand-on (R129 to R131) -/

/-- The event queue is closed to posts in FAILING (R144). -/
theorem State.mainRuns_of_failing {s : State} (h : s.power = .failing) : s.mainRuns = false := by
  simp [State.mainRuns, h]

/-- Where the main well does not run, the receipt is discarded (R129). -/
theorem State.handOn_of_not_mainRuns {s : State} (h : s.mainRuns = false) (w : Win) (o : ReceiptOutcome)
    (r : ReceiptReason) (q : Byte) (n : Nat) : s.handOn w o r q n = s := by
  unfold State.handOn
  simp [h]

/-- The whole of a hand-on while the main well runs: the slot takes the new word, and the queue and the overrun flag are
left as superseding leaves them. -/
theorem State.handOn_eq {s : State} (hr : s.mainRuns = true) (w : Win) (o : ReceiptOutcome) (r : ReceiptReason)
    (q : Byte) (n : Nat) :
    s.handOn w o r q n
      = { s with
          main.slots :=
            winSet s.main.slots w (.pending (receiptWord o r q (s.receiptWaits w) w n) (s.desc w).receiptWord)
          main.queue := (s.postAll (s.superseding w)).main.queue
          main.overrun := (s.postAll (s.superseding w)).main.overrun } := by
  obtain ⟨x, l, f, hshape, -⟩ := s.handOn_spec w o r q n
  have hslot : (s.handOn w o r q n).slot w
      = .pending (receiptWord o r q (s.receiptWaits w) w n) (s.desc w).receiptWord := HandedOn.handOn s w o r q n hr
  obtain ⟨hqueue, hoverrun⟩ := EventsAre.handOn s w o r q n hr
  rw [← hqueue, ← hoverrun, ← hslot, hshape]
  simp [State.slot]

/-- A slot that is EMPTY or WRITING holds no receipt to supersede (R131). -/
theorem State.supersedes_nothing {s : State} {w : Win} (h : s.slot w = .empty ∨ s.slot w = .writing) :
    s.receiptWaits w = false ∧ s.superseding w = [] := by
  unfold State.receiptWaits State.superseding
  rcases h with h | h <;> simp [h]

/-- A PENDING slot's receipt is superseded, and the event carries its outcome code (R130). -/
theorem State.supersedes_pending {s : State} {w : Win} {old : Word} {x : Addr} (h : s.slot w = .pending old x) :
    s.receiptWaits w = true
      ∧ s.superseding w = [(.receiptSuperseded, some w, old.extractLsb' 28 4 ++ 0#28)] := by
  unfold State.receiptWaits State.superseding
  simp [h, detailSuperseded]

/-! ## The fields of the receipt word (R176)

A field stands above the fields appended after it: those are stepped over by their widths. -/

section ReceiptWord

variable (o : ReceiptOutcome) (r : ReceiptReason) (q : Byte) (b : Bool) (w : Win) (n : Nat)

theorem receiptWord_outcome : (receiptWord o r q b w n).extractLsb' 28 4 = o.code := by
  unfold receiptWord
  simp (disch := decide) only [BitVec.extractLsb'_append_eq_of_le]
  exact BitVec.extractLsb'_eq_self

theorem receiptWord_reason : (receiptWord o r q b w n).extractLsb' 24 4 = r.code := by
  unfold receiptWord
  simp (disch := decide) only [BitVec.extractLsb'_append_eq_of_le]
  exact BitVec.extractLsb'_append_eq_right

theorem receiptWord_seq : (receiptWord o r q b w n).extractLsb' 16 8 = q := by
  unfold receiptWord
  simp (disch := decide) only [BitVec.extractLsb'_append_eq_of_le]
  exact BitVec.extractLsb'_append_eq_right

theorem receiptWord_superseded : (receiptWord o r q b w n).getLsbD 15 = b := by
  simp only [receiptWord, BitVec.getLsbD_append]
  simp

theorem receiptWord_zero : (receiptWord o r q b w n).getLsbD 14 = false := by
  simp only [receiptWord, BitVec.getLsbD_append]
  simp

theorem receiptWord_window : (receiptWord o r q b w n).extractLsb' 11 3 = BitVec.ofNat 3 w.val := by
  unfold receiptWord
  simp (disch := decide) only [BitVec.extractLsb'_append_eq_of_le]
  exact BitVec.extractLsb'_append_eq_right

/-- A count up to the journal's 1024 records is below 2^11. -/
theorem receiptWord_count (h : n ≤ 1024) : ((receiptWord o r q b w n).extractLsb' 0 11).toNat = n := by
  have hfield : (receiptWord o r q b w n).extractLsb' 0 11 = BitVec.ofNat 11 n := BitVec.extractLsb'_append_eq_right
  rw [hfield, BitVec.toNat_ofNat]
  omega

end ReceiptWord

/-- No outcome is coded 0 (R136). -/
theorem ReceiptOutcome.code_ne_zero (o : ReceiptOutcome) : o.code ≠ 0#4 := by
  cases o <;> decide

/-- Settles O24: a hand-on is `State.handOn_eq`, read for a slot with and without a waiting receipt; the word's fields
are `receiptWord_…`. -/
theorem receiptHandOnAndWord : Obligations.ReceiptHandOnAndWord := by
  refine ⟨fun s w o r q n => ⟨fun hfailing => ?_, fun hr => ?_⟩, fun o r q b w n => ?_⟩
  · exact State.handOn_of_not_mainRuns (State.mainRuns_of_failing hfailing) w o r q n
  · refine ⟨_, _, _, State.handOn_eq hr w o r q n, fun hfree => ?_, fun old x hpending => ?_⟩
    · obtain ⟨hbit, hnone⟩ := State.supersedes_nothing hfree
      rw [hnone]
      exact ⟨hbit, rfl, rfl⟩
    · obtain ⟨hbit, hone⟩ := State.supersedes_pending hpending
      rw [hone]
      exact ⟨hbit, rfl, rfl⟩
  · exact ⟨receiptWord_outcome o r q b w n, receiptWord_reason o r q b w n, receiptWord_seq o r q b w n,
      receiptWord_superseded o r q b w n, receiptWord_zero o r q b w n, receiptWord_window o r q b w n,
      receiptWord_count o r q b w n, o.code_ne_zero⟩

end Sys2Proof.Machine
end

section
/-! PROOFS. The frame of a command: what each leaves alone, and the Window Table's law (R57). -/

namespace Sys2Proof.Machine

/-! ## The Window Table's law (R57) -/

/-- The law speaks of the descriptors and of which windows are enabled: it stays where no further window is. -/
theorem Retained.WindowsLawful.of_fewer {r q : Retained} (h : r.WindowsLawful) (hd : q.descriptors = r.descriptors)
    (he : ∀ v, (winGet q.entries v).isSome = true → (winGet r.entries v).isSome = true) : q.WindowsLawful where
  each w hw := hd ▸ h.each w (he w hw)
  apart v w hvw hv hw := hd ▸ h.apart v w hvw (he v hv) (he w hw)

theorem Retained.WindowsLawful.setEntry_some {s : State} {w : Win} {x : Entry} (he : s.entry w = some x) (y : Entry)
    (h : s.ret.WindowsLawful) : (s.setEntry w (some y)).ret.WindowsLawful := by
  refine h.of_fewer rfl fun v hv => ?_
  by_cases hvw : v = w
  · subst hvw
    exact Option.isSome_iff_exists.mpr ⟨x, he⟩
  · rwa [State.setEntry, winGet_winSet_ne _ _ hvw] at hv

theorem Retained.WindowsLawful.setEntry_none (s : State) (w : Win) (h : s.ret.WindowsLawful) :
    (s.setEntry w none).ret.WindowsLawful := by
  refine h.of_fewer rfl fun v hv => ?_
  by_cases hvw : v = w
  · subst hvw
    simp [State.setEntry] at hv
  · rwa [State.setEntry, winGet_winSet_ne _ _ hvw] at hv

/-- A drop that is noted enables no window (R17). -/
theorem Retained.WindowsLawful.of_dropped {s t : State} (h : s.ret.WindowsLawful)
    (hd : t.ret.descriptors = s.ret.descriptors)
    (he : ∀ v, t.entry v = s.entry v
      ∨ ∃ e, s.entry v = some e ∧ e.state = .broken ∧ t.entry v = some { e with dropReported := true }) :
    t.ret.WindowsLawful := by
  refine h.of_fewer hd fun v hv => ?_
  change (s.entry v).isSome = true
  rcases he v with h1 | ⟨e, h1, -⟩
  · rw [← h1]
    exact hv
  · simp [h1]

/-- A window that ENABLE accepts has passed the tests of R59 and R60. -/
theorem State.enableAnswer_done_tested (s : State) {w : Win} (ha : s.enableAnswer w = .done) :
    ((s.desc w).base.toNat ≤ (s.desc w).limit.toNat
        ∧ ((s.desc w).key ≠ 0x0000#16 ∧ (s.desc w).key ≠ 0xFFFF#16)
        ∧ 1 ≤ (s.desc w).quota.toNat ∧ (s.desc w).quota.toNat ≤ 1024)
      ∧ ¬ s.placementFails w := by
  have hne (r : Response) (hr : r ≠ .done) : s.enableAnswer w ≠ r := fun h => hr (h.symm.trans ha)
  have hw : s.enabled w = false := by
    by_contra hc
    exact hne _ (by decide) (State.enableAnswer_already (Bool.eq_true_of_not_eq_false hc))
  have hrange : (s.desc w).base.toNat ≤ (s.desc w).limit.toNat := by
    by_contra hc
    exact hne _ (by decide) (State.enableAnswer_badRange hw (not_le.mp hc))
  have hkey : (s.desc w).key ≠ 0x0000#16 ∧ (s.desc w).key ≠ 0xFFFF#16 := by
    by_contra hc
    exact hne _ (by decide) (State.enableAnswer_badKey hw hrange (by tauto))
  have hquota : 1 ≤ (s.desc w).quota.toNat ∧ (s.desc w).quota.toNat ≤ 1024 := by
    by_contra hc
    exact hne _ (by decide) (State.enableAnswer_badQuota hw hrange hkey (by omega))
  exact ⟨⟨hrange, hkey, hquota⟩, fun hp =>
    hne _ (by decide) ((State.enableAnswer_fields hw hrange hkey hquota).1 hp)⟩

/-- ENABLE's tests are what the law asks of a further window (R59, R60). -/
theorem Retained.WindowsLawful.enabled {s : State} {w : Win} (ha : s.enableAnswer w = .done) (x : Entry)
    (h : s.ret.WindowsLawful) : (s.setEntry w (some x)).ret.WindowsLawful := by
  obtain ⟨⟨hrange, hkey, hquota⟩, hplace⟩ := s.enableAnswer_done_tested ha
  simp only [State.placementFails, not_or] at hplace
  obtain ⟨hapart, hcontrol, hreceipt, hothers⟩ := hplace
  have hown : (s.desc w).Enableable := by
    refine ⟨hrange, hkey, hquota, hapart, ?_⟩
    rintro a (rfl | rfl)
    · simpa using hcontrol
    · simpa using hreceipt
  have hother (v : Win) (hne : v ≠ w) (hv : s.enabled v = true) (a : Addr) :
      ((s.desc w).names a → ¬ (s.desc v).names a ∧ (s.desc v).holds a = false)
        ∧ ((s.desc v).names a → (s.desc w).holds a = false) := by
    have hnot := fun h => hothers ⟨v, hne, hv, h⟩
    simp only [Descriptor.names]
    refine ⟨?_, ?_⟩
    · rintro (rfl | rfl) <;> grind
    · rintro (rfl | rfl) <;> grind
  have hent (v : Win) (hne : v ≠ w) (hv : (winGet (s.setEntry w (some x)).ret.entries v).isSome = true) :
      s.enabled v = true := by
    rwa [State.setEntry, winGet_winSet_ne _ _ hne] at hv
  constructor
  · intro v hv
    by_cases hvw : v = w
    · subst hvw
      exact hown
    · exact h.each v (hent v hvw hv)
  · intro v u hvu hv hu a hn
    by_cases hvw : v = w
    · subst hvw
      exact (hother u (Ne.symm hvu) (hent u (Ne.symm hvu) hu) a).1 hn
    · by_cases huw : u = w
      · subst huw
        exact ⟨fun hn' => ((hother v hvw (hent v hvw hv) a).1 hn').1 hn, (hother v hvw (hent v hvw hv) a).2 hn⟩
      · exact h.apart v u hvu (hent v hvw hv) (hent u huw hu) a hn

/-- No window is enabled after a cold initialisation (R149). -/
theorem Retained.windowsLawful_cold : Retained.cold.WindowsLawful where
  each w hw := by simp [Retained.cold] at hw
  apart v w _ hv := by simp [Retained.cold] at hv

/-- A disabled window's descriptor is not in the law. -/
theorem Retained.WindowsLawful.setDescriptor {s : State} {w : Win} (hw : s.enabled w = false) (d : Descriptor)
    (h : s.ret.WindowsLawful) : ({ s.ret with descriptors := winSet s.ret.descriptors w d } : Retained).WindowsLawful := by
  have hne (v : Win) (hv : (winGet s.ret.entries v).isSome = true) : v ≠ w := by
    rintro rfl
    exact absurd (hw.symm.trans hv) (by decide)
  constructor
  · intro v hv
    dsimp only
    rw [winGet_winSet_ne _ _ (hne v hv)]
    exact h.each v hv
  · intro v u hvu hv hu
    dsimp only
    rw [winGet_winSet_ne _ _ (hne v hv), winGet_winSet_ne _ _ (hne u hu)]
    exact h.apart v u hvu hv hu

/-! ## The frame of a command -/

/-- What command `c` keeps: the queue of waiting commands, the bound of the event queue (R170), the SRAM's canonical form
(log 4), the Window Table's law but at a fall of VRET (R57, R146), and every part of the state that its lists do not
name. -/
structure Frame (c : Instr) (s t : State) : Prop where
  pending : t.pending = s.pending
  events : s.main.queue.length ≤ Config.queueCapacity → t.main.queue.length ≤ Config.queueCapacity
  form : Memory.wf s.sram = true → Memory.wf t.sram = true
  table : c ≠ .vretFall → s.ret.WindowsLawful → t.ret.WindowsLawful
  sram : c.landsCycle = false → t.sram = s.sram
  journal : c.movesJournal = false → t.ret.journal = s.ret.journal
  config : c.movesConfig = false → SameConfig s t
  windows : c.movesWindows = false → t.ret.entries = s.ret.entries ∧ t.main.slots = s.main.slots
  time : c.movesTime = false → SameTime s t
  sequencer : c.movesSequencer = false → SameSequencer s t
  engine : c.movesEngine = false → SameEngine s t
  management : c.movesManagement = false → SameManagement s t
  power : c.movesPower = false → SamePower s t

/-- A part that the command's list names has nothing to keep. -/
theorem named {b : Bool} {p : Prop} (hb : b = true) (h : b = false) : p := absurd (hb.symm.trans h) (by decide)

section Frame
variable {c : Instr}

theorem Frame.refl (s : State) : Frame c s s where
  pending := rfl
  events := id
  form := id
  table _ := id
  sram _ := rfl
  journal _ := rfl
  config _ := ⟨rfl, rfl, rfl, rfl, rfl⟩
  windows _ := ⟨rfl, rfl⟩
  time _ := ⟨rfl, rfl, rfl⟩
  sequencer _ := ⟨rfl, rfl, rfl, rfl, rfl, rfl⟩
  engine _ := ⟨rfl, rfl, rfl⟩
  management _ := ⟨rfl, rfl, rfl, rfl, rfl, rfl, rfl, rfl, rfl, rfl, rfl, rfl, rfl, rfl, rfl⟩
  power _ := ⟨rfl, rfl, rfl, rfl, rfl, rfl, rfl⟩

theorem Frame.trans {s t u : State} (h : Frame c s t) (g : Frame c t u) : Frame c s u where
  pending := g.pending.trans h.pending
  events b := g.events (h.events b)
  form b := g.form (h.form b)
  table hc b := g.table hc (h.table hc b)
  sram hc := (g.sram hc).trans (h.sram hc)
  journal hc := (g.journal hc).trans (h.journal hc)
  config hc := by
    have h1 := h.config hc
    have h2 := g.config hc
    simp_all [SameConfig]
  windows hc := ⟨(g.windows hc).1.trans (h.windows hc).1, (g.windows hc).2.trans (h.windows hc).2⟩
  time hc := by
    have h1 := h.time hc
    have h2 := g.time hc
    simp_all [SameTime, SameClock]
  sequencer hc := by
    have h1 := h.sequencer hc
    have h2 := g.sequencer hc
    simp_all [SameSequencer]
  engine hc := by
    have h1 := h.engine hc
    have h2 := g.engine hc
    simp_all [SameEngine]
  management hc := by
    have h1 := h.management hc
    have h2 := g.management hc
    simp_all [SameManagement]
  power hc := by
    have h1 := h.power hc
    have h2 := g.power hc
    simp_all [SamePower]

/-! ### Updates of one part -/

/-- The processor port and the access in flight belong to no list. -/
theorem Frame.setAccess (s : State) (p : ProcPort) (a : Option Access) (n : Option Nat) (r : Prdy) (d : Option Word) :
    Frame c s { s with port := p, main.access := a, main.holdTimer := n, main.prdy := r, main.pd := d } :=
  { (Frame.refl s : Frame c s s) with }

theorem Frame.setPort (s : State) (p : ProcPort) : Frame c s { s with port := p } :=
  { (Frame.refl s : Frame c s s) with }

theorem Frame.useFree (s : State) (n : Nat) : Frame c s (s.useFree n) := { (Frame.refl s : Frame c s s) with }

theorem Frame.post (s : State) (k : EventKind) (w : Option Win) (d : Word) : Frame c s (s.post k w d) := by
  obtain ⟨q, o, e, hb⟩ := s.post_spec k w d
  rw [e]
  exact { (Frame.refl s : Frame c s s) with events := hb }

theorem Frame.handOn (hc : c.movesWindows = true) (s : State) (w : Win) (o : ReceiptOutcome) (r : ReceiptReason)
    (q : Byte) (n : Nat) : Frame c s (s.handOn w o r q n) := by
  obtain ⟨x, l, b, e, hb⟩ := s.handOn_spec w o r q n
  rw [e]
  exact { (Frame.refl s : Frame c s s) with events := hb, windows := named hc }

/-- An enabled window's entry is set. -/
theorem Frame.setEntry (hc : c.movesWindows = true) {s : State} {w : Win} {x : Entry} (he : s.entry w = some x)
    (y : Entry) : Frame c s (s.setEntry w (some y)) :=
  { (Frame.refl s : Frame c s s) with table := fun _ => .setEntry_some he y, windows := named hc }

theorem Frame.setJournal (hc : c.movesJournal = true) (s : State) (j : Journal) : Frame c s (s.setJournal j) :=
  { (Frame.refl s : Frame c s s) with table := fun _ h => h.of_fewer rfl fun _ => id, journal := named hc }

theorem Frame.setCounter (hc : c.movesTime = true) (s : State) (w : Win) (x : Counter) :
    Frame c s (s.setCounter w x) := { (Frame.refl s : Frame c s s) with time := named hc }

theorem Frame.discardCounter (hc : c.movesTime = true) (s : State) (w : Win) : Frame c s (s.discardCounter w) :=
  Frame.setCounter hc s w _

theorem Frame.setPending (hc : c.movesEngine = true) (s : State) (w : Win) (b : Bool) :
    Frame c s (s.setPending w b) := { (Frame.refl s : Frame c s s) with engine := named hc }

theorem Frame.setWalk (hc : c.movesEngine = true) (s : State) (k : Option Walk) : Frame c s (s.setWalk k) :=
  { (Frame.refl s : Frame c s s) with engine := named hc }

theorem Frame.setTally (hc : c.movesPower = true) (s : State) (y : Option Tally) :
    Frame c s { s with main.tally := y } := { (Frame.refl s : Frame c s s) with power := named hc }

/-- The memory port is set: its owner, its cycle and its lines, which claim was granted last, and the write under
examination. -/
theorem Frame.setSequencer (hc : c.movesSequencer = true) (s : State) (o : Owner) (k : Option Cycle) (x l : Bool)
    (a : Addr) (m : Lanes) :
    Frame c s { s with main.owner := o, main.cycle := k, main.examining := x, main.lastGrantProc := l, ma := a, mbe := m } :=
  { (Frame.refl s : Frame c s s) with sequencer := named hc }

theorem Frame.grantProc (hc : c.movesSequencer = true) (s : State) (a : Access) (k : Cycle) :
    Frame c s (s.grantProc a k) := { (Frame.refl s : Frame c s s) with sequencer := named hc }

theorem Frame.drive (hc : c.movesSequencer = true) (s : State) (o : Owner) (k : Cycle) : Frame c s (s.drive o k) :=
  { (Frame.refl s : Frame c s s) with sequencer := named hc }

/-- A cycle lands and its grant ends. -/
theorem Frame.land (hl : c.landsCycle = true) (hc : c.movesSequencer = true) (s : State) (k : Cycle) :
    Frame c s (s.land k).endGrant := by
  unfold State.land
  split
  · exact { (Frame.refl s : Frame c s s) with
      form := fun h => Memory.write_wf h _ _ _, sram := named hl, sequencer := named hc }
  · exact { (Frame.refl s : Frame c s s) with sequencer := named hc }

theorem Frame.performControl (hl : c.landsCycle = true) (hc : c.movesSequencer = true) (s : State) :
    Frame c s s.performControl := by
  rcases s.performControl_cases with e | ⟨a, k, _, e⟩ <;> rw [e]
  · exact Frame.refl s
  · exact (Frame.land hl hc s k).trans { (Frame.refl _ : Frame c (s.land k).endGrant _) with sequencer := named hc }

/-- The management port is set by a byte that it takes or sends. -/
theorem Frame.respond (hc : c.movesManagement = true) (s : State) (r : Response) : Frame c s (s.respond r) :=
  { (Frame.refl s : Frame c s s) with management := named hc }

theorem Frame.byteTaken (hc : c.movesManagement = true) (s : State) : Frame c s s.byteTaken :=
  { (Frame.refl s : Frame c s s) with management := named hc }

theorem Frame.send (hc : c.movesManagement = true) (s : State) (b : Byte) : Frame c s (s.send b) :=
  { (Frame.refl s : Frame c s s) with management := named hc }

/-! ### The access path and time -/

/-- What the access path moves is in no list but that of the entries and the receipt slots. -/
theorem AccessMoves.frame {s t : State} (h : AccessMoves s t) (hc : c.movesWindows = true) : Frame c s t := by
  have htable (hl : s.ret.WindowsLawful) : t.ret.WindowsLawful := hl.of_dropped (by
    obtain ⟨_, _, _, _, _, _, _, _, e⟩ := h.shape
    rw [e]) h.entry
  obtain ⟨⟨_, _, _, _, _, _, _, _, e⟩, hb, -⟩ := h
  rw [e] at hb htable ⊢
  exact { (Frame.refl s : Frame c s s) with events := hb, table := fun _ => htable, windows := named hc }

/-- What the passing of time moves. -/
theorem TimeMoves.frame {s t : State} (h : TimeMoves s t) (hc : c.movesWindows = true) (ht : c.movesTime = true) :
    Frame c s t := by
  have htable (hl : s.ret.WindowsLawful) : t.ret.WindowsLawful := hl.of_dropped (by
    obtain ⟨_, _, _, _, _, _, _, _, _, _, _, e⟩ := h.shape
    rw [e]) h.entry
  obtain ⟨⟨_, _, _, _, _, _, _, _, _, _, _, e⟩, hb, -⟩ := h
  rw [e] at hb htable ⊢
  exact { (Frame.refl s : Frame c s s) with
    events := hb, table := fun _ => htable, windows := named hc, time := named ht }

/-- An access that reaches its outcome. -/
theorem Frame.outcome (hc : c.movesWindows = true) (s : State) (a : Access) (r : Option Word) :
    Frame c s ((s.complete a r).settle) :=
  ((AccessMoves.complete s a r).trans (AccessMoves.settle _)).frame hc

/-! ### The takings -/

theorem Frame.refuse (hc : c.movesWindows = true) (s : State) (w : Win) (r : ReceiptReason) (q : Byte) :
    Frame c s (s.refuse w r q) := (AccessMoves.refuse s w r q).frame hc

theorem Frame.reloadIfIdle (hc : c.movesTime = true) (s : State) (w : Win) : Frame c s (s.reloadIfIdle w) := by
  unfold State.reloadIfIdle
  split
  · exact Frame.setCounter hc _ _ _
  · exact Frame.refl s

section Taking
variable {s : State} {w : Win} {e : Entry}

theorem Frame.voidAllToIdle (hc : c.movesWindows = true) (hj : c.movesJournal = true) (he : s.entry w = some e)
    (x : Entry) : Frame c s (s.voidAllToIdle w x) :=
  (Frame.setJournal hj s _).trans (Frame.setEntry hc (s := s.setJournal (s.ret.journal.voidAll w)) he _)

theorem Frame.startRollback (hc : c.movesWindows = true) (hg : c.movesEngine = true) (he : s.entry w = some e)
    (x : Entry) (r : RollbackCause) : Frame c s (s.startRollback w x r) :=
  (Frame.setEntry hc he _).trans (Frame.setPending hg _ _ _)

end Taking

theorem Frame.endMarker (hc : c.movesWindows = true) (s : State) (w : Win) (q : Byte) (k : Entry → State)
    (hk : ∀ e, s.entry w = some e → Frame c s (k e)) : Frame c s (s.endMarker w q k) := by
  unfold State.endMarker
  split
  · exact Frame.refl s
  · rename_i e he
    split
    · exact Frame.refuse hc _ _ _ _
    · exact Frame.refuse hc _ _ _ _
    · exact Frame.refl s
    · split
      · exact hk e he
      · exact Frame.refuse hc _ _ _ _
    · split
      · exact hk e he
      · exact Frame.refuse hc _ _ _ _

theorem Frame.takeOpen (hc : c.movesWindows = true) (ht : c.movesTime = true) (s : State) (w : Win) (q : Byte) :
    Frame c s (s.takeOpen w q) := by
  unfold State.takeOpen
  split
  · exact Frame.refl s
  · rename_i e he
    split
    · exact (Frame.setEntry hc he _).trans ((Frame.setCounter ht _ _ _).trans (Frame.handOn hc _ _ _ _ _ _))
    · exact Frame.refuse hc _ _ _ _
    · exact Frame.refuse hc _ _ _ _
    · exact Frame.refuse hc _ _ _ _
    · exact Frame.refl s

theorem Frame.commitTaken (hc : c.movesWindows = true) (hj : c.movesJournal = true) (ht : c.movesTime = true)
    {s : State} {w : Win} {e : Entry} (he : s.entry w = some e) (q : Byte) : Frame c s (s.commitTaken w q e) := by
  unfold State.commitTaken
  split
  · exact Frame.refuse hc _ _ _ _
  · exact (Frame.voidAllToIdle hc hj he _).trans
      ((Frame.discardCounter ht _ _).trans (Frame.handOn hc _ _ _ _ _ _))

theorem Frame.abortTaken (hc : c.movesWindows = true) (ht : c.movesTime = true) (hg : c.movesEngine = true)
    {s : State} {w : Win} {e : Entry} (he : s.entry w = some e) : Frame c s (s.abortTaken w e) := by
  unfold State.abortTaken
  split
  · exact (Frame.setEntry hc he _).trans ((Frame.discardCounter ht _ _).trans (Frame.handOn hc _ _ _ _ _ _))
  · exact (Frame.startRollback hc hg he _ _).trans (Frame.discardCounter ht _ _)

theorem Frame.saveTaken (hc : c.movesWindows = true) {s : State} {w : Win} {e : Entry} (he : s.entry w = some e)
    (q : Byte) : Frame c s (s.saveTaken w q e) := by
  unfold State.saveTaken
  split
  · exact Frame.refuse hc _ _ _ _
  · exact (Frame.setEntry hc he _).trans (Frame.handOn hc _ _ _ _ _ _)

theorem Frame.returnTaken (hc : c.movesWindows = true) (ht : c.movesTime = true) (hg : c.movesEngine = true)
    {s : State} {w : Win} {e : Entry} (he : s.entry w = some e) (q : Byte) : Frame c s (s.returnTaken w q e) := by
  unfold State.returnTaken
  split
  · exact Frame.refuse hc _ _ _ _
  · split
    · exact (Frame.setEntry hc he _).trans ((Frame.reloadIfIdle ht _ _).trans (Frame.handOn hc _ _ _ _ _ _))
    · exact (Frame.startRollback hc hg he _ _).trans (Frame.setCounter ht _ _ _)

theorem Frame.breakTxn (hc : c.movesWindows = true) (s : State) (w : Win) (r : BreakReason) :
    Frame c s (s.breakTxn w r) := by
  unfold State.breakTxn
  split
  · exact Frame.refl s
  · rename_i e he
    exact (Frame.setEntry hc he _).trans ((Frame.handOn hc _ _ _ _ _ _).trans (Frame.post _ _ _ _))

theorem Frame.appendBody (hj : c.movesJournal = true) (s : State) (w : Win) (a : Addr) (x : Word) (l : Lanes) :
    Frame c s (s.appendBody w a x l) := Frame.setJournal hj s _

theorem Frame.appendMark (hc : c.movesWindows = true) (hj : c.movesJournal = true) (s : State) (w : Win) :
    Frame c s (s.appendMark w) := by
  unfold State.appendMark
  dsimp only
  split
  · exact Frame.setJournal hj s _
  · rename_i e he
    exact (Frame.setJournal hj s _).trans (Frame.setEntry hc he _)

theorem Frame.highWaterTest (s : State) (w : Win) : Frame c s (s.highWaterTest w) := by
  unfold State.highWaterTest
  split
  · exact Frame.post _ _ _ _
  · exact Frame.refl s

theorem Frame.takeExpiry (hc : c.movesWindows = true) (ht : c.movesTime = true) (hg : c.movesEngine = true)
    (s : State) (w : Win) (q : Byte) : Frame c s (s.takeExpiry w q) := by
  unfold State.takeExpiry
  split
  · exact Frame.refl s
  · rename_i e he
    split
    · dsimp only
      split
      · exact ((Frame.setEntry hc he _).trans (Frame.discardCounter ht _ _)).trans
          ((Frame.handOn hc _ _ _ _ _ _).trans (Frame.post _ _ _ _))
      · exact ((Frame.startRollback hc hg he _ _).trans (Frame.discardCounter ht _ _)).trans (Frame.post _ _ _ _)
    · exact Frame.refl s

/-! ### The engine -/

theorem Frame.completeRollback (hc : c.movesWindows = true) (ht : c.movesTime = true) (hg : c.movesEngine = true)
    (hp : c.movesPower = true) (s : State) (w : Win) : Frame c s (s.completeRollback w) := by
  have hresume (t : State) (x : RollbackCause) : Frame c t (t.resumeCounter w x) := by
    unfold State.resumeCounter
    split
    · split <;> exact Frame.setCounter ht _ _ _
    all_goals exact Frame.refl t
  have htally (t : State) (x : RollbackCause) : Frame c t (t.tallyRollback x) := by
    unfold State.tallyRollback
    split
    · exact Frame.setTally hp _ _
    all_goals exact Frame.refl t
  unfold State.completeRollback
  split
  · exact Frame.refl s
  · rename_i e he
    split
    · exact Frame.refl s
    · exact ((Frame.setEntry hc he _).trans (Frame.setWalk hg _ _)).trans ((hresume _ _).trans ((htally _ _).trans
        ((Frame.handOn hc _ _ _ _ _ _).trans ((Frame.post _ _ _ _).trans
          ((AccessMoves.releaseHeld _ _).frame hc)))))

theorem Frame.damage (hc : c.movesWindows = true) (ht : c.movesTime = true) (hg : c.movesEngine = true)
    (s : State) (w : Win) (p : Nat) : Frame c s (s.damage w p) := by
  unfold State.damage
  split
  · exact Frame.refl s
  · rename_i e he
    exact ((Frame.setEntry hc he _).trans (Frame.setWalk hg _ _)).trans ((Frame.discardCounter ht _ _).trans
      ((Frame.handOn hc _ _ _ _ _ _).trans ((Frame.post _ _ _ _).trans ((AccessMoves.releaseHeld _ _).frame hc))))

theorem Frame.examine (hc : c.movesWindows = true) (ht : c.movesTime = true) (hg : c.movesEngine = true)
    (hp : c.movesPower = true) (n : Nat) (s : State) : Frame c s (State.examine n s) := by
  induction n generalizing s with
  | zero => exact Frame.refl s
  | succ n ih =>
    unfold State.examine
    split
    · exact Frame.refl s
    · split
      · exact Frame.completeRollback hc ht hg hp _ _
      · split
        · exact Frame.damage hc ht hg _ _ _
        · split
          · exact (Frame.damage hc ht hg _ _ _).trans (Frame.useFree _ _)
          · dsimp only
            split
            · split
              · exact Frame.setWalk hg _ _
              · exact Frame.damage hc ht hg _ _ _
            · exact (Frame.setWalk hg _ _).trans (ih _)

theorem Frame.createWalk (hg : c.movesEngine = true) (s : State) (w : Win) : Frame c s (s.createWalk w) :=
  (Frame.setPending hg _ _ _).trans (Frame.setWalk hg _ _)

theorem Frame.singleVoid (hc : c.movesWindows = true) (hj : c.movesJournal = true) (s : State) (k : Walk) :
    Frame c s (s.singleVoid k) := by
  unfold State.singleVoid
  split
  · dsimp only
    split
    · exact Frame.setJournal hj _ _
    · rename_i e he
      exact (Frame.setJournal hj _ _).trans (Frame.setEntry hc he _)
  · exact Frame.refl s

theorem Frame.endRecovering (hp : c.movesPower = true) (s : State) : Frame c s s.endRecovering := by
  rcases s.endRecovering_spec with e | ⟨q, o, _, e, hb⟩ <;> rw [e]
  · exact Frame.refl s
  · exact { (Frame.refl s : Frame c s s) with events := hb, power := named hp }

/-! ### Requests (R165) -/

theorem Frame.onArgWin (hm : c.movesManagement = true) (s : State) (take : Win → State)
    (h : ∀ w, Frame c s (take w)) : Frame c s (s.onArgWin take) := by
  unfold State.onArgWin
  split
  · exact Frame.respond hm _ _
  · exact h _

theorem Frame.takeEnable (hc : c.movesWindows = true) (hm : c.movesManagement = true) (s : State) (w : Win) :
    Frame c s (s.takeEnable w) := by
  have henabled (ha : s.enableAnswer w = .done) : Frame c s (s.setEntry w (some Entry.fresh)) :=
    { (Frame.refl s : Frame c s s) with table := fun _ => .enabled ha _, windows := named hc }
  unfold State.takeEnable
  split
  · rename_i ha
    exact (henabled ha).trans (Frame.respond hm _ _)
  · exact Frame.respond hm _ _

theorem Frame.takeDisable (hc : c.movesWindows = true) (hm : c.movesManagement = true) (s : State) (w : Win) :
    Frame c s (s.takeDisable w) := by
  have hdisabled : Frame c s (s.setEntry w none) :=
    { (Frame.refl s : Frame c s s) with table := fun _ => .setEntry_none s w, windows := named hc }
  unfold State.takeDisable
  split
  · exact hdisabled.trans (Frame.respond hm _ _)
  · exact Frame.respond hm _ _

theorem Frame.takeForceAbort (hc : c.movesWindows = true) (ht : c.movesTime = true) (hg : c.movesEngine = true)
    (hm : c.movesManagement = true) (s : State) (w : Win) : Frame c s (s.takeForceAbort w) := by
  have hended (e : Entry) (he : s.entry w = some e) : Frame c s (s.forceEnded w e) := by
    unfold State.forceEnded State.forcedIdle State.forcedRollback
    split
    · exact (Frame.setEntry hc he _).trans ((Frame.discardCounter ht _ _).trans (Frame.handOn hc _ _ _ _ _ _))
    · exact (Frame.startRollback hc hg he _ _).trans (Frame.discardCounter ht _ _)
  rcases s.takeForceAbort_cases w with ⟨r, e, -⟩ | ⟨x, hx, -, e⟩ <;> rw [e]
  · exact Frame.respond hm _ _
  · exact (hended x hx).trans (Frame.respond hm _ _)

theorem Frame.takeRelease (hc : c.movesWindows = true) (hj : c.movesJournal = true) (hm : c.movesManagement = true)
    (s : State) (w : Win) : Frame c s (s.takeRelease w) := by
  rcases s.takeRelease_cases w with ⟨-, e⟩ | ⟨x, hx, -, e⟩ <;> rw [e]
  · exact Frame.respond hm _ _
  · exact (Frame.voidAllToIdle hc hj hx _).trans (Frame.respond hm _ _)

theorem Frame.takePop (hm : c.movesManagement = true) (s : State) : Frame c s s.takePop := by
  unfold State.takePop
  split
  · exact Frame.respond hm _ _
  · rename_i e l hq
    refine Frame.trans ?_ (Frame.respond hm _ _)
    refine { (Frame.refl s : Frame c s s) with events := fun h => ?_ }
    rw [hq] at h
    exact Nat.le_of_succ_le h

theorem Frame.takeClearOverrun (hm : c.movesManagement = true) (s : State) : Frame c s s.takeClearOverrun :=
  { (Frame.refl s : Frame c s s) with management := named hm }

theorem Frame.takeLoadTxn (hm : c.movesManagement = true) (s : State) (w : Win) : Frame c s (s.takeLoadTxn w) :=
  { (Frame.refl s : Frame c s s) with management := named hm }

theorem Frame.takeLoadRecord (hm : c.movesManagement = true) (s : State) (x : BitVec 4) :
    Frame c s (s.takeLoadRecord x) := by
  unfold State.takeLoadRecord
  split
  · exact Frame.respond hm _ _
  · exact { (Frame.refl s : Frame c s s) with management := named hm }

/-- The receiving of an A0h byte, with the taking of its request. -/
theorem Frame.request (hm : c.movesManagement = true) (s : State) (b : Byte)
    (h : ∀ t, Frame c t (t.takeRequest b)) : Frame c s (s.request b) := by
  have hrec : Frame c s (s.received b) := { (Frame.refl s : Frame c s s) with management := named hm }
  rcases s.request_cases b with e | ⟨_, _, e⟩ | ⟨_, _, e⟩ <;> rw [e]
  · exact Frame.refl s
  · exact { (Frame.refl s : Frame c s s) with management := named hm }
  · exact hrec.trans (h _)

/-! ### The commands -/

/-- A command's answer: a next state within the frame. -/
def Framed (c : Instr) (s : State) (r : Result) : Prop := ∃ t, r = .next t ∧ Frame c s t

theorem execAccessBegin_framed (hc : c.movesWindows = true) (addr : Addr) (lanes : Lanes) (pwen poen : Bool)
    (data : Word) (s : State) : Framed c s (execAccessBegin addr lanes pwen poen data s) := by
  refine ⟨_, rfl, ?_⟩
  split
  · exact Frame.refl s
  · exact (Frame.setPort s _).trans ((AccessMoves.takePresented _).frame hc)

theorem execAccessWithdraw_framed (s : State) : Framed c s (execAccessWithdraw s) := by
  refine ⟨_, rfl, ?_⟩
  dsimp only
  split
  · exact Frame.setPort s _
  · split
    · exact Frame.setAccess s _ none s.main.holdTimer .inactive none
    · exact Frame.setAccess s _ _ s.main.holdTimer s.main.prdy s.main.pd

theorem execPassedAccessGrant_framed (hq : c.movesSequencer = true) (s : State) :
    Framed c s (execPassedAccessGrant s) := by
  refine ⟨_, rfl, ?_⟩
  split
  · exact Frame.grantProc hq s _ _
  · exact Frame.refl s

theorem execPassedCycleComplete_framed (hl : c.landsCycle = true) (hc : c.movesWindows = true)
    (hq : c.movesSequencer = true) (s : State) : Framed c s (execPassedCycleComplete s) := by
  refine ⟨_, rfl, ?_⟩
  split
  · dsimp only
    split
    · exact (Frame.land hl hq s _).trans (Frame.outcome hc _ _ _)
    · exact (Frame.useFree s 4).trans ((Frame.land hl hq _ _).trans (Frame.outcome hc _ _ _))
  · exact Frame.refl s

/-- The sequencer notes that the processor's claim was the last granted (R87). -/
theorem Frame.noteGrant (hq : c.movesSequencer = true) (s : State) (b : Bool) :
    Frame c s { s with main.lastGrantProc := b } := { (Frame.refl s : Frame c s s) with sequencer := named hq }

theorem execJournaledWriteGrant_framed (hc : c.movesWindows = true) (hq : c.movesSequencer = true) (s : State) :
    Framed c s (execJournaledWriteGrant s) := by
  refine ⟨_, rfl, ?_⟩
  split
  · exact Frame.refl s
  · split
    · exact Frame.refl s
    · split
      · exact Frame.grantProc hq s _ _
      · exact (Frame.noteGrant hq s true).trans ((Frame.breakTxn hc _ _ _).trans (Frame.outcome hc _ _ _))
      · exact (Frame.noteGrant hq s true).trans
          (((AccessMoves.proceed _ _ _).trans (AccessMoves.settle _)).frame hc)

/-- The append at the completion of the old word's read, before a request that waited is taken. -/
theorem execOldWordReadComplete_framed (hj : c.movesJournal = true) (hc : c.movesWindows = true)
    (ht : c.movesTime = true) (hq : c.movesSequencer = true) (s : State) :
    execOldWordReadComplete s = .next s
      ∨ ∃ u, execOldWordReadComplete s = .next u.takeWaiting ∧ Frame c s u := by
  unfold execOldWordReadComplete
  split
  · exact Or.inl rfl
  · split
    · exact Or.inl rfl
    · split
      · exact Or.inl rfl
      · exact Or.inr ⟨_, rfl, ((Frame.appendBody hj s _ _ _ _).trans (Frame.appendMark hc hj _ _)).trans
          ((Frame.reloadIfIdle ht _ _).trans ((Frame.highWaterTest _ _).trans (Frame.drive hq _ _ _)))⟩

theorem execNewDataWriteComplete_framed (hl : c.landsCycle = true) (hc : c.movesWindows = true)
    (hq : c.movesSequencer = true) (s : State) : Framed c s (execNewDataWriteComplete s) := by
  refine ⟨_, rfl, ?_⟩
  split
  · split
    · exact (Frame.land hl hq s _).trans (Frame.outcome hc _ _ _)
    · exact Frame.refl s
  · exact Frame.refl s

theorem execControlWordWriteGrant_framed (hc : c.movesWindows = true) (hq : c.movesSequencer = true) (s : State) :
    Framed c s (execControlWordWriteGrant s) := by
  refine ⟨_, rfl, ?_⟩
  split
  · exact Frame.refl s
  · split
    · exact Frame.refl s
    · split
      · exact (Frame.noteGrant hq s true).trans (((AccessMoves.hold _ _ _).trans (AccessMoves.settle _)).frame hc)
      · exact Frame.grantProc hq s _ _

/-- The control-word write in flight completes, with its marker's taking. -/
theorem Frame.finishControlWrite (hl : c.landsCycle = true) (hc : c.movesWindows = true)
    (hq : c.movesSequencer = true) (s : State) (ex : Examination → Bool) (take : State → Win → Byte → State)
    (h : ∀ t w q, Frame c t (take t w q)) : Frame c s (s.finishControlWrite ex take) := by
  unfold State.finishControlWrite
  split
  · exact Frame.refl s
  · split
    · exact Frame.refl s
    · split
      · have hx (u : State) : Frame c u { u with main.examining := false } :=
          { (Frame.refl u : Frame c u u) with sequencer := named hq }
        exact (Frame.performControl hl hq s).trans ((hx _).trans ((h _ _ _).trans (Frame.outcome hc _ _ _)))
      · exact Frame.refl s

theorem execMicrosecondEvent_framed (hc : c.movesWindows = true) (ht : c.movesTime = true) (s : State) :
    Framed c s (execMicrosecondEvent s) := by
  refine ⟨_, rfl, ?_⟩
  split
  · exact (TimeMoves.microsecond s).frame hc ht
  · exact Frame.refl s

theorem execHoldLimitRunOut_framed (hc : c.movesWindows = true) (ht : c.movesTime = true) (s : State) :
    Framed c s (execHoldLimitRunOut s) := by
  refine ⟨_, rfl, ?_⟩
  split
  · exact (TimeMoves.microsecond s).frame hc ht
  · exact Frame.refl s

/-- Time passes up to a tick, and the counters take it. -/
theorem TimeMoves.tick (s : State) : TimeMoves s (s.untilTick 100).takeTick :=
  (TimeMoves.untilTick 100 s).trans (TimeMoves.takeTick _)

theorem execTick_framed (hc : c.movesWindows = true) (ht : c.movesTime = true) (s : State) :
    Framed c s (execTick s) := by
  refine ⟨_, rfl, ?_⟩
  split
  · exact (TimeMoves.tick s).frame hc ht
  · exact Frame.refl s

theorem execDeadlineRunOut_framed (hc : c.movesWindows = true) (ht : c.movesTime = true) (w : Win) (s : State) :
    Framed c s (execDeadlineRunOut w s) := by
  refine ⟨_, rfl, ?_⟩
  split
  · split
    · exact (TimeMoves.tick s).frame hc ht
    · exact Frame.refl s
  all_goals exact Frame.refl s

theorem execExpiryRequest_framed (hc : c.movesWindows = true) (ht : c.movesTime = true) (hg : c.movesEngine = true)
    (w : Win) (s : State) : Framed c s (execExpiryRequest w s) := by
  refine ⟨_, rfl, ?_⟩
  split
  · split
    · exact Frame.takeExpiry hc ht hg s w _
    · exact Frame.refl s
  all_goals exact Frame.refl s

theorem execMillisecondEvent_framed (hc : c.movesWindows = true) (ht : c.movesTime = true) (s : State) :
    Framed c s (execMillisecondEvent s) := by
  refine ⟨_, rfl, ?_⟩
  split
  · exact ((TimeMoves.untilMillisecond 1000 s).trans (TimeMoves.takeMillisecond _)).frame hc ht
  · exact Frame.refl s

theorem execReceiptWriteGrant_framed (hl : c.landsCycle = true) (hc : c.movesWindows = true)
    (hq : c.movesSequencer = true) (s : State) : Framed c s (execReceiptWriteGrant s) := by
  refine ⟨_, rfl, ?_⟩
  dsimp only
  split
  · split
    · exact Frame.refl s
    · split
      · exact (Frame.performControl hl hq s).trans
          { (Frame.refl _ : Frame c s.performControl _) with windows := named hc, sequencer := named hq }
      · exact Frame.refl s
      · exact Frame.refl s
  · exact Frame.refl s

theorem execReceiptWriteComplete_framed (hl : c.landsCycle = true) (hc : c.movesWindows = true)
    (hq : c.movesSequencer = true) (s : State) : Framed c s (execReceiptWriteComplete s) := by
  refine ⟨_, rfl, ?_⟩
  split
  · exact Frame.refl s
  · rename_i k _
    split
    · exact (Frame.land hl hq s k).trans
        { (Frame.refl _ : Frame c (s.land k).endGrant _) with windows := named hc }
    · exact Frame.refl s

theorem execSelection_framed (hc : c.movesWindows = true) (ht : c.movesTime = true) (hg : c.movesEngine = true)
    (hp : c.movesPower = true) (s : State) : Framed c s (execSelection s) := by
  refine ⟨_, rfl, ?_⟩
  split
  · split
    · exact Frame.refl s
    · exact (Frame.createWalk hg _ _).trans ((Frame.examine hc ht hg hp _ _).trans (Frame.endRecovering hp _))
  · exact Frame.refl s

theorem execRestoreWriteGrant_framed (hl : c.landsCycle = true) (hq : c.movesSequencer = true)
    (hg : c.movesEngine = true) (s : State) : Framed c s (execRestoreWriteGrant s) := by
  refine ⟨_, rfl, ?_⟩
  dsimp only
  split
  · split
    · exact Frame.refl s
    · exact (Frame.performControl hl hq s).trans
        { (Frame.refl _ : Frame c s.performControl _) with engine := named hg, sequencer := named hq }
  · exact Frame.refl s

theorem execRestoreWriteComplete_framed (hl : c.landsCycle = true) (hj : c.movesJournal = true)
    (hc : c.movesWindows = true) (ht : c.movesTime = true) (hq : c.movesSequencer = true) (hg : c.movesEngine = true)
    (hp : c.movesPower = true) (s : State) : Framed c s (execRestoreWriteComplete s) := by
  refine ⟨_, rfl, ?_⟩
  split
  · exact ((Frame.land hl hq s _).trans ((Frame.singleVoid hc hj _ _).trans (Frame.setWalk hg _ _))).trans
      ((Frame.examine hc ht hg hp _ _).trans (Frame.endRecovering hp _))
  · exact Frame.refl s

end Frame

end Sys2Proof.Machine
end

section
/-! PROOFS. Every command stays within its frame, and answers a next state (O2, O55, O57). -/

namespace Sys2Proof.Machine

/-! ## The management port (file 10) -/

section Port
variable {c : Instr}

theorem execTransferStart_framed (hm : c.movesManagement = true) (x : Start) (s : State) :
    Framed c s (execTransferStart x s) := by
  refine ⟨_, rfl, ?_⟩
  dsimp only
  split
  · exact Frame.refl s
  · exact { (Frame.refl s : Frame c s s) with management := named hm }

theorem execTransferStop_framed (hm : c.movesManagement = true) (s : State) : Framed c s (execTransferStop s) := by
  refine ⟨_, rfl, ?_⟩
  split
  · exact Frame.refl s
  · exact { (Frame.refl s : Frame c s s) with management := named hm }

theorem execIndexByteWrite_framed (hm : c.movesManagement = true) (b : Byte) (s : State) :
    Framed c s (execIndexByteWrite b s) := by
  refine ⟨_, rfl, ?_⟩
  split
  · exact { (Frame.refl s : Frame c s s) with management := named hm }
  · exact Frame.refl s

theorem execDescriptorByteWrite_framed (hf : c.movesConfig = true) (hm : c.movesManagement = true) (b : Byte)
    (s : State) : Framed c s (execDescriptorByteWrite b s) := by
  refine ⟨_, rfl, ?_⟩
  dsimp only
  split
  · split
    · exact { (Frame.refl s : Frame c s s) with management := named hm }
    · rename_i hw
      exact { (Frame.refl s : Frame c s s) with
        table := fun _ => .setDescriptor (Bool.eq_false_of_not_eq_true hw) _
        config := named hf, management := named hm }
  · exact Frame.refl s

theorem execHighWaterThresholdWrite_framed (hf : c.movesConfig = true) (hm : c.movesManagement = true) (b : Byte)
    (s : State) : Framed c s (execHighWaterThresholdWrite b s) := by
  have hset (n : Nat) : Frame c s (State.byteTaken { s with ret.highWater := n }) :=
    { (Frame.refl s : Frame c s s) with
      table := fun _ h => h.of_fewer rfl fun _ => id, config := named hf, management := named hm }
  refine ⟨_, rfl, ?_⟩
  dsimp only
  split
  · exact hset _
  · exact Frame.refl s

theorem execHoldLimitWrite_framed (hf : c.movesConfig = true) (hm : c.movesManagement = true) (b : Byte)
    (s : State) : Framed c s (execHoldLimitWrite b s) := by
  refine ⟨_, rfl, ?_⟩
  split
  · exact { (Frame.refl s : Frame c s s) with
      table := fun _ h => h.of_fewer rfl fun _ => id, config := named hf, management := named hm }
  · exact Frame.refl s

theorem Frame.plainWrite (hf : c.movesConfig = true) (hm : c.movesManagement = true) (s : State) (i : Nat) (b : Byte) :
    Frame c s (s.plainWrite i b) := by
  have hfill (x : Word) : Frame c s { s with ret.fillWord := x } :=
    { (Frame.refl s : Frame c s s) with table := fun _ h => h.of_fewer rfl fun _ => id, config := named hf }
  have hmask (x : BitVec 16) : Frame c s { s with ret.kindMask := x } :=
    { (Frame.refl s : Frame c s s) with table := fun _ h => h.of_fewer rfl fun _ => id, config := named hf }
  unfold State.plainWrite
  split
  · exact hfill _
  · split
    · exact hmask _
    · split
      · exact { (Frame.refl s : Frame c s s) with management := named hm }
      · exact Frame.refl s

theorem execPositionWrite_framed (hf : c.movesConfig = true) (hm : c.movesManagement = true) (b : Byte)
    (s : State) : Framed c s (execPositionWrite b s) := by
  refine ⟨_, rfl, ?_⟩
  dsimp only
  split
  · exact (Frame.plainWrite hf hm s _ b).trans (Frame.byteTaken hm _)
  · exact Frame.refl s

theorem execStatusRead_framed (hm : c.movesManagement = true) (s : State) : Framed c s (execStatusRead s) := by
  have hclear (u : State) : Frame c u { u with main.ignored := false } :=
    { (Frame.refl u : Frame c u u) with management := named hm }
  refine ⟨_, rfl, ?_⟩
  dsimp only
  split
  · split
    · exact (Frame.send hm s _).trans (hclear _)
    · exact Frame.send hm s _
  · exact Frame.refl s

theorem execOccupancyRead_framed (hm : c.movesManagement = true) (s : State) : Framed c s (execOccupancyRead s) := by
  refine ⟨_, rfl, ?_⟩
  dsimp only
  split
  · exact { (Frame.refl s : Frame c s s) with management := named hm }
  · split
    · exact Frame.send hm s _
    · exact Frame.refl s

theorem execStampCounterRead_framed (hm : c.movesManagement = true) (s : State) :
    Framed c s (execStampCounterRead s) := by
  refine ⟨_, rfl, ?_⟩
  dsimp only
  split
  · exact { (Frame.refl s : Frame c s s) with management := named hm }
  · split
    · exact Frame.send hm s _
    · exact Frame.refl s

theorem execOldestEventViewRead_framed (hm : c.movesManagement = true) (s : State) :
    Framed c s (execOldestEventViewRead s) := by
  refine ⟨_, rfl, ?_⟩
  dsimp only
  split
  · exact { (Frame.refl s : Frame c s s) with management := named hm }
  · exact Frame.refl s

/-! ## Requests (R165) -/

theorem execEnable_framed (hc : c.movesWindows = true) (hm : c.movesManagement = true) (x : BitVec 4) (s : State) :
    Framed c s (execEnable x s) := by
  refine ⟨_, rfl, Frame.request hm s _ fun t => ?_⟩
  rw [show t.takeRequest (requestByte x 1) = t.onArgWin t.takeEnable by simp [State.takeRequest]]
  exact Frame.onArgWin hm t _ (Frame.takeEnable hc hm t)

theorem execDisable_framed (hc : c.movesWindows = true) (hm : c.movesManagement = true) (x : BitVec 4) (s : State) :
    Framed c s (execDisable x s) := by
  refine ⟨_, rfl, Frame.request hm s _ fun t => ?_⟩
  rw [show t.takeRequest (requestByte x 2) = t.onArgWin t.takeDisable by simp [State.takeRequest]]
  exact Frame.onArgWin hm t _ (Frame.takeDisable hc hm t)

theorem execForceAbort_framed (hc : c.movesWindows = true) (ht : c.movesTime = true) (hg : c.movesEngine = true)
    (hm : c.movesManagement = true) (x : BitVec 4) (s : State) : Framed c s (execForceAbort x s) := by
  refine ⟨_, rfl, Frame.request hm s _ fun t => ?_⟩
  rw [show t.takeRequest (requestByte x 3) = t.onArgWin t.takeForceAbort by simp [State.takeRequest]]
  exact Frame.onArgWin hm t _ (Frame.takeForceAbort hc ht hg hm t)

theorem execRelease_framed (hc : c.movesWindows = true) (hj : c.movesJournal = true) (hm : c.movesManagement = true)
    (x : BitVec 4) (s : State) : Framed c s (execRelease x s) := by
  refine ⟨_, rfl, Frame.request hm s _ fun t => ?_⟩
  rw [show t.takeRequest (requestByte x 4) = t.onArgWin t.takeRelease by simp [State.takeRequest]]
  exact Frame.onArgWin hm t _ (Frame.takeRelease hc hj hm t)

theorem Frame.takeClearAll (hj : c.movesJournal = true) (hf : c.movesConfig = true) (hc : c.movesWindows = true)
    (ht : c.movesTime = true) (hm : c.movesManagement = true) (hp : c.movesPower = true) (s : State) :
    Frame c s s.takeClearAll := by
  unfold State.takeClearAll State.clearEverything
  split
  · refine Frame.trans ?_ ((Frame.post _ _ _ _).trans (Frame.respond hm _ _))
    exact { (Frame.refl s : Frame c s s) with
      events := fun _ => Nat.zero_le _, table := fun _ _ => Retained.windowsLawful_cold, journal := named hj
      config := named hf, windows := named hc, time := named ht, management := named hm, power := named hp }
  · exact Frame.respond hm _ _

theorem execClearAll_framed (hj : c.movesJournal = true) (hf : c.movesConfig = true) (hc : c.movesWindows = true)
    (ht : c.movesTime = true) (hm : c.movesManagement = true) (hp : c.movesPower = true) (x : BitVec 4) (s : State) :
    Framed c s (execClearAll x s) := by
  refine ⟨_, rfl, Frame.request hm s _ fun t => ?_⟩
  rw [show t.takeRequest (requestByte x 5) = t.takeClearAll by simp [State.takeRequest]]
  exact Frame.takeClearAll hj hf hc ht hm hp t

theorem execPopEvent_framed (hm : c.movesManagement = true) (x : BitVec 4) (s : State) :
    Framed c s (execPopEvent x s) := by
  refine ⟨_, rfl, Frame.request hm s _ fun t => ?_⟩
  rw [show t.takeRequest (requestByte x 6) = t.takePop by simp [State.takeRequest]]
  exact Frame.takePop hm t

theorem execClearOverrun_framed (hm : c.movesManagement = true) (x : BitVec 4) (s : State) :
    Framed c s (execClearOverrun x s) := by
  refine ⟨_, rfl, Frame.request hm s _ fun t => ?_⟩
  rw [show t.takeRequest (requestByte x 7) = t.takeClearOverrun by simp [State.takeRequest]]
  exact Frame.takeClearOverrun hm t

theorem execLoadTxn_framed (hm : c.movesManagement = true) (x : BitVec 4) (s : State) :
    Framed c s (execLoadTxn x s) := by
  refine ⟨_, rfl, Frame.request hm s _ fun t => ?_⟩
  rw [show t.takeRequest (requestByte x 8) = t.onArgWin t.takeLoadTxn by simp [State.takeRequest]]
  exact Frame.onArgWin hm t _ (Frame.takeLoadTxn hm t)

theorem execLoadRecord_framed (hm : c.movesManagement = true) (x : BitVec 4) (s : State) :
    Framed c s (execLoadRecord x s) := by
  refine ⟨_, rfl, Frame.request hm s _ fun t => ?_⟩
  rw [show t.takeRequest (requestByte x 9) = t.takeLoadRecord x by simp [State.takeRequest]]
  exact Frame.takeLoadRecord hm t x

/-- A byte whose code names no request is answered BAD_ARG (R165). -/
theorem takeRequest_unknown {b : Byte} (h : requestCodeKnown (byteCode b) = false) (t : State) :
    t.takeRequest b = t.respond .badArg := by
  have hne (n : BitVec 4) (hn : requestCodeKnown n = true) : byteCode b ≠ n := by
    rintro rfl
    exact absurd (h.symm.trans hn) (by decide)
  simp only [State.takeRequest, hne 1 (by decide), hne 2 (by decide), hne 3 (by decide), hne 4 (by decide),
    hne 5 (by decide), hne 6 (by decide), hne 7 (by decide), hne 8 (by decide), hne 9 (by decide), if_false]

theorem execUnknownRequestCode_framed (hm : c.movesManagement = true) (b : Byte) (s : State) :
    Framed c s (execUnknownRequestCode b s) := by
  refine ⟨_, rfl, ?_⟩
  split
  · exact Frame.refl s
  · rename_i h
    refine Frame.request hm s b fun t => ?_
    rw [takeRequest_unknown (by simpa using h)]
    exact Frame.respond hm t _

end Port

/-! ## A failure (file 09) -/

section Failure
variable {cause : FailCause} {cut : CutPoint}

/-- A failure can move what any request moves. -/
theorem Frame.takeRequest (s : State) (b : Byte) : Frame (.failingEntry cause cut) s (s.takeRequest b) := by
  unfold State.takeRequest
  split_ifs
  · exact Frame.onArgWin rfl s _ (Frame.takeEnable rfl rfl s)
  · exact Frame.onArgWin rfl s _ (Frame.takeDisable rfl rfl s)
  · exact Frame.onArgWin rfl s _ (Frame.takeForceAbort rfl rfl rfl rfl s)
  · exact Frame.onArgWin rfl s _ (Frame.takeRelease rfl rfl rfl s)
  · exact Frame.takeClearAll rfl rfl rfl rfl rfl rfl s
  · exact Frame.takePop rfl s
  · exact Frame.takeClearOverrun rfl s
  · exact Frame.onArgWin rfl s _ (Frame.takeLoadTxn rfl s)
  · exact Frame.takeLoadRecord rfl s _
  · exact Frame.respond rfl s _

theorem Frame.setWaiting {c : Instr} (hm : c.movesManagement = true) (s : State) (b : Bool) :
    Frame c s { s with main.waiting := b } := { (Frame.refl s : Frame c s s) with management := named hm }

theorem Frame.takeWaiting_failing (s : State) : Frame (.failingEntry cause cut) s s.takeWaiting := by
  unfold State.takeWaiting
  split
  · exact (Frame.setWaiting rfl s false).trans (Frame.takeRequest _ _)
  · exact Frame.refl s

/-- The state that a framed answer leaves. -/
theorem Framed.after {c : Instr} {s : State} {r : Result} (h : Framed c s r) : Frame c s (stateAfter s r) := by
  obtain ⟨t, rfl, ht⟩ := h
  exact ht

theorem Frame.completeControlWrite (s : State) : Frame (.failingEntry cause cut) s s.completeControlWrite := by
  have hfinish (ex : Examination → Bool) (take : State → Win → Byte → State)
      (h : ∀ t w q, Frame (.failingEntry cause cut) t (take t w q)) :
      Frame (.failingEntry cause cut) s (s.finishControlWrite ex take).takeWaiting :=
    (Frame.finishControlWrite rfl rfl rfl s ex take h).trans (Frame.takeWaiting_failing _)
  unfold State.completeControlWrite
  split
  · exact Frame.refl s
  · split
    · exact Frame.refl s
    · split
      · exact hfinish _ _ fun t _ _ => Frame.refl t
      · exact hfinish _ _ fun t w q => Frame.refuse rfl t w _ q
      · exact hfinish _ _ fun t w q => Frame.takeOpen rfl rfl t w q
      · exact hfinish _ _ fun t w q => Frame.endMarker rfl t w q _ fun _ he => Frame.commitTaken rfl rfl rfl he q
      · exact hfinish _ _ fun t w q => Frame.endMarker rfl t w q _ fun _ he => Frame.abortTaken rfl rfl rfl he
      · exact hfinish _ _ fun t w q => Frame.endMarker rfl t w q _ fun _ he => Frame.saveTaken rfl he q
      · exact hfinish _ _ fun t w q => Frame.endMarker rfl t w q _ fun _ he => Frame.returnTaken rfl rfl rfl he q

theorem Frame.runTaking (s : State) (k : Taking) : Frame (.failingEntry cause cut) s (s.runTaking k) := by
  have hport {u : State} (h : Frame (.failingEntry cause cut) { s with port.pcen := false } u) :
      Frame (.failingEntry cause cut) s { u with port := s.port } :=
    (Frame.setPort s _).trans (h.trans (Frame.setPort u _))
  cases k with
  | accessBegin addr lanes pwen poen data => exact (execAccessBegin_framed rfl addr lanes pwen poen data s).after
  | journaledWriteGrant => exact hport (execJournaledWriteGrant_framed rfl rfl _).after
  | controlWordWrite => exact hport (Frame.completeControlWrite _)
  | microsecondEvent => exact hport (execMicrosecondEvent_framed rfl rfl _).after
  | expiryRequest w => exact hport (execExpiryRequest_framed rfl rfl rfl w _).after
  | selection => exact hport (execSelection_framed rfl rfl rfl rfl _).after
  | restoreWriteComplete => exact hport (execRestoreWriteComplete_framed rfl rfl rfl rfl rfl rfl rfl _).after
  | forceAbort ext => exact hport (execForceAbort_framed rfl rfl rfl rfl ext _).after

theorem Frame.postedOnly {s t : State} (h : Frame (.failingEntry cause cut) s t) (n : Nat) :
    Frame (.failingEntry cause cut) s (s.postedOnly t n) :=
  { h with
    events := fun b => (List.length_take_le' _ _).trans (h.events b)
    config := named rfl, time := named rfl, sequencer := named rfl, management := named rfl, engine := named rfl
    power := named rfl, windows := named rfl }

theorem Frame.markerTaken (s : State) : Frame (.failingEntry cause cut) s s.markerTaken :=
  (Frame.setWaiting rfl s false).trans ((Frame.runTaking _ .controlWordWrite).trans (Frame.setWaiting rfl _ _))

theorem Frame.cutClearAll (s : State) (x : ClearCut) : Frame (.failingEntry cause cut) s (s.cutClearAll x) := by
  unfold State.cutClearAll
  split
  · exact { (Frame.refl s : Frame (.failingEntry cause cut) s s) with
      management := named rfl, power := named rfl }
  · exact { (Frame.refl s : Frame (.failingEntry cause cut) s s) with
      table := fun _ _ => Retained.windowsLawful_cold, journal := named rfl, config := named rfl, windows := named rfl, management := named rfl, power := named rfl }
  · dsimp only [State.clearEverything]
    refine Frame.trans (t := State.respond (State.post _ .coldStart none 1) .done) ?_
      { (Frame.refl _ : Frame (.failingEntry cause cut) _ _) with events := fun _ => Nat.zero_le _ }
    refine Frame.trans ?_ ((Frame.post _ _ _ _).trans (Frame.respond rfl _ _))
    exact { (Frame.refl s : Frame (.failingEntry cause cut) s s) with
      events := fun _ => Nat.zero_le _, table := fun _ _ => Retained.windowsLawful_cold
      journal := named rfl, config := named rfl, windows := named rfl, time := named rfl, management := named rfl, power := named rfl }

theorem Frame.applyCut (s : State) (x : CutPoint) : Frame (.failingEntry cause cut) s (s.applyCut x) := by
  unfold State.applyCut
  split
  · exact Frame.refl s
  · split
    · exact Frame.appendBody rfl s _ _ _ _
    · exact Frame.refl s
  · split
    · have happend (w : Win) (a : Addr) (y : Word) (l : Lanes) :
          Frame (.failingEntry cause cut) s ((s.appendBody w a y l).appendMark w) :=
        (Frame.appendBody rfl s _ _ _ _).trans (Frame.appendMark rfl rfl _ _)
      dsimp only
      split
      · exact (happend _ _ _ _).trans (Frame.highWaterTest _ _)
      · exact happend _ _ _ _
    · exact Frame.refl s
  · split
    · exact (Frame.land rfl rfl s _).trans (Frame.singleVoid rfl rfl _ _)
    · exact Frame.refl s
  · exact (Frame.runTaking s _).postedOnly _
  · split
    · exact Frame.cutClearAll s _
    · exact Frame.refl s
  · split
    · exact (Frame.markerTaken s).trans (Frame.cutClearAll _ _)
    · exact Frame.refl s

theorem Frame.landCycle (s : State) (x : FailCause) : Frame (.failingEntry cause cut) s (s.landCycle x) := by
  have hland (k : Cycle) : Frame (.failingEntry cause cut) s (s.land k) := by
    unfold State.land
    split
    · exact { (Frame.refl s : Frame (.failingEntry cause cut) s s) with
        form := fun h => Memory.write_wf h _ _ _, sram := named rfl }
    · exact Frame.refl s
  unfold State.landCycle
  split
  · exact Frame.refl s
  · split
    · split
      · rename_i k _ _ _
        exact { (Frame.refl s : Frame (.failingEntry cause cut) s s) with
          form := fun h => Memory.write_wf h k.addr allLanes (Config.cutShortWord s.freeCount), sram := named rfl }
      · exact hland _
      · exact hland _
    · exact Frame.refl s

end Failure

/-- A line or the supply goes to the level that a cause names. -/
theorem Frame.assertCause {c : Instr} (hp : c.movesPower = true) (s : State) (x : FailCause) :
    Frame c s (s.assertCause x) := by
  cases x <;> exact { (Frame.refl s : Frame c s s) with power := named hp }

theorem Frame.enterFailing (s : State) (cause : FailCause) (cut : CutPoint) :
    Frame (.failingEntry cause cut) s (s.enterFailing cause cut) := by
  have habandon (u : State) : Frame (.failingEntry cause cut) u { u with power := .failing, main.access := none } :=
    { (Frame.refl u : Frame (.failingEntry cause cut) u u) with power := named rfl }
  have hnotice (u : State) :
      Frame (.failingEntry cause cut) u { u with power := .failing, main := u.main.failing } :=
    { (Frame.refl u : Frame (.failingEntry cause cut) u u) with
      windows := named rfl, time := named rfl, sequencer := named rfl, engine := named rfl, management := named rfl
      power := named rfl }
  have hcause (u : State) :
      Frame (.failingEntry cause cut) u { u.assertCause cause with power := .failing, main := u.main.failing } := by
    cases cause <;> exact (Frame.assertCause rfl u _).trans (hnotice _)
  exact (Frame.applyCut s cut).trans ((habandon _).trans ((Frame.takeWaiting_failing _).trans
    ((Frame.landCycle _ cause).trans (hcause _))))

theorem execFailingEntry_framed (cause : FailCause) (cut : CutPoint) (s : State) :
    Framed (.failingEntry cause cut) s (execFailingEntry cause cut s) := by
  refine ⟨_, rfl, ?_⟩
  split
  · exact Frame.enterFailing s cause cut
  · exact Frame.enterFailing s cause cut
  · exact Frame.assertCause rfl s cause
  · exact Frame.assertCause rfl s cause

theorem execRetainingEntry_framed (s : State) : Framed .retainingEntry s (execRetainingEntry s) := by
  refine ⟨_, rfl, ?_⟩
  split
  · exact { (Frame.refl s : Frame .retainingEntry s s) with
      events := fun _ => Nat.zero_le _, windows := named rfl, time := named rfl, sequencer := named rfl
      engine := named rfl, management := named rfl, power := named rfl }
  · split
    · exact { (Frame.refl s : Frame .retainingEntry s s) with time := named rfl, power := named rfl }
    · exact Frame.refl s

theorem execVretFall_framed (s : State) : Framed .vretFall s (execVretFall s) := by
  refine ⟨_, rfl, ?_⟩
  split
  · exact { (Frame.refl s : Frame .vretFall s s) with
      table := fun h => absurd rfl h, journal := named rfl, config := named rfl, windows := named rfl, power := named rfl }
  · exact { (Frame.refl s : Frame .vretFall s s) with power := named rfl }

/-! ## An exit (file 09) -/

/-- An exit moves everything but the SRAM. -/
structure ExitMoves (c : Instr) : Prop where
  journal : c.movesJournal = true
  config : c.movesConfig = true
  windows : c.movesWindows = true
  time : c.movesTime = true
  sequencer : c.movesSequencer = true
  engine : c.movesEngine = true
  management : c.movesManagement = true
  power : c.movesPower = true

section Exit
variable {c : Instr} (hc : ExitMoves c)
include hc

/-- A state with an empty event queue, with the SRAM and the commands that wait. -/
theorem Frame.of_reset {s t : State} (hp : t.pending = s.pending) (hs : t.sram = s.sram) (hq : t.main.queue = [])
    (ht : s.ret.WindowsLawful → t.ret.WindowsLawful) : Frame c s t where
  pending := hp
  events _ := by rw [hq]; exact Nat.zero_le _
  form h := by rw [hs]; exact h
  table _ := ht
  sram _ := hs
  journal := named hc.journal
  config := named hc.config
  windows := named hc.windows
  time := named hc.time
  sequencer := named hc.sequencer
  engine := named hc.engine
  management := named hc.management
  power := named hc.power

theorem Frame.placeWindow (s : State) (w : Win) : Frame c s (s.placeWindow w) := by
  have hplace (e : Entry) (he : s.entry w = some e) : Frame c s (match (s.desc w).policy with
      | .rollback => (s.startRollback w e .recovery).discardCounter w
      | .keep =>
        let t := ((s.voidAllToIdle w e).discardCounter w).handOn w .kept .noReason e.seq (s.ret.journal.liveCount w)
        { t with main.tally := t.main.tally.map fun x => { x with kept := x.kept + 1 } }) := by
    split
    · exact (Frame.startRollback hc.windows hc.engine he _ _).trans (Frame.discardCounter hc.time _ _)
    · exact ((Frame.voidAllToIdle hc.windows hc.journal he _).trans (Frame.discardCounter hc.time _ _)).trans
        ((Frame.handOn hc.windows _ _ _ _ _ _).trans (Frame.setTally hc.power _ _))
  unfold State.placeWindow
  split
  · exact Frame.refl s
  · rename_i e he
    split
    · exact Frame.refl s
    · exact Frame.refl s
    all_goals exact hplace e he

theorem Frame.placeAll (ws : List Win) (s : State) : Frame c s (s.placeAll ws) := by
  induction ws generalizing s with
  | nil => exact Frame.refl s
  | cons w ws ih => exact (Frame.placeWindow hc s w).trans (ih _)

theorem Frame.setPhase (s : State) (p : Option Phase) : Frame c s { s with main.phase := p } :=
  { (Frame.refl s : Frame c s s) with power := named hc.power }

theorem Frame.beginWalking (s : State) : Frame c s s.beginWalking :=
  (Frame.setPhase hc s _).trans
    (((AccessMoves.takePresented _).frame hc.windows).trans (Frame.endRecovering hc.power _))

theorem Frame.continueExit (s : State) (cut : ExitCut) : Frame c s (s.continueExit cut) := by
  unfold State.continueExit
  split
  · split
    · exact (Frame.placeAll hc _ s).trans (Frame.setPhase hc _ _)
    · exact (Frame.placeAll hc _ s).trans (Frame.beginWalking hc _)
    · exact (Frame.placeAll hc _ s).trans (Frame.beginWalking hc _)
    · exact Frame.refl s
  · exact Frame.refl s
  · exact Frame.refl s

theorem Frame.linesGood (s : State) : Frame c s s.linesGood :=
  { (Frame.refl s : Frame c s s) with power := named hc.power }

theorem Frame.coldInit (s : State) (madr : BitVec 2) : Frame c s (s.coldInit madr) := by
  have hreset : Frame c s
      { s.linesGood with signature := true, ret := Retained.cold, main := MainWell.cold madr, power := .active } :=
    Frame.of_reset hc rfl rfl rfl fun _ => Retained.windowsLawful_cold
  exact hreset.trans ((Frame.post _ _ _ _).trans ((AccessMoves.takePresented _).frame hc.windows))

theorem Frame.cutColdInit (s : State) (madr : BitVec 2) (x : FailCause) (step : ColdCut) :
    Frame c s (s.cutColdInit madr x step) := by
  have hlines : Frame c s (s.linesGood.assertCause x) := (Frame.linesGood hc s).trans (Frame.assertCause hc.power _ x)
  unfold State.cutColdInit
  split
  · exact hlines.trans { (Frame.refl (c := c) _) with power := named hc.power }
  · exact hlines.trans { (Frame.refl (c := c) _) with
      table := fun _ _ => Retained.windowsLawful_cold, journal := named hc.journal, config := named hc.config, windows := named hc.windows, power := named hc.power }
  · exact hlines.trans (Frame.of_reset hc rfl rfl rfl fun _ => Retained.windowsLawful_cold)

theorem Frame.exitWith (s : State) (madr : BitVec 2) (cut : ExitCut) : Frame c s (s.exitWith madr cut) := by
  have hrecover : Frame c s (s.beginRecovering madr) :=
    Frame.of_reset hc rfl rfl rfl fun h => h.of_fewer rfl fun _ => id
  have hleave : Frame c s (s.leaveWith madr cut) := by
    unfold State.leaveWith
    split
    · exact hrecover.trans (Frame.continueExit hc _ cut)
    · split
      · exact Frame.cutColdInit hc s madr _ _
      all_goals exact Frame.coldInit hc s madr
  cases cut with
  | waits cause => exact (Frame.linesGood hc s).trans (Frame.assertCause hc.power _ cause)
  | whole => exact hleave
  | placing n => exact hleave
  | coldCut cause step => exact hleave

theorem execFailingExit_framed (madr : BitVec 2) (cut : ExitCut) (s : State) :
    Framed c s (execFailingExit madr cut s) := by
  refine ⟨_, rfl, ?_⟩
  split
  · exact Frame.exitWith hc s madr cut
  · exact Frame.continueExit hc s cut
  all_goals exact Frame.refl s

theorem execRetainingExit_framed (madr : BitVec 2) (cut : ExitCut) (s : State) :
    Framed c s (execRetainingExit madr cut s) := by
  refine ⟨_, rfl, ?_⟩
  split
  · exact Frame.exitWith hc s madr cut
  · exact Frame.continueExit hc s cut
  all_goals exact Frame.refl s

end Exit

/-! ## Every command -/

/-- The commands that end a taking leave a state within their frame, from which a request that waited is taken. -/
theorem exec_takesWaiting (c : Instr) (s : State) (h : c.takesWaiting = true) :
    exec c s = .next s ∨ ∃ u, exec c s = .next u.takeWaiting ∧ Frame c s u := by
  cases c with
  | oldWordReadComplete => exact execOldWordReadComplete_framed rfl rfl rfl rfl s
  | openMarker =>
    exact Or.inr ⟨_, rfl, Frame.finishControlWrite rfl rfl rfl s _ _ fun t w q => Frame.takeOpen rfl rfl t w q⟩
  | commitMarker =>
    exact Or.inr ⟨_, rfl, Frame.finishControlWrite rfl rfl rfl s _ _ fun t w q =>
      Frame.endMarker rfl t w q _ fun _ he => Frame.commitTaken rfl rfl rfl he q⟩
  | abortMarker =>
    exact Or.inr ⟨_, rfl, Frame.finishControlWrite rfl rfl rfl s _ _ fun t w q =>
      Frame.endMarker rfl t w q _ fun _ he => Frame.abortTaken rfl rfl rfl he⟩
  | saveMarker =>
    exact Or.inr ⟨_, rfl, Frame.finishControlWrite rfl rfl rfl s _ _ fun t w q =>
      Frame.endMarker rfl t w q _ fun _ he => Frame.saveTaken rfl he q⟩
  | returnMarker =>
    exact Or.inr ⟨_, rfl, Frame.finishControlWrite rfl rfl rfl s _ _ fun t w q =>
      Frame.endMarker rfl t w q _ fun _ he => Frame.returnTaken rfl rfl rfl he q⟩
  | malformedMarker =>
    exact Or.inr ⟨_, rfl, Frame.finishControlWrite rfl rfl rfl s _ _ fun t w q => Frame.refuse rfl t w _ q⟩
  | controlWordOrdinaryWrite =>
    exact Or.inr ⟨_, rfl, Frame.finishControlWrite rfl rfl rfl s _ _ fun t _ _ => Frame.refl t⟩
  | _ => nomatch h

/-- Every other command stays within its frame. -/
theorem exec_framed (c : Instr) (s : State) (h : c.takesWaiting = false) : Framed c s (exec c s) := by
  cases c with
  | accessBegin addr lanes pwen poen data => exact execAccessBegin_framed rfl addr lanes pwen poen data s
  | accessWithdraw => exact execAccessWithdraw_framed s
  | passedAccessGrant => exact execPassedAccessGrant_framed rfl s
  | passedCycleComplete => exact execPassedCycleComplete_framed rfl rfl rfl s
  | journaledWriteGrant => exact execJournaledWriteGrant_framed rfl rfl s
  | newDataWriteComplete => exact execNewDataWriteComplete_framed rfl rfl rfl s
  | controlWordWriteGrant => exact execControlWordWriteGrant_framed rfl rfl s
  | receiptWriteGrant => exact execReceiptWriteGrant_framed rfl rfl rfl s
  | receiptWriteComplete => exact execReceiptWriteComplete_framed rfl rfl rfl s
  | selection => exact execSelection_framed rfl rfl rfl rfl s
  | restoreWriteGrant => exact execRestoreWriteGrant_framed rfl rfl rfl s
  | restoreWriteComplete => exact execRestoreWriteComplete_framed rfl rfl rfl rfl rfl rfl rfl s
  | microsecondEvent => exact execMicrosecondEvent_framed rfl rfl s
  | holdLimitRunOut => exact execHoldLimitRunOut_framed rfl rfl s
  | tick => exact execTick_framed rfl rfl s
  | deadlineRunOut w => exact execDeadlineRunOut_framed rfl rfl w s
  | expiryRequest w => exact execExpiryRequest_framed rfl rfl rfl w s
  | millisecondEvent => exact execMillisecondEvent_framed rfl rfl s
  | transferStart x => exact execTransferStart_framed rfl x s
  | indexByteWrite b => exact execIndexByteWrite_framed rfl b s
  | descriptorByteWrite b => exact execDescriptorByteWrite_framed rfl rfl b s
  | highWaterThresholdWrite b => exact execHighWaterThresholdWrite_framed rfl rfl b s
  | holdLimitWrite b => exact execHoldLimitWrite_framed rfl rfl b s
  | positionWrite b => exact execPositionWrite_framed rfl rfl b s
  | statusRead => exact execStatusRead_framed rfl s
  | occupancyRead => exact execOccupancyRead_framed rfl s
  | stampCounterRead => exact execStampCounterRead_framed rfl s
  | oldestEventViewRead => exact execOldestEventViewRead_framed rfl s
  | enable x => exact execEnable_framed rfl rfl x s
  | disable x => exact execDisable_framed rfl rfl x s
  | forceAbort x => exact execForceAbort_framed rfl rfl rfl rfl x s
  | release x => exact execRelease_framed rfl rfl rfl x s
  | clearAll x => exact execClearAll_framed rfl rfl rfl rfl rfl rfl x s
  | popEvent x => exact execPopEvent_framed rfl x s
  | clearOverrun x => exact execClearOverrun_framed rfl x s
  | loadTxn x => exact execLoadTxn_framed rfl x s
  | loadRecord x => exact execLoadRecord_framed rfl x s
  | unknownRequestCode b => exact execUnknownRequestCode_framed rfl b s
  | failingEntry cause cut => exact execFailingEntry_framed cause cut s
  | retainingEntry => exact execRetainingEntry_framed s
  | failingExit madr cut => exact execFailingExit_framed ⟨rfl, rfl, rfl, rfl, rfl, rfl, rfl, rfl⟩ madr cut s
  | retainingExit madr cut => exact execRetainingExit_framed ⟨rfl, rfl, rfl, rfl, rfl, rfl, rfl, rfl⟩ madr cut s
  | vretFall => exact execVretFall_framed s
  | transferStop => exact execTransferStop_framed rfl s
  | _ => nomatch h

/-- The part of its frame that every command keeps, also where it takes a request that waited. -/
structure Keeps (s t : State) : Prop where
  pending : t.pending = s.pending
  events : s.main.queue.length ≤ Config.queueCapacity → t.main.queue.length ≤ Config.queueCapacity
  form : Memory.wf s.sram = true → Memory.wf t.sram = true

theorem Frame.keeps {c : Instr} {s t : State} (h : Frame c s t) : Keeps s t := ⟨h.pending, h.events, h.form⟩

theorem Keeps.takeWaiting {s u : State} (h : Keeps s u) : Keeps s u.takeWaiting := by
  have hw := (Frame.takeWaiting_failing (cause := .vdd) (cut := .between) u).keeps
  exact ⟨hw.pending.trans h.pending, fun b => hw.events (h.events b), fun b => hw.form (h.form b)⟩

/-- Every command answers a next state that keeps the queue of waiting commands, the event queue's bound and the SRAM's
form. -/
theorem exec_keeps (c : Instr) (s : State) : ∃ t, exec c s = .next t ∧ Keeps s t := by
  rcases hw : c.takesWaiting with _ | _
  · obtain ⟨t, e, ht⟩ := exec_framed c s hw
    exact ⟨t, e, ht.keeps⟩
  · rcases exec_takesWaiting c s hw with e | ⟨u, e, hu⟩
    · exact ⟨s, e, rfl, id, id⟩
    · exact ⟨_, e, hu.keeps.takeWaiting⟩

/-- The step's answer keeps what its command keeps. -/
theorem step_keeps {s t : State} (h : step s = .next t) :
    (Memory.wf s.sram = true → Memory.wf t.sram = true)
      ∧ (s.main.queue.length ≤ Config.queueCapacity → t.main.queue.length ≤ Config.queueCapacity) := by
  unfold step at h
  split at h
  · cases h
    exact ⟨id, id⟩
  · obtain ⟨u, e, hu⟩ := exec_keeps _ _
    obtain rfl := Host.Outcome.next.inj (h.symm.trans e)
    exact ⟨hu.form, hu.events⟩

/-- Settles O2. -/
theorem everyCommandAnswersNext : Obligations.EveryCommandAnswersNext := by
  intro c s
  obtain ⟨t, ht, hkeeps⟩ := exec_keeps c s
  exact ⟨t, ht, hkeeps.pending⟩

/-- Settles O57. -/
theorem everyStepKeepsMemoryAndQueueWithinForm : Obligations.EveryStepKeepsMemoryAndQueueWithinForm :=
  ⟨fun _ _ hm h => (step_keeps h).1 hm, fun _ _ hq h => (step_keeps h).2 hq⟩

/-- A command that takes no waiting request answers within its frame. -/
theorem exec_frame {c : Instr} {s t : State} (h : exec c s = .next t)
    (hw : c.takesWaiting = true → s.main.waiting = false) : Frame c s t := by
  rcases htw : c.takesWaiting with _ | _
  · obtain ⟨u, e, hu⟩ := exec_framed c s htw
    obtain rfl := Host.Outcome.next.inj (h.symm.trans e)
    exact hu
  · rcases exec_takesWaiting c s htw with e | ⟨u, e, hu⟩
    · obtain rfl := Host.Outcome.next.inj (h.symm.trans e)
      exact Frame.refl _
    · have hm : c.movesManagement = false := by
        cases c <;> simp_all [Instr.takesWaiting, Instr.movesManagement]
      obtain ⟨_, _, _, _, _, _, _, _, _, _, _, _, _, _, hwait⟩ := hu.management hm
      rw [State.takeWaiting_idle (hwait.trans (hw htw))] at e
      obtain rfl := Host.Outcome.next.inj (h.symm.trans e)
      exact hu

/-- Settles O55. -/
theorem commandsLeaveTheRestAlone : Obligations.CommandsLeaveTheRestAlone := by
  intro c s t h hw
  have hf := exec_frame h hw
  exact ⟨hf.journal, hf.config, hf.windows, hf.time, hf.sequencer, hf.engine, hf.management, hf.power⟩

end Sys2Proof.Machine
end

section
/-! PROOFS. The SRAM changes only at the lanes of the driven write cycle (O54). -/

namespace Sys2Proof.Machine

/-! ## A cycle that lands -/

/-- The SRAM is as it was, or the write cycle being driven has landed on its lanes. -/
def Lands (s t : State) : Prop :=
  t.sram = s.sram ∨ ∃ k x, s.main.cycle = some k ∧ k.wr = true ∧ t.sram = Memory.write s.sram k.addr k.lanes x

/-- The driven cycle, with nothing else, moves the SRAM as it lands. -/
theorem Lands.of_land {s t : State} {k : Cycle} (hk : s.main.cycle = some k) (ht : t.sram = (s.land k).sram) :
    Lands s t := by
  unfold State.land at ht
  split at ht
  · rename_i hw
    exact Or.inr ⟨k, k.data, hk, hw, ht⟩
  · exact Or.inl ht

theorem State.performControl_lands (s : State) : Lands s s.performControl := by
  rcases s.performControl_cases with e | ⟨a, k, ha, e⟩
  · exact Or.inl (by rw [e])
  · obtain ⟨-, hk, -⟩ := State.atMemory_spec ha
    exact Lands.of_land hk (by rw [e]; rfl)

theorem Lands.after {s t u : State} (h : Lands s t) (hu : u.sram = t.sram) : Lands s u := by
  unfold Lands at *
  rwa [hu]

theorem State.takeWaiting_sram (s : State) : s.takeWaiting.sram = s.sram := by
  rcases s.takeWaiting_spec with e | ⟨_, _, h⟩
  · rw [e]
  · exact h.sram

/-- The end of a cycle that the processor owns. -/
theorem Lands.outcome {s : State} {k : Cycle} (hk : s.main.cycle = some k) (a : Access) (r : Option Word) :
    Lands s ((((s.land k).endGrant).complete a r).settle) :=
  Lands.of_land hk ((AccessMoves.complete _ a r).trans (AccessMoves.settle _)).sram

theorem State.finishControlWrite_lands (s : State) (ex : Examination → Bool) (take : State → Win → Byte → State)
    (ht : ∀ t w q, Moves t (take t w q)) : Lands s (s.finishControlWrite ex take).takeWaiting := by
  refine Lands.after ?_ (State.takeWaiting_sram _)
  rcases s.finishControlWrite_spec ex take ht with e | h
  · exact Or.inl (by rw [e])
  · exact s.performControl_lands.after h.sram

/-! ## The commands at which a cycle lands -/

theorem execPassedCycleComplete_lands {s t : State} (h : execPassedCycleComplete s = .next t) : Lands s t := by
  obtain rfl := Host.Outcome.next.inj h
  split
  · rename_i a k ha
    obtain ⟨-, hk, -⟩ := State.atMemory_spec ha
    dsimp only
    split
    · exact Lands.outcome hk _ _
    · exact Lands.of_land hk (((AccessMoves.complete _ _ _).trans (AccessMoves.settle _)).sram.trans (by
        unfold State.land
        split <;> rfl))
  · exact Or.inl rfl

theorem execNewDataWriteComplete_lands {s t : State} (h : execNewDataWriteComplete s = .next t) : Lands s t := by
  obtain rfl := Host.Outcome.next.inj h
  split
  · rename_i a k ha
    obtain ⟨-, hk, -⟩ := State.atMemory_spec ha
    split
    · exact Lands.outcome hk _ _
    · exact Or.inl rfl
  · exact Or.inl rfl

theorem execReceiptWriteComplete_lands {s t : State} (h : execReceiptWriteComplete s = .next t) : Lands s t := by
  obtain rfl := Host.Outcome.next.inj h
  split
  · exact Or.inl rfl
  · rename_i k hk
    split
    · exact Lands.of_land hk rfl
    · exact Or.inl rfl

/-- The restore write in flight is the driven cycle. -/
theorem State.restoreInFlight_spec {s : State} {k : Walk} {c : Cycle} (h : s.restoreInFlight = some (k, c)) :
    s.main.walk = some k ∧ s.main.cycle = some c ∧ s.main.owner = .rollbackEngine ∧ k.claim = .granted := by
  unfold State.restoreInFlight at h
  split at h
  · rename_i k' c' hk hc
    split at h
    · rename_i ho
      simp only [Bool.and_eq_true, decide_eq_true_eq] at ho
      obtain ⟨rfl, rfl⟩ := Prod.mk.inj (Option.some.inj h)
      exact ⟨hk, hc, ho⟩
    · exact nomatch h
  · exact nomatch h

theorem execRestoreWriteComplete_lands {s t : State} (h : execRestoreWriteComplete s = .next t) : Lands s t := by
  obtain rfl := Host.Outcome.next.inj h
  split
  · rename_i k c hr
    obtain ⟨-, hk, -⟩ := State.restoreInFlight_spec hr
    exact Lands.of_land hk ((State.endRecovering_sram _).trans
      ((Moves.singleVoid _ _).trans ((Moves.setWalk _ _).trans (Moves.examine _ _))).sram)
  · exact Or.inl rfl

theorem execReceiptWriteGrant_lands {s t : State} (h : execReceiptWriteGrant s = .next t) : Lands s t := by
  obtain rfl := Host.Outcome.next.inj h
  dsimp only
  split
  · split
    · exact Or.inl rfl
    · split
      · exact s.performControl_lands.after rfl
      · exact Or.inl rfl
      · exact Or.inl rfl
  · exact Or.inl rfl

theorem execRestoreWriteGrant_lands {s t : State} (h : execRestoreWriteGrant s = .next t) : Lands s t := by
  obtain rfl := Host.Outcome.next.inj h
  dsimp only
  split
  · split
    · exact Or.inl rfl
    · exact s.performControl_lands.after rfl
  · exact Or.inl rfl

/-! ## A failure -/

/-- A part of a step that lands no cycle: the SRAM is as it was, and a write cycle that is being driven was being
driven before. -/
structure CycleKept (s u : State) : Prop where
  sram : u.sram = s.sram
  cycle : ∀ k, u.main.cycle = some k → k.wr = true → s.main.cycle = some k

/-- A part of a step that lands the driven cycle: no cycle is driven after it. -/
structure CycleDone (s u : State) : Prop where
  cycle : u.main.cycle = none
  lands : Lands s u

theorem CycleKept.of_eq {s u : State} (hs : u.sram = s.sram) (hc : u.main.cycle = s.main.cycle) : CycleKept s u :=
  ⟨hs, fun k hk _ => by rwa [← hc]⟩

theorem CycleKept.refl (s : State) : CycleKept s s := CycleKept.of_eq rfl rfl

theorem CycleKept.trans {s t u : State} (h : CycleKept s t) (g : CycleKept t u) : CycleKept s u :=
  ⟨g.sram.trans h.sram, fun k hk hw => h.cycle k (g.cycle k hk hw) hw⟩

theorem CycleDone.after {s t u : State} (h : CycleDone s t) (hs : u.sram = t.sram) (hc : u.main.cycle = t.main.cycle) :
    CycleDone s u := ⟨hc.trans h.cycle, h.lands.after hs⟩

/-- What a part of a step does with the cycle being driven. -/
def CyclePart (s u : State) : Prop := CycleKept s u ∨ CycleDone s u

theorem CyclePart.after {s t u : State} (h : CyclePart s t) (hs : u.sram = t.sram) (hc : u.main.cycle = t.main.cycle) :
    CyclePart s u := h.imp (fun k => k.trans (CycleKept.of_eq hs hc)) fun d => d.after hs hc

theorem Moves.cycleKept {s u : State} (h : Moves s u) : CycleKept s u :=
  CycleKept.of_eq h.sram h.sequencer.2.1

theorem State.takeWaiting_cycle (s : State) : s.takeWaiting.main.cycle = s.main.cycle := by
  rcases s.takeWaiting_spec with e | ⟨_, _, h⟩
  · rw [e]
  · exact h.sequencer.2.1

theorem State.performControl_part (s : State) : CyclePart s s.performControl := by
  rcases s.performControl_cases with e | ⟨a, k, ha, e⟩
  · exact Or.inl (by rw [e]; exact CycleKept.refl s)
  · exact Or.inr ⟨by rw [e]; rfl, s.performControl_lands⟩

theorem State.finishControlWrite_part (s : State) (ex : Examination → Bool) (take : State → Win → Byte → State)
    (ht : ∀ t w q, Moves t (take t w q)) : CyclePart s (s.finishControlWrite ex take).takeWaiting := by
  refine CyclePart.after ?_ (State.takeWaiting_sram _) (State.takeWaiting_cycle _)
  rcases s.finishControlWrite_spec ex take ht with e | h
  · rw [e]
    exact Or.inl (CycleKept.refl s)
  · exact s.performControl_part.after h.sram h.sequencer.2.1

theorem State.completeControlWrite_part (s : State) : CyclePart s s.completeControlWrite := by
  have hmarker (k : MarkerKind) (ex : Examination → Bool) :=
    s.finishControlWrite_part ex (fun t w q => t.takeMarker w k q) fun t w q => Moves.takeMarker t w k q
  unfold State.completeControlWrite
  split
  · exact Or.inl (CycleKept.refl s)
  · split
    · exact Or.inl (CycleKept.refl s)
    · split
      · exact s.finishControlWrite_part _ _ fun t _ _ => Moves.refl t
      · exact s.finishControlWrite_part _ _ fun t w q => Moves.refuse t w _ q
      · exact hmarker .openM _
      · exact hmarker .commitM _
      · exact hmarker .abortM _
      · exact hmarker .saveM _
      · exact hmarker .returnM _

/-- Among the takings, the grant of a journaled write begins a read, and two land the cycle being driven. -/
theorem State.runTaking_part (s : State) (k : Taking) : CyclePart s (s.runTaking k) := by
  have hframe {t : State} (c : Instr) (h : Frame c s t) (hl : c.landsCycle = false) (hq : c.movesSequencer = false) :
      CyclePart s t := Or.inl (CycleKept.of_eq (h.sram hl) (h.sequencer hq).2.1)
  have hport {u : State} (c : Instr) (h : Frame c { s with port.pcen := false } u) (hl : c.landsCycle = false)
      (hq : c.movesSequencer = false) : CyclePart s { u with port := s.port } :=
    Or.inl (CycleKept.of_eq (h.sram hl) (h.sequencer hq).2.1)
  cases k with
  | accessBegin addr lanes pwen poen data =>
    exact hframe (.accessBegin addr lanes pwen poen data) (execAccessBegin_framed rfl addr lanes pwen poen data s).after
      rfl rfl
  | journaledWriteGrant =>
    have hf := (execJournaledWriteGrant_framed (c := .journaledWriteGrant) rfl rfl { s with port.pcen := false }).after
    refine Or.inl ⟨hf.sram rfl, fun k hk hw => ?_⟩
    change (stateAfter _ (execJournaledWriteGrant _)).main.cycle = some k at hk
    unfold execJournaledWriteGrant stateAfter at hk
    dsimp only at hk
    split at hk
    · exact hk
    · split at hk
      · exact hk
      · split at hk
        · obtain rfl := Option.some.inj hk
          exact nomatch hw
        · rwa [((Moves.breakTxn _ _ _).trans
            ((AccessMoves.complete _ _ _).trans (AccessMoves.settle _)).moves).sequencer.2.1] at hk
        · rwa [((AccessMoves.proceed _ _ _).trans (AccessMoves.settle _)).cycle] at hk
  | controlWordWrite =>
    exact (State.completeControlWrite_part { s with port.pcen := false }).imp (fun h => ⟨h.sram, h.cycle⟩)
      fun h => ⟨h.cycle, h.lands⟩
  | microsecondEvent => exact hport .microsecondEvent (execMicrosecondEvent_framed rfl rfl _).after rfl rfl
  | expiryRequest w => exact hport (.expiryRequest w) (execExpiryRequest_framed rfl rfl rfl w _).after rfl rfl
  | selection => exact hport .selection (execSelection_framed rfl rfl rfl rfl _).after rfl rfl
  | restoreWriteComplete =>
    have hl := execRestoreWriteComplete_lands (s := { s with port.pcen := false }) rfl
    change CyclePart s { stateAfter _ (execRestoreWriteComplete _) with port := s.port }
    unfold execRestoreWriteComplete stateAfter at *
    dsimp only at hl ⊢
    split at hl
    · exact Or.inr ⟨by
        rcases State.endRecovering_spec _ with e | ⟨_, _, _, e, _⟩ <;> rw [e]
        all_goals exact ((Moves.singleVoid _ _).trans ((Moves.setWalk _ _).trans (Moves.examine _ _))).sequencer.2.1, hl⟩
    · exact Or.inl (CycleKept.of_eq rfl rfl)
  | forceAbort ext => exact hport (.forceAbort ext) (execForceAbort_framed rfl rfl rfl rfl ext _).after rfl rfl

theorem State.cutClearAll_cycle (s : State) (x : ClearCut) :
    (s.cutClearAll x).sram = s.sram ∧ (s.cutClearAll x).main.cycle = s.main.cycle := by
  cases x with
  | invalid => exact ⟨rfl, rfl⟩
  | defaulted => exact ⟨rfl, rfl⟩
  | unposted =>
    unfold State.cutClearAll State.clearEverything
    simp [MainWell.cleared]

theorem State.markerTaken_part (s : State) : CyclePart s s.markerTaken :=
  (State.runTaking_part { s with main.waiting := false } .controlWordWrite).imp (fun h => ⟨h.sram, h.cycle⟩)
    fun h => ⟨h.cycle, h.lands⟩

theorem State.applyCut_part (s : State) (x : CutPoint) : CyclePart s (s.applyCut x) := by
  have hsame : CyclePart s s := Or.inl (CycleKept.refl s)
  unfold State.applyCut
  split
  · exact hsame
  · split
    · exact Or.inl (Moves.appendBody _ _ _ _ _).cycleKept
    · exact hsame
  · split
    · dsimp only
      split
      · exact Or.inl (((Moves.appendBody _ _ _ _ _).trans (Moves.appendMark _ _)).trans
          (Moves.highWaterTest _ _)).cycleKept
      · exact Or.inl ((Moves.appendBody _ _ _ _ _).trans (Moves.appendMark _ _)).cycleKept
    · exact hsame
  · split
    · rename_i k c hr
      obtain ⟨-, hc, -⟩ := State.restoreInFlight_spec hr
      exact Or.inr ⟨(Moves.singleVoid _ _).sequencer.2.1, Lands.of_land hc (Moves.singleVoid _ _).sram⟩
    · exact hsame
  · exact (s.runTaking_part _).after rfl rfl
  · split
    · obtain ⟨hs, hc⟩ := s.cutClearAll_cycle _
      exact hsame.after hs hc
    · exact hsame
  · split
    · obtain ⟨hs, hc⟩ := s.markerTaken.cutClearAll_cycle _
      exact s.markerTaken_part.after hs hc
    · exact hsame

/-- The SRAM is as it was, or the write cycle being driven has landed, on its lanes or, at a fall of VDD, on any lanes of
its word. -/
def LandsAt (s t : State) (cause : FailCause) : Prop :=
  t.sram = s.sram ∨ ∃ k l x, s.main.cycle = some k ∧ k.wr = true ∧ t.sram = Memory.write s.sram k.addr l x
    ∧ (cause ≠ .vdd → l = k.lanes)

theorem Lands.at {s t : State} (h : Lands s t) (cause : FailCause) : LandsAt s t cause :=
  h.imp id fun ⟨k, x, hk, hw, e⟩ => ⟨k, k.lanes, x, hk, hw, e, fun _ => rfl⟩

/-- The cycle that is being driven as FAILING is entered is completed (R89). -/
theorem CyclePart.landCycle {s u : State} (h : CyclePart s u) (cause : FailCause) :
    LandsAt s (u.landCycle cause) cause := by
  unfold State.landCycle
  rcases h with hkept | hdone
  · split
    · exact Or.inl hkept.sram
    · rename_i k hk
      split
      · rename_i hw
        have hdriven := hkept.cycle k hk hw
        have hland : Lands s (u.land k) := by
          refine Or.inr ⟨k, k.data, hdriven, hw, ?_⟩
          unfold State.land
          rw [if_pos hw, ← hkept.sram]
          rfl
        split
        · exact Or.inr ⟨k, allLanes, Config.cutShortWord u.freeCount, hdriven, hw, by rw [← hkept.sram]; rfl,
            fun hne => absurd rfl hne⟩
        · exact hland.at _
        · exact hland.at _
      · exact Or.inl hkept.sram
  · rw [hdone.cycle]
    exact hdone.lands.at cause

theorem execFailingEntry_lands {cause : FailCause} {cut : CutPoint} {s t : State}
    (h : execFailingEntry cause cut s = .next t) : LandsAt s t cause := by
  have henter : LandsAt s (s.enterFailing cause cut) cause := by
    have hpart : CyclePart s (State.takeWaiting { s.applyCut cut with power := .failing, main.access := none }) :=
      ((s.applyCut_part cut).after (u := { s.applyCut cut with power := .failing, main.access := none }) rfl rfl).after
        (State.takeWaiting_sram _) (State.takeWaiting_cycle _)
    cases cause <;> exact hpart.landCycle _
  obtain rfl := Host.Outcome.next.inj h
  split
  · exact henter
  · exact henter
  all_goals cases cause <;> exact Or.inl rfl

/-! ## Every command -/

/-- A command at which no cycle lands leaves the SRAM. -/
theorem exec_sram {c : Instr} {s t : State} (h : exec c s = .next t) (hl : c.landsCycle = false) : t.sram = s.sram := by
  rcases hw : c.takesWaiting with _ | _
  · obtain ⟨u, e, hu⟩ := exec_framed c s hw
    obtain rfl := Host.Outcome.next.inj (h.symm.trans e)
    exact hu.sram hl
  · rcases exec_takesWaiting c s hw with e | ⟨u, e, hu⟩
    · obtain rfl := Host.Outcome.next.inj (h.symm.trans e)
      rfl
    · obtain rfl := Host.Outcome.next.inj (h.symm.trans e)
      exact (State.takeWaiting_sram u).trans (hu.sram hl)

/-- Outside a failure a command lands the driven cycle on its own lanes, or leaves the SRAM. -/
theorem exec_lands {c : Instr} {s t : State} (h : exec c s = .next t) (hf : ∀ cause cut, c ≠ .failingEntry cause cut) :
    Lands s t := by
  have hmarker (k : MarkerKind) (ex : Examination → Bool) :=
    s.finishControlWrite_lands ex (fun t w q => t.takeMarker w k q) fun t w q => Moves.takeMarker t w k q
  rcases hl : c.landsCycle with _ | _
  · exact Or.inl (exec_sram h hl)
  · cases c with
    | passedCycleComplete => exact execPassedCycleComplete_lands h
    | newDataWriteComplete => exact execNewDataWriteComplete_lands h
    | openMarker => exact Host.Outcome.next.inj h ▸ hmarker .openM _
    | commitMarker => exact Host.Outcome.next.inj h ▸ hmarker .commitM _
    | abortMarker => exact Host.Outcome.next.inj h ▸ hmarker .abortM _
    | saveMarker => exact Host.Outcome.next.inj h ▸ hmarker .saveM _
    | returnMarker => exact Host.Outcome.next.inj h ▸ hmarker .returnM _
    | malformedMarker =>
      exact Host.Outcome.next.inj h ▸ s.finishControlWrite_lands _ _ fun t w q => Moves.refuse t w _ q
    | controlWordOrdinaryWrite =>
      exact Host.Outcome.next.inj h ▸ s.finishControlWrite_lands _ _ fun t _ _ => Moves.refl t
    | receiptWriteComplete => exact execReceiptWriteComplete_lands h
    | restoreWriteComplete => exact execRestoreWriteComplete_lands h
    | receiptWriteGrant => exact execReceiptWriteGrant_lands h
    | restoreWriteGrant => exact execRestoreWriteGrant_lands h
    | failingEntry cause cut => exact absurd rfl (hf cause cut)
    | _ => nomatch hl

/-- A landing on lanes `l` of the driven word leaves every other byte. -/
theorem SameMemoryBut.of_write {s t : State} {a : Addr} {l : Lanes} {x : Word}
    (h : t.sram = Memory.write s.sram a l x) : SameMemoryBut s t a l ∧ SameMemoryBut s t a allLanes := by
  refine ⟨fun b n hn hb => ?_, fun b n hn hb => ?_⟩
  · rw [h]
    exact Memory.readLane_write_ne _ _ _ hn (hb.imp Ne.symm id)
  · rw [h]
    refine Memory.readLane_write_ne _ _ _ hn (Or.inl (Ne.symm (hb.resolve_right ?_)))
    have hlane : ∀ n < 4, allLanes.getLsbD n = true := by decide
    rw [hlane n hn]
    decide

theorem SameMemoryBut.of_eq {s t : State} (h : t.sram = s.sram) (a : Addr) (l : Lanes) : SameMemoryBut s t a l :=
  fun _ _ _ _ => by rw [h]

/-- Every command moves the SRAM by the driven write cycle alone, on its own lanes but at a fall of VDD. -/
theorem exec_landsAt {c : Instr} {s t : State} (h : exec c s = .next t) :
    ∃ cause, LandsAt s t cause ∧ (cause = .vdd → ∃ cut, c = .failingEntry .vdd cut) := by
  by_cases hf : ∀ cause cut, c ≠ .failingEntry cause cut
  · exact ⟨.rstn, (exec_lands h hf).at _, nofun⟩
  · push Not at hf
    obtain ⟨cause, cut, rfl⟩ := hf
    exact ⟨cause, execFailingEntry_lands h, fun e => ⟨cut, by rw [e]⟩⟩

/-- Settles O54. -/
theorem sramChangesOnlyByTheDrivenCycle : Obligations.SramChangesOnlyByTheDrivenCycle := by
  intro c s t h
  obtain ⟨cause, hlands, hvdd⟩ := exec_landsAt h
  refine ⟨exec_sram h, fun hn => ?_, fun k hk => ⟨fun hw => ?_, ?_⟩⟩
  · rcases hlands with e | ⟨k, _, _, hk, _⟩
    · exact e
    · exact nomatch hn.symm.trans hk
  · rcases hlands with e | ⟨k', _, _, hk', hw', _⟩
    · exact e
    · obtain rfl := Option.some.inj (hk.symm.trans hk')
      exact nomatch hw.symm.trans hw'
  · rcases hlands with e | ⟨k', l, x, hk', hw', e, hcause⟩
    · exact SameMemoryBut.of_eq e _ _
    · obtain rfl := Option.some.inj (hk.symm.trans hk')
      obtain ⟨hown, hall⟩ := SameMemoryBut.of_write e
      split
      · exact hall
      · rename_i hne
        rw [← hcause fun hv => (hvdd hv).elim fun cut hc => hne cut hc]
        exact hown

end Sys2Proof.Machine
end

section
/-! PROOFS. The Window Table's law at every step (O58). -/

namespace Sys2Proof.Machine

/-- The signature vouches for the retained state, or the part is not RETAINING (R146). -/
def State.vouched (s : State) : Prop := s.signature = true ∨ s.power ≠ .retaining

/-- A vouched state comes from a vouched one, or holds the cold Window Table. -/
def Vouches (s t : State) : Prop := t.vouched → s.vouched ∨ t.ret.WindowsLawful

theorem Vouches.of_same {s t : State} (hp : t.power = s.power) (hs : t.signature = s.signature) : Vouches s t :=
  fun h => Or.inl (by rwa [State.vouched, hp, hs] at h)

theorem SamePower.vouches {s t : State} (h : SamePower s t) : Vouches s t := .of_same h.1 h.2.1

theorem Vouches.of_vouched {s t : State} (h : s.vouched) : Vouches s t := fun _ => Or.inl h

theorem Vouches.of_lawful {s t : State} (h : t.ret.WindowsLawful) : Vouches s t := fun _ => Or.inr h

theorem Vouches.after {s u t : State} (h : Vouches u t) (hp : u.power = s.power) (hs : u.signature = s.signature) :
    Vouches s t := fun hv => (h hv).imp_left fun hu => by rwa [State.vouched, hp, hs] at hu

theorem State.vouched_of_power {s : State} {p : PowerState} (h : s.power = p) (hp : p ≠ .retaining) : s.vouched :=
  Or.inr (h ▸ hp)

/-! ## Requests -/

theorem State.takeClearAll_vouches (s : State) : Vouches s s.takeClearAll := by
  unfold State.takeClearAll
  split
  · refine .of_lawful ?_
    simpa [State.clearEverything] using Retained.windowsLawful_cold
  · exact .of_same rfl rfl

theorem State.takeRequest_vouches (s : State) (b : Byte) : Vouches s (s.takeRequest b) := by
  unfold State.takeRequest
  split_ifs
  · exact ((Frame.onArgWin (c := .enable 0) rfl s _ (Frame.takeEnable rfl rfl s)).power rfl).vouches
  · exact ((Frame.onArgWin (c := .disable 0) rfl s _ (Frame.takeDisable rfl rfl s)).power rfl).vouches
  · exact ((Frame.onArgWin (c := .forceAbort 0) rfl s _ (Frame.takeForceAbort rfl rfl rfl rfl s)).power rfl).vouches
  · exact ((Frame.onArgWin (c := .release 0) rfl s _ (Frame.takeRelease rfl rfl rfl s)).power rfl).vouches
  · exact s.takeClearAll_vouches
  · exact ((Frame.takePop (c := .popEvent 0) rfl s).power rfl).vouches
  · exact ((Frame.takeClearOverrun (c := .clearOverrun 0) rfl s).power rfl).vouches
  · exact ((Frame.onArgWin (c := .loadTxn 0) rfl s _ (Frame.takeLoadTxn rfl s)).power rfl).vouches
  · exact ((Frame.takeLoadRecord (c := .loadRecord 0) rfl s _).power rfl).vouches
  · exact .of_same rfl rfl

theorem State.takeWaiting_vouches (s : State) : Vouches s s.takeWaiting := by
  unfold State.takeWaiting
  split
  · exact (State.takeRequest_vouches _ _).after rfl rfl
  · exact .of_same rfl rfl

theorem State.request_vouches (s : State) (b : Byte) : Vouches s (s.request b) := by
  rcases s.request_cases b with e | ⟨_, _, e⟩ | ⟨_, _, e⟩ <;> rw [e]
  · exact .of_same rfl rfl
  · exact .of_same rfl rfl
  · exact (State.takeRequest_vouches _ _).after rfl rfl

/-! ## The power state -/

/-- What the engine moves before RECOVERING may end. -/
theorem Moves.endRecovering_vouches {s u : State} (h : Moves s u) : Vouches s u.endRecovering := by
  rcases u.endRecovering_spec with e | ⟨q, o, hp, -, -⟩
  · rw [e]
    exact .of_same h.power h.signature
  · exact .of_vouched (State.vouched_of_power (h.power.symm.trans hp) (by decide))

theorem execSelection_vouches {s t : State} (h : execSelection s = .next t) : Vouches s t := by
  obtain rfl := Host.Outcome.next.inj h
  split
  · split
    · exact .of_same rfl rfl
    · exact ((Moves.createWalk _ _).trans (Moves.examine _ _)).endRecovering_vouches
  · exact .of_same rfl rfl

theorem execRestoreWriteComplete_vouches {s t : State} (h : execRestoreWriteComplete s = .next t) : Vouches s t := by
  obtain rfl := Host.Outcome.next.inj h
  split
  · rename_i k c _
    have hl : (s.land c).endGrant.power = s.power ∧ (s.land c).endGrant.signature = s.signature := by
      unfold State.land
      split <;> exact ⟨rfl, rfl⟩
    exact ((Moves.singleVoid _ _).trans ((Moves.setWalk _ _).trans
      (Moves.examine _ _))).endRecovering_vouches.after hl.1 hl.2
  · exact .of_same rfl rfl

theorem State.assertCause_vouches (s : State) (x : FailCause) : Vouches s (s.assertCause x) := by
  cases x <;> exact .of_same rfl rfl

theorem execFailingEntry_vouches {s t : State} {cause : FailCause} {cut : CutPoint}
    (h : execFailingEntry cause cut s = .next t) : Vouches s t := by
  obtain rfl := Host.Outcome.next.inj h
  rcases hp : s.power with _ | _ | _ | _
  case retaining => exact s.assertCause_vouches cause
  all_goals exact .of_vouched (State.vouched_of_power hp (by decide))

theorem execRetainingEntry_vouches {s t : State} (h : execRetainingEntry s = .next t) : Vouches s t := by
  obtain rfl := Host.Outcome.next.inj h
  split
  · rename_i hp
    exact .of_vouched (State.vouched_of_power hp (by decide))
  · split <;> exact .of_same rfl rfl

/-- An exit from RETAINING with an invalid signature ends in a cold initialisation, or leaves the part in RETAINING with
the signature invalid. -/
theorem State.exitWith_vouches (s : State) (madr : BitVec 2) (cut : ExitCut) : Vouches s (s.exitWith madr cut) := by
  have hleave : Vouches s (s.leaveWith madr cut) := by
    unfold State.leaveWith
    split
    · rename_i hs
      exact .of_vouched (Or.inl hs)
    · split
      · rename_i cause step
        have hcut : (s.cutColdInit madr cause step).signature = false
            ∧ (s.cutColdInit madr cause step).power = s.power := by
          cases cause <;> cases step <;> exact ⟨rfl, rfl⟩
        rintro (hv | hv)
        · exact absurd (hcut.1.symm.trans hv) (by decide)
        · exact Or.inl (Or.inr (hcut.2 ▸ hv))
      all_goals
        refine .of_lawful ?_
        have hcold := (Frame.coldInit (c := .retainingExit madr .whole) ⟨rfl, rfl, rfl, rfl, rfl, rfl, rfl, rfl⟩
          { s with ret := Retained.cold } madr).table (fun h => nomatch h) Retained.windowsLawful_cold
        exact hcold
  cases cut with
  | waits cause => exact (State.assertCause_vouches _ cause).after rfl rfl
  | whole => exact hleave
  | placing n => exact hleave
  | coldCut cause step => exact hleave

theorem execFailingExit_vouches {s t : State} {madr : BitVec 2} {cut : ExitCut}
    (h : execFailingExit madr cut s = .next t) : Vouches s t := by
  obtain rfl := Host.Outcome.next.inj h
  rcases hp : s.power with _ | _ | _ | _
  case retaining => exact .of_same rfl rfl
  all_goals exact .of_vouched (State.vouched_of_power hp (by decide))

theorem execRetainingExit_vouches {s t : State} {madr : BitVec 2} {cut : ExitCut}
    (h : execRetainingExit madr cut s = .next t) : Vouches s t := by
  obtain rfl := Host.Outcome.next.inj h
  rcases hp : s.power with _ | _ | _ | _
  case retaining => exact s.exitWith_vouches madr cut
  all_goals exact .of_vouched (State.vouched_of_power hp (by decide))

/-- In RETAINING a fall of VRET leaves nothing that vouches. -/
theorem execVretFall_vouches {s t : State} (h : execVretFall s = .next t) : Vouches s t := by
  obtain rfl := Host.Outcome.next.inj h
  split
  · rename_i hp
    rintro (hv | hv)
    · exact nomatch hv
    · exact absurd hp hv
  · rename_i hp
    exact .of_vouched (Or.inr hp)

/-! ## Every command -/

theorem exec_vouches {c : Instr} {s t : State} (h : exec c s = .next t) : Vouches s t := by
  rcases htw : c.takesWaiting with _ | _
  · rcases hp : c.movesPower with _ | _
    · obtain ⟨u, e, hu⟩ := exec_framed c s htw
      obtain rfl := Host.Outcome.next.inj (h.symm.trans e)
      exact (hu.power hp).vouches
    · cases c with
      | selection => exact execSelection_vouches h
      | restoreWriteComplete => exact execRestoreWriteComplete_vouches h
      | clearAll x =>
        obtain rfl := Host.Outcome.next.inj h
        exact s.request_vouches _
      | failingEntry cause cut => exact execFailingEntry_vouches h
      | retainingEntry => exact execRetainingEntry_vouches h
      | failingExit madr cut => exact execFailingExit_vouches h
      | retainingExit madr cut => exact execRetainingExit_vouches h
      | vretFall => exact execVretFall_vouches h
      | _ => nomatch hp
  · rcases exec_takesWaiting c s htw with e | ⟨u, e, hu⟩
    · obtain rfl := Host.Outcome.next.inj (h.symm.trans e)
      exact .of_same rfl rfl
    · obtain rfl := Host.Outcome.next.inj (h.symm.trans e)
      have hp : c.movesPower = false := by
        cases c with
        | oldWordReadComplete | openMarker | commitMarker | abortMarker | saveMarker | returnMarker
        | malformedMarker | controlWordOrdinaryWrite => rfl
        | _ => nomatch htw
      obtain ⟨hpow, hsig, -⟩ := hu.power hp
      exact u.takeWaiting_vouches.after hpow hsig

/-- Every command but a fall of VRET keeps the Window Table's law, whatever the part does. -/
theorem exec_table {c : Instr} {s t : State} (hc : c ≠ .vretFall) (h : exec c s = .next t)
    (hl : s.ret.WindowsLawful) : t.ret.WindowsLawful := by
  rcases htw : c.takesWaiting with _ | _
  · obtain ⟨u, e, hu⟩ := exec_framed c s htw
    obtain rfl := Host.Outcome.next.inj (h.symm.trans e)
    exact hu.table hc hl
  · rcases exec_takesWaiting c s htw with e | ⟨u, e, hu⟩
    · obtain rfl := Host.Outcome.next.inj (h.symm.trans e)
      exact hl
    · obtain rfl := Host.Outcome.next.inj (h.symm.trans e)
      exact (Frame.takeWaiting_failing (cause := .vdd) (cut := .between) u).table (by decide) (hu.table hc hl)

theorem execVretFall_table {s t : State} (h : execVretFall s = .next t) (hv : t.vouched) (hl : s.ret.WindowsLawful) :
    t.ret.WindowsLawful := by
  obtain rfl := Host.Outcome.next.inj h
  split at hv
  · rename_i hp
    rcases hv with hv | hv
    · exact nomatch hv
    · exact absurd hp hv
  · rename_i hp
    simpa [hp] using hl

theorem exec_vouched_table {c : Instr} {s t : State} (h : exec c s = .next t)
    (hl : s.vouched → s.ret.WindowsLawful) (hv : t.vouched) : t.ret.WindowsLawful := by
  rcases exec_vouches h hv with hs | ht
  · by_cases hc : c = .vretFall
    · subst hc
      exact execVretFall_table h hv (hl hs)
    · exact exec_table hc h (hl hs)
  · exact ht

/-- Settles O58. -/
theorem everyStepKeepsTheWindowTable : Obligations.EveryStepKeepsTheWindowTable := by
  intro s t hl h
  unfold step at h
  split at h
  · cases h
    exact hl
  · exact exec_vouched_table h hl

end Sys2Proof.Machine
end

section
/-! PROOFS. One step and reset (O1, O3, O56), a withdrawal (O6), the grants of the memory port (O16), and the framing of
a transfer (O33). -/

namespace Sys2Proof.Machine

/-- Settles O1: it is the definition of a step. -/
theorem stepRunsTheFrontCommand : Obligations.StepRunsTheFrontCommand := ⟨fun _ _ _ => rfl, fun _ => rfl⟩

/-! ## Reset (R149) -/

section Reset
variable (w : Win)

theorem reset_entry : State.reset.entry w = none := winGet_replicate _ w
theorem reset_desc : State.reset.desc w = Descriptor.cold := winGet_replicate _ w
theorem reset_counter : State.reset.counter w = .absent := winGet_replicate _ w
theorem reset_slot : State.reset.slot w = .empty := winGet_replicate _ w
theorem reset_isPending : State.reset.isPending w = false := winGet_replicate _ w

end Reset

theorem Journal.cold_slot (p : Nat) : Journal.cold.slot p = Slot.clear := rfl

theorem reset_kindEnabled (k : EventKind) : State.reset.kindEnabled k = true := by
  cases k <;> decide

theorem reset_views (i : Nat) (hi : i < 16) :
    State.reset.main.txnView.byte i = 0 ∧ State.reset.main.recView.byte i = 0 := by
  interval_cases i <;> decide

/-- Settles O3. -/
theorem resetIsColdInitialisation : Obligations.ResetIsColdInitialisation :=
  ⟨rfl, rfl, rfl, fun w => ⟨reset_desc w, reset_entry w⟩, Journal.cold_slot, rfl, rfl, rfl, rfl, rfl, rfl,
    reset_kindEnabled, rfl, rfl, rfl, fun w => ⟨reset_counter w, reset_slot w, reset_isPending w⟩, rfl, rfl, rfl,
    by decide, rfl, rfl, rfl, rfl, rfl, rfl, rfl, reset_views⟩

/-! ## The laws at reset -/

theorem Retained.cold_lawful : Retained.cold.Lawful where
  journal := Journal.cold_lawful
  windows := Retained.windowsLawful_cold
  entries w e h := by simp [Retained.cold] at h
  disabled w _ := rfl
  highWater := Nat.zero_le _

theorem reset_engine : State.reset.EngineLawful where
  running := rfl
  pending w h := absurd ((reset_isPending w).symm.trans h) (by decide)
  above w _ h := absurd ((reset_isPending w).symm.trans h) (by decide)
  walked _ h := nomatch h
  all w _ h := by simp [State.txnState, reset_entry] at h
  placing w h := nomatch h
  record _ h := nomatch h

theorem reset_access : State.reset.AccessLawful where
  idlePort := by decide
  processor := ⟨nofun, nofun⟩
  examined h := nomatch h
  engine := ⟨nofun, nofun⟩
  restore h := nomatch h
  receipt h := nomatch h
  cycle _ _ h := nomatch h
  claims _ h := nomatch h
  held _ h := nomatch h
  timer h := nomatch h
  ready := ⟨nofun, nofun⟩
  ended _ h := nomatch h
  data h := nomatch h
  append _ _ h := nomatch h
  covered _ _ h := nomatch h
  marker _ _ h := nomatch h

theorem reset_power : State.reset.PowerLawful where
  recovering h := nomatch h
  walking h := nomatch h
  placing _ h := nomatch h
  otherwise _ := ⟨rfl, rfl⟩
  good _ := ⟨rfl, rfl, rfl⟩
  stopped h := nomatch h

theorem reset_lawful : State.reset.Lawful where
  memory := by decide
  queue := by decide
  power := reset_power
  retained _ := Retained.cold_lawful
  engine _ := reset_engine
  counters _ w := by simp only [State.CounterLawful, reset_counter]
  access _ := reset_access
  oscillator := ⟨by decide, nofun, nofun⟩
  waiting := ⟨nofun, nofun, nofun⟩

theorem powerOn_lawful : State.powerOn.Lawful where
  memory := by decide
  queue := by decide
  power :=
    { recovering := nofun, walking := nofun, placing := nofun
      otherwise := fun _ => ⟨rfl, rfl⟩, good := nofun
      stopped := fun _ => ⟨rfl, rfl, rfl, rfl, rfl, rfl, rfl, reset_counter, reset_slot⟩ }
  retained h := by simp [State.powerOn] at h
  engine h := nomatch h
  counters h := nomatch h
  access h := nomatch h
  oscillator := ⟨by decide, nofun, nofun⟩
  waiting := ⟨nofun, nofun, nofun⟩

/-- Settles O56. -/
theorem lawsHoldAtReset : Obligations.LawsHoldAtReset :=
  ⟨reset_lawful, powerOn_lawful, reset_lawful.memory, reset_lawful.queue, Retained.windowsLawful_cold⟩

/-! ## A withdrawal (R70, R85) -/

/-- The port's lines and the access path's own registers, set. -/
theorem AccessOnly.set (s : State) (p : ProcPort) (x : Option Access) (r : Prdy) (d : Option Word) :
    AccessOnly s { s with port := p, main.access := x, main.prdy := r, main.pd := d } where
  sequencer := ⟨rfl, rfl, rfl, rfl, rfl, rfl⟩
  memory := rfl
  journal := rfl
  config := ⟨rfl, rfl, rfl, rfl, rfl⟩
  engine := ⟨rfl, rfl, rfl⟩
  management := ⟨rfl, rfl, rfl, rfl, rfl, rfl, rfl, rfl, rfl, rfl, rfl, rfl, rfl, rfl, rfl⟩
  power := ⟨rfl, rfl, rfl, rfl, rfl, rfl, rfl⟩
  time := ⟨rfl, rfl, rfl⟩

theorem execAccessWithdraw_none {s : State} (h : s.main.access = none) :
    execAccessWithdraw s = .next { s with port.pcen := false } := by
  simp [execAccessWithdraw, h]

theorem execAccessWithdraw_complete {s : State} {a : Access} (h : s.main.access = some a) (hc : a.cond = .complete) :
    execAccessWithdraw s
      = .next { s with port.pcen := false, main.access := none, main.prdy := .inactive, main.pd := none } := by
  simp [execAccessWithdraw, h, hc]

theorem execAccessWithdraw_short {s : State} {a : Access} (h : s.main.access = some a) (hc : a.cond ≠ .complete) :
    execAccessWithdraw s
      = .next { s with port.pcen := false, main.access := some { a with withdrawn := true } } := by
  simp [execAccessWithdraw, h, hc, State.setAccess]

/-- Settles O6, by the place of the access in flight. -/
theorem accessWithdrawEndsOrMarks : Obligations.AccessWithdrawEndsOrMarks := by
  intro s
  rcases hacc : s.main.access with _ | a
  · exact ⟨_, execAccessWithdraw_none hacc, rfl, rfl, rfl, AccessOnly.set s _ s.main.access s.main.prdy s.main.pd, rfl,
      ⟨rfl, rfl⟩, fun _ => ⟨hacc, rfl, rfl⟩, nofun, nofun⟩
  by_cases hc : a.cond = .complete
  · refine ⟨_, execAccessWithdraw_complete hacc hc, rfl, rfl, rfl, AccessOnly.set s _ none .inactive none, rfl,
      ⟨rfl, rfl⟩, nofun, fun b hb _ => ⟨rfl, rfl, rfl⟩, fun b hb hn => ?_⟩
    obtain rfl := Option.some.inj hb
    exact absurd hc hn
  · refine ⟨_, execAccessWithdraw_short hacc hc, rfl, rfl, rfl, AccessOnly.set s _ _ s.main.prdy s.main.pd, rfl,
      ⟨rfl, rfl⟩, nofun, fun b hb hn => ?_, fun b hb _ => ?_⟩
    · obtain rfl := Option.some.inj hb
      exact absurd hn hc
    · obtain rfl := Option.some.inj hb
      exact ⟨rfl, rfl, rfl⟩

/-! ## The grants of the memory port (R87) -/

/-- Settles O16, by the claims and which was granted last. -/
theorem oneClaimIsGranted : Obligations.OneClaimIsGranted := by
  intro s hfree
  simp only [State.grantsReceipt, State.grantsRestore, State.grantsProc, hfree, Bool.true_and]
  generalize s.procClaim = p, s.receiptClaim = r, s.restoreClaim = x, s.main.lastGrantProc = l
  revert p r x l
  decide

/-! ## The framing of a transfer (R158, R159) -/

/-- The byte addresses the port that has sampled `target`. -/
theorem addresses_iff (b : Byte) (target : BitVec 2) :
    b.extractLsb' 1 7 = 0x58#7 + target.setWidth 7 ↔ (b.extractLsb' 1 7).toNat = 0x58 + target.toNat := by
  bv_omega

/-- Settles O33. -/
theorem transferFraming : Obligations.TransferFraming := by
  intro s x b
  constructor
  · intro hwait
    refine ⟨⟨_, rfl, ?_⟩, fun hp hx => ?_, ?_⟩
    · simp only [hwait, Bool.false_eq_true, if_false, transferFor, addresses_iff]
      split_ifs <;> simp_all
    · simp [exec, execIndexByteWrite, State.portReady, hp, hwait, hx]
    · simp [exec, execTransferStop, hwait]
  · intro hwait
    have hready : s.portReady = false := by simp [State.portReady, hwait]
    refine ⟨?_, ?_, ?_⟩
    · simp [exec, execTransferStart, hwait]
    · simp [exec, execIndexByteWrite, hready]
    · simp [exec, execTransferStop, hwait]

end Sys2Proof.Machine
end

section
/-! PROOFS. The access path: how an access begins (O5), the grants of the processor's claim (O8, O11, O14), and the
cycles that complete (O9, O13). -/

namespace Sys2Proof.Machine

/-! ## An access that begins (R70) -/

/-- The part runs where the classifier takes accesses. -/
theorem State.mainRuns_of_takes {s : State} (h : s.takesAccesses = true) : s.mainRuns = true := by
  simp only [State.takesAccesses, Bool.or_eq_true, Bool.and_eq_true, decide_eq_true_eq] at h
  rcases h with h | ⟨h, -⟩ <;> simp [State.mainRuns, h]

/-- An access that the port presents is routed as it is captured. -/
theorem State.takePresented_taken {s : State} (ht : s.takesAccesses = true) (ha : s.main.access = none)
    (hp : s.port.presents = true) :
    s.takePresented = State.route { s with main.prdy := .inactive, main.pd := none } s.port.capture := by
  simp [State.takePresented, ht, ha, hp]

theorem State.takePresented_idle {s : State}
    (h : s.takesAccesses = false ∨ s.main.access ≠ none ∨ s.port.presents = false) : s.takePresented = s := by
  unfold State.takePresented
  rcases h with h | h | h
  · simp [h]
  · simp [h]
  · simp [h]

/-- An access captured at a free port proceeds under its classification. -/
theorem State.takePresented_classified {s : State} (ht : s.takesAccesses = true) (ha : s.main.access = none)
    (hp : s.port.presents = true) :
    Classified { s with main.prdy := .inactive, main.pd := none } s.takePresented s.port.capture
      ∧ ∀ b, s.takePresented.main.access = some b → b.cond ≠ .complete →
        s.takePresented.main.prdy = .inactive ∧ s.takePresented.main.pd = none := by
  rw [State.takePresented_taken ht ha hp]
  constructor
  · rw [← State.settle_route _ _ rfl]
    exact State.route_settled _ _ (Or.inl rfl) (State.mainRuns_of_takes (s := s) ht)
  · intro b hb hc
    obtain ⟨b', hb', hleft⟩ :=
      State.route_left { s with main.prdy := .inactive, main.pd := none } s.port.capture
    obtain rfl := Option.some.inj (hb'.symm.trans hb)
    cases hleft with
    | waits _ _ _ _ prdy pd => exact ⟨prdy, pd⟩
    | held _ _ _ prdy pd => exact ⟨prdy, pd⟩
    | ended => exact absurd rfl hc

/-- Nothing that `AccessOnly` speaks of reads the processor port, PRDY or PD. -/
theorem AccessOnly.of_lines {s t : State} {p : ProcPort} {r : Prdy} {d : Option Word}
    (h : AccessOnly { s with port := p, main.prdy := r, main.pd := d } t) : AccessOnly s t :=
  ⟨h.sequencer, h.memory, h.journal, h.config, h.engine, h.management, h.power, h.time⟩

/-- Settles O5. -/
theorem accessBeginClassifies : Obligations.AccessBeginClassifies := by
  intro s addr lanes pwen poen data p
  refine ⟨fun hfree hp => ?_, fun hpres hidle => ?_, fun hpres => ?_⟩
  · obtain ⟨ht, ha, hpres⟩ := hfree
    have hmoves := AccessMoves.takePresented { s with port := p }
    obtain ⟨hclass, hlines⟩ := State.takePresented_classified (s := { s with port := p }) ht ha (by simpa [p, ProcPort.presents] using hp)
    refine ⟨_, ?_, hmoves.port, AccessOnly.of_lines (r := s.main.prdy) (d := s.main.pd) hmoves.only, hclass, hlines⟩
    simp [exec, execAccessBegin, hpres, p]
  · have h : ({ s with port := p } : State).takePresented = { s with port := p } := by
      refine State.takePresented_idle ?_
      rcases hidle with h | h | h
      · exact Or.inl h
      · exact Or.inr (Or.inl h)
      · exact Or.inr (Or.inr (by simpa [p, ProcPort.presents] using h))
    simpa [exec, execAccessBegin, hpres, p] using h
  · simp [exec, execAccessBegin, hpres]

/-! ## The grants (R74, R75, R78, R86, R87) -/

/-- A processor's grant drives its cycle and moves nothing else. -/
theorem State.grantProc_granted (s : State) (a : Access) (c : Cycle) : Granted s (s.grantProc a c) a c where
  access := rfl
  cycle := ⟨rfl, rfl, rfl, rfl, rfl, rfl⟩
  port := ⟨rfl, rfl, rfl, rfl⟩
  memory := rfl
  ret := rfl
  slots := rfl
  events := ⟨rfl, rfl⟩
  engine := ⟨rfl, rfl, rfl⟩
  management := ⟨rfl, rfl, rfl, rfl, rfl, rfl, rfl, rfl, rfl, rfl, rfl, rfl, rfl, rfl, rfl⟩
  power := ⟨rfl, rfl, rfl, rfl, rfl, rfl, rfl⟩
  time := ⟨rfl, rfl, rfl⟩

/-- An append request of an OPEN window with room in its quota and in the journal is granted (R15). -/
theorem State.appendAnswer_granted {s : State} {w : Win} {e : Entry} (he : s.entry w = some e) (ho : e.state = .opened)
    (hq : e.count < (s.desc w).quota.toNat) (hj : s.ret.journal.occ ≠ 1024) : s.appendAnswer w = .granted := by
  simp [State.appendAnswer, he, ho, Nat.not_le.mpr hq, Journal.full, hj]

/-- An append request of a window that is not OPEN has no effect (R15). -/
theorem State.appendAnswer_notOpen {s : State} {w : Win} (h : s.txnState w ≠ some .opened) :
    s.appendAnswer w = .notOpen := by
  unfold State.appendAnswer
  split
  · rfl
  · rename_i e he
    rw [if_pos]
    rintro ho
    exact h ((State.txnState_of_entry he).trans (congrArg some ho))

/-- Settles O8. -/
theorem processorGrantsDriveTheirCycle : Obligations.ProcessorGrantsDriveTheirCycle := by
  constructor
  · intro s a hg
    refine ⟨_, ?_, State.grantProc_granted s a a.cycle⟩
    simp [exec, execPassedAccessGrant, hg.grantable]
  · intro s a w e hg hw he ho hq hj
    refine ⟨_, ?_, State.grantProc_granted s a a.oldReadCycle⟩
    simp [exec, execJournaledWriteGrant, hg.grantable, hw, State.appendAnswer_granted he ho hq hj]

/-- The state with the processor's claim noted as the last granted (R87). -/
def State.noted (s : State) : State := { s with main.lastGrantProc := true }

theorem RouteSame.noted (s : State) : RouteSame s s.noted := ⟨rfl, rfl, ⟨rfl, rfl, rfl, rfl, rfl⟩, rfl, rfl⟩

/-- What the access path leaves of the rest after a grant that ends at once. -/
theorem AccessMoves.after_noted {s t : State} (h : AccessMoves s.noted t) (hfree : s.main.owner = .nobody) :
    t.main.owner = .nobody ∧ t.main.cycle = s.main.cycle ∧ t.main.lastGrantProc = true ∧ t.sram = s.sram
      ∧ t.ret.journal = s.ret.journal ∧ SameConfig s t ∧ SameEngine s t ∧ SameManagement s t ∧ SamePower s t
      ∧ SameTime s t ∧ t.port = s.port := by
  have honly := h.only
  exact ⟨h.owner.trans hfree, h.cycle, by rw [h.main]; rfl, h.sram, h.journal, honly.config, honly.engine,
    honly.management, honly.power, honly.time, h.port⟩

/-- Settles O11. -/
theorem refusedAppendIsClassifiedAgain : Obligations.RefusedAppendIsClassifiedAgain := by
  intro s a w hg hw hs hf
  have hexec : exec .journaledWriteGrant s = .next (s.noted.proceed a (s.rangeVerdict w a.wr)).settle := by
    simp [exec, execJournaledWriteGrant, hg.grantable, hw, State.appendAnswer_notOpen hs, State.noted]
  have hmoves : AccessMoves s.noted (s.noted.proceed a (s.rangeVerdict w a.wr)).settle :=
    (AccessMoves.proceed _ _ _).trans (AccessMoves.settle _)
  refine ⟨_, hexec, fun hen => ?_, fun hdis => ?_, hmoves.after_noted hg.free⟩
  · obtain ⟨e, he⟩ := Option.isSome_iff_exists.mp hen
    exact (State.range_settled s.noted a hf hg.runs he).congr (RouteSame.noted s)
  · have hnone : s.txnState w = none := by
      have : s.entry w = none := by simpa [State.enabled] using hdis
      simp [State.txnState, this]
    have hv : s.rangeVerdict w a.wr = .passes none := by simp [State.rangeVerdict, hnone]
    rw [hv]
    exact (State.claim_settled s.noted a .passed none).congr (RouteSame.noted s)

/-- Settles O14. -/
theorem controlWordGrantTestsTheState : Obligations.ControlWordGrantTestsTheState := by
  intro s a w hg hw hf
  by_cases hs : s.txnState w = some .rollingBack
  · have hexec : exec .controlWordWriteGrant s = .next (s.noted.hold a w).settle := by
      simp [exec, execControlWordWriteGrant, hg.grantable, hw, hs, State.noted]
    have hmoves : AccessMoves s.noted (s.noted.hold a w).settle :=
      (AccessMoves.hold _ _ _).trans (AccessMoves.settle _)
    have hheld := (State.hold_settled s.noted a w hf hg.runs).congr (RouteSame.noted s)
    obtain ⟨ho, hc, hl, hm, -, -, he, hman, hp, ht, hport⟩ := hmoves.after_noted hg.free
    refine ⟨_, hexec, fun hn => absurd hs hn, fun _ => ⟨hheld, ho, hc, hl, hm, ?_, he, hman, hp, ht, hport⟩⟩
    have hentries : (s.noted.hold a w).settle.ret.entries = s.ret.entries := by
      obtain ⟨hhold, hvoid⟩ := hheld
      by_cases hlim : s.ret.holdLimit = 0
      · exact (hvoid hlim).2.1
      · obtain ⟨-, -, -, -, hquiet⟩ := hhold hlim
        exact hquiet.1
    rw [hmoves.ret, hentries]
    rfl
  · refine ⟨_, ?_, fun _ => State.grantProc_granted s a a.cycle, fun hr => absurd hr hs⟩
    simp [exec, execControlWordWriteGrant, hg.grantable, hw, hs]

/-! ## Cycles that complete (R74, R75, R85) -/

/-- The port freed with SRAM `m`, and `f` free values used. -/
def State.freed (s : State) (m : List Host.Cell) (f : Nat) : State :=
  { s with sram := m, freeCount := f, main.owner := .nobody, main.cycle := none }

theorem State.land_endGrant (s : State) (c : Cycle) :
    (s.land c).endGrant
      = s.freed (if c.wr then Memory.write s.sram c.addr c.lanes c.data else s.sram) s.freeCount := by
  unfold State.land
  split <;> rfl

/-- The end of an access whose cycle has completed moves the access path, the memory port and the SRAM alone. -/
theorem State.freed_outcome (s : State) (m : List Host.Cell) (f : Nat) {a : Access} (r : Option Word)
    (hf : s.noneFollows a) :
    PortFreed s (((s.freed m f).complete a r).settle) ∧ MemoryOnly s (((s.freed m f).complete a r).settle)
      ∧ (((s.freed m f).complete a r).settle).sram = m
      ∧ (((s.freed m f).complete a r).settle).ended a (if a.wr then none else r) := by
  refine ⟨?_, ?_, ?_, State.settle_complete_ended _ _ _ hf⟩ <;> rw [State.settle_complete (s.freed m f) a r hf]
  · split <;> exact ⟨rfl, rfl, rfl, rfl, rfl, rfl⟩
  · split <;> exact
      { ret := rfl, slots := rfl, events := ⟨rfl, rfl⟩, engine := ⟨rfl, rfl, rfl⟩
        management := ⟨rfl, rfl, rfl, rfl, rfl, rfl, rfl, rfl, rfl, rfl, rfl, rfl, rfl, rfl, rfl⟩
        power := ⟨rfl, rfl, rfl, rfl, rfl, rfl, rfl⟩, time := ⟨rfl, rfl, rfl⟩, port := rfl }
  · split <;> rfl

theorem Landed.of_write {s t : State} {a : Addr} {l : Lanes} {x : Word} (hm : Memory.wf s.sram = true)
    (h : t.sram = Memory.write s.sram a l x) : Landed s t a l x := by
  refine ⟨fun n hn hl => ?_, fun b n hn hb => ?_⟩
  · rw [h, Memory.readLane_write_eq hm a l x hn hl]
  · rw [h, Memory.readLane_write_ne _ l x hn (hb.imp_left Ne.symm)]

/-- The access at the port with its cycle driven is the one that its class's completion takes. -/
theorem State.AtMemory.atMemory {s : State} {a : Access} {c : AccessClass} {k : Cycle} (h : s.AtMemory a c)
    (hk : s.main.cycle = some k) : s.atMemory c = some (a, k) := by
  simp [State.atMemory, h.access, hk, h.cond, h.cls, h.owner]

/-- Settles O13. -/
theorem newDataWriteLands : Obligations.NewDataWriteLands := by
  intro s a ha hw hk hm hf
  have hexec : exec .newDataWriteComplete s
      = .next (((s.freed (Memory.write s.sram a.addr a.lanes a.data) s.freeCount).complete a none).settle) := by
    simp [exec, execNewDataWriteComplete, ha.atMemory hk, State.land_endGrant, Access.cycle, hw]
  obtain ⟨hfreed, honly, hsram, hended⟩ :=
    s.freed_outcome (Memory.write s.sram a.addr a.lanes a.data) s.freeCount none hf
  exact ⟨_, hexec, Landed.of_write hm hsram, hfreed, by simpa using hended, honly⟩

/-- The bytes of a word put together from four. -/
theorem extract_of_bytes (f : Nat → Byte) {n : Nat} (hn : n < 4) :
    ((f 3 ++ f 2 ++ f 1 ++ f 0 : BitVec (8 + 8 + 8 + 8)).extractLsb' (8 * n) 8 : Byte) = f n := by
  apply BitVec.eq_of_getLsbD_eq
  intro i hi
  simp only [BitVec.getLsbD_extractLsb', BitVec.getLsbD_append, hi, decide_true, Bool.true_and]
  interval_cases n
  · simp [hi]
  · simp [hi, show ¬ 8 + i < 8 by omega]
  · simp [show ¬ 16 + i < 8 by omega, show ¬ 16 + i - 8 < 8 by omega, show 16 + i - 8 - 8 = i by omega, hi]
  · simp [show ¬ 24 + i < 8 by omega, show ¬ 24 + i - 8 < 8 by omega, show ¬ 24 + i - 8 - 8 < 8 by omega,
      show 24 + i - 8 - 8 - 8 = i by omega]

/-- The lanes that a read enables return what memory holds (R73, R74). -/
theorem State.readLanes_lane (s : State) (a : Addr) (l : Lanes) {n : Nat} (hn : n < 4) (hl : l.getLsbD n = true) :
    (s.readLanes a l).extractLsb' (8 * n) 8 = Memory.readLane s.sram a n := by
  have h := extract_of_bytes
    (fun n => if l.getLsbD n then Memory.readLane s.sram a n else Config.floatingByte (s.freeCount + n)) hn
  exact h.trans (if_pos hl)

/-- Settles O9. -/
theorem passedCycleCompletes : Obligations.PassedCycleCompletes := by
  intro s a ha hk hm hf
  rcases hw : a.wr with _ | _
  · obtain ⟨f, hexec⟩ : ∃ f, exec .passedCycleComplete s
        = .next (((s.freed s.sram f).complete a (some (s.readLanes a.addr a.lanes))).settle) := by
      by_cases hl : a.lanes = allLanes
      · refine ⟨s.freeCount, ?_⟩
        simp [exec, execPassedCycleComplete, ha.atMemory hk, State.land_endGrant, Access.cycle, hw, hl]
      · refine ⟨s.freeCount + 4, ?_⟩
        simp [exec, execPassedCycleComplete, ha.atMemory hk, State.land_endGrant, Access.cycle, hw, hl, State.useFree,
          State.freed]
    obtain ⟨hfreed, honly, hsram, hended⟩ := s.freed_outcome s.sram f (some (s.readLanes a.addr a.lanes)) hf
    exact ⟨_, _, hexec, hfreed, honly, nofun, fun _ => ⟨hsram, by simpa [hw] using hended,
      fun n hn hl => s.readLanes_lane a.addr a.lanes hn hl⟩⟩
  · have hexec : exec .passedCycleComplete s
        = .next (((s.freed (Memory.write s.sram a.addr a.lanes a.data) s.freeCount).complete a
            (some (s.readLanes a.addr a.lanes))).settle) := by
      simp [exec, execPassedCycleComplete, ha.atMemory hk, State.land_endGrant, Access.cycle, hw]
    obtain ⟨hfreed, honly, hsram, hended⟩ := s.freed_outcome (Memory.write s.sram a.addr a.lanes a.data) s.freeCount
      (some (s.readLanes a.addr a.lanes)) hf
    exact ⟨_, 0, hexec, hfreed, honly, fun _ => ⟨Landed.of_write hm hsram, by simpa [hw] using hended⟩, nofun⟩

end Sys2Proof.Machine
end

section
/-! PROOFS. Time: the hold timer (O15), the trains and the counters (O31), and an expiry (O32). -/

namespace Sys2Proof.Machine

/-! ## Microsecond events (R118) -/

theorem State.takeDue_idle {s : State} (ht : s.osc.tickDue = false) (hm : s.osc.milliDue = false) : s.takeDue = s := by
  simp [State.takeDue, ht, hm]

theorem exec_microsecondEvent {s : State} (h : s.clockRuns = true) : exec .microsecondEvent s = .next s.microsecond := by
  simp [exec, execMicrosecondEvent, h]

theorem exec_tick {s : State} (h : s.clockRuns = true) : exec .tick s = .next (s.untilTick 100).takeTick := by
  simp [exec, execTick, h]

theorem exec_millisecondEvent {s : State} (h : s.clockRuns = true) :
    exec .millisecondEvent s = .next (s.untilMillisecond 1000).takeMillisecond := by
  simp [exec, execMillisecondEvent, h]

/-- A counter's last tick is the tick itself (R124). -/
theorem exec_deadlineRunOut {s : State} {w : Win} {q : Byte} (hc : s.counter w = .running 1 q) :
    exec (.deadlineRunOut w) s = exec .tick s := by
  simp [exec, execDeadlineRunOut, execTick, hc]

/-- The hold timer's part of a microsecond event for a held access. -/
theorem State.holdMicrosecond_held {s : State} {a : Access} {w : Win} {n : Nat} (ha : s.main.access = some a)
    (hc : a.cond = .held) (hw : a.window = some w) (hn : s.main.holdTimer = some n) :
    s.holdMicrosecond
      = if s.ret.holdLimit.toNat ≤ n + 1 then (s.voidAccess a w).settle else { s with main.holdTimer := some (n + 1) } := by
  simp [State.holdMicrosecond, ha, hn, hw, hc]

/-- The state after the oscillator alone has moved on. -/
theorem RouteSame.setOsc (s : State) (o : Oscillator) : RouteSame s { s with osc := o } :=
  ⟨rfl, rfl, ⟨rfl, rfl, rfl, rfl, rfl⟩, rfl, rfl⟩

/-- Settles O15. -/
theorem holdTimerVoidsAtTheLimit : Obligations.HoldTimerVoidsAtTheLimit := by
  intro s a w n hr hclk ht hm ha hc hw hn hf
  have hmicro : s.microsecond = State.holdMicrosecond { s with osc := s.osc.next } := by
    unfold State.microsecond
    rw [State.takeDue_idle ht hm]
  have hheld := State.holdMicrosecond_held (s := { s with osc := s.osc.next }) ha hc hw hn
  refine ⟨fun hlt => ⟨?_, ?_⟩, fun hle => ?_⟩
  · rw [exec_microsecondEvent hclk, hmicro, hheld, if_neg (not_le.mpr hlt)]
  · simp [exec, execHoldLimitRunOut, State.holdRunsOut, ha, hn, hc, hlt]
  · have hvoid : s.microsecond = (State.voidAccess { s with osc := s.osc.next } a w).settle := by
      rw [hmicro, hheld, if_pos hle]
    have hmoves : AccessMoves { s with osc := s.osc.next }
        (State.voidAccess { s with osc := s.osc.next } a w).settle :=
      (AccessMoves.voidAccess _ _ _).trans (AccessMoves.settle _)
    refine ⟨_, by rw [exec_microsecondEvent hclk, hvoid], ?_, ?_, hmoves.only, hmoves.port⟩
    · simp [exec, execHoldLimitRunOut, State.holdRunsOut, ha, hn, hc, hle, hclk, hvoid]
    · exact (State.voidAccess_settled { s with osc := s.osc.next } a w hf hr).congr (RouteSame.setOsc s _)

/-! ## The trains (R118, R119, R124) -/

theorem Oscillator.next_trains {o : Oscillator} (h : o.micros < 1000) :
    o.next.micros = (if o.micros = 999 then 0 else o.micros + 1) ∧ (o.next.tickDue = true ↔ 100 ∣ o.micros + 1)
      ∧ (o.next.milliDue = true ↔ o.micros + 1 = 1000) := by
  simp only [Oscillator.next, decide_eq_true_eq]
  refine ⟨?_, ?_, ?_⟩
  · split <;> omega
  · omega
  · omega

/-- A tick that is due is taken as it stands. -/
theorem exec_tick_due {s : State} (h : s.clockRuns = true) (ht : s.osc.tickDue = true) :
    exec .tick s = .next s.takeTick := by
  rw [exec_tick h]
  simp [State.untilTick, ht]

theorem exec_millisecondEvent_due {s : State} (h : s.clockRuns = true) (hm : s.osc.milliDue = true) :
    exec .millisecondEvent s = .next s.takeMillisecond := by
  rw [exec_millisecondEvent h]
  simp [State.untilMillisecond, hm]

/-- What a tick makes of each counter (R124). -/
theorem Counter.tick_spec (c : Counter) :
    (∀ r q, c = .running r q → 1 < r → c.tick = .running (r - 1) q) ∧ (∀ q, c = .running 1 q → c.tick = .spent q)
      ∧ ((∀ r q, c ≠ .running r q) → c.tick = c) := by
  cases c with
  | running r q =>
    refine ⟨?_, ?_, fun h => absurd rfl (h r q)⟩
    · rintro r q ⟨⟩ hr
      simp [Counter.tick, not_le.mpr hr]
    · rintro q ⟨⟩
      rfl
  | absent | frozen _ _ | spent _ => exact ⟨nofun, nofun, fun _ => rfl⟩

theorem State.microsecond_clockRuns (s : State) : s.microsecond.clockRuns = s.clockRuns := by
  obtain ⟨_, _, _, _, _, _, _, _, _, _, _, e⟩ := (TimeMoves.microsecond s).shape
  rw [e]
  rfl

/-- No counter moves at a microsecond event before which no tick was due. -/
theorem State.microsecond_counter {s : State} (ht : s.osc.tickDue = false) (w : Win) :
    s.microsecond.counter w = s.counter w := by
  have hdue : s.takeDue.main.counters = s.main.counters := by
    simp only [State.takeDue, ht, Bool.false_eq_true, if_false]
    split <;> rfl
  unfold State.microsecond
  rw [(AccessMoves.holdMicrosecond _).counter]
  exact congrArg (winGet · w) hdue

/-- Time goes on by microsecond events to the tick and to the millisecond event that are to come (log 12). -/
theorem exec_trains_later {s u : State} (hclk : s.clockRuns = true) (hu : exec .microsecondEvent s = .next u) :
    (s.osc.tickDue = false → exec .tick s = exec .tick u
        ∧ ∀ w q, s.counter w = .running 1 q → exec (.deadlineRunOut w) s = exec (.deadlineRunOut w) u)
      ∧ (s.osc.milliDue = false → exec .millisecondEvent s = exec .millisecondEvent u) := by
  obtain rfl : s.microsecond = u := Host.Outcome.next.inj ((exec_microsecondEvent hclk).symm.trans hu)
  have hclk' : s.microsecond.clockRuns = true := s.microsecond_clockRuns.trans hclk
  have htick (ht : s.osc.tickDue = false) : exec .tick s = exec .tick s.microsecond := by
    rw [exec_tick hclk, exec_tick hclk', State.untilTick_step s ht]
  refine ⟨fun ht => ⟨htick ht, fun w q hc => ?_⟩, fun hm => ?_⟩
  · rw [exec_deadlineRunOut hc, exec_deadlineRunOut ((State.microsecond_counter ht w).trans hc), htick ht]
  · rw [exec_millisecondEvent hclk, exec_millisecondEvent hclk', State.untilMillisecond_step s hm]

theorem State.takeDue_takeTick {s : State} (ht : s.osc.tickDue = true) : s.takeTick.takeDue = s.takeDue := by
  simp [State.takeDue, ht, State.takeTick]

theorem State.takeDue_takeMillisecond {s : State} (hm : s.osc.milliDue = true) :
    s.takeMillisecond.takeDue = s.takeDue := by
  rcases ht : s.osc.tickDue with _ | _ <;> simp [State.takeDue, ht, hm, State.takeTick, State.takeMillisecond]

/-- Settles O31. -/
theorem ticksAndMillisecondsCount : Obligations.TicksAndMillisecondsCount := by
  refine ⟨fun o h => Oscillator.next_trains h, fun s hclk ht hm hn => ?_, fun s hclk ht => ⟨?_, fun w q hc => ?_⟩,
    fun s hclk hm => ?_, fun s => ⟨?_, fun hclk => ?_⟩, fun s u hu hclk => ?_⟩
  · rw [exec_microsecondEvent hclk]
    unfold State.microsecond
    rw [State.takeDue_idle ht hm]
    simp [State.holdMicrosecond, hn]
  · refine ⟨s.main.counters.map Counter.tick, exec_tick_due hclk ht, fun w => ?_⟩
    rw [winGet_map]
    exact Counter.tick_spec _
  · exact exec_deadlineRunOut hc
  · refine ⟨if s.power = .retaining then s.main.stamp else s.main.stamp + 1, exec_millisecondEvent_due hclk hm,
      fun hp => ?_, fun hp => if_pos hp⟩
    rw [if_neg hp]
    split <;> bv_omega
  · simp [State.clockRuns]
  · refine ⟨?_, ?_, ?_, ?_, fun w => ?_⟩
    · simp [exec, execMicrosecondEvent, hclk]
    · simp [exec, execHoldLimitRunOut, hclk]
    · simp [exec, execTick, hclk]
    · simp [exec, execMillisecondEvent, hclk]
    · rcases hc : s.counter w with _ | _ | _ | _ <;> simp [exec, execDeadlineRunOut, hclk, hc]
  · obtain ⟨htick, hmilli⟩ := exec_trains_later hclk hu
    have hu' : s.microsecond = u := Host.Outcome.next.inj ((exec_microsecondEvent hclk).symm.trans hu)
    refine ⟨htick, hmilli, fun v ht hv => ?_, fun v hm hv => ?_⟩
    · obtain rfl : s.takeTick = v := Host.Outcome.next.inj ((exec_tick_due hclk ht).symm.trans hv)
      rw [exec_microsecondEvent (s := s.takeTick) hclk, ← hu']
      unfold State.microsecond
      rw [State.takeDue_takeTick ht]
    · obtain rfl : s.takeMillisecond = v := Host.Outcome.next.inj ((exec_millisecondEvent_due hclk hm).symm.trans hv)
      rw [exec_microsecondEvent (s := s.takeMillisecond) hclk, ← hu']
      unfold State.microsecond
      rw [State.takeDue_takeMillisecond hm]

end Sys2Proof.Machine
end

section
/-! PROOFS. How transactions end and roll back: the markers (O17 to O23) and an expiry (O32). -/

namespace Sys2Proof.Machine

/-! ## The takings of one window -/

theorem TakenFor.setCounter {w : Win} (s : State) (c : Counter) : TakenFor s (s.setCounter w c) w :=
  ⟨⟨s.ret.entries, s.ret.journal, s.main.pendSet, _, s.main.slots, s.main.queue, s.main.overrun, rfl⟩,
    fun v hv => ⟨rfl, by rw [State.setCounter_counter, if_neg hv], rfl, rfl⟩⟩

theorem TakenFor.post {w : Win} (s : State) (k : EventKind) (v : Option Win) (d : Word) :
    TakenFor s (s.post k v d) w := by
  obtain ⟨q, o, e, -⟩ := s.post_spec k v d
  exact ⟨⟨s.ret.entries, s.ret.journal, s.main.pendSet, s.main.counters, s.main.slots, q, o, e⟩, fun v hv => by simp⟩

theorem TakenFor.reloadIfIdle {w : Win} (s : State) : TakenFor s (s.reloadIfIdle w) w := by
  unfold State.reloadIfIdle
  split
  · exact TakenFor.setCounter _ _
  · exact TakenFor.refl s

theorem TakenFor.refuse {w : Win} (s : State) (r : ReceiptReason) (q : Byte) : TakenFor s (s.refuse w r q) w :=
  (TakenFor.handOn _ _ _ _ _).trans (TakenFor.post _ _ _ _)

/-- What a taking leaves of everything but the window's own parts, the journal and the events. -/
theorem TakenFor.rest {s u : State} {w : Win} (h : TakenFor s u w) :
    u.sram = s.sram ∧ SameConfig s u ∧ SameAccess s u ∧ SameSequencer s u ∧ u.main.walk = s.main.walk
      ∧ u.main.tally = s.main.tally ∧ SameManagement s u ∧ SamePower s u ∧ SameClock s u := by
  obtain ⟨_, _, _, _, _, _, _, rfl⟩ := h.shape
  exact ⟨rfl, ⟨rfl, rfl, rfl, rfl, rfl⟩, ⟨rfl, rfl, rfl, rfl, rfl⟩, ⟨rfl, rfl, rfl, rfl, rfl, rfl⟩, rfl, rfl,
    ⟨rfl, rfl, rfl, rfl, rfl, rfl, rfl, rfl, rfl, rfl, rfl, rfl, rfl, rfl, rfl⟩, ⟨rfl, rfl, rfl, rfl, rfl, rfl, rfl⟩,
    ⟨rfl, rfl⟩⟩

theorem TakenFor.stopped {s u : State} {w : Win} (h : TakenFor s u w) : u.main.stopped = s.main.stopped := by
  obtain ⟨_, _, _, _, _, _, _, rfl⟩ := h.shape
  rfl

/-- A state whose windows, journal and posts are those of `s`. -/
structure SameTable (s l : State) : Prop where
  posts : PostSame s l
  entry : ∀ v, l.entry v = s.entry v
  counter : ∀ v, l.counter v = s.counter v
  slot : ∀ v, l.slot v = s.slot v
  isPending : ∀ v, l.isPending v = s.isPending v
  desc : ∀ v, l.desc v = s.desc v
  journal : l.ret.journal = s.ret.journal

theorem SameTable.refl (s : State) : SameTable s s :=
  ⟨PostSame.refl s, fun _ => rfl, fun _ => rfl, fun _ => rfl, fun _ => rfl, fun _ => rfl, rfl⟩

/-- Window `w`'s transaction ends at once with entry `e`: its counter is discarded and the receipt handed on. -/
def State.endsWith (s : State) (w : Win) (e : Entry) (o : ReceiptOutcome) (r : ReceiptReason) (q : Byte) (n : Nat) :
    State := ((s.setEntry w (some e)).discardCounter w).handOn w o r q n

/-- Window `w` rolls back with its counter discarded. -/
def State.rollsBack (s : State) (w : Win) (e : Entry) (c : RollbackCause) : State :=
  (s.startRollback w e c).discardCounter w

section Table
variable {s l : State} (h : SameTable s l) {w : Win} (e : Entry)

theorem TakenFor.endsWith (o : ReceiptOutcome) (r : ReceiptReason) (q : Byte) (n : Nat) :
    TakenFor l (l.endsWith w e o r q n) w :=
  (TakenFor.setEntry _ _).trans ((TakenFor.discardCounter _).trans (TakenFor.handOn _ _ _ _ _))

theorem TakenFor.startRollback (c : RollbackCause) : TakenFor l (l.startRollback w e c) w :=
  (TakenFor.setEntry _ _).trans (TakenFor.setPending _ _)

theorem TakenFor.rollsBack (c : RollbackCause) : TakenFor l (l.rollsBack w e c) w :=
  (TakenFor.startRollback e c).trans (TakenFor.discardCounter _)

include h

theorem SameTable.endsWith (hr : s.mainRuns = true) (o : ReceiptOutcome) (r : ReceiptReason) (q : Byte) (n : Nat) :
    (l.endsWith w e o r q n).entry w = some e ∧ (l.endsWith w e o r q n).counter w = .absent
      ∧ (l.endsWith w e o r q n).isPending w = s.isPending w ∧ (l.endsWith w e o r q n).ret.journal = s.ret.journal
      ∧ HandedOn s (l.endsWith w e o r q n) w o r q n ∧ EventsAre s (l.endsWith w e o r q n) (s.superseding w) := by
  obtain ⟨hreceipt, hevents⟩ :=
    State.handOn_reports (u := (l.setEntry w (some e)).discardCounter w) (w := w) o r q n hr
      ⟨h.posts.power, h.posts.mask, h.posts.stamp, h.posts.queue, h.posts.overrun⟩ (h.slot w) (h.desc w)
  refine ⟨by simp [State.endsWith], by simp [State.endsWith], ?_, ?_, hreceipt, hevents⟩
  · simpa [State.endsWith] using h.isPending w
  · simpa [State.endsWith] using h.journal

theorem SameTable.rollsBack (c : RollbackCause) :
    (l.rollsBack w e c).entry w = some (e.toRollingBack c) ∧ (l.rollsBack w e c).counter w = .absent
      ∧ (l.rollsBack w e c).isPending w = true ∧ (l.rollsBack w e c).ret.journal = s.ret.journal
      ∧ (l.rollsBack w e c).slot w = s.slot w ∧ SameEvents s (l.rollsBack w e c) := by
  refine ⟨?_, ?_, ?_, ?_, ?_, ?_, ?_⟩
  · simp [State.rollsBack, State.startRollback]
  · simp [State.rollsBack]
  · simp [State.rollsBack, State.startRollback]
  · simpa [State.rollsBack, State.startRollback] using h.journal
  · simpa [State.rollsBack, State.startRollback] using h.slot w
  · exact h.posts.queue
  · exact h.posts.overrun

end Table

/-! ## An expiry (R18) -/

/-- The entry whose last ended is its own seq with EXPIRED (R18). -/
def Entry.markExpired (e : Entry) : Entry := { e with lastEnded := some { seq := e.seq, kind := .expired } }

/-- What an expiry does to a transaction still running, before it is posted (R18). -/
def State.expired (s : State) (w : Win) (e : Entry) : State :=
  if e.count = 0 then s.endsWith w e.markExpired.toIdle .expired .noReason e.seq 0 else s.rollsBack w e.markExpired .expiry

theorem exec_expiryRequest {s : State} {w : Win} {e : Entry} (hr : s.mainRuns = true) (hc : s.counter w = .spent e.seq)
    (ho : s.takingOpen w = false) (he : s.entry w = some e) (hs : e.state = .opened ∨ e.state = .broken) :
    exec (.expiryRequest w) s
      = .next ((s.expired w e).post .deadlineExpired (some w) (detailReceipt .expired .noReason e.seq 0)) := by
  have hs' : (decide (e.state = .opened) || decide (e.state = .broken)) = true := by simpa using hs
  have htaken : s.takeExpiry w e.seq
      = (s.expired w e).post .deadlineExpired (some w) (detailReceipt .expired .noReason e.seq 0) := by
    simp only [State.takeExpiry, State.expired, he, hs', decide_true, Bool.and_true, if_true]
    split <;> rfl
  simp [exec, execExpiryRequest, hc, hr, ho, htaken]

theorem TakenFor.expired (s : State) (w : Win) (e : Entry) : TakenFor s (s.expired w e) w := by
  unfold State.expired
  split
  · exact TakenFor.endsWith _ _ _ _ _
  · exact TakenFor.rollsBack _ _

/-- Settles O32. -/
theorem expiryEndsTheTransaction : Obligations.ExpiryEndsTheTransaction := by
  intro s w e hr hc ho he hs
  have htaken := TakenFor.expired s w e
  have hmoves : TakenFor s
      ((s.expired w e).post .deadlineExpired (some w) (detailReceipt .expired .noReason e.seq 0)) w :=
    htaken.trans (TakenFor.post _ _ _ _)
  obtain ⟨hmem, hconf, hacc, hseq, hwalk, -, hman, hpow, hclk⟩ := hmoves.rest
  have hends := SameTable.endsWith (SameTable.refl s) (w := w) e.markExpired.toIdle hr .expired .noReason e.seq 0
  have hrolls := SameTable.rollsBack (SameTable.refl s) (w := w) e.markExpired .expiry
  have hevents {l : List (EventKind × Option Win × Word)} (hl : EventsAre s (s.expired w e) l) :
      EventsAre s ((s.expired w e).post .deadlineExpired (some w) (detailReceipt .expired .noReason e.seq 0))
        (l ++ [(.deadlineExpired, some w, detailReceipt .expired .noReason e.seq 0)]) := by
    obtain ⟨-, hc, -, -, -, -, -, hp, hk⟩ := htaken.rest
    exact EventsAre.append hp.1 hc.2.2.2.2 hk.1 hl (EventsAre.post _ _ _ _)
  refine ⟨_, exec_expiryRequest hr hc ho he hs, ?_, hmoves.others, ?_, hmem, hconf, hacc, hseq, hwalk, hman, hpow, hclk,
    fun h0 => ?_, fun h0 => ?_⟩
  · rw [State.post_counter]
    unfold State.expired
    split
    · exact hends.2.1
    · exact hrolls.2.1
  · rw [State.post_ret]
    unfold State.expired
    split
    · exact hends.2.2.2.1
    · exact hrolls.2.2.2.1
  · obtain ⟨hentry, -, hpend, -, hreceipt, hposts⟩ := hends
    rw [show s.expired w e = _ from if_pos h0] at hevents ⊢
    refine ⟨by rw [State.post_entry]; exact hentry, by rw [State.post_isPending]; exact hpend, ?_, hevents hposts⟩
    unfold HandedOn at *
    rw [State.post_slot]
    exact hreceipt
  · obtain ⟨hentry, -, hpend, -, hslot, hsame⟩ := hrolls
    rw [show s.expired w e = _ from if_neg h0] at hevents ⊢
    exact ⟨by rw [State.post_entry]; exact hentry, by rw [State.post_isPending]; exact hpend,
      by rw [State.post_slot]; exact hslot, hevents (EventsAre.of_same hsame)⟩

/-! ## A marker in flight (R78, R90, R93) -/

/-- The bits of a marker word (R176). -/
theorem getLsbD_markerWord (key : BitVec 16) (c : BitVec 4) (q : Byte) (i : Nat) :
    (markerWord key c q).getLsbD i
      = if i < 8 then q.getLsbD i else if i < 12 then false else if i < 16 then c.getLsbD (i - 12)
        else key.getLsbD (i - 16) := by
  show BitVec.getLsbD (w := 16 + 4 + 4 + 8) (key ++ c ++ 0#4 ++ q) i = _
  simp only [BitVec.getLsbD_append, BitVec.getLsbD_zero]
  by_cases h8 : i < 8
  · simp [h8]
  by_cases h12 : i < 12
  · simp [h8, h12, show i - 8 < 4 by omega]
  by_cases h16 : i < 16
  · simp [h8, h12, h16, show ¬ i - 8 < 4 by omega, show i - 12 < 4 by omega, show i - 8 - 4 = i - 12 by omega]
  · simp [h8, h12, h16, show ¬ i - 8 < 4 by omega, show ¬ i - 8 - 4 < 4 by omega,
      show i - 8 - 4 - 4 = i - 16 by omega]

/-- A marker word's fields stand where R176 lays them (R90). -/
theorem markerWord_fields (key : BitVec 16) (c : BitVec 4) (q : Byte) :
    markerKey (markerWord key c q) = key ∧ markerCommand (markerWord key c q) = c ∧ markerZero (markerWord key c q) = 0
      ∧ markerSeq (markerWord key c q) = q := by
  unfold markerKey markerCommand markerZero markerSeq
  refine ⟨?_, ?_, ?_, ?_⟩ <;> apply BitVec.eq_of_getLsbD_eq <;> intro i hi <;>
    simp only [BitVec.getLsbD_extractLsb', getLsbD_markerWord, hi, decide_true, Bool.true_and]
  · simp [show ¬ 16 + i < 8 by omega, show ¬ 16 + i < 12 by omega]
  · simp [show ¬ 12 + i < 8 by omega, show 12 + i < 16 by omega]
  · simp [show ¬ 8 + i < 8 by omega, show 8 + i < 12 by omega]
  · simp [hi]

/-- The Marker Decoder finds the marker that a word was made of. -/
theorem examineWord_markerWord (key : BitVec 16) (k : MarkerKind) (q : Byte) :
    examineWord key allLanes (markerWord key k.code q) = .marker k q := by
  obtain ⟨hkey, hcommand, hzero, hseq⟩ := markerWord_fields key k.code q
  have hkind : markerKindOf k.code = some k := by cases k <;> decide
  simp only [examineWord, hkey, hcommand, hzero, hseq, hkind]
  simp

theorem SameTable.landedWord (s : State) : SameTable s s.landedWord := by
  obtain ⟨hret, -, hmain⟩ := s.landedWord_same
  exact
    { posts := s.landedWord_posts
      entry := fun v => by unfold State.entry; rw [hret]
      counter := fun v => by unfold State.counter; rw [hmain]
      slot := fun v => by unfold State.slot; rw [hmain]
      isPending := fun v => by unfold State.isPending; rw [hmain]
      desc := fun v => by unfold State.desc; rw [hret]
      journal := by rw [hret] }

theorem TakenFor.moves {s u : State} {w : Win} (h : TakenFor s u w)
    (hb : s.main.queue.length ≤ Config.queueCapacity → u.main.queue.length ≤ Config.queueCapacity) : Moves s u := by
  refine ⟨?_, hb⟩
  obtain ⟨_, _, _, _, _, _, _, e⟩ := h.shape
  rw [e]
  exact ⟨_, _, s.freeCount, s.main.access, s.main.holdTimer, s.main.prdy, s.main.pd, _, s.main.walk, _, _, _, _,
    s.main.tally, rfl⟩

/-- A control-word write ends with `t` where the taking of its word leaves `u`. -/
structure WriteEnds (s u t : State) (a : Access) (w : Win) : Prop where
  landed : ControlLanded s t a w
  ret : t.ret = u.ret
  slot : t.slot w = u.slot w
  counter : t.counter w = u.counter w
  isPending : t.isPending w = u.isPending w
  events : SameEvents u t

theorem OthersSame.after {s l u : State} {w : Win} (h : SameTable s l) (g : OthersSame l u w) : OthersSame s u w :=
  fun v hv => by
    obtain ⟨he, hc, hs, hp⟩ := g v hv
    exact ⟨he.trans (h.entry v), hc.trans (h.counter v), hs.trans (h.slot v), hp.trans (h.isPending v)⟩

/-- A control-word write that completes ends where the taking of its word has left the table (R78). -/
theorem State.ControlWrite.ends {s u : State} {a : Access} {w : Win} (h : s.ControlWrite a w)
    (hm : Memory.wf s.sram = true) (hn : s.noneFollows a) {ex : Examination → Bool} {take : State → Win → Byte → State}
    (hx : ex (s.examination a w) = true) (hu : take s.landedWord w (markerSeq a.data) = u)
    (hv : Moves s.landedWord u) (ht : TakenFor s.landedWord u w) :
    WriteEnds s u (s.finishControlWrite ex take) a w := by
  obtain ⟨-, -, -, -, hwalk, htally, -⟩ := ht.rest
  obtain ⟨-, -, hmain⟩ := s.landedWord_same
  obtain ⟨hland, hret, hslot, hcounter, hpend, hevents⟩ := State.finishControlWrite_landed h hm hn hx hu hv
    (htally.trans (by rw [hmain])) (hwalk.trans (by rw [hmain])) (ht.others.after (SameTable.landedWord s))
  exact ⟨hland, hret, hslot w, hcounter w, hpend w, hevents⟩

section Ends
variable {s u t : State} {a : Access} {w : Win} (h : WriteEnds s u t a w)
include h

theorem WriteEnds.entry : t.entry w = u.entry w := by
  unfold State.entry
  rw [h.ret]

theorem WriteEnds.handedOn {o : ReceiptOutcome} {r : ReceiptReason} {q : Byte} {n : Nat} (hu : HandedOn s u w o r q n) :
    HandedOn s t w o r q n := h.slot.trans hu

theorem WriteEnds.sameEvents (hu : SameEvents s u) : SameEvents s t :=
  ⟨h.events.1.trans hu.1, h.events.2.trans hu.2⟩

end Ends

section Marker
variable {s : State} {a : Access} {w : Win} {e : Entry} {k : MarkerKind} {q : Byte}

theorem State.MarkerInFlight.examination (h : s.MarkerInFlight a w e k q) : s.examination a w = .marker k q := by
  have hen : s.enabled w = true := by simp [State.enabled, h.entry]
  simp only [State.examination, hen, if_true, h.lanes, h.word]
  exact examineWord_markerWord _ k q

/-- A marker's command completes its write and takes it for its window (R93). -/
theorem State.MarkerInFlight.ends (h : s.MarkerInFlight a w e k q) {u : State} (hu : s.landedWord.takeMarker w k q = u)
    (ht : TakenFor s.landedWord u w) :
    ∃ t, exec k.command s = .next t.takeWaiting ∧ WriteEnds s u t a w := by
  have hseq : markerSeq a.data = q := by
    rw [h.word]
    exact (markerWord_fields _ _ _).2.2.2
  refine ⟨s.finishControlWrite (Examination.isMarker k) fun t w q => t.takeMarker w k q, ?_, ?_⟩
  · cases k <;> rfl
  · refine h.write.ends h.memory h.follows (by simp [h.examination, Examination.isMarker]) (by rw [hseq]; exact hu) ?_ ht
    rw [← hu]
    exact Moves.takeMarker _ _ _ _

theorem State.MarkerInFlight.landed_entry (h : s.MarkerInFlight a w e k q) : s.landedWord.entry w = some e :=
  ((SameTable.landedWord s).entry w).trans h.entry

end Marker

/-! ## OPEN (R7) -/

/-- Settles O17. -/
theorem openMarkerOpensAnIdleWindow : Obligations.OpenMarkerOpensAnIdleWindow := by
  intro s a w e q h hidle
  have htable := SameTable.landedWord s
  let l := s.landedWord
  let v := (l.setEntry w (some (e.toOpened q))).setCounter w ((l.counter w).load (l.deadline w) q)
  have hu : l.takeMarker w .openM q = v.handOn w .opened .noReason q 0 := by
    simp only [State.takeMarker, State.takeOpen, h.landed_entry, hidle, l, v]
  obtain ⟨t, hexec, hends⟩ := h.ends hu
    ((TakenFor.setEntry _ _).trans ((TakenFor.setCounter _ _).trans (TakenFor.handOn _ _ _ _ _)))
  obtain ⟨hreceipt, hevents⟩ := State.handOn_reports (s := s) (u := v) (w := w) .opened .noReason q 0 h.write.runs
    ⟨htable.posts.power, htable.posts.mask, htable.posts.stamp, htable.posts.queue, htable.posts.overrun⟩
    (htable.slot w) (htable.desc w)
  refine ⟨t, hexec, hends.landed, ?_, ?_, hends.handedOn hreceipt, hevents.same hends.events, ?_, ?_⟩
  · rw [hends.entry]
    simp [v, Entry.toOpened]
  · rw [hends.counter]
    have h0 : (s.desc w).deadline.toNat = 0 ↔ (s.desc w).deadline = 0 := by bv_omega
    simp [v, Counter.load, State.deadline, l, htable.desc w, h0]
  · rw [hends.ret]
    simpa [v] using htable.journal
  · rw [hends.isPending]
    simpa [v] using htable.isPending w

/-! ## Refused markers (R5, R7 to R10, R14) -/

theorem SameTable.refuse {s l : State} (h : SameTable s l) (hr : s.mainRuns = true) {w : Win} {e : Entry}
    (he : s.entry w = some e) (r : ReceiptReason) (q : Byte) :
    HandedOn s (l.refuse w r q) w .refused r q e.count
      ∧ EventsAre s (l.refuse w r q) (s.superseding w ++ [(.markerRefused, some w, detailReceipt .refused r q 0)]) := by
  have hcount : l.countOf w = e.count := by simp [State.countOf, h.entry w, he]
  obtain ⟨hreceipt, hevents⟩ := State.handOn_reports (s := s) (u := l) (w := w) .refused r q e.count hr h.posts
    (h.slot w) (h.desc w)
  unfold State.refuse
  rw [hcount]
  refine ⟨?_, EventsAre.append ?_ ?_ ?_ hevents (EventsAre.post _ _ _ _)⟩
  · unfold HandedOn at *
    rw [State.post_slot]
    exact hreceipt
  · simpa using h.posts.power
  · simpa using h.posts.mask
  · simpa using h.posts.stamp

section Refused
variable {l : State} {w : Win} {e : Entry} {k : MarkerKind} {q : Byte} {r : ReceiptReason}

/-- In IDLE a marker other than OPEN is LATE or NOT_OPEN (R8). -/
theorem refusalReason_idle (hk : k ≠ .openM) (hs : e.state = .idle) : refusalReason k e q = some (e.idleReason q) := by
  unfold refusalReason Entry.idleReason
  rw [hs]
  cases k with
  | openM => exact absurd rfl hk
  | _ =>
    rcases e.lastEnded with _ | x
    · rfl
    · dsimp only
      split <;> rfl

/-- In OPEN and BROKEN a marker other than OPEN with another sequence number is SEQ_MISMATCH (R9, R10). -/
theorem refusalReason_seq (hk : k ≠ .openM) (hs : e.state = .opened ∨ e.state = .broken) (hq : e.seq ≠ q) :
    refusalReason k e q = some .seqMismatch := by
  unfold refusalReason
  rcases hs with hs | hs <;> rw [hs] <;> cases k with
  | openM => exact absurd rfl hk
  | _ => exact if_pos hq

/-- A marker other than OPEN is refused as the rules say, where its own rule refuses it so. -/
theorem State.endMarker_refused (he : l.entry w = some e) (hk : k ≠ .openM) (h : refusalReason k e q = some r)
    (own : Entry → State) (hown : e.state = .opened ∨ e.state = .broken → e.seq = q → own e = l.refuse w r q) :
    l.endMarker w q own = l.refuse w r q := by
  have hopen (hs : e.state = .opened ∨ e.state = .broken) :
      (if e.seq = q then own e else l.refuse w .seqMismatch q) = l.refuse w r q := by
    split
    · rename_i hq
      exact hown hs hq
    · rename_i hq
      rw [Option.some.inj ((refusalReason_seq hk hs hq).symm.trans h)]
  unfold State.endMarker
  simp only [he]
  rcases hs : e.state with _ | _ | _ | _ | _
  · dsimp only
    rw [Option.some.inj ((refusalReason_idle hk hs).symm.trans h)]
  · exact hopen (Or.inl hs)
  · exact hopen (Or.inr hs)
  · simp [refusalReason, hs] at h
  · have hr : ReceiptReason.damagedWindow = r := by simpa [refusalReason, hs] using h
    rw [hr]

/-- A marker that the rules refuse is refused with their reason. -/
theorem State.takeMarker_refused (he : l.entry w = some e) (h : refusalReason k e q = some r) :
    l.takeMarker w k q = l.refuse w r q := by
  cases k with
  | openM =>
    cases hs : e.state <;> simp_all [refusalReason, State.takeMarker, State.takeOpen]
  | commitM =>
    refine State.endMarker_refused (k := .commitM) he (by decide) h _ fun hs hq => ?_
    rcases hs with hs | hs <;> simp_all [refusalReason, State.commitTaken]
  | abortM =>
    refine State.endMarker_refused (k := .abortM) he (by decide) h _ fun hs hq => ?_
    rcases hs with hs | hs <;> simp_all [refusalReason]
  | saveM =>
    refine State.endMarker_refused (k := .saveM) he (by decide) h _ fun hs hq => ?_
    rcases hs with hs | hs <;> simp_all [refusalReason, State.saveTaken]
  | returnM =>
    refine State.endMarker_refused (k := .returnM) he (by decide) h _ fun hs hq => ?_
    rcases hp : e.savepoint with _ | p
    · rcases hs with hs | hs <;> simp_all [refusalReason, State.returnTaken]
    · rcases hs with hs | hs <;> simp_all [refusalReason]

end Refused

/-- Settles O18. -/
theorem refusedMarkerLeavesTheEntry : Obligations.RefusedMarkerLeavesTheEntry := by
  intro s a w e k q r h hr
  have htable := SameTable.landedWord s
  obtain ⟨t, hexec, hends⟩ := h.ends (State.takeMarker_refused h.landed_entry hr) (TakenFor.refuse _ _ _)
  obtain ⟨hreceipt, hevents⟩ := htable.refuse h.write.runs h.entry r q
  refine ⟨t, hexec, hends.landed, ?_, ?_, ?_, ?_, hends.handedOn hreceipt, hevents.same hends.events⟩
  · rw [hends.entry]
    simpa [State.refuse] using h.landed_entry
  · rw [hends.counter]
    simpa [State.refuse] using htable.counter w
  · rw [hends.isPending]
    simpa [State.refuse] using htable.isPending w
  · rw [hends.ret]
    simpa [State.refuse] using htable.journal

/-! ## COMMIT (R11) -/

/-- A marker other than OPEN with the sequence number of an OPEN or BROKEN transaction meets its own rule. -/
theorem State.endMarker_own {l : State} {w : Win} {e : Entry} {q : Byte} (he : l.entry w = some e)
    (hs : e.state = .opened ∨ e.state = .broken) (hq : e.seq = q) (own : Entry → State) :
    l.endMarker w q own = own e := by
  rcases hs with hs | hs <;> simp [State.endMarker, he, hs, hq]

/-- Settles O19. -/
theorem commitPointRetiresTheRecords : Obligations.CommitPointRetiresTheRecords := by
  intro s a w e q h hs hq hj
  have htable := SameTable.landedWord s
  have hu : s.landedWord.takeMarker w .commitM q
      = ((s.landedWord.voidAllToIdle w e).discardCounter w).handOn w .committed .noReason q e.count := by
    refine (State.endMarker_own h.landed_entry (Or.inl hs) hq _).trans ?_
    rw [State.commitTaken, if_neg (by simp [hs]), hq]
  obtain ⟨t, hexec, hends⟩ := h.ends hu
    ((TakenFor.voidAllToIdle _ _ _).trans ((TakenFor.discardCounter _).trans (TakenFor.handOn _ _ _ _ _)))
  obtain ⟨hreceipt, hevents⟩ := State.handOn_reports (s := s)
    (u := (s.landedWord.voidAllToIdle w e).discardCounter w) (w := w) .committed .noReason q e.count h.write.runs
    ⟨htable.posts.power, htable.posts.mask, htable.posts.stamp, htable.posts.queue, htable.posts.overrun⟩
    (htable.slot w) (htable.desc w)
  have hjournal : t.ret.journal = s.ret.journal.voidAll w := by
    rw [hends.ret]
    simp [State.voidAllToIdle, htable.journal]
  obtain ⟨hlawful, -, hothers, hnone, hhead, -⟩ := Journal.voidAll_spec hj w
  refine ⟨t, hexec, hends.landed, ?_, ?_, ?_, hends.handedOn hreceipt, hevents.same hends.events, ?_⟩
  · rw [hends.entry]
    simp [State.voidAllToIdle, Entry.toIdle]
  · rw [hends.counter]
    simp
  · rw [hends.isPending]
    simpa [State.voidAllToIdle] using htable.isPending w
  · rw [hjournal]
    exact ⟨hnone, hothers, hhead, hlawful⟩

/-! ## ABORT (R12) -/

/-- Settles O20. -/
theorem abortMarkerEndsOrRollsBack : Obligations.AbortMarkerEndsOrRollsBack := by
  intro s a w e q h hs hq
  have htable := SameTable.landedWord s
  have hown : s.landedWord.takeMarker w .abortM q = s.landedWord.abortTaken w e :=
    State.endMarker_own h.landed_entry hs hq _
  by_cases h0 : e.count = 0
  · have hu : s.landedWord.takeMarker w .abortM q = s.landedWord.endsWith w e.toIdle .aborted .noReason q 0 := by
      rw [hown, State.abortTaken, if_pos h0, hq]
      rfl
    obtain ⟨t, hexec, hends⟩ := h.ends hu (TakenFor.endsWith _ _ _ _ _)
    obtain ⟨hentry, hcounter, hpend, hjournal, hreceipt, hevents⟩ :=
      htable.endsWith (w := w) e.toIdle h.write.runs .aborted .noReason q 0
    exact ⟨t, hexec, hends.landed, hends.counter.trans hcounter, by rw [hends.ret]; exact hjournal,
      fun _ => ⟨hends.entry.trans hentry, hends.handedOn hreceipt, hevents.same hends.events,
        hends.isPending.trans hpend⟩, fun hn => absurd h0 hn⟩
  · have hu : s.landedWord.takeMarker w .abortM q = s.landedWord.rollsBack w e .abort := by
      rw [hown, State.abortTaken, if_neg h0]
      rfl
    obtain ⟨t, hexec, hends⟩ := h.ends hu (TakenFor.rollsBack _ _)
    obtain ⟨hentry, hcounter, hpend, hjournal, hslot, hsame⟩ := htable.rollsBack (w := w) e .abort
    exact ⟨t, hexec, hends.landed, hends.counter.trans hcounter, by rw [hends.ret]; exact hjournal,
      fun hn => absurd hn h0, fun _ => ⟨hends.entry.trans hentry, hends.isPending.trans hpend,
        hends.slot.trans hslot, hends.sameEvents hsame⟩⟩

/-! ## SAVE (R13) -/

/-- Settles O21. -/
theorem saveMarkerNotesTheCount : Obligations.SaveMarkerNotesTheCount := by
  intro s a w e q h hs hq
  have htable := SameTable.landedWord s
  have hu : s.landedWord.takeMarker w .saveM q
      = (s.landedWord.setEntry w (some { e with savepoint := some e.count })).handOn w .saved .noReason q e.count := by
    refine (State.endMarker_own h.landed_entry (Or.inl hs) hq _).trans ?_
    rw [State.saveTaken, if_neg (by simp [hs]), hq]
  obtain ⟨t, hexec, hends⟩ := h.ends hu ((TakenFor.setEntry _ _).trans (TakenFor.handOn _ _ _ _ _))
  obtain ⟨hreceipt, hevents⟩ := State.handOn_reports (s := s)
    (u := s.landedWord.setEntry w (some { e with savepoint := some e.count })) (w := w) .saved .noReason q e.count
    h.write.runs
    ⟨htable.posts.power, htable.posts.mask, htable.posts.stamp, htable.posts.queue, htable.posts.overrun⟩
    (htable.slot w) (htable.desc w)
  refine ⟨t, hexec, hends.landed, ?_, ?_, ?_, ?_, hends.handedOn hreceipt, hevents.same hends.events⟩
  · rw [hends.entry]
    simp
  · rw [hends.counter]
    simpa using htable.counter w
  · rw [hends.isPending]
    simpa using htable.isPending w
  · rw [hends.ret]
    simpa using htable.journal

/-! ## RETURN (R14, R122, R123) -/

theorem State.reloadIfIdle_posts (s : State) (w : Win) : PostSame s (s.reloadIfIdle w) := by
  unfold State.reloadIfIdle
  split <;> exact ⟨rfl, rfl, rfl, rfl, rfl⟩

/-- A reload in IDLE mode is told to a RUNNING counter only (R123). -/
theorem State.reloadIfIdle_counter (s : State) (w : Win) :
    (s.reloadIfIdle w).counter w = (match s.counter w with
      | .running r x => if (s.desc w).deadlineMode = .idle then .running (s.desc w).deadline.toNat x else .running r x
      | c => c) := by
  unfold State.reloadIfIdle
  split
  · rw [State.setCounter_counter, if_pos rfl]
    rcases s.counter w with _ | _ | _ | _ <;> rfl
  · rcases s.counter w with _ | _ | _ | _ <;> rfl

theorem State.reloadIfIdle_rest (s : State) (w : Win) :
    (s.reloadIfIdle w).ret = s.ret ∧ (s.reloadIfIdle w).main.slots = s.main.slots
      ∧ (s.reloadIfIdle w).main.pendSet = s.main.pendSet := by
  unfold State.reloadIfIdle
  split <;> exact ⟨rfl, rfl, rfl⟩

/-- The window is OPEN again at its savepoint (R14). -/
def State.returned (s : State) (w : Win) (e : Entry) : State := (s.setEntry w (some e.toReturned)).reloadIfIdle w

theorem SameTable.returned {s l : State} (h : SameTable s l) (w : Win) (e : Entry) :
    PostSame s (l.returned w e) ∧ (l.returned w e).entry w = some e.toReturned
      ∧ (l.returned w e).counter w = (match s.counter w with
          | .running r x =>
            if (s.desc w).deadlineMode = .idle then .running (s.desc w).deadline.toNat x else .running r x
          | c => c)
      ∧ (l.returned w e).slot w = s.slot w ∧ (l.returned w e).desc w = s.desc w
      ∧ (l.returned w e).isPending w = s.isPending w ∧ (l.returned w e).ret.journal = s.ret.journal := by
  obtain ⟨hpower, hmask, hstamp, hqueue, hoverrun⟩ := State.reloadIfIdle_posts (l.setEntry w (some e.toReturned)) w
  obtain ⟨hret, hslots, hpend⟩ := State.reloadIfIdle_rest (l.setEntry w (some e.toReturned)) w
  have hcounter := State.reloadIfIdle_counter (l.setEntry w (some e.toReturned)) w
  unfold State.returned
  refine ⟨⟨hpower.trans h.posts.power, hmask.trans h.posts.mask, hstamp.trans h.posts.stamp,
    hqueue.trans h.posts.queue, hoverrun.trans h.posts.overrun⟩, ?_, ?_, ?_, ?_, ?_, ?_⟩
  · unfold State.entry
    rw [hret]
    exact State.setEntry_entry_self _ _ _
  · rw [hcounter, State.setEntry_counter, State.setEntry_desc, h.counter, h.desc]
  · unfold State.slot
    rw [hslots]
    exact h.slot w
  · unfold State.desc
    rw [hret]
    exact h.desc w
  · unfold State.isPending
    rw [hpend]
    exact h.isPending w
  · rw [hret]
    exact h.journal

/-- The window returns to its savepoint with its counter frozen (R14, R122). -/
def State.returns (s : State) (w : Win) (e : Entry) : State :=
  (s.startRollback w e .returned).setCounter w ((s.startRollback w e .returned).counter w).freeze

theorem SameTable.returns {s l : State} (h : SameTable s l) (w : Win) (e : Entry) :
    (l.returns w e).entry w = some (e.toRollingBack .returned)
      ∧ (l.returns w e).counter w = (match s.counter w with
          | .running r x => .frozen r x
          | .spent x => .frozen 0 x
          | c => c)
      ∧ (l.returns w e).isPending w = true ∧ (l.returns w e).ret.journal = s.ret.journal
      ∧ (l.returns w e).slot w = s.slot w ∧ SameEvents s (l.returns w e) := by
  refine ⟨?_, ?_, ?_, h.journal, h.slot w, h.posts.queue, h.posts.overrun⟩
  · simp [State.returns, State.startRollback]
  · have hc : (l.startRollback w e .returned).counter w = s.counter w := h.counter w
    rw [State.returns, State.setCounter_counter, if_pos rfl, hc]
    rcases s.counter w with _ | _ | _ | _ <;> rfl
  · simp [State.returns, State.startRollback]

/-- Settles O22. -/
theorem returnMarkerGoesToTheSavepoint : Obligations.ReturnMarkerGoesToTheSavepoint := by
  intro s a w e q p h hs hq hp
  have htable := SameTable.landedWord s
  have hown : s.landedWord.takeMarker w .returnM q = s.landedWord.returnTaken w q e :=
    State.endMarker_own h.landed_entry hs hq _
  by_cases h0 : e.count = p
  · have hu : s.landedWord.takeMarker w .returnM q
        = (s.landedWord.returned w e).handOn w .returned .noReason q 0 := by
      rw [hown, State.returnTaken, hp]
      simp [h0, hq, State.returned]
    obtain ⟨t, hexec, hends⟩ := h.ends hu
      ((TakenFor.setEntry _ _).trans ((TakenFor.reloadIfIdle _).trans (TakenFor.handOn _ _ _ _ _)))
    obtain ⟨hposts, hentry, hcounter, hslot, hdesc, hpend, hjournal⟩ := htable.returned w e
    obtain ⟨hreceipt, hevents⟩ := State.handOn_reports (s := s) .returned .noReason q 0 h.write.runs hposts hslot hdesc
    refine ⟨t, hexec, hends.landed, ?_, fun _ => ⟨?_, ?_, hends.handedOn hreceipt, hevents.same hends.events, ?_⟩,
      fun hn => absurd h0 hn⟩
    · rw [hends.ret, State.handOn_ret]
      exact hjournal
    · rw [hends.entry, State.handOn_entry, hentry]
      rfl
    · exact (hends.counter.trans (State.handOn_counter _ _ _ _ _ _ _)).trans hcounter
    · rw [hends.isPending, State.handOn_isPending, hpend]
  · have hu : s.landedWord.takeMarker w .returnM q = s.landedWord.returns w e := by
      rw [hown, State.returnTaken, hp]
      simp [h0, State.returns]
    obtain ⟨t, hexec, hends⟩ := h.ends hu ((TakenFor.startRollback _ _).trans (TakenFor.setCounter _ _))
    obtain ⟨hentry, hcounter, hpend, hjournal, hslot, hsame⟩ := htable.returns w e
    refine ⟨t, hexec, hends.landed, by rw [hends.ret]; exact hjournal, fun hn => absurd hn h0,
      fun _ => ⟨?_, hends.counter.trans hcounter, hends.isPending.trans hpend, hends.slot.trans hslot,
        hends.sameEvents hsame⟩⟩
    rw [hends.entry, hentry]
    simp [Entry.toRollingBack, hp]

/-! ## Other words (R91, R92, R94) -/

/-- A word with the key whose command or zero field names no marker is malformed (R92). -/
theorem State.examination_malformed {s : State} {a : Access} {w : Win} {e : Entry} (hl : a.lanes = allLanes)
    (he : s.entry w = some e) (hk : a.data.extractLsb' 16 16 = (s.desc w).key)
    (hf : a.data.extractLsb' 8 4 ≠ 0#4 ∨ a.data.extractLsb' 12 4 = 0#4 ∨ 6 ≤ (a.data.extractLsb' 12 4).toNat) :
    s.examination a w = .malformed := by
  have hen : s.enabled w = true := by simp [State.enabled, he]
  have hkey : markerKey a.data = (s.desc w).key := hk
  simp only [State.examination, hen, if_true, examineWord, hl, hkey, ne_eq, not_true, if_false]
  by_cases hz : markerZero a.data = 0
  · rw [if_neg (not_not.mpr hz)]
    have hc : markerKindOf (markerCommand a.data) = none := by
      have hcmd : markerCommand a.data = 0 ∨ 6 ≤ (markerCommand a.data).toNat := hf.resolve_left fun h => h hz
      generalize markerCommand a.data = c at hcmd
      revert c
      decide
    rw [hc]
  · rw [if_pos hz]

/-- A write of another key, of fewer than four lanes or to a disabled window is ordinary (R91, R94). -/
theorem State.examination_ordinary {s : State} {a : Access} {w : Win}
    (h : s.entry w = none ∨ a.lanes ≠ allLanes ∨ a.data.extractLsb' 16 16 ≠ (s.desc w).key) :
    s.examination a w = .ordinary := by
  unfold State.examination State.enabled
  rcases h with h | h | h
  · simp [h]
  · simp [examineWord, h]
  · have hkey : markerKey a.data ≠ (s.desc w).key := h
    simp [examineWord, hkey]

/-- Settles O23. -/
theorem malformedIsRefusedAndOrdinaryOnlyLands : Obligations.MalformedIsRefusedAndOrdinaryOnlyLands := by
  constructor
  · intro s a w e h hl he hk hf hm hn
    have htable := SameTable.landedWord s
    have hends := h.ends hm hn (ex := fun x => x = .malformed) (take := fun t w q => t.refuse w .badCode q)
      (by simp [State.examination_malformed hl he hk hf]) rfl (Moves.refuse _ _ _ _) (TakenFor.refuse _ _ _)
    obtain ⟨hreceipt, hevents⟩ := htable.refuse h.runs he .badCode (markerSeq a.data)
    refine ⟨_, rfl, hends.landed, ?_, ?_, ?_, ?_, hends.handedOn hreceipt, hevents.same hends.events⟩
    · rw [hends.entry]
      simpa [State.refuse] using (htable.entry w).trans he
    · rw [hends.counter]
      simpa [State.refuse] using htable.counter w
    · rw [hends.isPending]
      simpa [State.refuse] using htable.isPending w
    · rw [hends.ret]
      simpa [State.refuse] using htable.journal
  · intro s a w h ho hm hn
    have htable := SameTable.landedWord s
    have hends := h.ends hm hn (ex := fun x => x = .ordinary) (take := fun t _ _ => t)
      (by simp [State.examination_ordinary ho]) rfl (Moves.refl _) (TakenFor.refl _)
    exact ⟨_, rfl, hends.landed, hends.ret.trans s.landedWord_same.1, hends.counter.trans (htable.counter w),
      hends.isPending.trans (htable.isPending w), hends.slot.trans (htable.slot w),
      hends.sameEvents ⟨htable.posts.queue, htable.posts.overrun⟩⟩

end Sys2Proof.Machine
end

section
/-! PROOFS. The append of a record (O12), and the write of new data behind it (O60). -/

namespace Sys2Proof.Machine

/-! ## The check code (R41) -/

/-- Byte `i` of a value of `n` bytes, bit by bit. -/
theorem byteOf_getLsbD (x n i j : Nat) (hj : j < 8) : (byteOf x n i).getLsbD j = x.testBit (8 * (n - 1 - i) + j) := by
  have hp : 256 ^ (n - 1 - i) = 2 ^ (8 * (n - 1 - i)) := by rw [Nat.pow_mul]
  rw [byteOf, hp, BitVec.getLsbD_ofNat, Nat.testBit_div_two_pow, decide_eq_true hj, Bool.true_and, Nat.add_comm]

/-- One bit shifted into the check code's register (R41; log 18). -/
def shiftBit (r : Byte) (x : Bool) : Byte := (r <<< 1) ^^^ (if (r.msb ^^ x) = true then 0x07#8 else 0x00#8)

/-- Bytes shifted in are their bits shifted in, the most significant of each first. -/
theorem foldl_checkByte (bs : List Byte) (r : Byte) :
    bs.foldl checkByte r
      = (List.range (8 * bs.length)).foldl (fun r i => shiftBit r ((bs.getD (i / 8) 0).getLsbD (7 - i % 8))) r := by
  induction bs using List.reverseRecOn with
  | nil => rfl
  | append_singleton bs b ih =>
    rw [List.foldl_append, List.length_append, List.length_singleton, Nat.mul_add, Nat.mul_one, List.range_add,
      List.foldl_append, List.foldl_map, List.foldl_cons, List.foldl_nil, checkByte_bits, ih]
    have hold : (List.range (8 * bs.length)).foldl
          (fun r i => shiftBit r (((bs ++ [b]).getD (i / 8) 0).getLsbD (7 - i % 8))) r
        = (List.range (8 * bs.length)).foldl (fun r i => shiftBit r ((bs.getD (i / 8) 0).getLsbD (7 - i % 8))) r := by
      refine List.foldl_ext _ _ _ fun r i hi => ?_
      rw [List.getD_append _ _ _ _ (show i / 8 < bs.length by have := List.mem_range.mp hi; omega)]
    rw [hold]
    refine List.foldl_ext _ _ _ fun r i hi => ?_
    have hi' : i < 8 := List.mem_range.mp hi
    rw [List.getD_append_right _ _ _ _ (show bs.length ≤ (8 * bs.length + i) / 8 by omega),
      show (8 * bs.length + i) / 8 - bs.length = 0 by omega, show (8 * bs.length + i) % 8 = i by omega]
    rfl

/-- The eighty bits that the check code covers (R41). -/
def checkedBits (w : Win) (n : Nat) (x : Addr) (y : Word) : BitVec 80 :=
  BitVec.ofNat 8 w.val ++ BitVec.ofNat 16 n ++ (0#2 ++ x) ++ y

theorem checkedBits_getLsbD (w : Win) (n : Nat) (x : Addr) (y : Word) {i : Nat} (hi : i < 80) :
    (checkedBits w n x y).getLsbD i
      = if i < 32 then y.toNat.testBit i else if i < 56 then x.toNat.testBit (i - 32)
        else if i < 72 then n.testBit (i - 56) else w.val.testBit (i - 72) := by
  show BitVec.getLsbD (w := 8 + 16 + (2 + 22) + 32)
    (BitVec.ofNat 8 w.val ++ BitVec.ofNat 16 n ++ (0#2 ++ x) ++ y) i = _
  simp only [BitVec.getLsbD_append, BitVec.getLsbD_ofNat, BitVec.testBit_toNat]
  by_cases h32 : i < 32
  · rw [if_pos h32, if_pos h32]
  by_cases h56 : i < 56
  · rw [if_neg h32, if_neg h32, if_pos (show i - 32 < 2 + 22 by omega), if_pos h56]
    split
    · rfl
    · rw [BitVec.getLsbD_of_ge x (i - 32) (by omega), Nat.zero_testBit, Bool.and_false]
  rw [if_neg h32, if_neg h32, if_neg (show ¬ i - 32 < 2 + 22 by omega), if_neg h56,
    show i - 32 - (2 + 22) = i - 56 by omega]
  by_cases h72 : i < 72
  · rw [if_pos (show i - 56 < 16 by omega), if_pos h72, decide_eq_true (show i - 56 < 16 by omega), Bool.true_and]
  · rw [if_neg (show ¬ i - 56 < 16 by omega), if_neg h72, show i - 56 - 16 = i - 72 by omega,
      decide_eq_true (show i - 72 < 8 by omega), Bool.true_and]

/-- The bytes that the check code covers are those of the eighty bits, in order. -/
theorem checkBytes_bit (w : Win) (n : Nat) (x : Addr) (y : Word) {k j : Nat} (hk : k < 10) (hj : j < 8) :
    ((checkBytes w n x y).getD k 0).getLsbD (7 - j) = (checkedBits w n x y).getLsbD (79 - (8 * k + j)) := by
  rw [checkedBits_getLsbD w n x y (by omega)]
  have hbit (v p c m : Nat) (h : 8 * (p - 1 - c) + (7 - j) = m) : (byteOf v p c).getLsbD (7 - j) = v.testBit m := by
    rw [byteOf_getLsbD v p c _ (by omega), h]
  interval_cases k
  · show (BitVec.ofNat 8 w.val).getLsbD (7 - j) = _
    rw [if_neg (by omega), if_neg (by omega), if_neg (by omega), BitVec.getLsbD_ofNat, decide_eq_true (by omega),
      Bool.true_and, show 79 - (8 * 0 + j) - 72 = 7 - j by omega]
  · rw [if_neg (by omega), if_neg (by omega), if_pos (by omega)]
    exact hbit n 2 0 _ (by omega)
  · rw [if_neg (by omega), if_neg (by omega), if_pos (by omega)]
    exact hbit n 2 1 _ (by omega)
  · rw [if_neg (by omega), if_pos (by omega)]
    exact hbit x.toNat 3 0 _ (by omega)
  · rw [if_neg (by omega), if_pos (by omega)]
    exact hbit x.toNat 3 1 _ (by omega)
  · rw [if_neg (by omega), if_pos (by omega)]
    exact hbit x.toNat 3 2 _ (by omega)
  · rw [if_pos (by omega)]
    exact hbit y.toNat 4 0 _ (by omega)
  · rw [if_pos (by omega)]
    exact hbit y.toNat 4 1 _ (by omega)
  · rw [if_pos (by omega)]
    exact hbit y.toNat 4 2 _ (by omega)
  · rw [if_pos (by omega)]
    exact hbit y.toNat 4 3 _ (by omega)

/-- The check code is the eighty bits shifted in (R41). -/
theorem checkCode_bits (w : Win) (n : Nat) (x : Addr) (y : Word) :
    checkCode w n x y
      = (List.range 80).foldl (fun r i => shiftBit r ((checkedBits w n x y).getLsbD (79 - i))) 0xFF#8 := by
  rw [checkCode, foldl_checkByte]
  refine List.foldl_ext _ _ _ fun r i hi => ?_
  have hi' : i < 80 := List.mem_range.mp hi
  rw [checkBytes_bit w n x y (show i / 8 < 10 by omega) (show i % 8 < 8 by omega),
    show 79 - (8 * (i / 8) + i % 8) = 79 - i by omega]

/-! ## The append (R33, R34, R43) -/

/-- The record that the append of access `a` writes for window `w`, whose entry is `e` (R34). -/
def State.newRecord (s : State) (a : Access) (w : Win) (e : Entry) : Slot :=
  recordBody w (e.count + 1) a.addr (Memory.readWord s.sram a.addr) a.lanes

/-- The journal after both steps of the append. -/
def State.appendedJournal (s : State) (a : Access) (w : Win) (e : Entry) : Journal :=
  (s.ret.journal.appendBody (s.newRecord a w e)).appendMark

/-- The body and the mark step of the append, the second with the rise of the count (R33). -/
def State.appended (s : State) (a : Access) (w : Win) : State :=
  (s.appendBody w a.addr (Memory.readWord s.sram a.addr) a.lanes).appendMark w

section Append
variable {s : State} {a : Access} {w : Win} {e : Entry}

theorem State.appendBody_eq (he : s.entry w = some e) :
    s.appendBody w a.addr (Memory.readWord s.sram a.addr) a.lanes
      = s.setJournal (s.ret.journal.appendBody (s.newRecord a w e)) := by
  simp [State.appendBody, State.countOf, he, State.newRecord]

theorem State.appended_eq (he : s.entry w = some e) :
    s.appended a w
      = (s.setJournal (s.appendedJournal a w e)).setEntry w (some { e with count := e.count + 1 }) := by
  unfold State.appended
  rw [State.appendBody_eq he]
  have he' : ((s.setJournal (s.ret.journal.appendBody (s.newRecord a w e))).setJournal
      (s.setJournal (s.ret.journal.appendBody (s.newRecord a w e))).ret.journal.appendMark).entry w = some e := he
  simp only [State.appendMark, he']
  rfl

/-- Where the record stands and what the append leaves at the other positions. -/
theorem State.appendedJournal_spec (hj : s.ret.journal.Lawful) (ho : s.ret.journal.occ < 1024) :
    (s.appendedJournal a w e).slot s.ret.journal.head = { s.newRecord a w e with valid := true }
      ∧ (∀ p, p ≠ s.ret.journal.head → (s.appendedJournal a w e).slot p = s.ret.journal.slot p)
      ∧ (s.appendedJournal a w e).head = (s.ret.journal.head + 1) % 1024
      ∧ (s.appendedJournal a w e).tail = s.ret.journal.tail
      ∧ (s.appendedJournal a w e).occ = s.ret.journal.occ + 1 := by
  have hbody := Journal.appendBody_slot hj (s.newRecord a w e)
  have hmark := Journal.appendMark_slot
    (Journal.appendBody_lawful hj ho (x := s.newRecord a w e) rfl rfl)
  have hhead : (s.ret.journal.appendBody (s.newRecord a w e)).head = s.ret.journal.head := rfl
  rw [hhead] at hmark
  refine ⟨?_, fun p hp => ?_, rfl, rfl, rfl⟩
  · exact (hmark _).trans (by rw [if_pos rfl, hbody, if_pos rfl])
  · exact (hmark _).trans (by rw [if_neg hp, hbody, if_neg hp])

theorem State.appended_spec (he : s.entry w = some e) :
    PostSame s (s.appended a w) ∧ (s.appended a w).ret.journal = s.appendedJournal a w e
      ∧ (s.appended a w).entry w = some { e with count := e.count + 1 } ∧ (s.appended a w).counter w = s.counter w
      ∧ (s.appended a w).main.slots = s.main.slots ∧ (s.appended a w).main.pendSet = s.main.pendSet
      ∧ (s.appended a w).desc w = s.desc w ∧ (s.appended a w).ret.highWater = s.ret.highWater := by
  rw [State.appended_eq he]
  exact ⟨⟨rfl, rfl, rfl, rfl, rfl⟩, rfl, State.setEntry_entry_self _ _ _, rfl, rfl, rfl, rfl, rfl⟩

theorem TakenFor.appended (he : s.entry w = some e) : TakenFor s (s.appended a w) w := by
  rw [State.appended_eq he]
  exact (TakenFor.setJournal _ _).trans (TakenFor.setEntry _ _)

end Append

/-- JOURNAL_HIGH is posted where the occupancy is at the threshold, and nothing else happens (R43). -/
theorem State.highWaterTest_events (s : State) (w : Win) :
    EventsAre s (s.highWaterTest w)
      (if s.ret.highWater ≠ 0 ∧ s.ret.journal.occ = s.ret.highWater then
        [(.journalHigh, some w, BitVec.ofNat 32 s.ret.journal.occ)] else []) := by
  unfold State.highWaterTest
  by_cases h : s.ret.highWater ≠ 0 ∧ s.ret.journal.occ = s.ret.highWater
  · rw [if_pos (by simpa using h), if_pos h]
    exact EventsAre.post _ _ _ _
  · rw [if_neg (by simpa using h), if_neg h]
    exact EventsAre.nil s

theorem State.highWaterTest_rest (s : State) (w : Win) :
    (s.highWaterTest w).ret = s.ret ∧ (s.highWaterTest w).main.counters = s.main.counters
      ∧ (s.highWaterTest w).main.slots = s.main.slots ∧ (s.highWaterTest w).main.pendSet = s.main.pendSet := by
  unfold State.highWaterTest
  split
  · simp
  · exact ⟨rfl, rfl, rfl, rfl⟩

theorem TakenFor.highWaterTest {w : Win} (s : State) : TakenFor s (s.highWaterTest w) w := by
  unfold State.highWaterTest
  split
  · exact TakenFor.post _ _ _ _
  · exact TakenFor.refl s

/-- The append with what the Deadline Unit and the event queue are told of it, before the new data's cycle begins. -/
def State.appendTold (s : State) (a : Access) (w : Win) : State := ((s.appended a w).reloadIfIdle w).highWaterTest w

theorem State.appendTold_spec {s : State} {a : Access} {w : Win} {e : Entry} (he : s.entry w = some e) :
    TakenFor s (s.appendTold a w) w ∧ (s.appendTold a w).ret.journal = s.appendedJournal a w e
      ∧ (s.appendTold a w).entry w = some { e with count := e.count + 1 }
      ∧ (s.appendTold a w).counter w = (match s.counter w with
          | .running r q =>
            if (s.desc w).deadlineMode = .idle then .running (s.desc w).deadline.toNat q else .running r q
          | c => c)
      ∧ (s.appendTold a w).main.slots = s.main.slots ∧ (s.appendTold a w).main.pendSet = s.main.pendSet
      ∧ EventsAre s (s.appendTold a w)
          (if s.ret.highWater ≠ 0 ∧ s.ret.journal.occ + 1 = s.ret.highWater then
            [(.journalHigh, some w, BitVec.ofNat 32 (s.ret.journal.occ + 1))] else []) := by
  obtain ⟨hposts, hajournal, haentry, hacounter, haslots, hapend, hadesc, hahigh⟩ := State.appended_spec (a := a) he
  obtain ⟨hret, hcount, hslots, hpend⟩ := ((s.appended a w).reloadIfIdle w).highWaterTest_rest w
  obtain ⟨hret', hslots', hpend'⟩ := (s.appended a w).reloadIfIdle_rest w
  obtain ⟨hpower, hmask, hstamp, hqueue, hoverrun⟩ := (s.appended a w).reloadIfIdle_posts w
  have hcount' := (s.appended a w).reloadIfIdle_counter w
  have hevents := ((s.appended a w).reloadIfIdle w).highWaterTest_events w
  have hboth := hret.trans hret'
  have hocc : (s.appended a w).ret.journal.occ = s.ret.journal.occ + 1 := by
    rw [hajournal]
    rfl
  rw [hret', hahigh, hocc] at hevents
  refine ⟨?_, ?_, ?_, ?_, (hslots.trans hslots').trans haslots, (hpend.trans hpend').trans hapend, ?_⟩
  · exact (TakenFor.appended he).trans ((TakenFor.reloadIfIdle _).trans (TakenFor.highWaterTest _))
  · exact (congrArg Retained.journal hboth).trans hajournal
  · exact (congrArg (fun r : Retained => winGet r.entries w) hboth).trans haentry
  · rw [hacounter, hadesc] at hcount'
    exact (congrArg (winGet · w) hcount).trans hcount'
  · exact hevents.congr ⟨hpower.trans hposts.power, hmask.trans hposts.mask, hstamp.trans hposts.stamp,
      hqueue.trans hposts.queue, hoverrun.trans hposts.overrun⟩

/-- The old word's read completes: the append, and the new data's cycle begins. -/
theorem exec_oldWordReadComplete {s : State} {a : Access} {w : Win} (h : s.AtMemory a .journaled)
    (hc : s.main.cycle = some a.oldReadCycle) (hw : a.window = some w) :
    exec .oldWordReadComplete s = .next ((s.appendTold a w).drive .processor a.cycle).takeWaiting := by
  simp [exec, execOldWordReadComplete, h.atMemory hc, hw, Access.oldReadCycle, State.appended, State.appendTold]

/-- Settles O12. -/
theorem oldWordReadAppendsTheRecord : Obligations.OldWordReadAppendsTheRecord := by
  refine ⟨fun s a w e h hc hw he hj ho => ?_, checkCode_bits, fun r => by simp [Slot.checks]⟩
  obtain ⟨hrecord, hothers, hhead, htail, hocc⟩ := State.appendedJournal_spec (a := a) (w := w) (e := e) hj ho
  obtain ⟨htaken, hjournal, hentry, hcounter, hslots, hpend, hevents⟩ := State.appendTold_spec (a := a) he
  obtain ⟨hmem, hconf, hacc, hseq, hwalk, -, hman, hpow, hclk⟩ := htaken.rest
  rw [← hjournal] at hrecord hothers hhead htail hocc
  have hstop := htaken.stopped
  have hexec := exec_oldWordReadComplete h hc hw
  generalize s.appendTold a w = u at *
  exact ⟨_, hexec, hrecord, hothers, hhead, htail, hocc, hentry, hcounter, hevents, rfl, rfl,
    rfl, rfl, hseq.2.2.1, hacc, hmem, htaken.others, congrArg (winGet · w) hslots, ⟨hpend, hwalk, hstop⟩, hconf, hman, hpow,
    hclk⟩

/-! ## The new data behind its record (R75) -/

/-- Settles O60: the law of the access path has the record stand while the new data is written, and its completion leaves
the journal alone. -/
theorem newDataIsWrittenAfterItsRecord : Obligations.NewDataIsWrittenAfterItsRecord := by
  intro s t a w hl hr _ hwriting h
  have hjournal : t.ret.journal = s.ret.journal := (exec_frame h nofun).journal rfl
  obtain ⟨⟨hlive, hwin, haddr, -, hchecks, hold⟩, -⟩ := (hl.access hr).covered a w hwriting
  rw [hjournal]
  exact ⟨by simp [Slot.liveOf, hlive, hwin], haddr, hold, hchecks⟩

end Sys2Proof.Machine
end

section
/-! PROOFS. The internal claims: the Receipt Writer's cycles (O25) and the grant of a restore write (O27). -/

namespace Sys2Proof.Machine

/-! ## Which internal claim is granted (R87) -/

section Claim
variable {s : State}

/-- The processor's claim is not the one to be granted: it does not wait, or was granted last with an internal claim
waiting. -/
theorem State.grantsProc_false (h : s.procClaim = false ∨ s.main.lastGrantProc = true)
    (hc : s.receiptClaim = true ∨ s.restoreClaim = true) : s.grantsProc = false := by
  unfold State.grantsProc
  rcases h with h | h
  · simp [h]
  · rcases hc with hc | hc <;> simp [h, hc]

theorem State.grantsReceipt_true (hr : s.mainRuns = true) (ho : s.main.owner = .nobody)
    (h : s.procClaim = false ∨ s.main.lastGrantProc = true) (hc : s.receiptClaim = true) : s.grantsReceipt = true := by
  simp [State.grantsReceipt, State.portFree, hr, ho, hc, State.grantsProc_false h (Or.inl hc)]

theorem State.grantsRestore_true (hr : s.mainRuns = true) (ho : s.main.owner = .nobody)
    (h : s.procClaim = false ∨ s.main.lastGrantProc = true) (hc : s.restoreClaim = true)
    (hn : s.receiptClaim = false) : s.grantsRestore = true := by
  simp [State.grantsRestore, State.portFree, hr, ho, hc, hn, State.grantsProc_false h (Or.inr hc)]

theorem State.restoreClaim_waiting {k : Walk} (hk : s.main.walk = some k) (hc : k.claim = .waiting)
    (hs : s.main.stopped = false) : s.restoreClaim = true := by
  simp [State.restoreClaim, hk, hc, hs]

/-- The lowest-numbered PENDING slot has the Receipt Writer's claim. -/
theorem State.firstPendingSlot_eq {w : Win} {x : Word} {a : Addr} (h : s.slot w = .pending x a)
    (hv : ∀ v, v < w → (s.slot v).isPending = false) : s.firstPendingSlot = some w :=
  (firstWin_eq_some _ w).mpr ⟨by simp [h, ReceiptSlot.isPending], hv⟩

end Claim

/-! ## The grants -/

/-- The state that the grant of slot `w`'s receipt leaves. -/
def State.receiptGranted (s : State) (w : Win) (x : Word) (a : Addr) : State :=
  { (s.setSlot w .writing).drive .receiptWriter { addr := a, lanes := allLanes, wr := true, data := x } with
    main.lastGrantProc := false }

theorem exec_receiptWriteGrant {s : State} {w : Win} {x : Word} {a : Addr} (hg : s.performControl.grantsReceipt = true)
    (hf : s.performControl.firstPendingSlot = some w) (hs : s.performControl.slot w = .pending x a) :
    exec .receiptWriteGrant s = .next (s.performControl.receiptGranted w x a) := by
  simp [exec, execReceiptWriteGrant, hg, hf, hs, State.receiptGranted]

theorem exec_receiptWriteGrant_refused {s : State} (h : s.performControl.grantsReceipt = false) :
    exec .receiptWriteGrant s = .next s := by
  simp [exec, execReceiptWriteGrant, h]

/-- The state that the grant of walk `k`'s restore leaves. -/
def State.restoreGranted (s : State) (k : Walk) : State :=
  { s.drive .rollbackEngine { addr := (s.ret.journal.slot k.cursor).addr, lanes := allLanes, wr := true,
                              data := (s.ret.journal.slot k.cursor).old } with
    main.walk := some { k with claim := .granted }
    main.lastGrantProc := false }

theorem exec_restoreWriteGrant {s : State} {k : Walk} (hg : s.performControl.grantsRestore = true)
    (hk : s.performControl.main.walk = some k) :
    exec .restoreWriteGrant s = .next (s.performControl.restoreGranted k) := by
  simp only [exec, execRestoreWriteGrant, hg, hk, State.restoreGranted, if_true]

theorem exec_restoreWriteGrant_refused {s : State} (h : s.performControl.grantsRestore = false) :
    exec .restoreWriteGrant s = .next s := by
  simp [exec, execRestoreWriteGrant, h]

theorem State.performControl_free {s : State} (h : s.main.owner = .nobody) : s.performControl = s :=
  State.performControl_other (by rw [h]; decide)

/-! ## A control-word write whose cycle is still driven (R97; log 36) -/

section Control
variable {s : State} {a : Access} {w : Win} (h : s.ControlWrite a w) (hx : s.main.examining = false)
include h hx

theorem State.ControlWrite.performControl_eq :
    s.performControl
      = { s.freed (Memory.write s.sram a.addr a.lanes a.data) s.freeCount with main.examining := true } := by
  have hwr : a.cycle.wr = true := h.wr
  simp only [State.performControl, h.atMemory hx, State.land_endGrant, hwr, if_true]
  rfl

theorem State.ControlWrite.performed (hm : Memory.wf s.sram = true) : ControlPerformed s s.performControl a := by
  rw [h.performControl_eq hx]
  exact
    { landed := Landed.of_write hm rfl
      freed := ⟨rfl, rfl, rfl, rfl, rfl⟩
      examining := rfl
      access := ⟨rfl, rfl, rfl, rfl, rfl⟩
      rest :=
        { ret := rfl, slots := rfl, events := ⟨rfl, rfl⟩, engine := ⟨rfl, rfl, rfl⟩
          management := ⟨rfl, rfl, rfl, rfl, rfl, rfl, rfl, rfl, rfl, rfl, rfl, rfl, rfl, rfl, rfl⟩
          power := ⟨rfl, rfl, rfl, rfl, rfl, rfl, rfl⟩, time := ⟨rfl, rfl, rfl⟩, port := rfl } }

/-- The port is free where the write has been performed, and its access claims nothing. -/
theorem State.ControlWrite.performed_free : s.performControl.mainRuns = true ∧ s.performControl.main.owner = .nobody
    ∧ s.performControl.procClaim = false ∧ s.performControl.receiptClaim = s.receiptClaim
    ∧ s.performControl.restoreClaim = s.restoreClaim := by
  rw [h.performControl_eq hx]
  refine ⟨h.runs, rfl, ?_, rfl, rfl⟩
  simp [State.procClaim, State.freed, h.access, h.cond]

theorem State.ControlWrite.performControl_twice : s.performControl.performControl = s.performControl :=
  State.performControl_free (h.performed_free hx).2.1

end Control

/-- Settles O25. -/
theorem receiptsAreWrittenLowestSlotFirst : Obligations.ReceiptsAreWrittenLowestSlotFirst := by
  refine ⟨fun s w x a hr ho hp hs hv => ?_, fun s x a ho hc hm => ?_, fun s a w h hx hm => ⟨fun hc => ?_, fun hc => ?_⟩⟩
  · have hfirst := State.firstPendingSlot_eq hs hv
    have hclaim : s.receiptClaim = true := by simp [State.receiptClaim, hfirst]
    have hfree := State.performControl_free ho
    have hexec : exec .receiptWriteGrant s = .next (s.receiptGranted w x a) := by
      have := exec_receiptWriteGrant (s := s) (w := w) (x := x) (a := a)
      rw [hfree] at this
      exact this (State.grantsReceipt_true hr ho hp hclaim) hfirst hs
    refine ⟨_, hexec, State.setSlot_slot_self _ _ _, fun v hv => ?_, rfl, rfl, rfl, rfl, rfl, rfl, rfl,
      ⟨rfl, rfl, rfl, rfl, rfl⟩, ⟨rfl, rfl⟩, ⟨rfl, rfl, rfl⟩,
      ⟨rfl, rfl, rfl, rfl, rfl, rfl, rfl, rfl, rfl, rfl, rfl, rfl, rfl, rfl, rfl⟩,
      ⟨rfl, rfl, rfl, rfl, rfl, rfl, rfl⟩, ⟨rfl, rfl, rfl⟩⟩
    exact (State.setSlot_slot s w v .writing).trans (if_neg hv)
  · let m := Memory.write s.sram a allLanes x
    have hexec : exec .receiptWriteComplete s
        = .next { s.freed m s.freeCount with main.slots := s.main.slots.map ReceiptSlot.written } := by
      simp [exec, execReceiptWriteComplete, hc, ho, State.land_endGrant, State.freed, m]
    refine ⟨_, hexec, Memory.readWord_write_all hm a x, (Landed.of_write hm rfl).2, ⟨rfl, rfl, rfl, rfl, rfl, rfl⟩,
      fun w => ?_, rfl, ⟨rfl, rfl, rfl, rfl, rfl⟩, ⟨rfl, rfl⟩, ⟨rfl, rfl, rfl⟩,
      ⟨rfl, rfl, rfl, rfl, rfl, rfl, rfl, rfl, rfl, rfl, rfl, rfl, rfl, rfl, rfl⟩,
      ⟨rfl, rfl, rfl, rfl, rfl, rfl, rfl⟩, ⟨rfl, rfl, rfl⟩⟩
    have hslot : State.slot { s.freed m s.freeCount with main.slots := s.main.slots.map ReceiptSlot.written } w
        = (s.slot w).written := winGet_map _ _ _
    rw [hslot]
    refine ⟨fun hw => by rw [hw]; rfl, fun hw => ?_⟩
    rcases hs : s.slot w with _ | _ | _
    · rfl
    · rfl
    · exact absurd hs hw
  · refine ⟨_, h.performed hx hm, ?_⟩
    obtain ⟨hruns, howner, hproc, hreceipt, -⟩ := h.performed_free hx
    have hg := State.grantsReceipt_true hruns howner (Or.inl hproc) (hreceipt.trans hc)
    obtain ⟨v, hv⟩ := Option.isSome_iff_exists.mp (hreceipt.trans hc)
    have hpend := ((firstWin_eq_some _ v).mp hv).1
    rcases hslot : s.performControl.slot v with _ | ⟨x, b⟩ | _
    · simp [hslot, ReceiptSlot.isPending] at hpend
    · have htwice := h.performControl_twice hx
      rw [exec_receiptWriteGrant hg hv hslot,
        exec_receiptWriteGrant (by rw [htwice]; exact hg) (by rw [htwice]; exact hv) (by rw [htwice]; exact hslot), htwice]
    · simp [hslot, ReceiptSlot.isPending] at hpend
  · obtain ⟨-, -, -, hreceipt, -⟩ := h.performed_free hx
    exact exec_receiptWriteGrant_refused (by simp [State.grantsReceipt, hreceipt.trans hc])

/-- Settles O27. -/
theorem restoreGrantWritesTheOldData : Obligations.RestoreGrantWritesTheOldData := by
  refine ⟨fun s k hr ho hk hc hs hn hp => ?_, fun s a w h hx hm => ⟨fun hc hn => ?_, fun hc => ?_⟩⟩
  · have hfree := State.performControl_free ho
    have hexec : exec .restoreWriteGrant s = .next (s.restoreGranted k) := by
      have := exec_restoreWriteGrant (s := s) (k := k)
      rw [hfree] at this
      exact this (State.grantsRestore_true hr ho hp (State.restoreClaim_waiting hk hc hs) hn) hk
    exact ⟨_, hexec, rfl, rfl, rfl, rfl, rfl, rfl, rfl, rfl, ⟨rfl, rfl, rfl, rfl, rfl⟩, ⟨rfl, rfl⟩, rfl, rfl,
      ⟨rfl, rfl, rfl, rfl, rfl, rfl, rfl, rfl, rfl, rfl, rfl, rfl, rfl, rfl, rfl⟩,
      ⟨rfl, rfl, rfl, rfl, rfl, rfl, rfl⟩, ⟨rfl, rfl, rfl⟩⟩
  · refine ⟨_, h.performed hx hm, ?_⟩
    obtain ⟨hruns, howner, hproc, hreceipt, hrestore⟩ := h.performed_free hx
    have hg := State.grantsRestore_true hruns howner (Or.inl hproc) (hrestore.trans hc) (hreceipt.trans hn)
    have hclaim := hrestore.trans hc
    rcases hk : s.performControl.main.walk with _ | k
    · rw [State.restoreClaim, hk] at hclaim
      exact nomatch hclaim
    · have htwice := h.performControl_twice hx
      rw [exec_restoreWriteGrant hg hk, exec_restoreWriteGrant (by rw [htwice]; exact hg) (by rw [htwice]; exact hk),
        htwice]
  · obtain ⟨-, -, -, hreceipt, hrestore⟩ := h.performed_free hx
    refine exec_restoreWriteGrant_refused ?_
    unfold State.grantsRestore
    rcases hc with hc | hc
    · simp [hrestore.trans hc]
    · simp [hreceipt.trans hc]

end Sys2Proof.Machine
end

section
/-! PROOFS. Requests: CLEAR_ALL (O43), the event queue (O44), loads and bad codes (O45). -/

namespace Sys2Proof.Machine

/-! ## The event queue (R170, R172) -/

theorem State.post_closed {s : State} (k : EventKind) (w : Option Win) (d : Word) (h : s.mainRuns = false) :
    s.post k w d = s := by
  simp [State.post, h]

theorem State.post_masked {s : State} {k : EventKind} (w : Option Win) (d : Word) (h : s.kindEnabled k = false) :
    s.post k w d = s := by
  unfold State.post
  split
  · rfl
  · simp [h]

theorem State.post_room {s : State} {k : EventKind} (w : Option Win) (d : Word) (hr : s.mainRuns = true)
    (hk : s.kindEnabled k = true) (hroom : s.main.queue.length < 16) :
    s.post k w d
      = { s with main.queue := s.main.queue ++ [{ kind := k, window := w, detail := d, stamp := s.main.stamp }] } := by
  simp [State.post, hr, hk, hroom]

theorem State.post_full {s : State} {k : EventKind} (w : Option Win) (d : Word) (hr : s.mainRuns = true)
    (hk : s.kindEnabled k = true) (hfull : 16 ≤ s.main.queue.length) :
    s.post k w d = { s with main.overrun := true } := by
  simp [State.post, hr, hk, hfull.not_gt]

/-- The four cases of a post (R170). -/
theorem State.post_cases (s : State) (k : EventKind) (w : Option Win) (d : Word) :
    (s.power = .failing → s.post k w d = s)
      ∧ (s.mainRuns = true → s.kindEnabled k = false → s.post k w d = s)
      ∧ (s.mainRuns = true → s.kindEnabled k = true → s.main.queue.length < 16 →
          s.post k w d
            = { s with main.queue := s.main.queue ++ [{ kind := k, window := w, detail := d, stamp := s.main.stamp }] })
      ∧ (s.mainRuns = true → s.kindEnabled k = true → 16 ≤ s.main.queue.length →
          s.post k w d = { s with main.overrun := true }) :=
  ⟨fun hf => State.post_closed k w d (State.mainRuns_of_failing hf), fun _ hm => State.post_masked w d hm,
    State.post_room w d, State.post_full w d⟩

/-- ALERTN follows the count and the flag where the main well runs (R172). -/
theorem State.alertn_iff {s t : State} (h : s.mainRuns = true) (hpower : t.power = s.power) :
    t.alertn = true ↔ t.main.queue ≠ [] ∨ t.main.overrun = true := by
  have hp : t.mainPowered = true := by
    unfold State.mainRuns at h
    unfold State.mainPowered
    cases hs : s.power <;> simp_all
  simp [State.alertn, hp]

theorem State.received_mainRuns (s : State) (b : Byte) : (s.received b).mainRuns = s.mainRuns := rfl

/-- A request whose code meets no taking is taken as its row says. -/
theorem State.request_row {s u : State} {b : Byte} (h : s.AtRequest) (hbusy : s.requestBusy b = false)
    (htake : (s.received b).takeRequest b = u) : s.request b = u :=
  (State.request_taken h hbusy).trans htake

theorem exec_popEvent {s : State} (x : BitVec 4) (h : s.AtRequest) :
    exec (.popEvent x) s = .next (s.received (x ++ 6#4)).takePop :=
  congrArg Host.Outcome.next
    (State.request_row (b := requestByte x 6) h (by simp [State.requestBusy]) (by simp [State.takeRequest]; rfl))

theorem exec_clearOverrun {s : State} (x : BitVec 4) (h : s.AtRequest) :
    exec (.clearOverrun x) s = .next (s.received (x ++ 7#4)).takeClearOverrun :=
  congrArg Host.Outcome.next
    (State.request_row (b := requestByte x 7) h (by simp [State.requestBusy]) (by simp [State.takeRequest]; rfl))

/-- The queue and the flag are among what a request may move. -/
theorem TakenFor.setEvents {w : Win} (s : State) (q : List EventRecord) (f : Bool) :
    TakenFor s { s with main.queue := q, main.overrun := f } w :=
  ⟨⟨s.ret.entries, s.ret.journal, s.main.pendSet, s.main.counters, s.main.slots, q, f, rfl⟩,
    fun _ _ => ⟨rfl, rfl, rfl, rfl⟩⟩

/-- Settles O44: the four cases of a post, and POP_EVENT and CLEAR_OVERRUN, which move the queue and the flag alone. -/
theorem eventQueueIsFirstInFirstOut : Obligations.EventQueueIsFirstInFirstOut := by
  refine ⟨State.post_cases, fun s x h => ⟨fun hq => ?_, fun e l hq => ?_, ?_⟩⟩
  · have hpop : (s.received (x ++ 6#4)).takePop = (s.received (x ++ 6#4)).respond .empty := by
      unfold State.takePop
      rw [show (s.received (x ++ 6#4)).main.queue = [] from hq]
    obtain ⟨htaken, hret, -, -, -, hevents, -, -⟩ := State.received_respond (x ++ 6#4) .empty h
    exact ⟨_, (exec_popEvent x h).trans (congrArg _ hpop), htaken, hevents, hret⟩
  · have hpop : (s.received (x ++ 6#4)).takePop
        = State.respond { s.received (x ++ 6#4) with main.queue := l } .done := by
      unfold State.takePop
      rw [show (s.received (x ++ 6#4)).main.queue = e :: l from hq]
    refine ⟨_, (exec_popEvent x h).trans (congrArg _ hpop), TakenFor.requestTaken (w := 0) h
      (TakenFor.setEvents _ l s.main.overrun) .done, rfl, rfl, by simp, ?_⟩
    exact State.alertn_iff h.mainRuns rfl
  · have hclear : (s.received (x ++ 7#4)).takeClearOverrun
        = State.respond { s.received (x ++ 7#4) with main.queue := s.main.queue, main.overrun := false } .done := rfl
    refine ⟨_, (exec_clearOverrun x h).trans (congrArg _ hclear), TakenFor.requestTaken (w := 0) h
      (TakenFor.setEvents _ s.main.queue false) .done, rfl, rfl, by simp, ?_⟩
    refine (State.alertn_iff
      (t := State.respond { s.received (x ++ 7#4) with main.queue := s.main.queue, main.overrun := false } .done)
      h.mainRuns (by simp [State.received])).trans ?_
    simp

/-! ## LOAD_TXN, LOAD_RECORD and bad codes (R165, R168, R169) -/

/-- A request that loads a view moves the view and the port's own registers alone. -/
theorem State.received_loads {s : State} (b : Byte) (v : TxnView) (r : RecordView) (h : s.AtRequest) :
    RequestTaken s (State.respond { s.received b with main.txnView := v, main.recView := r } .done) b 1#8 := by
  have htaken := (State.received_respond b .done h).1
  exact { htaken with }

theorem exec_loadTxn {s : State} (x : BitVec 4) (h : s.AtRequest) :
    (8 ≤ s.main.arg.toNat → exec (.loadTxn x) s = .next ((s.received (x ++ 8#4)).respond .badArg))
      ∧ ∀ w : Win, s.argWinBusy = false → s.main.arg.toNat = w.val →
        exec (.loadTxn x) s = .next ((s.received (x ++ 8#4)).takeLoadTxn w) := by
  obtain ⟨hbad, htaken⟩ := State.request_onArgWin (b := requestByte x 8) (take := State.takeLoadTxn) h
    (by simp [State.requestBusy]) (fun t => by simp [State.takeRequest])
  exact ⟨fun harg => congrArg Host.Outcome.next (hbad harg),
    fun w hb harg => congrArg Host.Outcome.next (htaken w hb harg)⟩

theorem exec_loadRecord {s : State} (x : BitVec 4) (h : s.AtRequest) :
    exec (.loadRecord x) s = .next ((s.received (x ++ 9#4)).takeLoadRecord x) :=
  congrArg Host.Outcome.next
    (State.request_row (b := requestByte x 9) h (by simp [State.requestBusy]) (by simp [State.takeRequest]; rfl))

/-- The codes 0 and from 10 on name no request (R179). -/
theorem requestCodeKnown_eq_false {c : BitVec 4} : requestCodeKnown c = false ↔ c = 0#4 ∨ 10 ≤ c.toNat := by
  revert c
  decide

/-- A code that names no request meets no taking. -/
theorem State.requestBusy_unknown {b : Byte} (h : requestCodeKnown (byteCode b) = false) (s : State) :
    s.requestBusy b = false := by
  have hne (n : BitVec 4) (hn : requestCodeKnown n = true) : byteCode b ≠ n := by
    rintro rfl
    exact absurd (h.symm.trans hn) (by decide)
  have h1 : byteCode b ≠ 1#4 := hne _ (by decide)
  have h2 : byteCode b ≠ 2#4 := hne _ (by decide)
  have h3 : byteCode b ≠ 3#4 := hne _ (by decide)
  have h4 : byteCode b ≠ 4#4 := hne _ (by decide)
  have h5 : byteCode b ≠ 5#4 := hne _ (by decide)
  have h8 : byteCode b ≠ 8#4 := hne _ (by decide)
  simp [State.requestBusy, h1, h2, h3, h4, h5, h8]

/-- A code that names no request is answered at once. -/
theorem exec_unknownRequestCode {s : State} {b : Byte} (h : s.AtRequest)
    (hb : b.extractLsb' 0 4 = 0#4 ∨ 10 ≤ (b.extractLsb' 0 4).toNat) :
    exec (.unknownRequestCode b) s = .next ((s.received b).respond .badArg) := by
  have hcode : requestCodeKnown (byteCode b) = false := requestCodeKnown_eq_false.mpr hb
  show Host.Outcome.next _ = _
  rw [hcode]
  exact congrArg Host.Outcome.next (State.request_row h (State.requestBusy_unknown hcode s) (takeRequest_unknown hcode _))

/-- Settles O45: each request is answered BAD_ARG, or loads its one view. -/
theorem loadsCopyAndBadCodesAreRefused : Obligations.LoadsCopyAndBadCodesAreRefused := by
  intro s x h
  refine ⟨fun harg => ?_, fun w harg hfree => ?_, ?_, fun b hb => ?_⟩
  · obtain ⟨htaken, -, -, -, -, -, htxn, hrec⟩ := State.received_respond (x ++ 8#4) .badArg h
    exact ⟨_, (exec_loadTxn x h).1 harg, htaken, htxn, hrec⟩
  · refine ⟨_, (exec_loadTxn x h).2 w hfree harg, State.received_loads _ _ s.main.recView h, rfl, rfl, rfl,
      fun hen => if_pos hen, fun hen => if_neg (Bool.not_eq_true _ ▸ hen), rfl⟩
  · rcases lt_or_ge (x.toNat * 256 + s.main.arg.toNat) 1024 with hpos | hpos
    · have hload : (s.received (x ++ 9#4)).takeLoadRecord x
          = State.respond
              { s.received (x ++ 9#4) with
                main.recView :=
                  { pos := x.toNat * 256 + s.main.arg.toNat
                    slot := s.ret.journal.slot (x.toNat * 256 + s.main.arg.toNat) } } .done :=
        if_neg (Nat.not_le.mpr hpos)
      exact ⟨_, (exec_loadRecord x h).trans (congrArg _ hload), rfl, rfl, fun hl => absurd hpos (Nat.not_lt.mpr hl),
        fun _ => ⟨State.received_loads _ s.main.txnView _ h, rfl, rfl⟩⟩
    · have hbad : (s.received (x ++ 9#4)).takeLoadRecord x = (s.received (x ++ 9#4)).respond .badArg := if_pos hpos
      obtain ⟨htaken, hret, -, -, -, -, htxn, hrec⟩ := State.received_respond (x ++ 9#4) .badArg h
      exact ⟨_, (exec_loadRecord x h).trans (congrArg _ hbad), hret, htxn, fun _ => ⟨htaken, hrec⟩,
        fun hl => absurd hpos (Nat.not_le.mpr hl)⟩
  · obtain ⟨htaken, hret, -, -, -, hevents, htxn, hrec⟩ := State.received_respond b .badArg h
    exact ⟨_, exec_unknownRequestCode h hb, htaken, hret, htxn, hrec, hevents⟩

/-! ## CLEAR_ALL (R150, R167) -/

theorem State.allIdle_iff (s : State) :
    s.allIdle = true ↔ ∀ w, s.enabled w = true → s.txnState w = some .idle := by
  simp only [State.allIdle, List.all_eq_true, mem_allWins, true_imp_iff, Bool.not_eq_true', ← Bool.not_eq_true,
    State.notIdle_iff, not_and, not_not]

/-- CLEAR_ALL, met by no control-word write's taking, is taken whole. -/
theorem exec_clearAll {s : State} (x : BitVec 4) (h : s.AtRequest) (hc : s.controlTakingOpen = false) :
    exec (.clearAll x) s = .next (s.received (x ++ 5#4)).takeClearAll :=
  congrArg Host.Outcome.next
    (State.request_row (b := requestByte x 5) h (by simpa [State.requestBusy] using hc)
      (by simp [State.takeRequest]; rfl))

/-- An accepted CLEAR_ALL before its COLD_START event is posted (R150, R167). -/
def State.defaulted (s : State) : State :=
  { s with
    signature := true, ret := Retained.cold, main := s.main.cleared
    power := if s.power = PowerState.recovering then PowerState.active else s.power }

/-- An accepted CLEAR_ALL, whose one event is COLD_START with detail 1 (R167). -/
theorem State.clearEverything_eq {s : State} (h : s.mainRuns = true) :
    s.clearEverything
      = State.respond
          { s.defaulted with main.queue := [{ kind := .coldStart, window := none, detail := 1, stamp := 0 }] } .done := by
  have hr : s.defaulted.mainRuns = true := by
    unfold State.mainRuns at h
    unfold State.mainRuns State.defaulted
    cases hs : s.power <;> simp_all
  have hkind : s.defaulted.kindEnabled .coldStart = true := reset_kindEnabled .coldStart
  exact congrArg (State.respond · .done) (State.post_room (s := s.defaulted) none 1 hr hkind (Nat.zero_lt_succ 15))

/-- CLEAR_ALL discards a waiting receipt and lets one being written complete (R135). -/
theorem State.defaulted_slot (s : State) (w : Win) : s.defaulted.slot w = (s.slot w).cleared := winGet_map _ _ w

theorem State.defaulted_window (s : State) (w : Win) :
    s.defaulted.desc w = Descriptor.cold ∧ s.defaulted.entry w = none ∧ s.defaulted.counter w = .absent
      ∧ (s.slot w = .writing → s.defaulted.slot w = .writing) ∧ (s.slot w ≠ .writing → s.defaulted.slot w = .empty) := by
  refine ⟨winGet_replicate _ w, winGet_replicate _ w, winGet_replicate _ w, fun hs => ?_, fun hs => ?_⟩
  · rw [State.defaulted_slot, hs]
    rfl
  · rw [State.defaulted_slot]
    cases h : s.slot w with
    | writing => exact absurd h hs
    | empty => rfl
    | pending x a => rfl

/-- What an accepted CLEAR_ALL resets (R167). -/
theorem State.defaulted_spec {s : State} (h : s.mainRuns = true) :
    s.defaulted.signature = true ∧ s.defaulted.power = .active ∧ s.defaulted.main.phase = none
      ∧ s.defaulted.main.tally = none ∧ s.defaulted.ret = Retained.cold ∧ s.defaulted.main.stamp = 0
      ∧ s.defaulted.main.ignored = false ∧ s.defaulted.main.overrun = false
      ∧ s.defaulted.main.txnView = TxnView.cold ∧ s.defaulted.main.recView = RecordView.cold := by
  refine ⟨rfl, ?_, rfl, rfl, rfl, rfl, rfl, rfl, rfl, rfl⟩
  unfold State.mainRuns at h
  unfold State.defaulted
  cases hs : s.power <;> simp_all

/-- What an accepted CLEAR_ALL leaves alone (R167). -/
theorem State.defaulted_keeps (s : State) :
    SameAccess s s.defaulted ∧ SameSequencer s s.defaulted ∧ s.defaulted.sram = s.sram ∧ SameEngine s s.defaulted := by
  simp [State.defaulted, MainWell.cleared, SameAccess, SameSequencer, SameEngine]

/-- An accepted CLEAR_ALL leaves the management port's registers to the request's own byte (R167). -/
theorem State.defaulted_port (s : State) :
    s.defaulted.main.index = s.main.index ∧ s.defaulted.main.reqCode = s.main.reqCode
      ∧ s.defaulted.main.arg = s.main.arg ∧ s.defaulted.main.target = s.main.target
      ∧ s.defaulted.main.xfer = s.main.xfer ∧ s.defaulted.main.waiting = s.main.waiting := by
  simp [State.defaulted, MainWell.cleared]

/-- Settles O43: CLEAR_ALL is answered BUSY where a window is not IDLE, and otherwise leaves `State.defaulted` with the
one event. -/
theorem clearAllMakesAColdInitialisation : Obligations.ClearAllMakesAColdInitialisation := by
  intro s x h hc
  obtain ⟨-, hxfer, hindex, hwaiting⟩ := id h
  by_cases hidle : s.allIdle = true
  · have hall := s.allIdle_iff.mp hidle
    have htake : (s.received (x ++ 5#4)).takeClearAll = (s.received (x ++ 5#4)).clearEverything := if_pos hidle
    rw [State.clearEverything_eq (s := s.received (x ++ 5#4)) h.mainRuns] at htake
    have hspec := (s.received (x ++ 5#4)).defaulted_spec h.mainRuns
    have hkeeps := (s.received (x ++ 5#4)).defaulted_keeps
    have hwindow := (s.received (x ++ 5#4)).defaulted_window
    have hport := (s.received (x ++ 5#4)).defaulted_port
    generalize (s.received (x ++ 5#4)).defaulted = u at *
    obtain ⟨hsig, hpower, hphase, htally, hret, hstamp, hign, hover, htxn, hrec⟩ := hspec
    obtain ⟨hacc, hseq, hsram, heng⟩ := hkeeps
    obtain ⟨hi, hcode, harg, htarget, hx, hw⟩ := hport
    refine ⟨_, (exec_clearAll x h hc).trans (congrArg _ htake), ?_, hcode, harg, htarget, hx.trans hxfer,
      hw.trans hwaiting, hacc, hseq, hsram, heng, fun ⟨w, hen, hw⟩ => absurd (hall w hen) hw, fun _ =>
      ⟨rfl, hsig, hpower, hphase, htally, hwindow, ?_⟩⟩
    · simpa using hi.trans (by simp [State.received, hindex])
    · show (∀ p, u.ret.journal.slot p = Slot.clear) ∧ u.ret.journal.head = 0 ∧ u.ret.journal.tail = 0
        ∧ u.ret.journal.occ = 0 ∧ u.ret.highWater = 0 ∧ u.ret.holdLimit = 32#8 ∧ u.ret.fillWord = 0#32
        ∧ (∀ k, State.kindEnabled u k = true) ∧ _
      refine ⟨by simp [hret, Retained.cold, Journal.cold_slot], by rw [hret]; rfl, by rw [hret]; rfl, by rw [hret]; rfl,
        by rw [hret]; rfl, by rw [hret]; rfl, by rw [hret]; rfl, fun k => ?_, hstamp, hign, rfl, hover, htxn, hrec⟩
      unfold State.kindEnabled
      rw [hret]
      exact reset_kindEnabled k
  · have htake : (s.received (x ++ 5#4)).takeClearAll = (s.received (x ++ 5#4)).respond .busy := if_neg hidle
    obtain ⟨hreq, hret, htime, hslots, hpend, hevents, htxn, hrec⟩ := State.received_respond (x ++ 5#4) .busy h
    exact ⟨_, (exec_clearAll x h hc).trans (congrArg _ htake), hreq.index, hreq.code, hreq.port.2.2.1, rfl, hxfer, hwaiting,
      hreq.access, hreq.sequencer, hreq.memory, ⟨hpend, hreq.walk⟩,
      fun _ => ⟨rfl, hret, hevents, hreq.power, hslots, htime, rfl, htxn, hrec⟩,
      fun hall => absurd (s.allIdle_iff.mpr hall) hidle⟩

end Sys2Proof.Machine
end

section
/-! PROOFS. What an access's outcome leaves of the access path, and a request that meets an open taking (O46). -/

namespace Sys2Proof.Machine

/-! ## The access path after an outcome (R70, R71) -/

/-- No cycle of the access in flight is being driven or examined. -/
def State.AccessAway (t : State) : Prop := ∀ a, t.main.access = some a → a.cond ≠ .atMemory

theorem AccessLeft.away {s t : State} {a b : Access} (h : AccessLeft s t a b) : b.cond ≠ .atMemory := by
  cases h <;> simp

theorem State.AccessAway.of_some {t : State} {b : Access} (hb : t.main.access = some b) (h : b.cond ≠ .atMemory) :
    t.AccessAway := fun a ha => by
  obtain rfl : b = a := Option.some.inj (hb.symm.trans ha)
  exact h

theorem State.AccessAway.takePresented {t : State} (h : t.AccessAway) : t.takePresented.AccessAway := by
  unfold State.takePresented
  split
  · obtain ⟨b, hb, hl⟩ := State.route_left { t with main.prdy := .inactive, main.pd := none } t.port.capture
    exact .of_some hb hl.away
  · exact h

theorem State.AccessAway.settle {t : State} (h : t.AccessAway) : t.settle.AccessAway := by
  unfold State.settle
  split
  · split
    · split
      · exact State.AccessAway.takePresented nofun
      · exact nofun
    · exact h
  · exact h

/-- An access that has its outcome stands at no memory port (R71). -/
theorem State.complete_away (s : State) (a : Access) (r : Option Word) : (s.complete a r).AccessAway := by
  refine .of_some (State.complete_left s s a a.cls a.window r rfl rfl).1 nofun

/-- With no taking open, no request waits (log 25). -/
theorem State.requestBusy_free {t : State} (htaking : ∀ w, t.takingOpen w = false)
    (hcontrol : t.controlTakingOpen = false) (b : Byte) : t.requestBusy b = false := by
  have harg : t.argWinBusy = false := by
    unfold State.argWinBusy
    split
    next => rfl
    next => exact htaking _
  have htest : t.windowTestBusy = false := by
    unfold State.windowTestBusy State.someOverlapping
    split
    next => rfl
    next => simp [htaking]
  simp [State.requestBusy, harg, htest, hcontrol]

theorem State.AccessAway.takingOpen {t : State} (h : t.AccessAway) (w : Win) : t.takingOpen w = false := by
  unfold State.takingOpen
  split
  next a ha => simp [h a ha]
  next => rfl

theorem State.AccessAway.controlTakingOpen {t : State} (h : t.AccessAway) : t.controlTakingOpen = false := by
  unfold State.controlTakingOpen
  rw [State.controlInFlight_eq]
  split
  next a ha => simp [h a ha]
  next => rfl

/-! ## The command that completes a control-word write (R90) -/

/-- What the command of a finding takes it as. -/
def Examination.matches : Examination → Examination → Bool
  | .ordinary => fun x => x = .ordinary
  | .malformed => fun x => x = .malformed
  | .marker k _ => Examination.isMarker k

/-- What the table does at a finding. -/
def Examination.take : Examination → State → Win → Byte → State
  | .ordinary => fun t _ _ => t
  | .malformed => fun t w q => t.refuse w .badCode q
  | .marker k _ => fun t w q => t.takeMarker w k q

theorem Examination.matches_self (x : Examination) : x.matches x = true := by
  cases x <;> simp [Examination.matches, Examination.isMarker]

theorem exec_command (x : Examination) (s : State) :
    exec x.command s = .next (s.finishControlWrite x.matches x.take).takeWaiting := by
  cases x with
  | ordinary => rfl
  | malformed => rfl
  | marker k q => cases k <;> rfl

theorem Examination.command_frame (x : Examination) (s : State) :
    Frame x.command s (s.finishControlWrite x.matches x.take) := by
  cases x with
  | ordinary => exact Frame.finishControlWrite rfl rfl rfl s _ _ fun t _ _ => Frame.refl t
  | malformed => exact Frame.finishControlWrite rfl rfl rfl s _ _ fun t w q => Frame.refuse rfl t w _ q
  | marker k q =>
    cases k with
    | openM => exact Frame.finishControlWrite rfl rfl rfl s _ _ fun t w q => Frame.takeOpen rfl rfl t w q
    | commitM =>
      exact Frame.finishControlWrite rfl rfl rfl s _ _ fun t w q =>
        Frame.endMarker rfl t w q _ fun _ he => Frame.commitTaken rfl rfl rfl he q
    | abortM =>
      exact Frame.finishControlWrite rfl rfl rfl s _ _ fun t w q =>
        Frame.endMarker rfl t w q _ fun _ he => Frame.abortTaken rfl rfl rfl he
    | saveM =>
      exact Frame.finishControlWrite rfl rfl rfl s _ _ fun t w q =>
        Frame.endMarker rfl t w q _ fun _ he => Frame.saveTaken rfl he q
    | returnM =>
      exact Frame.finishControlWrite rfl rfl rfl s _ _ fun t w q =>
        Frame.endMarker rfl t w q _ fun _ he => Frame.returnTaken rfl rfl rfl he q

theorem Examination.command_movesManagement (x : Examination) : x.command.movesManagement = false := by
  cases x with
  | ordinary => rfl
  | malformed => rfl
  | marker k q => cases k <;> rfl

/-- A control-word write in flight whose word the command names completes with its taking and its PRDY (R78, R97). -/
theorem State.finishControlWrite_found {s : State} {a : Access} {w : Win} {ex : Examination → Bool}
    {take : State → Win → Byte → State} (ha : s.controlInFlight = some a) (hw : a.window = some w)
    (hx : ex (s.examination a w) = true) :
    s.finishControlWrite ex take = ((take s.landedWord w (markerSeq a.data)).complete a none).settle := by
  unfold State.finishControlWrite
  simp only [ha, hw, hx, if_true]
  rfl

/-! ## A request that meets an open taking (R160, R165) -/

/-- The command of a request's byte receives that byte. -/
theorem exec_of_requestByte {c : Instr} {b : Byte} (h : c.requestByte = some b) (s : State) :
    exec c s = .next (s.request b) := by
  cases c with
  | enable x => obtain rfl := Option.some.inj h; rfl
  | disable x => obtain rfl := Option.some.inj h; rfl
  | forceAbort x => obtain rfl := Option.some.inj h; rfl
  | release x => obtain rfl := Option.some.inj h; rfl
  | clearAll x => obtain rfl := Option.some.inj h; rfl
  | popEvent x => obtain rfl := Option.some.inj h; rfl
  | clearOverrun x => obtain rfl := Option.some.inj h; rfl
  | loadTxn x => obtain rfl := Option.some.inj h; rfl
  | loadRecord x => obtain rfl := Option.some.inj h; rfl
  | unknownRequestCode d =>
    obtain ⟨hd, rfl⟩ : (byteCode d = 0 ∨ 10 ≤ (byteCode d).toNat) ∧ d = b := by
      simpa [Instr.requestByte] using h
    have hcode : requestCodeKnown (byteCode d) = false := requestCodeKnown_eq_false.mpr hd
    show Host.Outcome.next _ = _
    rw [hcode]
    rfl
  | _ => nomatch h

/-- The requests that some taking holds back, each with the taking it must not fall into (log 25). -/
theorem requestByte_busy {s : State} {c : Instr} {x : BitVec 4}
    (h : (c = .enable x ∨ c = .disable x) ∧ s.windowTestBusy = true
      ∨ (c = .forceAbort x ∨ c = .release x ∨ c = .loadTxn x) ∧ s.argWinBusy = true
      ∨ c = .clearAll x ∧ s.controlTakingOpen = true) :
    ∃ b, c.requestByte = some b ∧ s.requestBusy b = true := by
  rcases h with ⟨rfl | rfl, hb⟩ | ⟨rfl | rfl | rfl, hb⟩ | ⟨rfl, hb⟩
  · exact ⟨requestByte x 1, rfl, by simpa [State.requestBusy] using hb⟩
  · exact ⟨requestByte x 2, rfl, by simpa [State.requestBusy] using hb⟩
  · exact ⟨requestByte x 3, rfl, by simpa [State.requestBusy] using hb⟩
  · exact ⟨requestByte x 4, rfl, by simpa [State.requestBusy] using hb⟩
  · exact ⟨requestByte x 8, rfl, by simpa [State.requestBusy] using hb⟩
  · exact ⟨requestByte x 5, rfl, by simpa [State.requestBusy] using hb⟩

theorem State.takeRequest_waiting (s : State) (b : Byte) : (s.takeRequest b).main.waiting = s.main.waiting := by
  obtain ⟨_, _, _, _, _, _, _, _, _, _, _, _, _, _, _, e⟩ := (RequestMoves.takeRequest s b).shape
  rw [e]

/-- Where the port's own registers stand says nothing of a taking. -/
theorem State.requestBusy_resumed (s : State) (i b : Byte) :
    State.requestBusy { s with main.waiting := false, main.index := i } b = s.requestBusy b := by
  have h : State.controlTakingOpen { s with main.waiting := false, main.index := i } = s.controlTakingOpen := by
    unfold State.controlTakingOpen
    rw [State.controlInFlight_eq, State.controlInFlight_eq]
  unfold State.requestBusy
  rw [h]
  rfl

/-- A request that waited is taken as the byte that codes it was received (R160, R165). -/
theorem State.request_resumes {s : State} (hw : s.main.waiting = true) (hb : s.requestBusy s.main.reqCode = false)
    (hp : s.portAnswers = true) (hx : s.main.xfer = .writing) (hi : s.main.index = 0xA1#8) (hk : s.main.ack = true) :
    State.request { s with main.waiting := false, main.index := 0xA0#8 } s.main.reqCode = s.takeWaiting := by
  have hat : State.AtRequest { s with main.waiting := false, main.index := 0xA0#8 } := ⟨hp, hx, rfl, rfl⟩
  have hreceived : State.received { s with main.waiting := false, main.index := 0xA0#8 } s.main.reqCode
      = { s with main.waiting := false } := by
    unfold State.received State.byteTaken State.advance
    rw [← hk, show (0xA0#8 + 1 : Byte) = s.main.index from hi.symm]
  have hbusy : State.requestBusy { s with main.waiting := false, main.index := 0xA0#8 } s.main.reqCode = false := by
    rw [State.requestBusy_resumed, hb]
  rw [State.request_taken hat hbusy, hreceived]
  unfold State.takeWaiting
  rw [if_pos (by simp [hw, hb])]

/-- A window in the middle of a taking holds back the requests that name it, and those whose test looks at it. -/
theorem State.busy_of_takingOpen {s : State} {w : Win} (h : s.takingOpen w = true) (harg : s.main.arg.toNat = w.val) :
    s.argWinBusy = true ∧ s.windowTestBusy = true := by
  simp [State.argWinBusy, State.windowTestBusy, State.argWin_of_val harg, h]

/-- The append's old-word read, and a control-word write, are such takings (R75, R78). -/
theorem State.takingOpen_of_atMemory {s : State} {a : Access} {w : Win} (ha : s.main.access = some a)
    (hw : a.window = some w)
    (h : s.AtMemory a .journaled ∧ s.main.cycle = some a.oldReadCycle ∨ s.ControlWrite a w) : s.takingOpen w = true := by
  unfold State.takingOpen
  rw [ha]
  rcases h with ⟨h, hc⟩ | h
  · simp [h.cond, h.cls, hw, State.readsMemory, hc, Access.oldReadCycle]
  · simp [h.cond, h.cls, hw]

/-- The append moves what a taking of the table moves (R33, R34, R43). -/
theorem TakenFor.appendTold (s : State) (a : Access) (w : Win) : TakenFor s (s.appendTold a w) w := by
  have happended : TakenFor s (s.appended a w) w := by
    have hbody : TakenFor s (s.appendBody w a.addr (Memory.readWord s.sram a.addr) a.lanes) w :=
      TakenFor.setJournal _ _
    refine hbody.trans ?_
    unfold State.appended State.appendMark
    dsimp only
    split
    · exact TakenFor.setJournal _ _
    · exact (TakenFor.setJournal _ _).trans (TakenFor.setEntry _ _)
  exact happended.trans ((TakenFor.reloadIfIdle _).trans (TakenFor.highWaterTest _))

/-- Once the write of the new data has begun, the append's taking is over (R75; log 25). -/
theorem State.appendTold_ends {s : State} {a : Access} {w : Win} (h : s.AtMemory a .journaled) (hw : a.wr = true)
    (b : Byte) : ((s.appendTold a w).drive .processor a.cycle).requestBusy b = false := by
  obtain ⟨-, -, ⟨-, hsame, -⟩, -⟩ := (TakenFor.appendTold s a w).rest
  have haccess : ((s.appendTold a w).drive .processor a.cycle).main.access = some a := hsame.trans h.access
  refine State.requestBusy_free (fun v => ?_) ?_ b
  · unfold State.takingOpen
    rw [haccess]
    simp [h.cls, State.readsMemory, State.drive, Access.cycle, hw]
  · unfold State.controlTakingOpen
    rw [State.controlInFlight_eq, haccess]
    simp [h.cls]

/-- Settles O46. -/
theorem aRequestMeetingAnOpenTakingWaits : Obligations.ARequestMeetingAnOpenTakingWaits := by
  refine ⟨fun s c x h hc => ?_, fun s hw => ⟨State.takeWaiting_idle hw, hw⟩, fun s _ hb => ?_,
    fun s c b hw hc hcode hb hp hx hi hk => ?_, fun s a w b ha hw hwr h => ⟨fun harg => ?_, fun hcls => ?_, fun u hu => ?_⟩⟩
  · obtain ⟨b, hbyte, hb⟩ := requestByte_busy hc
    refine ⟨b, _, hbyte, exec_of_requestByte hbyte s, ?_⟩
    rw [State.request_waits h hb]
    obtain ⟨-, -, hi, -⟩ := h
    refine ⟨rfl, ?_⟩
    unfold State.received State.byteTaken State.advance
    rw [hi]
    rfl
  · unfold State.takeWaiting
    rw [if_neg (by simp [hb])]
  · subst hcode
    refine ⟨(exec_of_requestByte hc _).trans (congrArg _ (State.request_resumes hw hb hp hx hi hk)), ?_⟩
    unfold State.takeWaiting
    rw [if_pos (by simp [hw, hb])]
    exact State.takeRequest_waiting _ _
  · exact State.busy_of_takingOpen (State.takingOpen_of_atMemory ha hw h) harg
  · rcases h with ⟨h, -⟩ | h
    · rw [h.cls] at hcls
      exact absurd hcls (by decide)
    · unfold State.controlTakingOpen
      rw [h.inFlight]
      rfl
  · rcases h with ⟨h, hc⟩ | h
    · rw [if_neg (by simp [h.cls]), exec_oldWordReadComplete h hc hw] at hu
      obtain ⟨-, -, -, -, -, -, hman, -, -⟩ := (TakenFor.appendTold s a w).rest
      have hdriven : SameManagement s ((s.appendTold a w).drive .processor a.cycle) := by
        generalize s.appendTold a w = v at hman
        exact hman
      exact ⟨_, (Host.Outcome.next.inj hu).symm, State.appendTold_ends h hwr b, hdriven⟩
    · rw [if_pos h.cls, exec_command] at hu
      refine ⟨_, (Host.Outcome.next.inj hu).symm, ?_,
        ((s.examination a w).command_frame s).management (Examination.command_movesManagement _)⟩
      rw [State.finishControlWrite_found h.inFlight hw (Examination.matches_self _)]
      have haway := ((State.complete_away _ a none).settle :
        (((s.examination a w).take s.landedWord w (markerSeq a.data)).complete a none).settle.AccessAway)
      exact State.requestBusy_free haway.takingOpen haway.controlTakingOpen b

end Sys2Proof.Machine
end

section
/-! PROOFS. The management port's bytes: what a byte written holds (O34, O35), what is sent (O36, O38), and what each
position reads as (O37). -/

namespace Sys2Proof.Machine

/-! ## The bytes of a value (R177) -/

/-- A value with one byte replaced, as the bits above it, the byte, and the bits below it. -/
theorem withByte_eq (x n i : Nat) (b : Byte) :
    withByte x n i b
      = 2 ^ (8 * (n - 1 - i)) * (2 ^ 8 * (x / 2 ^ (8 * (n - 1 - i)) / 2 ^ 8) + b.toNat)
        + x % 2 ^ (8 * (n - 1 - i)) := by
  show x - x / 256 ^ (n - 1 - i) % 256 * 256 ^ (n - 1 - i) + b.toNat * 256 ^ (n - 1 - i) = _
  rw [show (256 : Nat) = 2 ^ 8 from rfl, ← Nat.pow_mul]
  generalize 2 ^ (8 * (n - 1 - i)) = p
  have hx := Nat.div_add_mod x p
  have hq := Nat.div_add_mod (x / p) (2 ^ 8)
  generalize x / p = q at *
  generalize x % p = r at *
  have hsplit : x = p * (2 ^ 8 * (q / 2 ^ 8)) + q % 2 ^ 8 * p + r := by
    rw [← hx]
    nth_rewrite 1 [← hq]
    ring
  rw [hsplit, Nat.mul_add, Nat.mul_comm b.toNat p]
  omega

/-- The byte that is replaced has the new bits, and every other bit stays. -/
theorem withByte_testBit (x n i m : Nat) (b : Byte) :
    (withByte x n i b).testBit m
      = if 8 * (n - 1 - i) ≤ m ∧ m < 8 * (n - 1 - i) + 8 then b.getLsbD (m - 8 * (n - 1 - i)) else x.testBit m := by
  rw [withByte_eq]
  generalize 8 * (n - 1 - i) = p
  rw [Nat.testBit_two_pow_mul_add _ (Nat.mod_lt _ (Nat.two_pow_pos p))]
  split
  next h => rw [if_neg (by omega), Nat.testBit_mod_two_pow, decide_eq_true h, Bool.true_and]
  next h =>
    rw [Nat.testBit_two_pow_mul_add _ b.isLt]
    split
    next h' =>
      rw [if_pos (by omega)]
      rfl
    next h' =>
      rw [if_neg (by omega), Nat.testBit_div_two_pow, Nat.testBit_div_two_pow]
      congr 1
      omega

/-- A byte of a register, in bits. -/
theorem byteOf_toNat {w : Nat} (x : BitVec w) (n i : Nat) :
    byteOf x.toNat n i = x.extractLsb' (8 * (n - 1 - i)) 8 := by
  refine BitVec.eq_of_getLsbD_eq fun j hj => ?_
  rw [byteOf_getLsbD _ _ _ _ hj, BitVec.getLsbD_extractLsb', decide_eq_true hj, Bool.true_and]
  rfl

/-- Writing one byte of a register leaves its other bytes (R177). -/
theorem byteOf_written_ne {w : Nat} (x : BitVec w) {n i j : Nat} (b : Byte) (hi : i < n) (hj : j < n) (hne : j ≠ i) :
    byteOf (BitVec.ofNat w (withByte x.toNat n i b)).toNat n j = byteOf x.toNat n j := by
  refine BitVec.eq_of_getLsbD_eq fun t ht => ?_
  rw [byteOf_getLsbD _ _ _ _ ht, byteOf_getLsbD _ _ _ _ ht, BitVec.toNat_ofNat, Nat.testBit_mod_two_pow,
    withByte_testBit, if_neg (by omega)]
  by_cases h : 8 * (n - 1 - j) + t < w
  · simp [h]
  · have hx : x.toNat.testBit (8 * (n - 1 - j) + t) = false := BitVec.getLsbD_of_ge x _ (Nat.le_of_not_lt h)
    simp [h, hx]

/-- The byte written reads back with the bits that the register has (R177). -/
theorem byteOf_written_self {w : Nat} (x : BitVec w) {n i : Nat} (b : Byte) {t : Nat} (ht : t < 8) :
    (byteOf (BitVec.ofNat w (withByte x.toNat n i b)).toNat n i).getLsbD t
      = (decide (8 * (n - 1 - i) + t < w) && b.getLsbD t) := by
  rw [byteOf_getLsbD _ _ _ _ ht, BitVec.toNat_ofNat, Nat.testBit_mod_two_pow, withByte_testBit, if_pos (by omega),
    Nat.add_sub_cancel_left]

/-- A register that holds all its bytes' bits reads a byte back as it was written. -/
theorem byteOf_written {w : Nat} (x : BitVec w) {n i : Nat} (b : Byte) (hw : 8 * (n - 1 - i) + 8 ≤ w) :
    byteOf (BitVec.ofNat w (withByte x.toNat n i b)).toNat n i = b := by
  refine BitVec.eq_of_getLsbD_eq fun t ht => ?_
  rw [byteOf_written_self x b ht, decide_eq_true (by omega), Bool.true_and]

/-- The first byte of a word address holds six bits (R178). -/
theorem byteOf_written_addr (x : Addr) (b : Byte) :
    byteOf (BitVec.ofNat 22 (withByte x.toNat 3 0 b)).toNat 3 0 = b &&& 0x3F#8 := by
  refine BitVec.eq_of_getLsbD_eq fun t ht => ?_
  rw [byteOf_written_self x b ht, BitVec.getLsbD_and, Bool.and_comm]
  congr 1
  interval_cases t <;> rfl

/-! ## The bytes of a descriptor (R178) -/

/-- The byte of the modes and the policy holds six bits (R178). -/
theorem modeByte_bits (b : Byte) :
    b.extractLsb' 5 3 ++ 0#2 ++ BitVec.ofBool (b.getLsbD 2) ++ BitVec.ofBool (b.getLsbD 1) ++ BitVec.ofBool (b.getLsbD 0)
      = b &&& 0xE7#8 := by
  revert b
  decide

/-- Byte 12 of a descriptor: the quota's high bits, the modes and the policy (R178). -/
def Descriptor.modes (d : Descriptor) : Byte :=
  d.quota.extractLsb' 8 3 ++ 0#2 ++ BitVec.ofBool (d.deadlineMode = .idle) ++ BitVec.ofBool (d.policy = .keep)
    ++ BitVec.ofBool (d.mode = .loose)

/-- Two descriptors read alike at a byte whose field is alike. -/
theorem Descriptor.byte_congr {d d' : Descriptor} {i : Nat}
    (hbase : i < 2 → byteOf d'.base.toNat 2 i = byteOf d.base.toNat 2 i := by intros; rfl)
    (hlimit : 2 ≤ i → i < 4 → byteOf d'.limit.toNat 2 (i - 2) = byteOf d.limit.toNat 2 (i - 2) := by intros; rfl)
    (hcontrol : 4 ≤ i → i < 7 → byteOf d'.controlWord.toNat 3 (i - 4) = byteOf d.controlWord.toNat 3 (i - 4) := by
      intros; rfl)
    (hreceipt : 7 ≤ i → i < 10 → byteOf d'.receiptWord.toNat 3 (i - 7) = byteOf d.receiptWord.toNat 3 (i - 7) := by
      intros; rfl)
    (hkey : 10 ≤ i → i < 12 → byteOf d'.key.toNat 2 (i - 10) = byteOf d.key.toNat 2 (i - 10) := by intros; rfl)
    (hmodes : i = 12 → d'.modes = d.modes := by intros; rfl)
    (hquota : i = 13 → d'.quota.extractLsb' 0 8 = d.quota.extractLsb' 0 8 := by intros; rfl)
    (hdeadline : 14 ≤ i → byteOf d'.deadline.toNat 2 (i - 14) = byteOf d.deadline.toNat 2 (i - 14) := by intros; rfl) :
    d'.byte i = d.byte i := by
  unfold Descriptor.byte
  split_ifs with h2 h4 h7 h10 h12 hm hq
  · exact hbase h2
  · exact hlimit (by omega) h4
  · exact hcontrol (by omega) h7
  · exact hreceipt (by omega) h10
  · exact hkey (by omega) h12
  · exact hmodes hm
  · exact hquota hq
  · exact hdeadline (by omega)

section Descriptor
variable (d : Descriptor) (b : Byte) {o i : Nat}

/-- A byte written to a descriptor reads back as its field's bits. -/
theorem Descriptor.byte_setByte_self (ho : o < 16) :
    (d.setByte o b).byte o = (if o = 4 ∨ o = 7 then b &&& 0x3F#8 else if o = 12 then b &&& 0xE7#8 else b) := by
  interval_cases o
  · exact byteOf_written (n := 2) d.base b (by decide)
  · exact byteOf_written (n := 2) d.base b (by decide)
  · exact byteOf_written (n := 2) d.limit b (by decide)
  · exact byteOf_written (n := 2) d.limit b (by decide)
  · exact byteOf_written_addr d.controlWord b
  · exact byteOf_written (n := 3) d.controlWord b (by decide)
  · exact byteOf_written (n := 3) d.controlWord b (by decide)
  · exact byteOf_written_addr d.receiptWord b
  · exact byteOf_written (n := 3) d.receiptWord b (by decide)
  · exact byteOf_written (n := 3) d.receiptWord b (by decide)
  · exact byteOf_written (n := 2) d.key b (by decide)
  · exact byteOf_written (n := 2) d.key b (by decide)
  · rw [if_neg (by decide), if_pos rfl, ← modeByte_bits b]
    have hquota : (b.extractLsb' 5 3 ++ d.quota.extractLsb' 0 8).extractLsb' 8 3 = b.extractLsb' 5 3 := by
      rw [BitVec.extractLsb'_append_eq_of_le (by decide)]
      exact BitVec.extractLsb'_eq_self
    have hdeadline (p : Bool) : decide ((if p then DeadlineMode.idle else .absolute) = .idle) = p := by cases p <;> rfl
    have hpolicy (p : Bool) : decide ((if p then RecoveryPolicy.keep else .rollback) = .keep) = p := by cases p <;> rfl
    have hmode (p : Bool) : decide ((if p then WindowMode.loose else .strict) = .loose) = p := by cases p <;> rfl
    rw [← hquota, ← hdeadline (b.getLsbD 2), ← hpolicy (b.getLsbD 1), ← hmode (b.getLsbD 0)]
    rfl
  · exact BitVec.extractLsb'_append_eq_right
  · exact byteOf_written (n := 2) d.deadline b (by decide)
  · exact byteOf_written (n := 2) d.deadline b (by decide)

/-- A byte written to a descriptor leaves its other bytes. -/
theorem Descriptor.byte_setByte_ne (ho : o < 16) (hi : i < 16) (hne : i ≠ o) : (d.setByte o b).byte i = d.byte i := by
  unfold Descriptor.setByte
  split
  next h2 => exact Descriptor.byte_congr (hbase := fun h => byteOf_written_ne d.base b h2 h hne)
  split
  next h4 =>
    exact Descriptor.byte_congr
      (hlimit := fun hl h => byteOf_written_ne d.limit b (by omega) (by omega) (by omega))
  split
  next h7 =>
    exact Descriptor.byte_congr
      (hcontrol := fun hl h => byteOf_written_ne d.controlWord b (by omega) (by omega) (by omega))
  split
  next h10 =>
    exact Descriptor.byte_congr
      (hreceipt := fun hl h => byteOf_written_ne d.receiptWord b (by omega) (by omega) (by omega))
  split
  next h12 =>
    exact Descriptor.byte_congr (hkey := fun hl h => byteOf_written_ne d.key b (by omega) (by omega) (by omega))
  split
  next hmode =>
    exact Descriptor.byte_congr (hmodes := fun h => absurd (h.trans hmode.symm) hne)
      (hquota := fun _ => BitVec.extractLsb'_append_eq_right)
  split
  next hquota =>
    refine Descriptor.byte_congr (hmodes := fun _ => ?_) (hquota := fun h => absurd (h.trans hquota.symm) hne)
    have hhigh : (d.quota.extractLsb' 8 3 ++ b).extractLsb' 8 3 = d.quota.extractLsb' 8 3 := by
      rw [BitVec.extractLsb'_append_eq_of_le (by decide)]
      exact BitVec.extractLsb'_eq_self
    exact congrArg (· ++ 0#2 ++ BitVec.ofBool (d.deadlineMode = .idle) ++ BitVec.ofBool (d.policy = .keep)
      ++ BitVec.ofBool (d.mode = .loose)) hhigh
  next =>
    exact Descriptor.byte_congr
      (hdeadline := fun hl => byteOf_written_ne d.deadline b (by omega) (by omega) (by omega))

end Descriptor

/-! ## A byte received (R54, R55, R44, R84, R177) -/

theorem State.byteTaken_taken (s : State) : ByteTaken s s.byteTaken := ⟨BitVec.toNat_add _ _, rfl⟩

/-- The port takes a byte at its index where it is ready and a write transfer stands. -/
theorem State.writingAt_of {s : State} (hp : s.portReady = true) (hx : s.main.xfer = .writing) : s.writingAt = true := by
  simp [State.writingAt, hp, hx]

/-- Position `16 w + o` is byte `o` of window `w`'s descriptor (R54). -/
theorem descriptorPos {i o : Nat} {w : Win} (ho : o < 16) (hi : i = 16 * w.val + o) :
    isDescriptorPos i = true ∧ descriptorWin i = w ∧ i % 16 = o := by
  have hw := w.isLt
  refine ⟨by simp [isDescriptorPos]; omega, Fin.ext ?_, by omega⟩
  show i / 16 % 8 = w.val
  omega

/-- Settles O34. -/
theorem descriptorByteIsWrittenOrIgnored : Obligations.DescriptorByteIsWrittenOrIgnored := by
  intro s b w o hp hx ho hi
  have hwr := State.writingAt_of hp hx
  obtain ⟨hpos, hwin, hoff⟩ := descriptorPos ho hi
  cases hen : s.enabled w with
  | true =>
    have hexec : exec (.descriptorByteWrite b) s = .next (State.byteTaken { s with main.ignored := true }) := by
      simp [exec, execDescriptorByteWrite, hwr, hpos, hwin, hen]
    exact ⟨_, hexec, State.byteTaken_taken _, rfl, rfl, rfl, ⟨rfl, rfl⟩, fun _ _ => rfl, fun _ => ⟨rfl, rfl⟩, nofun⟩
  | false =>
    have hexec : exec (.descriptorByteWrite b) s
        = .next (State.byteTaken
            { s with ret.descriptors := winSet s.ret.descriptors w ((s.desc w).setByte o b) }) := by
      simp [exec, execDescriptorByteWrite, hwr, hpos, hwin, hoff, hen]
    have hself : winGet (winSet s.ret.descriptors w ((s.desc w).setByte o b)) w = (s.desc w).setByte o b :=
      winGet_winSet_eq _ _ _
    refine ⟨_, hexec, State.byteTaken_taken _, rfl, rfl, rfl, ⟨rfl, rfl⟩,
      fun v hv => winGet_winSet_ne _ _ hv, nofun, fun _ => ⟨rfl, fun i hi hne => ?_, ?_⟩⟩
    · exact (congrArg (Descriptor.byte · i) hself).trans (Descriptor.byte_setByte_ne _ b ho hi hne)
    · exact (congrArg (Descriptor.byte · o) hself).trans (Descriptor.byte_setByte_self _ b ho)

/-- The threshold's high byte holds three bits, and the value is at most 1024 (R44, R177). -/
theorem thresholdWith_high {t : Nat} (ht : t ≤ 1024) (b : Byte) :
    thresholdWith t 0 b = min 1024 (b.toNat % 8 * 256 + t % 256) := by
  have hb : (b &&& 0x07#8).toNat = b.toNat % 8 := by
    rw [BitVec.toNat_and]
    exact Nat.and_two_pow_sub_one_eq_mod _ 3
  unfold thresholdWith
  rw [if_pos rfl, withByte_eq, hb]
  norm_num
  omega

theorem thresholdWith_low (t : Nat) (b : Byte) : thresholdWith t 1 b = min 1024 (t / 256 * 256 + b.toNat) := by
  unfold thresholdWith
  rw [if_neg (by decide), withByte_eq]
  norm_num
  omega

theorem exec_positionWrite {s : State} {b : Byte} {i : Nat} (hw : s.writingAt = true) (hi : s.main.index.toNat = i)
    (hr : hasWriteRow i = false) : exec (.positionWrite b) s = .next (s.plainWrite i b).byteTaken := by
  simp [exec, execPositionWrite, hw, hi, hr]

/-- A byte written to a position without a rule of its own moves nothing of the index. -/
theorem State.plainWrite_taken (s : State) (i : Nat) (b : Byte) : ByteTaken s (s.plainWrite i b).byteTaken := by
  have hindex : (s.plainWrite i b).main.index = s.main.index := by
    unfold State.plainWrite
    split_ifs <;> rfl
  unfold ByteTaken
  rw [← hindex]
  exact State.byteTaken_taken _

/-- Settles O35. -/
theorem configurationBytesAreWritten : Obligations.ConfigurationBytesAreWritten := by
  refine ⟨fun s b hp hx hh => ?_, fun s b hp hx => ?_⟩
  · have hwr := State.writingAt_of hp hx
    refine ⟨fun hi => ?_, fun hi => ?_, fun hi => ?_⟩
    · have hexec : exec (.highWaterThresholdWrite b) s
          = .next (State.byteTaken { s with ret.highWater := thresholdWith s.ret.highWater 0 b }) := by
        simp [exec, execHighWaterThresholdWrite, hwr, hi]
      exact ⟨_, hexec, State.byteTaken_taken _, ⟨rfl, rfl⟩,
        congrArg (fun n => { s.ret with highWater := n }) (thresholdWith_high hh b)⟩
    · have hexec : exec (.highWaterThresholdWrite b) s
          = .next (State.byteTaken { s with ret.highWater := thresholdWith s.ret.highWater 1 b }) := by
        simp [exec, execHighWaterThresholdWrite, hwr, hi]
      exact ⟨_, hexec, State.byteTaken_taken _, ⟨rfl, rfl⟩,
        congrArg (fun n => { s.ret with highWater := n }) (thresholdWith_low _ b)⟩
    · have hexec : exec (.holdLimitWrite b) s = .next (State.byteTaken { s with ret.holdLimit := b }) := by
        simp [exec, execHoldLimitWrite, hwr, hi]
      exact ⟨_, hexec, State.byteTaken_taken _, ⟨rfl, rfl⟩, rfl, ⟨rfl, rfl, rfl, rfl, rfl⟩⟩
  · have hwr := State.writingAt_of hp hx
    refine ⟨fun i hlt hi => ?_, fun i hlt hi => ?_, fun hi => ?_, fun hl hr h0 h1 => ?_⟩
    · have hwrite : s.plainWrite (0x86 + i) b
          = { s with ret.fillWord := BitVec.ofNat 32 (withByte s.ret.fillWord.toNat 4 i b) } := by
        simp [State.plainWrite, show 0x86 + i < 0x8A by omega]
      refine ⟨_, _, exec_positionWrite hwr hi (by simp [hasWriteRow]; omega), State.plainWrite_taken _ _ b, ?_,
        byteOf_written (n := 4) _ b (by omega), fun j hj hne => byteOf_written_ne (n := 4) _ b hlt hj hne⟩
      rw [hwrite]
      rfl
    · have hwrite : s.plainWrite (0x8A + i) b
          = { s with ret.kindMask := BitVec.ofNat 16 (withByte s.ret.kindMask.toNat 2 i b) } := by
        simp [State.plainWrite, show 0x8A + i < 0x8C by omega]
      refine ⟨_, _, exec_positionWrite hwr hi (by simp [hasWriteRow]; omega), State.plainWrite_taken _ _ b, ?_,
        byteOf_written (n := 2) _ b (by omega), fun j hj hne => byteOf_written_ne (n := 2) _ b hlt hj hne⟩
      rw [hwrite]
      rfl
    · have hi' : s.main.index.toNat = 0xA1 := by rw [hi]; rfl
      exact ⟨_, exec_positionWrite hwr hi' rfl, State.byteTaken_taken { s with main.arg := b }, rfl, rfl⟩
    · have ha0 : s.main.index.toNat ≠ 0xA0 := fun h => h0 (BitVec.eq_of_toNat_eq h)
      have ha1 : s.main.index.toNat ≠ 0xA1 := fun h => h1 (BitVec.eq_of_toNat_eq h)
      have hrow : hasWriteRow s.main.index.toNat = false := by
        simp [hasWriteRow, ha0]
        omega
      have hwrite : s.plainWrite s.main.index.toNat b = s := by
        unfold State.plainWrite
        rw [if_neg (by simp; omega), if_neg (by simp; omega), if_neg ha1]
      rw [exec_positionWrite hwr rfl hrow, hwrite]
      rfl

/-! ## A byte sent (R55, R160, R162, R163, R172) -/

theorem State.readingAt_of {s : State} (hp : s.portReady = true) (hx : s.main.xfer.isReading = true) :
    s.readingAt = true := by
  simp [State.readingAt, hp, hx]

theorem State.statusByte_eq (s : State) :
    s.statusByte
      = (if s.main.ignored then 0x80#8 else 0x00#8) + (if s.power = .recovering then 0x01#8 else 0x00#8) := by
  unfold State.statusByte
  cases s.main.ignored <;> split <;> rfl

theorem exec_statusRead {s : State} {i : Nat} (hr : s.readingAt = true) (hi : s.main.index.toNat = i)
    (hrow : hasReadRow i = false) :
    exec .statusRead s
      = .next (if i = 0x80 then { s.send (s.positionByte i) with main.ignored := false } else s.send (s.positionByte i)) := by
  subst hi
  simp [exec, execStatusRead, hr, hrow]

/-- The eight bytes of the oldest-event view (R180). -/
theorem eventByte_some (e : EventRecord) {i : Nat} (hi : i < 8) :
    eventByte (some e) i
      = [BitVec.ofNat 8 e.kind.code, (match e.window with | some w => BitVec.ofNat 8 w.val | none => 0x80#8),
          e.detail.extractLsb' 24 8, e.detail.extractLsb' 16 8, e.detail.extractLsb' 8 8, e.detail.extractLsb' 0 8,
          e.stamp.extractLsb' 8 8, e.stamp.extractLsb' 0 8].getD i 0 := by
  interval_cases i
  · rfl
  · cases h : e.window <;> simp [eventByte, h]
  · exact byteOf_toNat e.detail 4 0
  · exact byteOf_toNat e.detail 4 1
  · exact byteOf_toNat e.detail 4 2
  · exact byteOf_toNat e.detail 4 3
  · exact byteOf_toNat e.stamp 2 0
  · exact byteOf_toNat e.stamp 2 1

/-- A read of the oldest-event view sends its byte of the transfer's copy (R162). -/
theorem exec_oldestEventViewRead {s : State} {i : Nat} (hr : s.readingAt = true) (hlt : i < 8)
    (hi : s.main.index.toNat = 0xB0 + i) :
    exec .oldestEventViewRead s
      = .next (State.send { s with main.eventLatch := some (s.main.eventLatch.getD s.main.queue.head?) }
          (eventByte (s.main.eventLatch.getD s.main.queue.head?) i)) := by
  have hrange : 0xB0 + i < 0xB8 := by omega
  simp [exec, execOldestEventViewRead, hr, hi, hrange]

/-- After the byte that the controller does not acknowledge nothing is sent (R160). -/
theorem exec_reads_released {s : State} (h : s.main.xfer = .released) :
    exec .statusRead s = .next s ∧ exec .occupancyRead s = .next s ∧ exec .stampCounterRead s = .next s
      ∧ exec .oldestEventViewRead s = .next s := by
  have hr : s.readingAt = false := by simp [State.readingAt, h, Transfer.isReading]
  simp [exec, execStatusRead, execOccupancyRead, execStampCounterRead, execOldestEventViewRead, hr]

/-- Settles O36. -/
theorem statusAndEventViewReads : Obligations.StatusAndEventViewReads := by
  refine ⟨fun s hp hx => ⟨fun hi => ?_, fun hne hrow => ?_⟩, fun s i hp hx hlt hi => ?_, fun n => rfl, rfl, rfl,
    fun s => exec_reads_released⟩
  · have hindex : s.main.index.toNat = 0x80 := by rw [hi]; rfl
    rw [exec_statusRead (State.readingAt_of hp hx) hindex rfl, if_pos rfl, ← s.statusByte_eq,
      show (0x81#8 : Byte) = s.main.index + 1 by rw [hi]; rfl]
    rfl
  · have hindex : s.main.index.toNat ≠ 0x80 := fun h => hne (BitVec.eq_of_toNat_eq h)
    rw [exec_statusRead (State.readingAt_of hp hx) rfl hrow, if_neg hindex]
    rfl
  · refine ⟨_, _, exec_oldestEventViewRead (State.readingAt_of hp hx) hlt hi, rfl, fun h => by rw [h]; rfl,
      fun d h => by rw [h]; rfl, fun hc => ?_, fun e hc => ?_, rfl, ?_, rfl, rfl⟩
    · rw [hc]
      rfl
    · rw [hc, eventByte_some e hlt]
      rfl
    · show (s.main.index + 1).toNat = _
      rw [BitVec.toNat_add, hi, show BitVec.toNat (1 : Byte) = 1 from rfl]
      omega

/-- Settles O38. -/
theorem twoByteReadsAreOneValue : Obligations.TwoByteReadsAreOneValue := by
  intro s hp hx
  have hr := State.readingAt_of hp hx
  refine ⟨fun hi => ?_, fun hi => ?_, fun hi => ?_, fun hi => ?_⟩
  · have hexec : exec .occupancyRead s
        = .next (State.send { s with main.occLatch := some s.ret.journal.occ } (byteOf s.ret.journal.occ 2 0)) := by
      simp [exec, execOccupancyRead, hr, hi]
    exact ⟨_, hexec, congrArg (· + 1) hi, rfl, rfl, rfl⟩
  · have hexec : exec .occupancyRead s = .next (s.send (byteOf (s.main.occLatch.getD s.ret.journal.occ) 2 1)) := by
      simp [exec, execOccupancyRead, hr, hi]
    refine ⟨_, hexec, congrArg (· + 1) hi, ?_, rfl⟩
    simp [State.send, byteOf, State.advance]
  · have hexec : exec .stampCounterRead s
        = .next (State.send { s with main.stampLatch := some s.main.stamp } (byteOf s.main.stamp.toNat 2 0)) := by
      simp [exec, execStampCounterRead, hr, hi]
    refine ⟨_, hexec, congrArg (· + 1) hi, ?_, rfl, rfl, rfl⟩
    rw [byteOf_toNat]
    rfl
  · have hexec : exec .stampCounterRead s = .next (s.send (byteOf (s.main.stampLatch.getD s.main.stamp).toNat 2 1)) := by
      simp [exec, execStampCounterRead, hr, hi]
    refine ⟨_, hexec, congrArg (· + 1) hi, ?_, rfl, rfl⟩
    rw [byteOf_toNat]
    rfl

/-! ## What each position reads as (R54, R161, R177 to R182) -/

/-- Two bytes of a value below 2^16 give it back. -/
theorem byteOf_pair {x : Nat} (h : x < 65536) : (byteOf x 2 0).toNat * 256 + (byteOf x 2 1).toNat = x := by
  simp only [byteOf, BitVec.toNat_ofNat]
  norm_num
  omega

/-- The first byte of a word address is its high six bits (R178). -/
theorem byteOf_addr_high (x : Addr) : byteOf x.toNat 3 0 = 0#2 ++ x.extractLsb' 16 6 := by
  rw [byteOf_toNat]
  refine BitVec.eq_of_getLsbD_eq fun j hj => ?_
  rw [BitVec.getLsbD_extractLsb', BitVec.getLsbD_append, BitVec.getLsbD_extractLsb', decide_eq_true hj, Bool.true_and]
  by_cases h : j < 6
  · simp [h]
  · simp only [h, decide_false, if_false, BitVec.getLsbD_zero]
    exact BitVec.getLsbD_of_ge x _ (by omega)

/-- The sixteen bytes of a descriptor (R178). -/
theorem Descriptor.byte_eq (d : Descriptor) {i : Nat} (hi : i < 16) :
    d.byte i
      = [d.base.extractLsb' 8 8, d.base.extractLsb' 0 8, d.limit.extractLsb' 8 8, d.limit.extractLsb' 0 8,
          0#2 ++ d.controlWord.extractLsb' 16 6, d.controlWord.extractLsb' 8 8, d.controlWord.extractLsb' 0 8,
          0#2 ++ d.receiptWord.extractLsb' 16 6, d.receiptWord.extractLsb' 8 8, d.receiptWord.extractLsb' 0 8,
          d.key.extractLsb' 8 8, d.key.extractLsb' 0 8,
          d.quota.extractLsb' 8 3 ++ 0#2 ++ (if d.deadlineMode = .idle then 1#1 else 0#1)
            ++ (if d.policy = .keep then 1#1 else 0#1) ++ (if d.mode = .loose then 1#1 else 0#1),
          d.quota.extractLsb' 0 8, d.deadline.extractLsb' 8 8, d.deadline.extractLsb' 0 8].getD i 0 := by
  interval_cases i
  · exact byteOf_toNat d.base 2 0
  · exact byteOf_toNat d.base 2 1
  · exact byteOf_toNat d.limit 2 0
  · exact byteOf_toNat d.limit 2 1
  · exact byteOf_addr_high d.controlWord
  · exact byteOf_toNat d.controlWord 3 1
  · exact byteOf_toNat d.controlWord 3 2
  · exact byteOf_addr_high d.receiptWord
  · exact byteOf_toNat d.receiptWord 3 1
  · exact byteOf_toNat d.receiptWord 3 2
  · exact byteOf_toNat d.key 2 0
  · exact byteOf_toNat d.key 2 1
  · have hbit (p : Prop) [Decidable p] : BitVec.ofBool (decide p) = if p then 1#1 else 0#1 := by split <;> simp [*]
    show d.quota.extractLsb' 8 3 ++ 0#2 ++ BitVec.ofBool (d.deadlineMode = .idle) ++ BitVec.ofBool (d.policy = .keep)
      ++ BitVec.ofBool (d.mode = .loose) = _
    rw [hbit, hbit, hbit]
    rfl
  · rfl
  · exact byteOf_toNat d.deadline 2 0
  · exact byteOf_toNat d.deadline 2 1

/-- The event count byte (R163, R179). -/
theorem State.eventCountByte_eq {s : State} (h : s.main.queue.length ≤ 16) :
    s.eventCountByte = (if s.main.overrun then 0x80#8 else 0x00#8) + BitVec.ofNat 8 s.main.queue.length := by
  unfold State.eventCountByte
  generalize s.main.queue.length = n at h
  cases s.main.overrun <;> interval_cases n <;> rfl

section Positions
variable (s : State)

theorem State.positionByte_descriptor {i : Nat} (w : Win) (hi : i < 16) :
    s.positionByte (16 * w.val + i) = (s.desc w).byte i := by
  obtain ⟨hpos, hwin, hoff⟩ := descriptorPos (w := w) hi rfl
  have hlt : 16 * w.val + i < 0x80 := by simpa [isDescriptorPos] using hpos
  rw [State.positionByte, if_pos hlt, hwin, hoff]

theorem State.positionByte_fillWord {i : Nat} (hi : i < 4) :
    s.positionByte (0x86 + i) = byteOf s.ret.fillWord.toNat 4 i := by
  interval_cases i <;> rfl

theorem State.positionByte_kindMask {i : Nat} (hi : i < 2) :
    s.positionByte (0x8A + i) = byteOf s.ret.kindMask.toNat 2 i := by
  interval_cases i <;> rfl

/-- The positions above the configuration (R161). -/
theorem State.positionByte_above {i : Nat} (hi : 0x8F ≤ i) :
    s.positionByte i
      = if 0x90 ≤ i && i < 0x98 then 0#5 ++ stateCode (s.txnState (descriptorWin (16 * (i - 0x90))))
        else if i = 0xA0 then s.main.reqCode
        else if i = 0xA1 then s.main.arg
        else if i = 0xA2 then s.main.response
        else if 0xB0 ≤ i && i < 0xB8 then eventByte s.main.queue.head? (i - 0xB0)
        else if 0xC0 ≤ i && i < 0xD0 then s.main.txnView.byte (i - 0xC0)
        else if 0xD0 ≤ i && i < 0xE0 then s.main.recView.byte (i - 0xD0)
        else 0 := by
  unfold State.positionByte
  rw [if_neg (by omega), if_neg (by omega), if_neg (by omega), if_neg (by omega), if_neg (by omega), if_neg (by omega),
    if_neg (by omega), if_neg (by omega), if_neg (by omega)]

theorem State.positionByte_summary (w : Win) : s.positionByte (0x90 + w.val) = 0#5 ++ stateCode (s.txnState w) := by
  have hw := w.isLt
  have hwin : descriptorWin (16 * (0x90 + w.val - 0x90)) = w :=
    (descriptorPos (o := 0) (by decide) (by omega)).2.1
  rw [s.positionByte_above (by omega), if_pos (by simp; omega), hwin]

theorem State.positionByte_txnView {i : Nat} (hi : i < 16) :
    s.positionByte (0xC0 + i) = s.main.txnView.byte i := by
  interval_cases i <;> rfl

theorem State.positionByte_recView {i : Nat} (hi : i < 16) :
    s.positionByte (0xD0 + i) = s.main.recView.byte i := by
  interval_cases i <;> rfl

/-- A position with no contents reads 00h (R161). -/
theorem State.positionByte_empty {i : Nat}
    (hi : i = 0x8F ∨ 0x98 ≤ i ∧ i < 0xA0 ∨ 0xA3 ≤ i ∧ i < 0xB0 ∨ 0xB8 ≤ i ∧ i < 0xC0 ∨ 0xE0 ≤ i) :
    s.positionByte i = 0#8 := by
  rw [s.positionByte_above (by omega), if_neg (by simp; omega), if_neg (by omega), if_neg (by omega), if_neg (by omega),
    if_neg (by simp; omega), if_neg (by simp; omega), if_neg (by simp; omega)]
  rfl

end Positions

/-! ## The transaction view and the record view (R181, R182) -/

/-- The presence byte, flag by flag (R181). -/
theorem Entry.presence_eq (e : Entry) :
    e.presence
      = (if e.savepoint.isSome then 0x01#8 else 0#8) + (if e.cause.isSome then 0x02#8 else 0#8)
        + (if e.breakReason.isSome then 0x04#8 else 0#8) + (if e.damagePos.isSome then 0x08#8 else 0#8)
        + (if e.lastEnded.isSome then 0x10#8 else 0#8)
        + (match e.lastEnded with | some l => (if l.kind = .forced then 0x20#8 else 0#8) | none => 0#8)
        + (if e.dropReported then 0x40#8 else 0#8) := by
  have hflags : ∀ a b c d f g h : Bool,
      0#1 ++ BitVec.ofBool a ++ BitVec.ofBool b ++ BitVec.ofBool c ++ BitVec.ofBool d ++ BitVec.ofBool f
          ++ BitVec.ofBool g ++ BitVec.ofBool h
        = (if h then 0x01#8 else 0#8) + (if g then 0x02#8 else 0#8) + (if f then 0x04#8 else 0#8)
          + (if d then 0x08#8 else 0#8) + (if c then 0x10#8 else 0#8) + (if b then 0x20#8 else 0#8)
          + (if a then 0x40#8 else 0#8) := by
    decide
  unfold Entry.presence
  rw [hflags]
  cases e.lastEnded with
  | none => rfl
  | some l => simp

section TxnView
variable {v : TxnView} {e : Entry}

/-- A byte of the view past its window comes from the entry (R181). -/
theorem TxnView.byte_entry (hv : v.entry = some e) {i : Nat} (hi : i ≠ 0) :
    v.byte i
      = if i = 1 then 0#1 ++ v.counter.code ++ 0#1 ++ stateCode (some e.state)
        else if i = 2 then e.seq
        else if i = 3 then e.presence
        else if i < 6 then byteOf e.count 2 (i - 4)
        else if i < 8 then byteOf (e.savepoint.getD 0) 2 (i - 6)
        else if i = 8 then causeCode e.cause ++ breakCode e.breakReason
        else if i < 11 then byteOf (e.restored.getD 0) 2 (i - 9)
        else if i < 13 then byteOf (e.damagePos.getD 0) 2 (i - 11)
        else if i = 13 then (match e.lastEnded with | some l => l.seq | none => 0)
        else byteOf v.counter.remaining 2 (i - 14) := by
  unfold TxnView.byte
  rw [if_neg hi, hv] <;> rfl

/-- The byte of the counter's and the entry's state (R181). -/
theorem stateByte_eq (c : Counter) (x : TxnState) :
    0#1 ++ c.code ++ 0#1 ++ stateCode (some x)
      = (match c with
          | .absent => 0x00#8 | .running _ _ => 0x10#8 | .frozen _ _ => 0x20#8 | .spent _ => 0x30#8)
        + (match x with
          | .idle => 1#8 | .opened => 2#8 | .broken => 3#8 | .rollingBack => 4#8 | .damaged => 5#8) := by
  cases c <;> cases x <;> simp [Counter.code, stateCode]

/-- The byte of the cause and the break reason (R181). -/
theorem causeByte_eq (c : Option RollbackCause) (r : Option BreakReason) :
    (causeCode c ++ breakCode r : Byte)
      = (match c with
          | none => 0x00#8 | some .abort => 0x10#8 | some .expiry => 0x20#8 | some .returned => 0x30#8
          | some .forced => 0x40#8 | some .recovery => 0x50#8)
        + (match r with | none => 0#8 | some .journalFull => 9#8 | some .quota => 10#8) := by
  cases c with
  | none => cases r with
    | none => rfl
    | some r => cases r <;> rfl
  | some c =>
    cases r with
    | none => cases c <;> rfl
    | some r => cases c <;> cases r <;> rfl

end TxnView

/-- A slot's condition code: EMPTY, LIVE or VOIDED (R182). -/
theorem Slot.condCode_eq (x : Slot) :
    x.condCode = if x.valid = false then 0#2 else if x.voided = false then 1#2 else 2#2 := by
  unfold Slot.condCode
  cases x.valid <;> cases x.voided <;> rfl

/-- The four bytes of the old data (R182). -/
theorem RecordView.byte_old (v : RecordView) {i : Nat} (hi : i < 4) :
    v.byte (9 + i) = v.slot.old.extractLsb' (8 * (3 - i)) 8 := by
  interval_cases i
  · exact byteOf_toNat v.slot.old 4 0
  · exact byteOf_toNat v.slot.old 4 1
  · exact byteOf_toNat v.slot.old 4 2
  · exact byteOf_toNat v.slot.old 4 3

/-- A number field that is absent or at most `m` is at most `m`. -/
theorem getD_le {o : Option Nat} {m : Nat} (h : ∀ n, o = some n → n ≤ m) : o.getD 0 ≤ m := by
  cases o with
  | none => exact Nat.zero_le m
  | some n => exact h n rfl

/-- Settles O37. -/
theorem positionsReadAsLaidOut : Obligations.PositionsReadAsLaidOut := by
  intro s
  refine ⟨fun w i hi => (s.positionByte_descriptor w hi).trans (Descriptor.byte_eq _ hi),
    fun hh => byteOf_pair (by omega), rfl, fun i hi => ?_, fun i hi => ?_, fun hq => State.eventCountByte_eq hq, fun w => ?_,
    rfl, rfl, rfl, rfl, fun hv i h1 hi => ?_, fun e hv hcount hsave hrest hdam hcnt => ?_, ?_, fun i hi => s.positionByte_empty hi⟩
  · rw [s.positionByte_fillWord hi, byteOf_toNat, show 8 * (4 - 1 - i) = 8 * (3 - i) by omega]
  · rw [s.positionByte_kindMask hi, byteOf_toNat, show 8 * (2 - 1 - i) = 8 * (1 - i) by omega]
  · rw [s.positionByte_summary w]
    cases s.txnState w with
    | none => rfl
    | some x => cases x <;> rfl
  · rw [s.positionByte_txnView hi]
    unfold TxnView.byte
    rw [if_neg (by omega), hv]
    rfl
  · have hbyte {i : Nat} (h0 : i ≠ 0) (hi : i < 16) := (s.positionByte_txnView hi).trans (TxnView.byte_entry hv h0)
    have hs := getD_le hsave
    have hr := getD_le hrest
    have hd := getD_le fun n h => (hdam n h).le
    refine ⟨(hbyte (i := 1) (by decide) (by decide)).trans (stateByte_eq _ _), hbyte (i := 2) (by decide) (by decide),
      (hbyte (i := 3) (by decide) (by decide)).trans e.presence_eq, ?_, ?_,
      (hbyte (i := 8) (by decide) (by decide)).trans (causeByte_eq _ _), ?_, ?_,
      hbyte (i := 13) (by decide) (by decide), ?_⟩
    · rw [hbyte (i := 4) (by decide) (by decide), hbyte (i := 5) (by decide) (by decide)]
      exact byteOf_pair (by omega)
    · rw [hbyte (i := 6) (by decide) (by decide), hbyte (i := 7) (by decide) (by decide)]
      exact byteOf_pair (by omega)
    · rw [hbyte (i := 9) (by decide) (by decide), hbyte (i := 10) (by decide) (by decide)]
      exact byteOf_pair (by omega)
    · rw [hbyte (i := 11) (by decide) (by decide), hbyte (i := 12) (by decide) (by decide)]
      exact byteOf_pair (by omega)
    · rw [hbyte (i := 14) (by decide) (by decide), hbyte (i := 15) (by decide) (by decide)]
      refine (byteOf_pair (by omega)).trans ?_
      cases s.main.txnView.counter <;> rfl
  · have hbyte {i : Nat} (hi : i < 16) := s.positionByte_recView hi
    refine ⟨fun hp => byteOf_pair (x := s.main.recView.pos) (by omega), ?_, rfl,
      fun ho => byteOf_pair (x := s.main.recView.slot.ordinal) (by omega), byteOf_addr_high s.main.recView.slot.addr,
      byteOf_toNat s.main.recView.slot.addr 3 1, byteOf_toNat s.main.recView.slot.addr 3 2, fun i hi => ?_, rfl, rfl, rfl⟩
    · refine (hbyte (i := 2) (by decide)).trans ?_
      show s.main.recView.slot.lanes ++ 0#2 ++ s.main.recView.slot.condCode = _
      rw [Slot.condCode_eq]
    · rw [show 0xD9 + i = 0xD0 + (9 + i) by omega, hbyte (by omega), RecordView.byte_old _ hi]

end Sys2Proof.Machine
end

section
/-! PROOFS. The power sequence: entry to FAILING (O47), RETAINING (O50), and the exit with an invalid signature (O51). -/

namespace Sys2Proof.Machine

/-! ## RETAINING (R145 to R148) -/

/-- A part that waits in FAILING or RETAINING with VDD good has the cause's line asserted alone. -/
theorem State.linesGood_assertCause (s : State) (cause : FailCause) :
    s.linesGood.assertCause cause
      = { s with
          vdd := if cause = .vdd then .belowGood else .good
          pfail := decide (cause = .pfailn), rst := decide (cause = .rstn) } := by
  cases cause <;> rfl

/-- The exit that a power state has is taken there. -/
theorem exec_exitCommand {s : State} (h : s.power = .failing ∨ s.power = .retaining) (madr : BitVec 2) (cut : ExitCut) :
    exec (exitCommand s.power madr cut) s = .next (s.exitWith madr cut) := by
  rcases h with h | h
  · simp [exitCommand, h, exec, execFailingExit]
  · simp [exitCommand, h, exec, execRetainingExit]

/-- Settles O50. -/
theorem retainingKeepsTheRetentionWell : Obligations.RetainingKeepsTheRetentionWell := by
  intro s
  refine ⟨fun hp => ?_, fun hp => ?_, fun hp => ⟨?_, ?_⟩, fun hp madr cause => ?_⟩
  · have hexec : exec .retainingEntry s
        = .next { s with
            power := .retaining, vdd := .belowSwitchover, main := MainWell.cold s.main.target
            osc := Oscillator.start } := by
      simp [exec, execRetainingEntry, hp]
    exact ⟨_, hexec, rfl, rfl, rfl, rfl, rfl, rfl, rfl, rfl, rfl⟩
  · simp [exec, execVretFall, hp]
  · have hexec : exec .vretFall s
        = .next (State.useFree { s with signature := false, ret := Config.lostRetained s.freeCount } 1) := by
      simp [exec, execVretFall, hp]
    exact ⟨_, hexec, hp, rfl, rfl, rfl⟩
  · by_cases hv : s.vdd = .belowSwitchover <;> simp [exec, execRetainingEntry, hp, State.clockRuns, hv]
  · rw [exec_exitCommand hp, ← s.linesGood_assertCause cause]
    rfl

/-! ## A cold initialisation (R149) -/

/-- The state of a cold initialisation that has run to its end, before an access still presented is taken. -/
def State.coldStarted (s : State) (madr : BitVec 2) : State :=
  { s with
    power := .active, signature := true, vdd := .good, pfail := false, rst := false, ret := Retained.cold
    main := { MainWell.cold madr with
              queue := [{ kind := .coldStart, window := none, detail := 0, stamp := 0 }] } }

theorem State.coldInit_eq (s : State) (madr : BitVec 2) : s.coldInit madr = (s.coldStarted madr).takePresented := by
  have hkind : State.kindEnabled
      { s.linesGood with signature := true, ret := Retained.cold, main := MainWell.cold madr, power := .active }
      .coldStart = true := reset_kindEnabled .coldStart
  exact congrArg State.takePresented (State.post_room none 0 rfl hkind (Nat.zero_lt_succ 15))

/-- With no window enabled, nothing guards an access (R72). -/
theorem State.classify_unguarded {s : State} (h : ∀ w, s.enabled w = false) (a : Addr) (wr : Bool) :
    s.classify a wr = .passes none := by
  have hanswer : s.answer a = .unguarded := by
    simp [State.answer, State.owner, h, (firstWin_eq_none (fun _ => false)).mpr fun _ => rfl]
  simp [State.classify, hanswer]

/-- An access taken as nothing guards it moves the access path alone. -/
theorem State.route_unguarded {s : State} (h : ∀ w, s.enabled w = false) (a : Access) :
    (s.route a).power = s.power ∧ (s.route a).signature = s.signature ∧ (s.route a).ret = s.ret
      ∧ (s.route a).main.access.isSome = true ∧ (s.route a).main.queue = s.main.queue := by
  unfold State.route
  rw [State.classify_unguarded h]
  split
  · unfold State.complete
    split <;> simp
  · exact ⟨rfl, rfl, rfl, rfl, rfl⟩

/-- Settles O51. -/
theorem invalidSignatureStartsCold : Obligations.InvalidSignatureStartsCold := by
  intro s madr hp hsig
  have hwhole : exec (exitCommand s.power madr .whole) s = .next (s.coldInit madr) := by
    rw [exec_exitCommand hp]
    simp [State.exitWith, State.leaveWith, hsig]
  refine ⟨fun hport => ?_, fun hport => ?_, fun n => ?_, fun cause step => ?_⟩
  · rw [hwhole, s.coldInit_eq madr]
    have hidle : (s.coldStarted madr).port.presents = false := hport
    exact congrArg Host.Outcome.next (by simp [State.takePresented, hidle]; rfl)
  · have htaken : (s.coldStarted madr).takePresented
        = State.route { s.coldStarted madr with main.prdy := .inactive, main.pd := none } s.port.capture :=
      State.takePresented_taken rfl rfl hport
    obtain ⟨hpower, hsign, hret, haccess, hqueue⟩ :=
      State.route_unguarded (s := { s.coldStarted madr with main.prdy := .inactive, main.pd := none })
        (fun w => congrArg Option.isSome (winGet_replicate none w)) s.port.capture
    rw [← htaken] at hpower hsign hret haccess hqueue
    exact ⟨_, hwhole.trans (congrArg _ (s.coldInit_eq madr)), hpower, hsign, hret, haccess, hqueue⟩
  · rw [hwhole, exec_exitCommand hp]
    simp [State.exitWith, State.leaveWith, hsig]
  · rw [exec_exitCommand hp]
    have hcut : s.exitWith madr (.coldCut cause step) = s.cutColdInit madr cause step := by
      simp [State.exitWith, State.leaveWith, hsig]
    rw [hcut]
    unfold State.cutColdInit
    rw [s.linesGood_assertCause cause]
    cases step <;> rfl

/-! ## The entry to FAILING (R89, R142 to R144) -/

/-- The cycle that a failure completes moves the SRAM alone (R89). -/
theorem State.landCycle_spec (s : State) (cause : FailCause) :
    ∃ m f, s.landCycle cause = { s with sram := m, freeCount := f }
      ∧ (s.main.cycle = none → m = s.sram)
      ∧ ∀ c, s.main.cycle = some c →
          (c.wr = false → m = s.sram)
          ∧ (c.wr = true → cause ≠ .vdd → m = Memory.write s.sram c.addr c.lanes c.data)
          ∧ (c.wr = true → cause = .vdd → ∃ x, m = Memory.write s.sram c.addr allLanes x) := by
  unfold State.landCycle
  cases hc : s.main.cycle with
  | none => exact ⟨s.sram, s.freeCount, rfl, fun _ => rfl, nofun⟩
  | some c =>
    cases hw : c.wr with
    | false =>
      refine ⟨s.sram, s.freeCount, by simp [hw], nofun, fun d hd => ?_⟩
      obtain rfl := Option.some.inj hd
      simp [hw]
    | true =>
      have hland : s.land c = { s with sram := Memory.write s.sram c.addr c.lanes c.data } := by
        simp [State.land, hw, State.setSram]
      cases cause with
      | vdd =>
        refine ⟨Memory.write s.sram c.addr allLanes (Config.cutShortWord s.freeCount), s.freeCount + 1, by simp [hw]; rfl,
          nofun, fun d hd => ?_⟩
        obtain rfl := Option.some.inj hd
        simp [hw]
      | pfailn =>
        refine ⟨_, s.freeCount, by simp only [hw, if_true]; exact hland, nofun, fun d hd => ?_⟩
        obtain rfl := Option.some.inj hd
        simp [hw]
      | rstn =>
        refine ⟨_, s.freeCount, by simp only [hw, if_true]; exact hland, nofun, fun d hd => ?_⟩
        obtain rfl := Option.some.inj hd
        simp [hw]

/-- The part as it stands when its last requests are over and the blocks take their notice of FAILING (R142, R144). -/
def State.abandoned (s : State) : State := State.takeWaiting { s with power := .failing, main.access := none }

/-- A request taken as FAILING is entered leaves the port, the memory port, the SRAM and the oscillator. -/
theorem State.abandoned_keeps (s : State) :
    s.abandoned.sram = s.sram ∧ s.abandoned.main.cycle = s.main.cycle ∧ s.abandoned.port = s.port
      ∧ s.abandoned.osc = s.osc := by
  unfold State.abandoned
  rcases State.takeWaiting_spec { s with power := .failing, main.access := none } with e | ⟨-, -, h⟩
  · rw [e]
    exact ⟨rfl, rfl, rfl, rfl⟩
  · obtain ⟨_, _, _, _, _, _, _, _, _, _, _, _, _, _, _, e⟩ := h.shape
    rw [e]
    exact ⟨rfl, rfl, rfl, rfl⟩

/-- An entry to FAILING between steps: the cycle lands, the cause is noted and the main well takes its notice. -/
theorem State.enterFailing_between (s : State) (cause : FailCause) :
    ∃ m f v p q,
      s.enterFailing cause .between
        = { s.abandoned with
            power := .failing, sram := m, freeCount := f, vdd := v, pfail := p, rst := q
            main := s.abandoned.main.failing }
      ∧ s.abandoned.landCycle cause = { s.abandoned with sram := m, freeCount := f } := by
  obtain ⟨m, f, hland, -⟩ := s.abandoned.landCycle_spec cause
  have hassert (t : State) : ∃ v p q, t.assertCause cause = { t with vdd := v, pfail := p, rst := q } := by
    cases cause with
    | pfailn => exact ⟨t.vdd, true, t.rst, rfl⟩
    | rstn => exact ⟨t.vdd, t.pfail, true, rfl⟩
    | vdd => exact ⟨_, t.pfail, t.rst, rfl⟩
  obtain ⟨v, p, q, hcause⟩ := hassert (s.abandoned.landCycle cause)
  refine ⟨m, f, v, p, q, ?_, hland⟩
  have henter : s.enterFailing cause .between
      = { (s.abandoned.landCycle cause).assertCause cause with
          power := .failing, main := (s.abandoned.landCycle cause).main.failing } := rfl
  rw [henter, hcause, hland]

/-- Settles O47. -/
theorem failingEntryStopsEveryBlock : Obligations.FailingEntryStopsEveryBlock := by
  intro s cause hr hm
  refine ⟨fun hw => ?_, ?_⟩
  · rw [State.takeWaiting_idle (s := { s with power := .failing, main.access := none }) hw]
    exact ⟨rfl, rfl, ⟨rfl, rfl⟩, rfl, rfl⟩
  obtain ⟨hsram, hcycle, hport, hosc⟩ := s.abandoned_keeps
  obtain ⟨m, f, v, p, q, henter, hland⟩ := s.enterFailing_between cause
  obtain ⟨m', f', hland', hnone, hsome⟩ := s.abandoned.landCycle_spec cause
  obtain rfl : m = m' := congrArg State.sram (hland.symm.trans hland')
  rw [hcycle, hsram] at hnone hsome
  refine ⟨_, (exec_failingEntry hr cause .between).trans (congrArg _ henter), ?_⟩
  change _ ∧ _ = s.abandoned.ret ∧ _ = s.abandoned.signature ∧ SameEvents s.abandoned _ ∧ SameClock s.abandoned _ ∧ _
  generalize s.abandoned = u at *
  refine ⟨rfl, rfl, rfl, ⟨rfl, rfl⟩, ⟨rfl, rfl⟩, rfl, rfl, rfl, rfl, rfl, rfl, rfl,
    fun w => ⟨winGet_replicate _ w, winGet_replicate _ w⟩, rfl, rfl, rfl, rfl, rfl, rfl, rfl, rfl, rfl, rfl, hport, hosc,
    hnone, fun c hc => ⟨(hsome c hc).1, fun hw hne => ?_, fun hw he => ?_⟩⟩
  · exact Landed.of_write hm ((hsome c hc).2.1 hw hne)
  · obtain ⟨x, hx⟩ := (hsome c hc).2.2 hw he
    exact (Landed.of_write hm hx).2

end Sys2Proof.Machine
end

section
/-! PROOFS. A failure inside a step: inside an append (O48), and inside the other steps (O49). -/

namespace Sys2Proof.Machine

/-! ## The single void of a restored record (R38, R106) -/

/-- The single void of a LIVE record, with the count and restored (R38). -/
theorem State.singleVoid_eq {t : State} {k : Walk} {e : Entry} (hl : (t.ret.journal.slot k.cursor).live = true)
    (he : t.entry k.window = some e) :
    t.singleVoid k
      = (t.setJournal (t.ret.journal.voidOne k.cursor)).setEntry k.window
          (some { e with count := e.count - 1, restored := e.restored.map (· + 1) }) := by
  unfold State.singleVoid
  rw [if_pos hl]
  simp only [State.setJournal_entry, he]

/-- The state in which the old data at the walk's cursor has landed and its record is single-voided. -/
def State.restored (s : State) (k : Walk) (e : Entry) : State :=
  ((s.freed (Memory.write s.sram (s.ret.journal.slot k.cursor).addr allLanes (s.ret.journal.slot k.cursor).old)
      s.freeCount).setJournal (s.ret.journal.voidOne k.cursor)).setEntry k.window
    (some { e with count := e.count - 1, restored := e.restored.map (· + 1) })

/-- The restore write of the record at the walk's cursor is being driven, whatever access stands beside it (R106). -/
structure State.RestoreDriven (s : State) (k : Walk) (e : Entry) : Prop where
  runs : s.mainRuns = true
  walk : s.main.walk = some k
  claim : k.claim = .granted
  owner : s.main.owner = .rollbackEngine
  cycle : s.main.cycle
    = some { addr := (s.ret.journal.slot k.cursor).addr, lanes := allLanes, wr := true,
             data := (s.ret.journal.slot k.cursor).old }
  journal : s.ret.journal.Lawful
  record : (s.ret.journal.slot k.cursor).liveOf k.window = true
  examined : k.lastPos = some k.cursor ∧ (k.lastAtTail = true → k.cursor = s.ret.journal.tail)
  entry : s.entry k.window = some e
  memory : Memory.wf s.sram = true

theorem State.Restoring.driven {s : State} {k : Walk} {e : Entry} (h : s.Restoring k e) : s.RestoreDriven k e :=
  ⟨h.runs, h.walk, h.claim, h.owner, h.cycle, h.journal, h.record, h.examined, h.entry, h.memory⟩

section RestoreDriven
variable {s : State} {k : Walk} {e : Entry} (h : s.RestoreDriven k e)
include h

theorem State.RestoreDriven.live : (s.ret.journal.slot k.cursor).live = true
    ∧ (s.ret.journal.slot k.cursor).window = k.window := by
  simpa [Slot.liveOf] using h.record

/-- The restore write in flight is the one the engine completes. -/
theorem State.RestoreDriven.restoreInFlight : ∃ c, s.restoreInFlight = some (k, c)
    ∧ ((s.land c).endGrant).singleVoid k = s.restored k e := by
  refine ⟨_, by simp only [State.restoreInFlight, h.walk, h.cycle, h.owner, h.claim]; rfl, ?_⟩
  rw [s.land_endGrant, if_pos rfl]
  exact State.singleVoid_eq (t := s.freed _ _) h.live.1 h.entry

theorem State.RestoreDriven.singleVoided : SingleVoided s (s.restored k e) k e := by
  obtain ⟨hlive, hwindow⟩ := h.live
  obtain ⟨hlawful, hcount, hkept, hvoid, -, -⟩ := Journal.voidOne_spec h.journal hlive
  rw [hwindow] at hcount
  exact
    { landed := Memory.readWord_write_all h.memory _ _
      elsewhere := (Landed.of_write (t := s.restored k e) h.memory rfl).2
      freed := ⟨rfl, rfl, rfl, rfl, rfl, rfl⟩
      entry := State.setEntry_entry_self _ _ _
      others := fun v hv => ⟨by simp [State.restored, State.setEntry_entry, hv]; rfl, rfl, rfl, rfl⟩
      counter := ⟨rfl, rfl⟩
      voided := hvoid
      kept := hkept
      fewer := hcount
      ring := hlawful
      events := ⟨rfl, rfl⟩
      engine := ⟨rfl, rfl⟩
      power := ⟨rfl, rfl, rfl, rfl, rfl, rfl, rfl⟩
      access := ⟨rfl, rfl, rfl, rfl, rfl⟩
      config := ⟨rfl, rfl, rfl, rfl, rfl⟩
      management := ⟨rfl, rfl, rfl, rfl, rfl, rfl, rfl, rfl, rfl, rfl, rfl, rfl, rfl, rfl, rfl⟩
      clock := ⟨rfl, rfl⟩ }

end RestoreDriven

/-! ## Inside an append (R33, R35, R49) -/

/-- The journaled write whose old word is being read is the append in flight. -/
theorem State.AtMemory.appendInFlight {s : State} {a : Access} {w : Win} (h : s.AtMemory a .journaled)
    (hc : s.main.cycle = some a.oldReadCycle) (hw : a.window = some w) : s.appendInFlight = some (a, w) := by
  simp [State.appendInFlight, h.atMemory hc, hw, Access.oldReadCycle]

/-- Settles O48. -/
theorem failureInsideAnAppend : Obligations.FailureInsideAnAppend := by
  intro s a w e cause h hc hw he hj ho
  have hflight := h.appendInFlight hc hw
  refine ⟨?_, fun posted => ?_⟩
  · have hcut : s.applyCut .appendBody = s.setJournal (s.ret.journal.appendBody (s.newRecord a w e)) := by
      simp only [State.applyCut, hflight]
      exact State.appendBody_eq he
    have hslot := Journal.appendBody_slot hj (s.newRecord a w e)
    refine ⟨_, (exec_failingEntry_cut h.runs cause .appendBody (by rw [hcut]; exact h.runs)).trans
      (congrArg (exec _) hcut), rfl, rfl, he, ?_, ?_, fun p hp => ?_, rfl, rfl, rfl⟩
    · exact (congrArg Slot.valid (hslot _)).trans (by rw [if_pos rfl]; rfl)
    · exact (congrArg Slot.addr (hslot _)).trans (by rw [if_pos rfl]; rfl)
    · exact (hslot p).trans (if_neg hp)
  · have hcut : s.applyCut (.appendMark posted)
        = if posted then (s.appended a w).highWaterTest w else s.appended a w := by
      simp only [State.applyCut, hflight]
      rfl
    obtain ⟨hposts, hjournal, hentry, -, -, -, -, hhigh⟩ := State.appended_spec (a := a) he
    obtain ⟨hrecord, -, hhead, htail, hocc⟩ := State.appendedJournal_spec (a := a) (w := w) (e := e) hj ho
    have htaken : TakenFor s (s.applyCut (.appendMark posted)) w := by
      rw [hcut]
      split
      · exact (TakenFor.appended he).trans (TakenFor.highWaterTest _)
      · exact TakenFor.appended he
    have hret : (s.applyCut (.appendMark posted)).ret = (s.appended a w).ret := by
      rw [hcut]
      split
      · exact ((s.appended a w).highWaterTest_rest w).1
      · rfl
    obtain ⟨hsram, -, -, ⟨-, hcycle, -⟩, -, -, -, ⟨hpower, -⟩, -⟩ := htaken.rest
    have hruns : (s.applyCut (.appendMark posted)).mainRuns = true := by
      unfold State.mainRuns
      rw [hpower]
      exact h.runs
    refine ⟨_, exec_failingEntry_cut h.runs cause (.appendMark posted) hruns, hsram, hcycle, ?_, ?_, ?_, ?_, ?_, ?_, ?_⟩
    · exact (congrArg (fun r : Retained => winGet r.entries w) hret).trans hentry
    · rw [hret, hjournal, hrecord]
      simp [Slot.liveOf, Slot.live, State.newRecord, recordBody]
    · rw [hret, hjournal, hrecord]
      rfl
    · rw [hret, hjournal, hhead]
    · rw [hret, hjournal, htail]
    · rw [hret, hjournal, hocc]
    · have hocc' : (s.appended a w).ret.journal.occ = s.ret.journal.occ + 1 := by rw [hjournal, hocc]
      have hevents := (s.appended a w).highWaterTest_events w
      rw [hhigh, hocc'] at hevents
      cases posted with
      | true =>
        rw [hcut]
        simpa using hevents.congr hposts
      | false =>
        rw [hcut]
        simpa using EventsAre.congr hposts (EventsAre.nil (s.appended a w))

/-! ## The main well runs on (R139) -/

theorem State.mainRuns_congr {s t : State} (h : t.power = s.power) : t.mainRuns = s.mainRuns := by
  unfold State.mainRuns
  rw [h]

theorem TakenFor.mainRuns {s u : State} {w : Win} (h : TakenFor s u w) : u.mainRuns = s.mainRuns := by
  obtain ⟨_, _, _, _, _, _, _, rfl⟩ := h.shape
  rfl

/-- An accepted CLEAR_ALL leaves RECOVERING for ACTIVE, and the power state else as it was (R167). -/
theorem State.clearEverything_mainRuns (s : State) : s.clearEverything.mainRuns = s.mainRuns := by
  unfold State.clearEverything
  simp only [State.respond_mainRuns, State.post_mainRuns]
  unfold State.mainRuns
  cases h : s.power <;> simp

theorem State.takeTest_mainRuns (s : State) (w : Win) (r : Response) (e : Option Entry) :
    (s.takeTest w r e).mainRuns = s.mainRuns := by
  unfold State.takeTest
  split <;> rfl

theorem State.takeForceAbort_mainRuns (s : State) (w : Win) : (s.takeForceAbort w).mainRuns = s.mainRuns := by
  rcases s.takeForceAbort_cases w with ⟨r, h, -⟩ | ⟨e, -, -, h⟩ <;> rw [h]
  · rfl
  · exact (TakenFor.forceEnded s w e).mainRuns

theorem State.takeRelease_mainRuns (s : State) (w : Win) : (s.takeRelease w).mainRuns = s.mainRuns := by
  rcases s.takeRelease_cases w with ⟨-, h⟩ | ⟨e, -, -, h⟩ <;> rw [h] <;> rfl

/-- No request stops the main well. -/
theorem State.takeRequest_mainRuns (s : State) (b : Byte) : (s.takeRequest b).mainRuns = s.mainRuns := by
  have honArg {take : Win → State} (h : ∀ w, (take w).mainRuns = s.mainRuns) :
      (s.onArgWin take).mainRuns = s.mainRuns := by
    rcases s.onArgWin_cases take with ⟨-, e⟩ | ⟨w, -, e⟩ <;> rw [e]
    · rfl
    · exact h w
  unfold State.takeRequest
  split_ifs
  · exact honArg fun w => (congrArg State.mainRuns (s.takeEnable_eq w)).trans (State.takeTest_mainRuns _ _ _ _)
  · exact honArg fun w => (congrArg State.mainRuns (s.takeDisable_eq w)).trans (State.takeTest_mainRuns _ _ _ _)
  · exact honArg s.takeForceAbort_mainRuns
  · exact honArg s.takeRelease_mainRuns
  · unfold State.takeClearAll
    split
    · exact s.clearEverything_mainRuns
    · rfl
  · unfold State.takePop
    split <;> rfl
  · rfl
  · exact honArg fun w => rfl
  · unfold State.takeLoadRecord
    split <;> rfl
  · rfl

theorem State.takeWaiting_mainRuns (s : State) : s.takeWaiting.mainRuns = s.mainRuns := by
  unfold State.takeWaiting
  split
  · exact State.takeRequest_mainRuns _ _
  · rfl

theorem State.endRecovering_mainRuns (s : State) : s.endRecovering.mainRuns = s.mainRuns := by
  rcases s.endRecovering_spec with h | ⟨_, _, hp, h, _⟩ <;> rw [h]
  simp [State.mainRuns, hp]

theorem execSelection_mainRuns {s t : State} (h : execSelection s = .next t) : t.mainRuns = s.mainRuns := by
  obtain rfl := Host.Outcome.next.inj h
  split
  · split
    · rfl
    · rw [State.endRecovering_mainRuns]
      exact ((Moves.createWalk s _).trans (Moves.examine _ _)).mainRuns
  · rfl

theorem execRestoreWriteComplete_mainRuns {s t : State} (h : execRestoreWriteComplete s = .next t) :
    t.mainRuns = s.mainRuns := by
  obtain rfl := Host.Outcome.next.inj h
  split
  next k c _ =>
    have hland : ((s.land c).endGrant).mainRuns = s.mainRuns := by
      rw [s.land_endGrant]
      rfl
    rw [State.endRecovering_mainRuns]
    exact ((Moves.singleVoid _ _).trans ((Moves.setWalk _ _).trans (Moves.examine _ _))).mainRuns.trans hland
  · rfl

/-- The commands of a taking leave the main well running. -/
theorem exec_mainRuns {c : Instr} {s t : State} (h : exec c s = .next t)
    (hc : c.movesPower = false ∨ c.endsWalk = true) : t.mainRuns = s.mainRuns := by
  rcases hc with hc | hc
  · rcases htw : c.takesWaiting with _ | _
    · obtain ⟨u, e, hu⟩ := exec_framed c s htw
      obtain rfl := Host.Outcome.next.inj (h.symm.trans e)
      exact State.mainRuns_congr (hu.power hc).1
    · rcases exec_takesWaiting c s htw with e | ⟨u, e, hu⟩
      · obtain rfl := Host.Outcome.next.inj (h.symm.trans e)
        rfl
      · obtain rfl := Host.Outcome.next.inj (h.symm.trans e)
        exact u.takeWaiting_mainRuns.trans (State.mainRuns_congr (hu.power hc).1)
  · cases c with
    | selection => exact execSelection_mainRuns h
    | restoreWriteComplete => exact execRestoreWriteComplete_mainRuns h
    | _ => nomatch hc

/-! ## Inside the other steps (R113, R143, R150) -/

theorem Examination.command_movesPower (x : Examination) : x.command.movesPower = false := by
  cases x with
  | ordinary => rfl
  | malformed => rfl
  | marker k q => cases k <;> rfl

/-- The taking under way is the command that makes it, with no access presented unless it is one that begins. -/
theorem State.runTaking_spec {s : State} {k : Taking} {c : Instr} (h : k.IsMadeBy s c) :
    ∃ v, exec c (if k.begins then s else { s with port.pcen := false }) = .next v
      ∧ s.runTaking k = { v with port := if k.begins then v.port else s.port }
      ∧ (c.movesPower = false ∨ c.endsWalk = true) := by
  cases k with
  | accessBegin addr lanes pwen poen data => obtain rfl := h; exact ⟨_, rfl, rfl, Or.inl rfl⟩
  | journaledWriteGrant => obtain rfl := h; exact ⟨_, rfl, rfl, Or.inl rfl⟩
  | microsecondEvent => obtain rfl := h; exact ⟨_, rfl, rfl, Or.inl rfl⟩
  | expiryRequest w => obtain rfl := h; exact ⟨_, rfl, rfl, Or.inl rfl⟩
  | selection => obtain rfl := h; exact ⟨_, rfl, rfl, Or.inr rfl⟩
  | restoreWriteComplete => obtain rfl := h; exact ⟨_, rfl, rfl, Or.inr rfl⟩
  | forceAbort ext => obtain rfl := h; exact ⟨_, rfl, rfl, Or.inl rfl⟩
  | controlWordWrite =>
    obtain ⟨a, w, hc, rfl⟩ := h
    have hq : State.ControlWrite { s with port.pcen := false } a w :=
      ⟨hc.runs, hc.access, hc.phase, hc.cond, hc.cls, hc.window, hc.wr⟩
    exact ⟨_, hq.completes, rfl, Or.inl (Examination.command_movesPower _)⟩

/-- A failure inside a taking is one from what the taking leaves, with only the first records queued. -/
theorem exec_failingEntry_taking {s : State} {k : Taking} {c : Instr} (n : Nat) (cause : FailCause)
    (hr : s.mainRuns = true) (h : k.IsMadeBy s c) :
    ∃ v, exec c (if k.begins then s else { s with port.pcen := false }) = .next v
      ∧ exec (.failingEntry cause (.taking k n)) s
        = exec (.failingEntry cause .between)
            { v with
              port := if k.begins then v.port else s.port
              main.queue := v.main.queue.take (s.main.queue.length + n)
              main.overrun := if v.main.queue.length < s.main.queue.length + n then v.main.overrun
                else s.main.overrun } := by
  obtain ⟨v, hv, hrun, hc⟩ := State.runTaking_spec h
  refine ⟨v, hv, ?_⟩
  have hcut : s.applyCut (.taking k n) = s.postedOnly { v with port := if k.begins then v.port else s.port } n :=
    congrArg (s.postedOnly · n) hrun
  have hruns : v.mainRuns = true := by
    rw [exec_mainRuns hv hc]
    split <;> exact hr
  rw [exec_failingEntry_cut hr cause (.taking k n) (by rw [hcut]; exact hruns), hcut]
  rfl

/-- An entry to FAILING with no request waiting keeps the retained state and the queue (R143). -/
theorem exec_failingEntry_idle {s : State} (cause : FailCause) (hr : s.mainRuns = true) (hw : s.main.waiting = false) :
    ∃ t, exec (.failingEntry cause .between) s = .next t ∧ t.power = .failing ∧ t.signature = s.signature
      ∧ t.ret = s.ret ∧ SameEvents s t := by
  obtain ⟨m, f, v, p, q, henter, -⟩ := s.enterFailing_between cause
  have hidle : s.abandoned = { s with power := .failing, main.access := none } := State.takeWaiting_idle hw
  rw [hidle] at henter
  exact ⟨_, (exec_failingEntry hr cause .between).trans (congrArg _ henter), rfl, rfl, rfl, rfl, rfl⟩

/-- What a CLEAR_ALL cut short leaves, with no request waiting any more (R150): three points, and where the failure
goes on from. -/
theorem exec_failingEntry_clearAll {s t : State} {cut : ClearCut → CutPoint} (cause : FailCause) (hr : s.mainRuns = true)
    (ht : t.mainRuns = true) (hw : t.main.waiting = false)
    (hcut : ∀ c, s.applyCut (cut c) = t.cutClearAll c) :
    exec (.failingEntry cause (cut .invalid)) s = exec (.failingEntry cause .between) { t with signature := false }
      ∧ exec (.failingEntry cause (cut .defaulted)) s
        = exec (.failingEntry cause .between) { t with signature := false, ret := Retained.cold }
      ∧ ∃ u, exec (.failingEntry cause (cut .unposted)) s = .next u ∧ u.power = .failing ∧ u.signature = true
        ∧ u.ret = Retained.cold ∧ u.main.queue = [] ∧ u.main.overrun = false := by
  have hidle : { t with main.waiting := false } = t := by rw [← hw]
  have hinvalid : t.cutClearAll .invalid = { t with signature := false } :=
    congrArg (fun u : State => { u with signature := false }) hidle
  have hdefaulted : t.cutClearAll .defaulted = { t with signature := false, ret := Retained.cold } :=
    congrArg (fun u : State => { u with signature := false, ret := Retained.cold }) hidle
  have hunposted : t.cutClearAll .unposted = { t.clearEverything with main.queue := [] } :=
    congrArg (fun u : State => { u.clearEverything with main.queue := [] }) hidle
  refine ⟨?_, ?_, ?_⟩
  · rw [exec_failingEntry_cut hr cause (cut .invalid) (by rw [hcut, hinvalid]; exact ht), hcut, hinvalid]
  · rw [exec_failingEntry_cut hr cause (cut .defaulted) (by rw [hcut, hdefaulted]; exact ht), hcut, hdefaulted]
  · have hspec := t.defaulted_spec ht
    have hport := t.defaulted_port
    rw [State.clearEverything_eq ht] at hunposted
    generalize t.defaulted = d at *
    obtain ⟨hsig, hpower, -, -, hret, -, -, hover, -, -⟩ := hspec
    obtain ⟨-, -, -, -, -, hwaiting⟩ := hport
    have hruns : (t.cutClearAll .unposted).mainRuns = true := by
      rw [hunposted]
      simp [State.mainRuns, hpower]
    obtain ⟨u, hu, hfail, hs, hr', hq, ho⟩ :=
      exec_failingEntry_idle cause hruns (by rw [hunposted]; exact hwaiting.trans hw)
    rw [hunposted] at hs hr' hq ho
    exact ⟨u, (exec_failingEntry_cut hr cause (cut .unposted) (by rw [hcut]; exact hruns)).trans (by rw [hcut, hu]),
      hfail, hs.trans hsig, hr'.trans hret, hq, ho.trans hover⟩

/-- Settles O49. -/
theorem failureFallsInsideAStep : Obligations.FailureFallsInsideAStep := by
  refine ⟨fun s k e cause h => ?_, fun s k n cause c hr h => exec_failingEntry_taking n cause hr h,
    fun s cause h hc hidle => ?_, fun s a w cause h hwait hcode => ?_⟩
  · obtain ⟨c, hflight, hvoid⟩ := h.driven.restoreInFlight
    have hcut : s.applyCut .singleVoid = s.restored k e := by
      simp only [State.applyCut, hflight]
      exact hvoid
    exact ⟨_, h.driven.singleVoided, rfl,
      (exec_failingEntry_cut h.runs cause .singleVoid (by rw [hcut]; exact h.runs)).trans (congrArg (exec _) hcut)⟩
  · obtain ⟨hp, hx, hi, hw⟩ := id h
    have hdue : s.clearAllDue = true := by
      simp [State.clearAllDue, s.allIdle_iff.mpr hidle, State.writingAt, State.portReady, hp, hx, hi, hw, hc]
    exact exec_failingEntry_clearAll (cut := .clearAll) cause h.mainRuns h.mainRuns hw fun c => if_pos hdue
  · obtain ⟨u, hu, htaken⟩ := h.markerTaken
    have hframe := exec_frame hu fun _ => rfl
    obtain ⟨-, -, -, hreq, -, -, -, -, -, -, -, -, -, -, hwaiting⟩ :=
      hframe.management (Examination.command_movesManagement _)
    have hruns : u.mainRuns = true :=
      (exec_mainRuns hu (Or.inl (Examination.command_movesPower _))).trans h.runs
    refine ⟨u, hu, fun hidle => ?_⟩
    have hdue : s.markerTaken.clearAllDue = true := by
      have hall : State.allIdle { u with port := s.port, main.waiting := s.main.waiting } = true :=
        u.allIdle_iff.mpr hidle
      have hbyte : byteCode u.main.reqCode = 5 := (congrArg byteCode hreq).trans hcode
      rw [htaken]
      unfold State.clearAllDue
      rw [hall, Bool.true_and, Bool.or_eq_true]
      exact Or.inr (by simp [hwait, hbyte])
    refine exec_failingEntry_clearAll (t := { u with port := s.port }) (cut := .clearAllBehind) cause h.runs hruns hwaiting
      fun c => ?_
    have happly : s.applyCut (.clearAllBehind c) = s.markerTaken.cutClearAll c :=
      if_pos (by simp [hwait, hdue])
    rw [happly, htaken]
    cases c <;> rfl

end Sys2Proof.Machine
end

section
/-! PROOFS. The recovery requests of phase PLACING (O52), and the recovery that runs to its end (O53). -/

namespace Sys2Proof.Machine

/-! ## The recovery request to one window (R23, R152) -/

theorem State.unfinished_iff {s : State} {w : Win} {e : Entry} (h : s.entry w = some e) :
    s.unfinished w = true ↔ e.state = .opened ∨ e.state = .broken ∨ e.state = .rollingBack := by
  simp [State.unfinished, State.txnState_of_entry h, or_assoc]

theorem State.unfinished_of_disabled {s : State} {w : Win} (h : s.entry w = none) : s.unfinished w = false := by
  simp [State.unfinished, State.txnState, h]

/-- A window kept: its records voided, IDLE, and the KEPT receipt handed on, before the tally counts it (R23). -/
def State.keptWindow (s : State) (w : Win) (e : Entry) : State :=
  ((s.voidAllToIdle w e).discardCounter w).handOn w .kept .noReason e.seq (s.ret.journal.liveCount w)

/-- The tally counts a window kept (R154). -/
def State.tallyKept (s : State) : State :=
  { s with main.tally := s.main.tally.map fun x => { x with kept := x.kept + 1 } }

/-- The request to a window with unfinished work, by its recovery policy (R23). -/
def State.requestWindow (s : State) (w : Win) (e : Entry) : State :=
  if (s.desc w).policy = .rollback then (s.startRollback w e .recovery).discardCounter w
  else (s.keptWindow w e).tallyKept

/-- A window with no unfinished work stays (R23). -/
theorem State.placeWindow_finished {s : State} {w : Win} (h : s.unfinished w = false) : s.placeWindow w = s := by
  unfold State.placeWindow
  cases he : s.entry w with
  | none => rfl
  | some e =>
    have hunf := State.unfinished_iff he
    rw [h] at hunf
    cases hs : e.state with
    | idle => simp only [hs]
    | damaged => simp only [hs]
    | opened => simp [hs] at hunf
    | broken => simp [hs] at hunf
    | rollingBack => simp [hs] at hunf

theorem State.placeWindow_unfinished {s : State} {w : Win} {e : Entry} (he : s.entry w = some e)
    (h : s.unfinished w = true) : s.placeWindow w = s.requestWindow w e := by
  have hpolicy : (match (s.desc w).policy with
      | .rollback => (s.startRollback w e .recovery).discardCounter w
      | .keep => (s.keptWindow w e).tallyKept) = s.requestWindow w e := by
    unfold State.requestWindow
    cases (s.desc w).policy <;> rfl
  rw [← hpolicy]
  unfold State.placeWindow
  rw [he]
  rcases (State.unfinished_iff he).mp h with hs | hs | hs <;> simp only [hs] <;> rfl

/-! ## What a request leaves (R23, R39) -/

theorem SameAccess.trans {s t u : State} (h : SameAccess s t) (g : SameAccess t u) : SameAccess s u := by
  simp_all [SameAccess]

theorem SameSequencer.trans {s t u : State} (h : SameSequencer s t) (g : SameSequencer t u) : SameSequencer s u := by
  simp_all [SameSequencer]

theorem SameConfig.trans {s t u : State} (h : SameConfig s t) (g : SameConfig t u) : SameConfig s u := by
  simp_all [SameConfig]

theorem SameManagement.trans {s t u : State} (h : SameManagement s t) (g : SameManagement t u) : SameManagement s u := by
  simp_all [SameManagement]

theorem PlacingOnly.refl {s : State} (h : s.ret.journal.Lawful) : PlacingOnly s s where
  access := ⟨rfl, rfl, rfl, rfl, rfl⟩
  sequencer := ⟨rfl, rfl, rfl, rfl, rfl, rfl⟩
  memory := rfl
  config := ⟨rfl, rfl, rfl, rfl, rfl⟩
  walk := ⟨rfl, rfl⟩
  management := ⟨rfl, rfl, rfl, rfl, rfl, rfl, rfl, rfl, rfl, rfl, rfl, rfl, rfl, rfl, rfl⟩
  clock := ⟨rfl, rfl⟩
  power := ⟨rfl, rfl, rfl, rfl, rfl⟩
  ring := h

theorem PlacingOnly.trans {s t u : State} (h : PlacingOnly s t) (g : PlacingOnly t u) : PlacingOnly s u where
  access := h.access.trans g.access
  sequencer := h.sequencer.trans g.sequencer
  memory := g.memory.trans h.memory
  config := h.config.trans g.config
  walk := ⟨g.walk.1.trans h.walk.1, g.walk.2.trans h.walk.2⟩
  management := h.management.trans g.management
  clock := ⟨g.clock.1.trans h.clock.1, g.clock.2.trans h.clock.2⟩
  power := by
    obtain ⟨h1, h2, h3, h4, h5⟩ := h.power
    obtain ⟨g1, g2, g3, g4, g5⟩ := g.power
    exact ⟨g1.trans h1, g2.trans h2, g3.trans h3, g4.trans h4, g5.trans h5⟩
  ring := g.ring

/-- A taking of the table that keeps the ring's law is within what placing moves. -/
theorem TakenFor.placingOnly {s u : State} {w : Win} (h : TakenFor s u w) (hj : u.ret.journal.Lawful) :
    PlacingOnly s u := by
  obtain ⟨hsram, hconf, hacc, hseq, hwalk, -, hman, ⟨h1, h2, h3, h4, h5, -⟩, hclock⟩ := h.rest
  exact ⟨hacc, hseq, hsram, hconf, ⟨hwalk, h.stopped⟩, hman, hclock, ⟨h1, h2, h3, h4, h5⟩, hj⟩

/-- A position with no valid mark is not touched by a void-all and its reclaim (R39, R40). -/
theorem Journal.voidAll_empty {j : Journal} (h : j.Lawful) (w : Win) {p : Nat} (hp : j.slot p = Slot.clear) :
    (j.voidAll w).slot p = Slot.clear := by
  obtain ⟨hlawful, hrec⟩ := Journal.reclaim_spec (Journal.markAll_nearly h.nearly w)
  have hmark : (j.markAll w).slot p = Slot.clear := by
    rw [Journal.markAll_slot, hp]
    rfl
  have he : j.voidAll w = (j.markAll w).reclaim := rfl
  rw [← he] at hlawful hrec
  have hvalid : ((j.voidAll w).slot p).valid = false := by
    by_contra hv
    rw [Bool.not_eq_false] at hv
    rw [hrec.valid p hv, hmark] at hv
    exact absurd hv (by decide)
  have hvoided : ((j.voidAll w).slot p).voided = false := by
    by_contra hv
    rw [Bool.not_eq_false] at hv
    exact absurd (hlawful.marks p hv) (by simp [hvalid])
  obtain ⟨hwin, hord, haddr, hold, hlanes, hcheck⟩ := hrec.fields p
  rw [hmark] at hwin hord haddr hold hlanes hcheck
  generalize (j.voidAll w).slot p = x at *
  cases x
  simp_all [Slot.clear]

/-- The window is unfinished and its recovery policy is KEEP (R152). -/
def State.keeps (s : State) (w : Win) : Bool := s.unfinished w && (s.desc w).policy = .keep

/-- What the recovery request to window `w` leaves. -/
structure WindowPlaced (s t : State) (w : Win) : Prop where
  only : PlacingOnly s t
  requested : RecoveryRequested s t w
  others : ∀ v, v ≠ w → NotRequested s t v
  tally : t.main.tally = s.main.tally.map fun y => { y with kept := y.kept + if s.keeps w then 1 else 0 }
  phase : t.main.phase = s.main.phase
  events : s.slot w = .empty → SameEvents s t
  empties : ∀ p, s.ret.journal.slot p = Slot.clear → t.ret.journal.slot p = Slot.clear

theorem NotRequested.refl (s : State) (w : Win) : NotRequested s s w := ⟨rfl, rfl, rfl, rfl⟩

/-- Nothing is done for a window with no unfinished work. -/
theorem WindowPlaced.finished {s : State} {w : Win} (hj : s.ret.journal.Lawful) (h : s.unfinished w = false) :
    WindowPlaced s s w where
  only := PlacingOnly.refl hj
  requested := ⟨fun _ => NotRequested.refl s w, fun e _ hu => absurd (h.symm.trans hu) (by decide)⟩
  others v _ := NotRequested.refl s v
  tally := by
    have hk : s.keeps w = false := by simp [State.keeps, h]
    cases hy : s.main.tally <;> simp [hk]
  phase := rfl
  events _ := ⟨rfl, rfl⟩
  empties _ := id

section Requested
variable {s : State} {w : Win} {e : Entry} (hj : s.ret.journal.Lawful) (he : s.entry w = some e)
  (hu : s.unfinished w = true)
include hj he hu

/-- A window that rolls back has the records, the slot and the receipts it had (R23). -/
theorem WindowPlaced.rollback (hp : (s.desc w).policy = .rollback) :
    WindowPlaced s ((s.startRollback w e .recovery).discardCounter w) w := by
  have htaken : TakenFor s ((s.startRollback w e .recovery).discardCounter w) w :=
    (TakenFor.setEntry _ _).trans ((TakenFor.setPending _ _).trans (TakenFor.discardCounter _))
  have hk : s.keeps w = false := by simp [State.keeps, hp]
  refine
    { only := htaken.placingOnly hj
      requested := ⟨fun hn => absurd (hn.symm.trans hu) (by decide), fun e' he' _ => ⟨fun _ => ?_, fun hkeep => ?_⟩⟩
      others := fun v hv => ⟨(htaken.others v hv).1, (htaken.others v hv).2.2.2, (htaken.others v hv).2.2.1, rfl⟩
      tally := ?_
      phase := rfl
      events := fun _ => ⟨rfl, rfl⟩
      empties := fun _ => id }
  · obtain rfl : e = e' := Option.some.inj (he.symm.trans he')
    exact ⟨by simp [State.startRollback, Entry.toRollingBack], by simp [State.startRollback], rfl, rfl⟩
  · exact absurd (hp.symm.trans hkeep) (by decide)
  · rw [hk]
    show s.main.tally = _
    cases s.main.tally <;> rfl

/-- A window kept has its records voided, and the KEPT receipt counts them (R23, R39). -/
theorem WindowPlaced.keep (hr : s.mainRuns = true) (hp : (s.desc w).policy = .keep) :
    WindowPlaced s (s.keptWindow w e).tallyKept w := by
  obtain ⟨hlawful, hcount, -, -, -, -⟩ := Journal.voidAll_spec hj w
  have htaken : TakenFor s (s.keptWindow w e) w :=
    (TakenFor.voidAllToIdle s w e).trans ((TakenFor.discardCounter _).trans (TakenFor.handOn _ _ _ _ _))
  have hjournal : (s.keptWindow w e).ret.journal = s.ret.journal.voidAll w := by
    simp [State.keptWindow, State.voidAllToIdle]
  obtain ⟨hreceipt, hevents⟩ :=
    State.handOn_reports (u := (s.voidAllToIdle w e).discardCounter w) (w := w) .kept .noReason e.seq
      (s.ret.journal.liveCount w) hr ⟨rfl, rfl, rfl, rfl, rfl⟩ rfl rfl
  have hk : s.keeps w = true := by simp [State.keeps, hp, hu]
  have honly := htaken.placingOnly (by rw [hjournal]; exact hlawful)
  have hentry : (s.keptWindow w e).entry w = some e.toIdle := by simp [State.keptWindow, State.voidAllToIdle]
  have hpend : (s.keptWindow w e).isPending w = s.isPending w := by simp [State.keptWindow, State.voidAllToIdle]
  have htally : (s.keptWindow w e).main.tally = s.main.tally := htaken.rest.2.2.2.2.2.1
  have hphase : (s.keptWindow w e).main.phase = s.main.phase := htaken.rest.2.2.2.2.2.2.2.1.2.2.2.2.2.1
  have hothers := htaken.others
  have hreport : HandedOn s (s.keptWindow w e) w .kept .noReason e.seq (s.ret.journal.liveCount w) := hreceipt
  have hposts : EventsAre s (s.keptWindow w e) (s.superseding w) := hevents
  generalize s.keptWindow w e = u at *
  refine
    { only := honly.trans ⟨⟨rfl, rfl, rfl, rfl, rfl⟩, ⟨rfl, rfl, rfl, rfl, rfl, rfl⟩, rfl, ⟨rfl, rfl, rfl, rfl, rfl⟩,
        ⟨rfl, rfl⟩, ⟨rfl, rfl, rfl, rfl, rfl, rfl, rfl, rfl, rfl, rfl, rfl, rfl, rfl, rfl, rfl⟩, ⟨rfl, rfl⟩,
        ⟨rfl, rfl, rfl, rfl, rfl⟩, honly.ring⟩
      requested := ⟨fun hn => absurd (hn.symm.trans hu) (by decide), fun e' he' _ => ⟨fun hroll => ?_, fun _ => ?_⟩⟩
      others := fun v hv => ?_
      tally := ?_
      phase := hphase
      events := fun hs => ?_
      empties := fun p hc => ?_ }
  · exact absurd (hp.symm.trans hroll) (by decide)
  · obtain rfl : e = e' := Option.some.inj (he.symm.trans he')
    refine ⟨hentry, hpend, ?_, hreport⟩
    show u.ret.journal.liveCount w = 0
    rw [hjournal, hcount, if_pos rfl]
  · obtain ⟨h1, h2, h3, h4⟩ := hothers v hv
    refine ⟨h1, h4, h3, ?_⟩
    show u.ret.journal.liveCount v = _
    rw [hjournal, hcount, if_neg hv]
  · rw [hk]
    exact congrArg (Option.map fun y => { y with kept := y.kept + 1 }) htally
  · rw [(State.supersedes_nothing (Or.inl hs)).2] at hposts
    exact hposts
  · show u.ret.journal.slot p = _
    rw [hjournal]
    exact Journal.voidAll_empty hj w hc

end Requested

/-- The recovery request to a window, whatever its state (R23). -/
theorem State.placeWindow_placed {s : State} (hr : s.mainRuns = true) (hj : s.ret.journal.Lawful) (w : Win) :
    WindowPlaced s (s.placeWindow w) w := by
  cases hu : s.unfinished w with
  | false =>
    rw [State.placeWindow_finished hu]
    exact WindowPlaced.finished hj hu
  | true =>
    obtain ⟨e, he⟩ : ∃ e, s.entry w = some e := by
      cases he : s.entry w with
      | none => exact absurd ((State.unfinished_of_disabled he).symm.trans hu) (by decide)
      | some e => exact ⟨e, rfl⟩
    rw [State.placeWindow_unfinished he hu]
    unfold State.requestWindow
    split
    next hp => exact WindowPlaced.rollback hj he hu hp
    next hp =>
      refine WindowPlaced.keep hj he hu hr ?_
      cases hq : (s.desc w).policy with
      | keep => rfl
      | rollback => exact absurd hq hp

/-! ## The requests to a list of windows (R152) -/

section Compose
variable {s t u : State} {v : Win}

theorem NotRequested.trans (h : NotRequested s t v) (g : NotRequested t u v) : NotRequested s u v := by
  obtain ⟨h1, h2, h3, h4⟩ := h
  obtain ⟨g1, g2, g3, g4⟩ := g
  exact ⟨g1.trans h1, g2.trans h2, g3.trans h3, g4.trans h4⟩

theorem NotRequested.unfinished (h : NotRequested s t v) : t.unfinished v = s.unfinished v := by
  simp [State.unfinished, State.txnState, h.1]

theorem PlacingOnly.desc (h : PlacingOnly s t) (v : Win) : t.desc v = s.desc v := by
  unfold State.desc
  rw [h.config.1]

/-- A request taken later finds the window as it was. -/
theorem RecoveryRequested.after (ho : PlacingOnly s t) (h : NotRequested s t v) (g : RecoveryRequested t u v) :
    RecoveryRequested s u v := by
  have hunf := h.unfinished
  have hdesc := ho.desc v
  obtain ⟨h1, h2, h3, h4⟩ := h
  obtain ⟨g1, g2⟩ := g
  rw [hunf, h1, h2, h3, h4] at g1
  rw [hunf, h1, h2, h3, h4, hdesc] at g2
  refine ⟨g1, fun e he hu => ⟨(g2 e he hu).1, fun hp => ?_⟩⟩
  obtain ⟨k1, k2, k3, k4⟩ := (g2 e he hu).2 hp
  exact ⟨k1, k2, k3, HandedOn.congr h3 hdesc k4⟩

/-- Later requests to other windows leave what a request has done. -/
theorem RecoveryRequested.kept (h : RecoveryRequested s t v) (g : NotRequested t u v) : RecoveryRequested s u v := by
  obtain ⟨h1, h2⟩ := h
  obtain ⟨g1, g2, g3, g4⟩ := g
  unfold RecoveryRequested HandedOn
  rw [g1, g2, g3, g4]
  exact ⟨h1, h2⟩

end Compose

/-- What the recovery requests to the windows of a list leave. -/
structure WindowsPlaced (s t : State) (ws : List Win) : Prop where
  only : PlacingOnly s t
  requested : ∀ w ∈ ws, RecoveryRequested s t w
  others : ∀ v, v ∉ ws → NotRequested s t v
  tally : t.main.tally = s.main.tally.map fun y => { y with kept := y.kept + ws.countP s.keeps }
  phase : t.main.phase = s.main.phase
  events : (∀ w ∈ ws, s.slot w = .empty) → SameEvents s t
  empties : ∀ p, s.ret.journal.slot p = Slot.clear → t.ret.journal.slot p = Slot.clear

theorem WindowsPlaced.nil {s : State} (h : s.ret.journal.Lawful) : WindowsPlaced s s [] where
  only := PlacingOnly.refl h
  requested := nofun
  others v _ := NotRequested.refl s v
  tally := by cases s.main.tally <;> rfl
  phase := rfl
  events _ := ⟨rfl, rfl⟩
  empties _ := id

theorem WindowsPlaced.cons {s t u : State} {w : Win} {ws : List Win} (hw : w ∉ ws) (h : WindowPlaced s t w)
    (g : WindowsPlaced t u ws) : WindowsPlaced s u (w :: ws) := by
  have hkeeps : ∀ v ∈ ws, t.keeps v = s.keeps v := fun v hv => by
    have hne : v ≠ w := fun e => hw (e ▸ hv)
    unfold State.keeps
    rw [(h.others v hne).unfinished, h.only.desc v]
  refine
    { only := h.only.trans g.only
      requested := fun v hv => ?_
      others := fun v hv => ?_
      tally := ?_
      phase := g.phase.trans h.phase
      events := fun hs => ?_
      empties := fun p hp => g.empties p (h.empties p hp) }
  · rcases List.mem_cons.mp hv with rfl | hv
    · exact h.requested.kept (g.others v hw)
    · exact RecoveryRequested.after h.only (h.others v fun e => hw (e ▸ hv)) (g.requested v hv)
  · obtain ⟨hne, hv⟩ := not_or.mp fun hin => hv (List.mem_cons.mpr hin)
    exact (h.others v hne).trans (g.others v hv)
  · have hcount : ws.countP t.keeps = ws.countP s.keeps := by
      refine List.countP_congr fun v hv => ?_
      rw [hkeeps v hv]
    rw [g.tally, h.tally, List.countP_cons, hcount, Option.map_map]
    congr 1
    funext y
    simp only [Function.comp_apply, Tally.mk.injEq, true_and]
    omega
  · have h1 := h.events (hs w List.mem_cons_self)
    have h2 := g.events fun v hv => by
      rw [(h.others v fun e => hw (e ▸ hv)).2.2.1]
      exact hs v (List.mem_cons_of_mem w hv)
    exact ⟨h2.1.trans h1.1, h2.2.trans h1.2⟩

theorem State.placeAll_placed {s : State} (hr : s.mainRuns = true) (hj : s.ret.journal.Lawful) {ws : List Win}
    (hws : ws.Nodup) : WindowsPlaced s (s.placeAll ws) ws := by
  induction ws generalizing s with
  | nil => exact WindowsPlaced.nil hj
  | cons w ws ih =>
    obtain ⟨hw, hrest⟩ := List.nodup_cons.mp hws
    have hplaced := State.placeWindow_placed hr hj w
    have hruns : (s.placeWindow w).mainRuns = true := (State.mainRuns_congr hplaced.only.power.1).trans hr
    exact WindowsPlaced.cons hw hplaced (ih hruns hplaced.only.ring hrest)

/-- What the requests from `m` to below `n` leave (R152). -/
structure PlacedFrom (s t : State) (m n : Nat) : Prop where
  only : PlacingOnly s t
  requested : ∀ w : Win, m ≤ w.val → w.val < n → RecoveryRequested s t w
  others : ∀ w : Win, w.val < m ∨ n ≤ w.val → NotRequested s t w
  tally : t.main.tally = s.main.tally.map fun y => { y with kept := y.kept + s.keptCount m n }
  phase : t.main.phase = s.main.phase
  events : (∀ w : Win, m ≤ w.val → s.slot w = .empty) → SameEvents s t
  empties : ∀ p, s.ret.journal.slot p = Slot.clear → t.ret.journal.slot p = Slot.clear

theorem State.placeFrom_placed {s : State} (hr : s.mainRuns = true) (hj : s.ret.journal.Lawful) (m n : Fin 9) :
    PlacedFrom s (s.placeFrom m n) m.val n.val := by
  have hmem (w : Win) :
      w ∈ allWins.filter (fun w => m.val ≤ w.val && w.val < n.val) ↔ m.val ≤ w.val ∧ w.val < n.val := by
    simp [mem_allWins]
  have h := State.placeAll_placed hr hj (ws := allWins.filter fun w => m.val ≤ w.val && w.val < n.val)
    (List.Nodup.filter _ (by decide))
  refine
    { only := h.only
      requested := fun w hm hn => h.requested w ((hmem w).mpr ⟨hm, hn⟩)
      others := fun w hw => h.others w fun hin => ?_
      tally := ?_
      phase := h.phase
      events := fun hs => h.events fun w hw => hs w ((hmem w).mp hw).1
      empties := h.empties }
  · obtain ⟨h1, h2⟩ := (hmem w).mp hin
    omega
  · have hcount : (allWins.filter fun w => m.val ≤ w.val && w.val < n.val).countP s.keeps = s.keptCount m.val n.val := by
      rw [List.countP_filter]
      refine List.countP_congr fun w _ => ?_
      simp [State.keeps, and_comm, and_left_comm, and_assoc]
    rw [← hcount]
    exact h.tally

/-! ## The phase and the requests (R152) -/

/-- The state with its recovery phase replaced. -/
def State.setPhase (s : State) (p : Option Phase) : State := { s with main.phase := p }

theorem State.post_setPhase (s : State) (p : Option Phase) (k : EventKind) (w : Option Win) (d : Word) :
    (s.setPhase p).post k w d = (s.post k w d).setPhase p := by
  by_cases hr : s.mainRuns = true
  · by_cases hk : s.kindEnabled k = true
    · by_cases hq : s.main.queue.length < 16
      · rw [State.post_room w d hr hk hq, State.post_room (s := s.setPhase p) w d hr hk hq]
        rfl
      · rw [State.post_full w d hr hk (Nat.not_lt.mp hq), State.post_full (s := s.setPhase p) w d hr hk (Nat.not_lt.mp hq)]
        rfl
    · rw [Bool.not_eq_true] at hk
      rw [State.post_masked w d hk, State.post_masked (s := s.setPhase p) w d hk]
  · rw [Bool.not_eq_true] at hr
    rw [State.post_closed k w d hr, State.post_closed (s := s.setPhase p) k w d hr]

theorem State.postAll_setPhase (s : State) (p : Option Phase) (l : List (EventKind × Option Win × Word)) :
    (s.setPhase p).postAll l = (s.postAll l).setPhase p := by
  unfold State.postAll
  induction l generalizing s with
  | nil => rfl
  | cons x l ih =>
    rw [List.foldl_cons, List.foldl_cons, State.post_setPhase]
    exact ih _

theorem State.handOn_setPhase (s : State) (p : Option Phase) (w : Win) (o : ReceiptOutcome) (r : ReceiptReason)
    (q : Byte) (n : Nat) : (s.setPhase p).handOn w o r q n = (s.handOn w o r q n).setPhase p := by
  by_cases hr : s.mainRuns = true
  · have hposts : (s.setPhase p).postAll ((s.setPhase p).superseding w) = (s.postAll (s.superseding w)).setPhase p :=
      State.postAll_setPhase s p _
    rw [State.handOn_eq hr, State.handOn_eq (s := s.setPhase p) hr, hposts]
    rfl
  · rw [Bool.not_eq_true] at hr
    rw [State.handOn_of_not_mainRuns hr, State.handOn_of_not_mainRuns (s := s.setPhase p) hr]

theorem State.placeWindow_setPhase (s : State) (p : Option Phase) (w : Win) :
    (s.setPhase p).placeWindow w = (s.placeWindow w).setPhase p := by
  cases hu : s.unfinished w with
  | false => rw [State.placeWindow_finished hu, State.placeWindow_finished (s := s.setPhase p) hu]
  | true =>
    obtain ⟨e, he⟩ : ∃ e, s.entry w = some e := by
      cases he : s.entry w with
      | none => exact absurd ((State.unfinished_of_disabled he).symm.trans hu) (by decide)
      | some e => exact ⟨e, rfl⟩
    rw [State.placeWindow_unfinished he hu, State.placeWindow_unfinished (s := s.setPhase p) he hu]
    unfold State.requestWindow
    by_cases hp : (s.desc w).policy = .rollback
    · rw [if_pos hp, if_pos (c := ((s.setPhase p).desc w).policy = .rollback) hp]
      rfl
    · rw [if_neg hp, if_neg (c := ((s.setPhase p).desc w).policy = .rollback) hp]
      unfold State.keptWindow
      have h := ((s.voidAllToIdle w e).discardCounter w).handOn_setPhase p w .kept .noReason e.seq (s.ret.journal.liveCount w)
      exact congrArg State.tallyKept h

theorem State.placeFrom_setPhase (s : State) (p : Option Phase) (m n : Fin 9) :
    (s.setPhase p).placeFrom m n = (s.placeFrom m n).setPhase p := by
  unfold State.placeFrom State.placeAll
  generalize allWins.filter (fun w => m.val ≤ w.val && w.val < n.val) = ws
  induction ws generalizing s with
  | nil => rfl
  | cons w ws ih =>
    rw [List.foldl_cons, List.foldl_cons, State.placeWindow_setPhase]
    exact ih _

/-! ## Exits that stop in phase PLACING (R151, R152) -/

/-- The state in which the recovery begins, before its phase is noted and the journal's slot at the head discarded. -/
def State.recovering (s : State) (madr : BitVec 2) : State :=
  { s with power := .recovering, vdd := .good, pfail := false, rst := false, main := MainWell.cold madr }

/-- The exit with a valid signature begins RECOVERING and goes on as its cut says (R147, R151). -/
theorem exec_exit_valid {s : State} (madr : BitVec 2) {cut : ExitCut} (hp : s.power = .failing ∨ s.power = .retaining)
    (hs : s.signature = true) (hc : ∀ cause, cut ≠ .waits cause) :
    exec (exitCommand s.power madr cut) s = .next ((s.beginRecovering madr).continueExit cut) := by
  rw [exec_exitCommand hp]
  have hleave : s.leaveWith madr cut = (s.beginRecovering madr).continueExit cut := if_pos hs
  cases cut with
  | waits cause => exact absurd rfl (hc cause)
  | whole => exact congrArg Host.Outcome.next hleave
  | placing n => exact congrArg Host.Outcome.next hleave
  | coldCut cause step => exact congrArg Host.Outcome.next hleave

/-- From RECOVERING either exit command goes on with the placing (R152). -/
theorem exec_exits_recovering {s : State} (madr : BitVec 2) (cut : ExitCut) (hp : s.power = .recovering) :
    exec (.failingExit madr cut) s = .next (s.continueExit cut)
      ∧ exec (.retainingExit madr cut) s = .next (s.continueExit cut) := by
  simp [exec, execFailingExit, execRetainingExit, hp]

section Continue
variable {s : State} {m : Fin 9}

theorem State.continueExit_placing (h : s.main.phase = some (.placing m)) (n : Fin 9) :
    s.continueExit (.placing n) = (s.placeFrom m n).setPhase (some (.placing (max m n))) := by
  unfold State.continueExit
  rw [h]
  rfl

theorem State.continueExit_whole (h : s.main.phase = some (.placing m)) :
    s.continueExit .whole = (s.placeFrom m 8).beginWalking := by
  unfold State.continueExit
  rw [h]

/-- Where the phase stood does not matter to what begins phase WALKING. -/
theorem State.beginWalking_setPhase (s : State) (p : Option Phase) : (s.setPhase p).beginWalking = s.beginWalking := rfl

/-- A recovery that has stopped in phase PLACING goes on to where it would have come at once (R152). -/
theorem State.continueExit_resumes (h : s.main.phase = some (.placing m)) (n : Fin 9) :
    (s.continueExit (.placing n)).continueExit .whole = s.continueExit .whole := by
  rw [State.continueExit_placing h, State.continueExit_whole (m := max m n) rfl, State.continueExit_whole h,
    State.placeFrom_setPhase, State.beginWalking_setPhase]
  congr 1
  rcases le_total m n with hmn | hmn
  · rw [max_eq_right hmn]
    exact State.placeFrom_trans s hmn n.le_last
  · have hnone : (allWins.filter fun w => m.val ≤ w.val && w.val < n.val) = [] := by
      refine List.filter_eq_nil_iff.mpr fun w _ => ?_
      have : n.val ≤ m.val := hmn
      simp
      omega
    have hstay : s.placeFrom m n = s := congrArg s.placeAll hnone
    rw [max_eq_left hmn, hstay]
end Continue

/-- What the beginning of RECOVERING moves besides the phase and the tally (R50, R151). -/
theorem State.beginRecovering_placing {s : State} (madr : BitVec 2) (hj : s.ret.journal.Lawful) :
    PlacingOnly (s.recovering madr) (s.beginRecovering madr)
      ∧ (∀ w, NotRequested (s.recovering madr) (s.beginRecovering madr) w)
      ∧ (s.ret.journal.occ < 1024 → (s.beginRecovering madr).ret.journal.slot s.ret.journal.head = Slot.clear) := by
  refine ⟨⟨⟨rfl, rfl, rfl, rfl, rfl⟩, ⟨rfl, rfl, rfl, rfl, rfl, rfl⟩, rfl, ⟨rfl, rfl, rfl, rfl, rfl⟩, ⟨rfl, rfl⟩,
    ⟨rfl, rfl, rfl, rfl, rfl, rfl, rfl, rfl, rfl, rfl, rfl, rfl, rfl, rfl, rfl⟩, ⟨rfl, rfl⟩, ⟨rfl, rfl, rfl, rfl, rfl⟩,
    Journal.discard_lawful hj⟩, fun w => ⟨rfl, rfl, rfl, Journal.discard_liveCount hj w⟩, fun ho => ?_⟩
  have hslot := Journal.appendBody_slot hj Slot.clear s.ret.journal.head
  rw [if_pos rfl] at hslot
  have hdiscard : s.ret.journal.discard = s.ret.journal.appendBody Slot.clear := if_pos ho
  show s.ret.journal.discard.slot s.ret.journal.head = _
  rw [hdiscard, hslot]

theorem PlacingOnly.setPhase {s t : State} (h : PlacingOnly s t) (p : Option Phase) : PlacingOnly s (t.setPhase p) where
  access := h.access
  sequencer := h.sequencer
  memory := h.memory
  config := h.config
  walk := h.walk
  management := h.management
  clock := h.clock
  power := h.power
  ring := h.ring

/-- What the beginning of RECOVERING and the requests below `n` leave (R151, R152). -/
theorem State.begun_placed {s : State} (madr : BitVec 2) (hj : s.ret.journal.Lawful) (n : Fin 9) :
    PlacingOnly (s.recovering madr) ((s.beginRecovering madr).placeFrom 0 n)
      ∧ ((s.beginRecovering madr).placeFrom 0 n).main.tally = some { rolledBack := 0, kept := s.keptCount 0 n.val }
      ∧ SameEvents (s.recovering madr) ((s.beginRecovering madr).placeFrom 0 n)
      ∧ (s.ret.journal.occ < 1024 →
          ((s.beginRecovering madr).placeFrom 0 n).ret.journal.slot s.ret.journal.head = Slot.clear)
      ∧ (∀ w : Win, w.val < n.val → RecoveryRequested (s.recovering madr) ((s.beginRecovering madr).placeFrom 0 n) w)
      ∧ ∀ w : Win, n.val ≤ w.val → NotRequested (s.recovering madr) ((s.beginRecovering madr).placeFrom 0 n) w := by
  obtain ⟨honly, hnone, hhead⟩ := State.beginRecovering_placing madr hj
  have h := State.placeFrom_placed (s := s.beginRecovering madr) rfl honly.ring 0 n
  have htally : (s.beginRecovering madr).main.tally = some { rolledBack := 0, kept := 0 } := rfl
  have hcount : (s.beginRecovering madr).keptCount 0 n.val = s.keptCount 0 n.val := rfl
  refine ⟨honly.trans h.only, ?_, h.events fun w _ => winGet_replicate _ w, fun ho => h.empties _ (hhead ho),
    fun w hw => RecoveryRequested.after honly (hnone w) (h.requested w (Nat.zero_le _) hw),
    fun w hw => (hnone w).trans (h.others w (Or.inr hw))⟩
  rw [h.tally, htally]
  simp [hcount]

/-- Settles O52. -/
theorem exitsCanStopInPlacing : Obligations.ExitsCanStopInPlacing := by
  refine ⟨fun s madr n hp hs hj => ?_, fun s madr m n y hp hphase hy hj => ?_⟩
  · have hphase : (s.beginRecovering madr).main.phase = some (.placing 0) := rfl
    have hstop := State.continueExit_placing hphase n
    have hresume := State.continueExit_resumes hphase n
    rw [max_eq_right (Fin.zero_le n)] at hstop
    rw [hstop] at hresume
    have hexec := exec_exit_valid madr (cut := .placing n) hp hs nofun
    have hwhole := exec_exit_valid madr (cut := .whole) hp hs nofun
    obtain ⟨honly, htally, hevents, hhead, hrequested, hothers⟩ := State.begun_placed madr hj n
    generalize (s.beginRecovering madr).placeFrom 0 n = u at *
    have hpower : u.power = .recovering := honly.power.1
    refine ⟨_, hexec.trans (congrArg _ hstop), honly.setPhase _, rfl, htally, ?_, ?_, hevents.1, hevents.2, hhead,
      hrequested, hothers, ?_⟩
    · simp [State.takesAccesses, State.setPhase, hpower]
    · simp [State.portAnswers, State.takesAccesses, State.setPhase, hpower]
    · rw [hwhole, (exec_exits_recovering (s := u.setPhase (some (.placing n))) madr .whole hpower).1, hresume]
  · obtain ⟨hfail, hret⟩ := exec_exits_recovering madr (.placing n) hp
    have hruns : s.mainRuns = true := by simp [State.mainRuns, hp]
    have hplaced := State.placeFrom_placed hruns hj m n
    have hstop := State.continueExit_placing hphase n
    have hresume := State.continueExit_resumes hphase n
    have hwhole := (exec_exits_recovering madr .whole hp).2
    rw [hstop] at hfail hret hresume
    generalize s.placeFrom m n = u at *
    have hpower : u.power = .recovering := hplaced.only.power.1.trans hp
    refine ⟨_, hfail, hret, hplaced.only.setPhase _, rfl, ?_, hplaced.requested, hplaced.others, hplaced.events, ?_⟩
    · show u.main.tally = _
      rw [hplaced.tally, hy]
      rfl
    · rw [hwhole, (exec_exits_recovering (s := u.setPhase (some (.placing (max m n)))) madr .whole hpower).1, hresume]

/-! ## The end of RECOVERING (R155) -/

theorem State.engineSignal_iff (s : State) :
    s.engineSignal = true ↔ s.engine = .idle ∧ ∀ w, s.isPending w = false := by
  unfold State.engineSignal State.firstPending
  rw [Bool.and_eq_true, decide_eq_true_eq, Option.isNone_iff_eq_none, firstWin_eq_none]

/-- RECOVERING goes on while the phase is not WALKING or the engine has work (R155). -/
theorem State.endRecovering_stays {s : State}
    (h : s.power ≠ .recovering ∨ s.main.phase ≠ some .walking ∨ s.engine ≠ .idle ∨ ∃ w, s.isPending w = true) :
    s.endRecovering = s := by
  unfold State.endRecovering
  refine if_neg fun hall => ?_
  simp only [Bool.and_eq_true, decide_eq_true_eq] at hall
  obtain ⟨⟨hp, hph⟩, hsig⟩ := hall
  obtain ⟨hidle, hnone⟩ := s.engineSignal_iff.mp hsig
  rcases h with h | h | h | ⟨w, h⟩
  · exact h hp
  · exact h hph
  · exact h hidle
  · exact absurd ((hnone w).symm.trans h) (by decide)

/-- RECOVERING ends with RECOVERY_DONE where the engine has no work left (R155). -/
theorem State.endRecovering_ends {s : State} {y : Tally} (hp : s.power = .recovering)
    (hph : s.main.phase = some .walking) (hidle : s.engine = .idle) (hnone : ∀ w, s.isPending w = false)
    (hy : s.main.tally = some y) :
    ∃ q o, s.endRecovering
        = { s with power := .active, main.phase := none, main.tally := none, main.queue := q, main.overrun := o }
      ∧ EventsAre s s.endRecovering [(.recoveryDone, none, detailTally y)] := by
  have hsig : s.engineSignal = true := s.engineSignal_iff.mpr ⟨hidle, hnone⟩
  have hend : s.endRecovering
      = { s.post .recoveryDone none (detailTally y) with power := .active, main.phase := none, main.tally := none } := by
    unfold State.endRecovering
    rw [if_pos (by simp [hp, hph, hsig]), hy]
    rfl
  obtain ⟨q, o, hpost, -⟩ := s.post_spec .recoveryDone none (detailTally y)
  refine ⟨q, o, by rw [hend, hpost], ?_⟩
  rw [hend]
  exact ⟨rfl, rfl⟩

/-! ## Recoveries that run to their end (R152, R153) -/

/-- Phase WALKING begins where the last request has been taken. -/
theorem State.beginWalking_eq (s : State) :
    s.beginWalking = (s.setPhase (some .walking)).takePresented.endRecovering := rfl

/-- An access still presented is taken as phase WALKING begins (R153). -/
theorem State.takePresented_walking {u : State} (hp : u.power = .recovering) (hph : u.main.phase = some .walking)
    (ha : u.main.access = none) :
    (u.port.presents = false → u.takePresented = u)
      ∧ (u.port.presents = true → AccessOnly u u.takePresented
          ∧ Classified { u with main.prdy := .inactive, main.pd := none } u.takePresented u.port.capture) := by
  have htakes : u.takesAccesses = true := by simp [State.takesAccesses, hp, hph]
  exact ⟨fun h => State.takePresented_idle (Or.inr (Or.inr h)),
    fun h => ⟨(AccessMoves.takePresented u).only, (State.takePresented_classified htakes ha h).1⟩⟩

/-- A kept window, or one with no unfinished work, is not pending after its request. -/
theorem RecoveryRequested.not_pending {s t : State} {w : Win} (h : RecoveryRequested s t w)
    (hk : s.unfinished w = true → (s.desc w).policy = .keep) : t.isPending w = s.isPending w := by
  cases hu : s.unfinished w with
  | false => exact (h.1 hu).2.1
  | true =>
    obtain ⟨e, he⟩ : ∃ e, s.entry w = some e := by
      cases he : s.entry w with
      | none => exact absurd ((State.unfinished_of_disabled he).symm.trans hu) (by decide)
      | some e => exact ⟨e, rfl⟩
    exact ((h.2 e he hu).2 (hk hu)).2.1

theorem RecoveryRequested.pending {s t : State} {w : Win} (h : RecoveryRequested s t w) (hu : s.unfinished w = true)
    (hp : (s.desc w).policy = .rollback) : t.isPending w = true := by
  obtain ⟨e, he⟩ : ∃ e, s.entry w = some e := by
    cases he : s.entry w with
    | none => exact absurd ((State.unfinished_of_disabled he).symm.trans hu) (by decide)
    | some e => exact ⟨e, rfl⟩
  exact ((h.2 e he hu).1 hp).2.1

/-- Settles O53. -/
theorem recoveryPlacesEveryUnfinishedWindow : Obligations.RecoveryPlacesEveryUnfinishedWindow := by
  refine ⟨fun s madr hp hs hj => ?_, fun s madr m y hp hphase hy hj => ?_⟩
  · have hwhole := exec_exit_valid madr (cut := .whole) hp hs nofun
    rw [State.continueExit_whole (m := 0) rfl, State.beginWalking_eq] at hwhole
    obtain ⟨honly, htally, hevents, -, hrequested, -⟩ := State.begun_placed madr hj 8
    generalize (s.beginRecovering madr).placeFrom 0 8 = v at *
    have hall (w : Win) : RecoveryRequested (s.recovering madr) v w := hrequested w w.isLt
    have hpower : v.power = .recovering := honly.power.1
    have haccess : v.main.access = none := honly.access.2.1
    have hport : v.port = s.port := honly.access.1
    obtain ⟨hidle, htaken⟩ := State.takePresented_walking (u := v.setPhase (some .walking)) hpower rfl haccess
    have hmoves := AccessMoves.takePresented (v.setPhase (some .walking))
    refine ⟨v.setPhase (some .walking), hwhole, honly.setPhase _, rfl, htally, hevents.1, hevents.2, hall, ?_, ?_,
      fun ⟨w, hu, hpol⟩ => ?_, fun hkeep => ?_⟩
    · intro h
      exact hidle (by rw [← h]; exact congrArg ProcPort.presents hport)
    · intro h
      obtain ⟨hacc, hclass⟩ := htaken (by rw [← h]; exact congrArg ProcPort.presents hport)
      have hcapture : (v.setPhase (some .walking)).port.capture = s.port.capture := congrArg ProcPort.capture hport
      rw [hcapture] at hclass
      exact ⟨hacc, hclass⟩
    · refine State.endRecovering_stays (Or.inr (Or.inr (Or.inr ⟨w, ?_⟩)))
      rw [hmoves.isPending]
      exact (hall w).pending hu hpol
    · obtain ⟨hpow, hph, htal⟩ : (v.setPhase (some .walking)).takePresented.power = .recovering
          ∧ (v.setPhase (some .walking)).takePresented.main.phase = some .walking
          ∧ (v.setPhase (some .walking)).takePresented.main.tally
            = some { rolledBack := 0, kept := s.keptCount 0 8 } := by
        obtain ⟨h1, -, -, -, -, h6, h7⟩ := hmoves.only.power
        exact ⟨h1.trans hpower, h6, h7.trans htally⟩
      have hengine : (v.setPhase (some .walking)).takePresented.engine = .idle := by
        unfold State.engine
        rw [hmoves.only.engine.2.2, hmoves.only.engine.2.1]
        show (if v.main.stopped = true then _ else _) = _
        rw [honly.walk.2]
        show (match v.main.walk with | none => EngineCond.idle | some k => _) = _
        rw [honly.walk.1]
        rfl
      have hnone (w : Win) : (v.setPhase (some .walking)).takePresented.isPending w = false := by
        rw [hmoves.isPending]
        exact ((hall w).not_pending (hkeep w)).trans (winGet_replicate _ w)
      obtain ⟨q, o, hend, hposted⟩ := State.endRecovering_ends hpow hph hengine hnone htal
      exact ⟨_, hwhole, by rw [hend], by rw [hend], by rw [hend], hposted⟩
  · obtain ⟨hfail, hret⟩ := exec_exits_recovering madr .whole hp
    rw [State.continueExit_whole hphase, State.beginWalking_eq] at hfail hret
    have hruns : s.mainRuns = true := by simp [State.mainRuns, hp]
    have hplaced := State.placeFrom_placed hruns hj m 8
    refine ⟨_, hfail, hret, hplaced.only.setPhase _, rfl, ?_, fun w hw => hplaced.requested w hw w.isLt,
      fun w hw => hplaced.others w (Or.inl hw)⟩
    show (s.placeFrom m 8).main.tally = _
    rw [hplaced.tally, hy]
    rfl

end Sys2Proof.Machine
end

section
/-! PROOFS. The ends of a walk, and the examinations of SELECTION (O26) and RESTORE_WRITE_COMPLETE (O28). -/

namespace Sys2Proof.Machine

/-! ## The ends of a walk (R21, R22, R107, R108) -/

theorem State.releaseHeld_noHeld {s : State} {w : Win} (h : s.noHeld w) : s.releaseHeld w = s := by
  unfold State.releaseHeld
  cases ha : s.main.access with
  | none => rfl
  | some a => exact if_neg fun hc => by simp_all [State.noHeld]

/-- Damage as the table takes and reports it, apart from the walk and a held access (R22). -/
def State.damageReported (s : State) (w : Win) (e : Entry) (p : Nat) : State :=
  (s.endsWith w (e.toDamaged p) .damaged .checkFail e.seq (e.restored.getD 0)).post .recordDamaged (some w)
    (BitVec.ofNat 32 p)

/-- A completed rollback as the table takes and reports it, apart from the walk, the tally and a held access (R21). -/
def State.rollbackReported (s : State) (w : Win) (e : Entry) (c : RollbackCause) : State :=
  (((s.setEntry w (some (e.afterRollback c))).resumeCounter w c).handOn w c.outcome c.reason e.seq
    (e.restored.getD 0)).post .rollbackDone (some w) (detailReceipt c.outcome c.reason e.seq (e.restored.getD 0))

section Ends
variable {s : State} {w : Win} {e : Entry} (he : s.entry w = some e)

section
include he

theorem State.damage_eq (p : Nat) : s.damage w p = ((s.setWalk none).damageReported w e p).releaseHeld w := by
  unfold State.damage
  rw [he]
  rfl

theorem State.completeRollback_eq {c : RollbackCause} (hc : e.cause = some c) :
    s.completeRollback w = (((s.setWalk none).tallyRollback c).rollbackReported w e c).releaseHeld w := by
  have hcommute : (((s.setEntry w (some (e.afterRollback c))).setWalk none).resumeCounter w c).tallyRollback c
      = (((s.setWalk none).tallyRollback c).setEntry w (some (e.afterRollback c))).resumeCounter w c := by
    cases c with
    | returned =>
      have hdesc : ((((s.setWalk none).tallyRollback .returned).setEntry w (some (e.afterRollback .returned))).desc w)
          = s.desc w := rfl
      by_cases hm : (s.desc w).deadlineMode = .idle <;> simp [State.resumeCounter, hdesc, hm] <;> rfl
    | _ => rfl
  unfold State.completeRollback
  rw [he]
  dsimp only
  rw [hc]
  dsimp only
  rw [hcommute]
  rfl

/-- A completed rollback does not look at the walk, which it ends. -/
theorem State.completeRollback_setWalk {c : RollbackCause} (hc : e.cause = some c) (k : Option Walk) :
    (s.setWalk k).completeRollback w = s.completeRollback w := by
  rw [State.completeRollback_eq he hc, State.completeRollback_eq (s := s.setWalk k) he hc]
  rfl

end

theorem TakenFor.damageReported (s : State) (w : Win) (e : Entry) (p : Nat) : TakenFor s (s.damageReported w e p) w :=
  (TakenFor.endsWith _ _ _ _ _).trans (TakenFor.post _ _ _ _)

theorem TakenFor.resumeCounter (s : State) (w : Win) (c : RollbackCause) : TakenFor s (s.resumeCounter w c) w := by
  unfold State.resumeCounter
  cases c with
  | returned =>
    dsimp only
    split <;> exact TakenFor.setCounter _ _
  | _ => exact TakenFor.refl s

theorem TakenFor.rollbackReported (s : State) (w : Win) (e : Entry) (c : RollbackCause) :
    TakenFor s (s.rollbackReported w e c) w :=
  (TakenFor.setEntry _ _).trans ((TakenFor.resumeCounter _ _ _).trans
    ((TakenFor.handOn _ _ _ _ _).trans (TakenFor.post _ _ _ _)))

/-- The Deadline Unit's part of a completion, in the words of the statements (R122, R123). -/
theorem State.resumeCounter_counter (s : State) (w : Win) (c : RollbackCause) :
    (s.resumeCounter w c).counter w = if c = .returned then resumed (s.desc w) (s.counter w) else s.counter w := by
  unfold State.resumeCounter
  cases c with
  | returned =>
    dsimp only
    split
    next h =>
      rw [State.setCounter_counter_self, if_pos rfl]
      cases s.counter w <;> simp [Counter.resumeReload, resumed, h, State.deadline]
    next h =>
      rw [State.setCounter_counter_self, if_pos rfl]
      cases s.counter w <;> simp [Counter.resume, resumed, h]
  | _ => rfl

theorem State.resumeCounter_rest (s : State) (w : Win) (c : RollbackCause) :
    PostSame s (s.resumeCounter w c) ∧ (∀ v, (s.resumeCounter w c).entry v = s.entry v)
      ∧ (s.resumeCounter w c).slot w = s.slot w ∧ (s.resumeCounter w c).desc w = s.desc w
      ∧ (s.resumeCounter w c).ret.journal = s.ret.journal
      ∧ (s.resumeCounter w c).main.pendSet = s.main.pendSet := by
  unfold State.resumeCounter
  cases c with
  | returned =>
    dsimp only
    split <;> exact ⟨⟨rfl, rfl, rfl, rfl, rfl⟩, fun _ => rfl, rfl, rfl, rfl, rfl⟩
  | _ => exact ⟨PostSame.refl s, fun _ => rfl, rfl, rfl, rfl, rfl⟩

/-- Damage as the table reports it, in the words of the statements. -/
theorem State.damageReported_taken (s : State) (w : Win) (e : Entry) (p : Nat) (hr : s.mainRuns = true)
    (hk : s.main.walk = none) :
    DamageTaken s (s.damageReported w e p) w e p := by
  obtain ⟨hentry, hcounter, -, hjournal, hreceipt, hevents⟩ :=
    (SameTable.refl s).endsWith (w := w) (e.toDamaged p) hr .damaged .checkFail e.seq (e.restored.getD 0)
  have htaken := TakenFor.damageReported s w e p
  obtain ⟨hsram, hconf, hacc, hseq, hwalk, -, hman, hpower, hclock⟩ := htaken.rest
  have hstopped := htaken.stopped
  have hends := TakenFor.endsWith (l := s) (w := w) (e.toDamaged p) .damaged .checkFail e.seq (e.restored.getD 0)
  obtain ⟨-, ⟨-, -, -, -, hmask⟩, -, -, -, -, -, ⟨hpow, -⟩, ⟨hstamp, -⟩⟩ := hends.rest
  exact
    { walk := hwalk.trans hk
      entry := by simpa [State.damageReported, Entry.toDamaged] using hentry
      counter := by simpa [State.damageReported] using hcounter
      receipt := by
        unfold HandedOn State.damageReported at *
        rw [State.post_slot]
        exact hreceipt
      events := EventsAre.append hpow hmask hstamp hevents (EventsAre.post _ _ _ _)
      others := fun v hv => ⟨(htaken.others v hv).1, (htaken.others v hv).2.1, (htaken.others v hv).2.2.1⟩
      journal := by simpa [State.damageReported] using hjournal
      power := hpower
      rest := ⟨hacc, hseq, hsram, hconf, hman, ⟨by simp [State.damageReported, State.endsWith], hstopped⟩, hclock⟩ }

/-- The walk of `s`, which damage ends, is not spoken of. -/
theorem DamageTaken.of_setWalk {t : State} {k : Option Walk} {p : Nat} (h : DamageTaken (s.setWalk k) t w e p) :
    DamageTaken s t w e p :=
  ⟨h.walk, h.entry, h.counter, h.receipt, EventsAre.congr (s' := s.setWalk k) ⟨rfl, rfl, rfl, rfl, rfl⟩ h.events,
    h.others, h.journal, h.power,
    ⟨h.rest.access, h.rest.sequencer, h.rest.memory, h.rest.config, h.rest.management, h.rest.pendSet, h.rest.clock⟩⟩

/-- Damage with no access held for the window (R22, R108). -/
theorem State.damage_taken (he : s.entry w = some e) (hr : s.mainRuns = true) (hn : s.noHeld w) (p : Nat) :
    DamageTaken s (s.damage w p) w e p := by
  have htaken := TakenFor.damageReported (s.setWalk none) w e p
  have hdamage := ((s.setWalk none).damageReported_taken w e p hr rfl).of_setWalk
  rw [State.damage_eq he, State.releaseHeld_noHeld]
  · exact hdamage
  · unfold State.noHeld
    rw [hdamage.rest.access.2.1]
    exact hn

/-- A completion as the table reports it (R21). -/
theorem State.rollbackReported_spec (s : State) (w : Win) (e : Entry) (c : RollbackCause) (hr : s.mainRuns = true) :
    (s.rollbackReported w e c).entry w = some (e.afterRollback c)
      ∧ (s.rollbackReported w e c).counter w = (if c = .returned then resumed (s.desc w) (s.counter w) else s.counter w)
      ∧ HandedOn s (s.rollbackReported w e c) w c.outcome c.reason e.seq (e.restored.getD 0)
      ∧ EventsAre s (s.rollbackReported w e c)
          (s.superseding w ++ [(.rollbackDone, some w, detailReceipt c.outcome c.reason e.seq (e.restored.getD 0))])
      ∧ (s.rollbackReported w e c).ret.journal = s.ret.journal
      ∧ (s.rollbackReported w e c).main.pendSet = s.main.pendSet := by
  obtain ⟨hposts, hentry, hslot, hdesc, hjournal, hpend⟩ :=
    (s.setEntry w (some (e.afterRollback c))).resumeCounter_rest w c
  have hcounter := (s.setEntry w (some (e.afterRollback c))).resumeCounter_counter w c
  unfold State.rollbackReported
  generalize (s.setEntry w (some (e.afterRollback c))).resumeCounter w c = l at *
  have hposts' : PostSame s l := ⟨hposts.power, hposts.mask, hposts.stamp, hposts.queue, hposts.overrun⟩
  obtain ⟨hreceipt, hevents⟩ :=
    State.handOn_reports (s := s) (u := l) (w := w) c.outcome c.reason e.seq (e.restored.getD 0) hr hposts' hslot hdesc
  refine ⟨?_, ?_, ?_, EventsAre.append ?_ ?_ ?_ hevents (EventsAre.post _ _ _ _), ?_, ?_⟩
  · simpa using hentry w
  · simpa using hcounter
  · unfold HandedOn at *
    rw [State.post_slot]
    exact hreceipt
  · simpa using hposts'.power
  · simpa using hposts'.mask
  · simpa using hposts'.stamp
  · simpa using hjournal
  · simpa using hpend

/-- A completed rollback with no access held for the window (R21, R107, R154). -/
theorem State.completeRollback_done (he : s.entry w = some e) {c : RollbackCause} (hc : e.cause = some c)
    (hr : s.mainRuns = true) (hn : s.noHeld w) : RollbackDone s (s.completeRollback w) w e c := by
  obtain ⟨y, hy, hbase⟩ : ∃ y, y = (if c = .recovery then s.main.tally.map fun y => { y with rolledBack := y.rolledBack + 1 }
      else s.main.tally) ∧ (s.setWalk none).tallyRollback c = { s with main.walk := none, main.tally := y } := by
    cases c <;> exact ⟨_, rfl, rfl⟩
  rw [State.completeRollback_eq he hc, hbase]
  generalize hl : ({ s with main.walk := none, main.tally := y } : State) = l
  have htable : SameTable s l := by
    rw [← hl]
    exact ⟨⟨rfl, rfl, rfl, rfl, rfl⟩, fun _ => rfl, fun _ => rfl, fun _ => rfl, fun _ => rfl, fun _ => rfl, rfl⟩
  have hruns : l.mainRuns = true := by rw [← hl]; exact hr
  obtain ⟨hentry, hcounter, hreceipt, hevents, hjournal, hpend⟩ := l.rollbackReported_spec w e c hruns
  have htaken := TakenFor.rollbackReported l w e c
  obtain ⟨hsram, hconf, hacc, hseq, hwalk, htally, hman, ⟨h1, h2, h3, h4, h5, h6, -⟩, hclock⟩ := htaken.rest
  have hstopped := htaken.stopped
  have hothers := htaken.others
  have hheld : (l.rollbackReported w e c).noHeld w := by
    unfold State.noHeld
    rw [hacc.2.1, ← hl]
    exact hn
  rw [State.releaseHeld_noHeld hheld]
  generalize l.rollbackReported w e c = t at *
  refine
    { walk := ?_
      entry := ?_
      counter := ?_
      receipt := HandedOn.congr (htable.slot w) (htable.desc w) hreceipt
      events := ?_
      others := fun v hv => ⟨(hothers v hv).1.trans (htable.entry v), (hothers v hv).2.1.trans (htable.counter v),
        (hothers v hv).2.2.1.trans (htable.slot v)⟩
      journal := hjournal.trans htable.journal
      power := ?_
      tally := ?_
      rest := ?_ }
  · rw [hwalk, ← hl]
  · rw [hentry]
    cases c <;> rfl
  · rw [hcounter, htable.counter, htable.desc]
  · rw [← superseding_congr (htable.slot w)]
    exact EventsAre.congr htable.posts hevents
  · subst hl
    exact ⟨h1, h2, h3, h4, h5, h6⟩
  · rw [htally, ← hl, ← hy]
  · subst hl
    exact ⟨hacc, hseq, hsram, hconf, hman, ⟨hpend, hstopped⟩, hclock⟩

end Ends

/-! ## The examination (R104, R105) -/

theorem Slot.live_of_liveOf {x : Slot} {w : Win} (h : x.liveOf w = true) : x.live = true := by
  simp only [Slot.liveOf, Bool.and_eq_true] at h
  exact h.1

/-- Where the count equals the target no record is examined (R107). -/
theorem State.examine_complete (n : Nat) {s : State} {k : Walk} (hk : s.main.walk = some k)
    (hc : s.countOf k.window = k.target) : State.examine (n + 1) s = s.completeRollback k.window := by
  conv => lhs; unfold State.examine
  simp only [hk, hc, if_true]

/-- A walk out of records ends in damage at the slot examined last (R109). -/
theorem State.examine_outOfRecords (n : Nat) {s : State} {k : Walk} {p : Nat} (hk : s.main.walk = some k)
    (hc : s.countOf k.window ≠ k.target) (hp : k.lastPos = some p) (ho : k.outOfRecords s.ret.journal = true) :
    State.examine (n + 1) s = s.damage k.window p := by
  conv => lhs; unfold State.examine
  simp only [hk, hc, ho, hp, if_true, if_false, Option.getD_some]

theorem ClaimPlaced.setWalk (s : State) {k : Walk} (h : k.claim = .waiting) :
    ClaimPlaced s (s.setWalk (some k)) k.window k.target k.cursor where
  walk := ⟨k, rfl, rfl, rfl, rfl, h⟩
  ret := rfl
  slots := rfl
  events := ⟨rfl, rfl⟩
  counters := rfl
  power := ⟨rfl, rfl, rfl, rfl, rfl, rfl, rfl⟩
  rest := ⟨⟨rfl, rfl, rfl, rfl, rfl⟩, ⟨rfl, rfl, rfl, rfl, rfl, rfl⟩, rfl, ⟨rfl, rfl, rfl, rfl, rfl⟩,
    ⟨rfl, rfl, rfl, rfl, rfl, rfl, rfl, rfl, rfl, rfl, rfl, rfl, rfl, rfl, rfl⟩, ⟨rfl, rfl⟩, ⟨rfl, rfl⟩⟩

theorem State.countOf_entry {s : State} {w : Win} {e : Entry} (h : s.entry w = some e) : s.countOf w = e.count := by
  unfold State.countOf
  rw [h]

/-! ## SELECTION (R102, R104) -/

/-- The walk that a selection creates in ring `j`. -/
def Journal.newWalk (j : Journal) (w : Win) (target : Nat) : Walk :=
  { window := w, target := target, cursor := prevPos j.head, claim := .noClaim, lastPos := none, lastAtTail := false }

section Selected
variable {s : State} {w : Win}

theorem exec_selection (hr : s.mainRuns = true) (hi : s.engine = .idle) (hp : s.isPending w = true)
    (hv : ∀ v, v < w → s.isPending v = false) :
    exec .selection s = .next (State.examine (s.ret.journal.occ + 2) (s.createWalk w)).endRecovering := by
  have hfirst : s.firstPending = some w := (firstWin_eq_some _ w).mpr ⟨hp, hv⟩
  simp only [exec, execSelection, hr, hi, hfirst, decide_true, Bool.and_self, if_true]
  rfl

variable {e : Entry} (he : s.entry w = some e)
include he

theorem State.createWalk_eq :
    s.createWalk w = (s.setPending w false).setWalk (some (s.ret.journal.newWalk w e.target)) := by
  unfold State.createWalk
  rw [he]
  rfl

/-- The examination of a selected walk (R104, R105). -/
theorem State.examine_createWalk (hc : e.count ≠ e.target) (hj : s.ret.journal.Lawful) (ho : s.ret.journal.occ ≠ 0) :
    (∀ p, s.ret.journal.Newest w p →
        ((s.ret.journal.slot p).checks = true → State.examine (s.ret.journal.occ + 2) (s.createWalk w)
            = (s.setPending w false).setWalk (some ((s.ret.journal.newWalk w e.target).claiming s.ret.journal p)))
          ∧ ((s.ret.journal.slot p).checks = false → State.examine (s.ret.journal.occ + 2) (s.createWalk w)
            = (s.setPending w false).damage w p))
      ∧ ((∀ p, (s.ret.journal.slot p).liveOf w = false) → State.examine (s.ret.journal.occ + 2) (s.createWalk w)
          = (s.setPending w false).damage w s.ret.journal.tail) := by
  obtain ⟨hspan, hage⟩ := hj.prevPos_head ho
  have hentry : (s.setPending w false).entry w = some e := he
  obtain ⟨hfound, hnone⟩ := State.examine_spec (s.ret.journal.occ + 2)
    (s := (s.setPending w false).setWalk (some (s.ret.journal.newWalk w e.target))) (k := s.ret.journal.newWalk w e.target)
    hj rfl hentry hc rfl hspan (by show s.ret.journal.age (prevPos s.ret.journal.head) + 2 ≤ _; omega)
  have hdamage (p : Nat) := State.damage_setWalk hentry (some (s.ret.journal.newWalk w e.target)) p
  rw [State.createWalk_eq he]
  refine ⟨fun p hp => ?_, fun hno => ?_⟩
  · have hnewest : s.ret.journal.age p ≤ s.ret.journal.age (prevPos s.ret.journal.head) := by
      have hin := Journal.inSpan_age (hj.live_inSpan (Slot.live_of_liveOf hp.1))
      omega
    obtain ⟨hclaim, hdam⟩ := hfound p ⟨hp.1, hnewest, fun q hq _ => hp.2 q hq⟩
    exact ⟨hclaim, fun hx => (hdam hx).trans (hdamage p)⟩
  · exact (hnone fun q hq => absurd ((hno q).symm.trans hq) (by decide)).trans (hdamage _)

/-- A selected walk whose count equals its target is complete at once (R107). -/
theorem State.examine_createWalk_complete {c : RollbackCause} (hcause : e.cause = some c) (hc : e.count = e.target) :
    State.examine (s.ret.journal.occ + 2) (s.createWalk w) = (s.setPending w false).completeRollback w := by
  have hentry : (s.setPending w false).entry w = some e := he
  rw [State.createWalk_eq he]
  exact (State.examine_complete (s := (s.setPending w false).setWalk (some (s.ret.journal.newWalk w e.target))) _ rfl
    ((State.countOf_entry hentry).trans hc)).trans (State.completeRollback_setWalk hentry hcause _)

end Selected

/-- Settles O26. -/
theorem selectionExaminesOrCompletes : Obligations.SelectionExaminesOrCompletes := by
  refine ⟨fun s w e hr hi hp hv he hc hj hn => ⟨_, exec_selection hr hi hp hv, ?_, ?_⟩,
    fun s w e c hr hi hp hv he hcause hc hn => ⟨_, exec_selection hr hi hp hv, ?_⟩⟩
  · intro p hnew
    have ho : s.ret.journal.occ ≠ 0 := by
      have hin := Journal.inSpan_age (hj.live_inSpan (Slot.live_of_liveOf hnew.1))
      omega
    obtain ⟨hclaim, hdamage⟩ := (State.examine_createWalk he hc hj ho).1 p hnew
    refine ⟨fun hx => ?_, fun hx => ?_⟩
    · rw [hclaim hx]
      exact ClaimPlaced.setWalk _ rfl
    · rw [hdamage hx]
      exact State.damage_taken (s := s.setPending w false) he hr hn p
  · intro hno ho
    rw [(State.examine_createWalk he hc hj ho).2 hno]
    exact State.damage_taken (s := s.setPending w false) he hr hn _
  · rw [State.examine_createWalk_complete he hcause hc]
    exact State.completeRollback_done (s := s.setPending w false) he hcause hr hn

end Sys2Proof.Machine
end

section
/-! PROOFS. The restore that voids its record and examines on (O28), and the last walk of RECOVERING (O30). -/

namespace Sys2Proof.Machine

/-! ## The ring as records are reclaimed (R40, R104) -/

/-- Reclaiming from the tail keeps the order of the slots still in the span. -/
theorem Journal.age_reclaimed {j k : Journal} (hj : j.Lawful) (hk : k.Lawful) (hh : k.head = j.head)
    (ho : k.occ ≤ j.occ) {q : Nat} (hq : k.inSpan q = true) : j.age q = k.age q + (j.occ - k.occ) := by
  obtain ⟨hlt, hage⟩ := Journal.inSpan_age hq
  have h1 := hj.tail
  have h2 := hj.ring
  have h3 := hk.tail
  have h4 := hk.ring
  have h5 := hj.occ
  unfold Journal.age at *
  simp only [Config.journalSlots] at *
  omega

/-- A slot not behind the new tail stays in the span. -/
theorem Journal.inSpan_reclaimed {j k : Journal} (hj : j.Lawful) (hk : k.Lawful) (hh : k.head = j.head)
    (ho : k.occ ≤ j.occ) {q : Nat} (hq : j.inSpan q = true) (hd : j.occ - k.occ ≤ j.age q) : k.inSpan q = true := by
  obtain ⟨hlt, hage⟩ := Journal.inSpan_age hq
  have h1 := hj.tail
  have h2 := hj.ring
  have h3 := hk.tail
  have h4 := hk.ring
  have h5 := hj.occ
  refine (k.inSpan_iff q).mpr ⟨hlt, ?_⟩
  unfold Journal.age at *
  simp only [Config.journalSlots] at *
  omega

/-- A single void makes no record LIVE. -/
theorem Journal.voidOne_notLive {j : Journal} (h : j.Lawful) {p : Nat} (hp : (j.slot p).live = true) {q : Nat}
    (hq : ((j.voidOne p).slot q).live = true) : q ≠ p ∧ (j.slot q).live = true := by
  have hvalid : (j.slot p).valid = true := by
    simp only [Slot.live, Bool.and_eq_true] at hp
    exact hp.1
  obtain ⟨-, hrec⟩ := Journal.reclaim_spec (Journal.markVoid_nearly h.nearly hvalid)
  have hvoid : j.voidOne p = (j.setSlot p { j.slot p with voided := true }).reclaim := if_pos hp
  rw [hvoid] at hq
  have hbefore : ((j.setSlot p { j.slot p with voided := true }).slot q).live = true := by
    by_contra hn
    exact absurd ((hrec.notLive q (Bool.eq_false_of_not_eq_true hn)).symm.trans hq) (by decide)
  rw [Journal.slot_setSlot h.cells] at hbefore
  by_cases hqp : q = p
  · rw [if_pos hqp] at hbefore
    simp [Slot.live] at hbefore
  · rw [if_neg hqp] at hbefore
    exact ⟨hqp, hbefore⟩

/-- The journal `k` after the single void of the record at `c` of journal `j`: the ring's order is kept, the LIVE records
are those that were LIVE but the one voided, and that one stands voided behind the tail's or is reclaimed. -/
structure Journal.VoidedAt (j k : Journal) (c : Nat) : Prop where
  before : j.Lawful
  after : k.Lawful
  order : ∀ q, k.inSpan q = true → j.age q = k.age q + (j.occ - k.occ)
  stays : ∀ q, j.inSpan q = true → j.occ - k.occ ≤ j.age q → k.inSpan q = true
  live : ∀ q, (k.slot q).live = true → q ≠ c ∧ (j.slot q).live = true
  kept : ∀ q, q ≠ c → (j.slot q).live = true → k.slot q = j.slot q
  voided : (k.slot c).live = false
  cursor : j.inSpan c = true

theorem Journal.voidOne_voidedAt {j : Journal} (h : j.Lawful) {c : Nat} (hc : (j.slot c).live = true) :
    j.VoidedAt (j.voidOne c) c := by
  obtain ⟨hlawful, -, hkept, hvoid, hhead, hocc⟩ := Journal.voidOne_spec h hc
  exact ⟨h, hlawful, fun q hq => Journal.age_reclaimed h hlawful hhead hocc hq,
    fun q hq hd => Journal.inSpan_reclaimed h hlawful hhead hocc hq hd, fun q hq => Journal.voidOne_notLive h hc hq,
    hkept, hvoid, h.live_inSpan hc⟩

section VoidedAt
variable {j k : Journal} {c : Nat} (h : j.VoidedAt k c)
include h

/-- A record of `j` other than the one voided is LIVE in `k` just if it is in `j`. -/
theorem Journal.VoidedAt.liveOf_iff (w : Win) {q : Nat} (hq : q ≠ c) :
    (k.slot q).liveOf w = true ↔ (j.slot q).liveOf w = true := by
  refine ⟨fun hl => ?_, fun hl => ?_⟩
  · obtain ⟨-, hlive⟩ := h.live q (Slot.live_of_liveOf hl)
    rwa [h.kept q hq hlive] at hl
  · rwa [h.kept q hq (Slot.live_of_liveOf hl)]

/-- The voided slot, if not reclaimed, is not at the tail. -/
theorem Journal.VoidedAt.cursor_ne_tail (hv : (k.slot c).valid = true) : c ≠ k.tail := by
  intro he
  have hspan := h.after.span c
  rw [hv] at hspan
  have hage := (Journal.inSpan_age hspan.symm).2
  have hnot := h.after.tailLive (by omega)
  rw [← he] at hnot
  have := h.voided
  simp [Slot.live, hv, hnot] at this

/-- The slots at and before a cursor still in the span, in the new order. -/
theorem Journal.VoidedAt.age_prevPos (hv : (k.slot c).valid = true) :
    k.inSpan (prevPos c) = true ∧ k.age (prevPos c) + 1 = k.age c ∧ j.age c = k.age c + (j.occ - k.occ) := by
  have hspan : k.inSpan c = true := (h.after.span c).symm.trans hv
  have hne := h.cursor_ne_tail hv
  exact ⟨Journal.inSpan_prevPos h.after.tail hspan hne,
    Journal.age_prevPos h.after.tail (Journal.inSpan_age hspan).1 hne, h.order c hspan⟩

section Older
variable {w : Win} {p : Nat} (hn : j.NextOlder w c p)
include hn

theorem Journal.VoidedAt.older_live : p ≠ c ∧ (k.slot p).liveOf w = true ∧ j.age p = k.age p + (j.occ - k.occ) := by
  have hp : p ≠ c := fun he => absurd hn.2.1 (he ▸ Nat.lt_irrefl _)
  have hl := (h.liveOf_iff w hp).mpr hn.1
  exact ⟨hp, hl, h.order p (h.after.live_inSpan (Slot.live_of_liveOf hl))⟩

/-- With an older record of the window still LIVE, the voided slot is not reclaimed. -/
theorem Journal.VoidedAt.older_valid : (k.slot c).valid = true := by
  obtain ⟨-, -, hage⟩ := h.older_live hn
  have hlt := hn.2.1
  rw [h.after.span]
  exact h.stays c h.cursor (by omega)

/-- The examination from before the cursor meets the next older record first. -/
theorem Journal.VoidedAt.older_firstFrom : k.FirstFrom w (prevPos c) p := by
  obtain ⟨hp, hlive, hage⟩ := h.older_live hn
  obtain ⟨-, hprev, hc⟩ := h.age_prevPos (h.older_valid hn)
  obtain ⟨-, hlt, hnext⟩ := hn
  refine ⟨hlive, by omega, fun q hq hle => ?_⟩
  obtain ⟨hqc, -⟩ := h.live q (Slot.live_of_liveOf hq)
  have hq' := h.order q (h.after.live_inSpan (Slot.live_of_liveOf hq))
  have := hnext q ((h.liveOf_iff w hqc).mp hq) (by omega)
  omega

end Older

/-- With no older record of the window, none stands before a cursor still in the span. -/
theorem Journal.VoidedAt.none_before {w : Win} (hno : ∀ q, (j.slot q).liveOf w = true → j.age c ≤ j.age q)
    (hv : (k.slot c).valid = true) : ∀ q, (k.slot q).liveOf w = true → k.age (prevPos c) < k.age q := by
  obtain ⟨-, hprev, hc⟩ := h.age_prevPos hv
  intro q hq
  obtain ⟨hqc, -⟩ := h.live q (Slot.live_of_liveOf hq)
  have hq' := h.order q (h.after.live_inSpan (Slot.live_of_liveOf hq))
  have := hno q ((h.liveOf_iff w hqc).mp hq)
  omega

/-- A cursor that stood at the tail is reclaimed, or the tail has not moved. -/
theorem Journal.VoidedAt.tail_of_cursor (ht : c = j.tail) (hv : (k.slot c).valid = true) : c = k.tail := by
  have hspan : k.inSpan c = true := (h.after.span c).symm.trans hv
  have h0 := Journal.age_tail h.before.tail
  have hc := h.order c hspan
  rw [← ht] at h0
  exact Journal.age_eq_zero h.after.tail (Journal.inSpan_age hspan).1 (by omega)

end VoidedAt

/-! ## RESTORE_WRITE_COMPLETE (R38, R104, R106) -/

/-- The walk as the engine examines on from the record it has restored (R106). -/
def Walk.next (k : Walk) : Walk := { k with claim := .noClaim, cursor := prevPos k.cursor }

@[simp] theorem Walk.next_window (k : Walk) : k.next.window = k.window := by simp only [Walk.next]
@[simp] theorem Walk.next_target (k : Walk) : k.next.target = k.target := by simp only [Walk.next]
@[simp] theorem Walk.next_cursor (k : Walk) : k.next.cursor = prevPos k.cursor := rfl
@[simp] theorem Walk.claiming_window (k : Walk) (j : Journal) (p : Nat) : (k.claiming j p).window = k.window := rfl
@[simp] theorem Walk.claiming_target (k : Walk) (j : Journal) (p : Nat) : (k.claiming j p).target = k.target := rfl
@[simp] theorem Walk.claiming_cursor (k : Walk) (j : Journal) (p : Nat) : (k.claiming j p).cursor = p := rfl

section RestoreDriven
variable {s : State} {k : Walk} {e : Entry} (h : s.RestoreDriven k e)
include h

theorem State.RestoreDriven.exec_complete : exec .restoreWriteComplete s
    = .next (State.examine ((s.restored k e).ret.journal.occ + 2) ((s.restored k e).setWalk (some k.next))).endRecovering := by
  obtain ⟨c, hflight, hvoid⟩ := h.restoreInFlight
  simp only [exec, execRestoreWriteComplete, hflight, hvoid]
  rfl

theorem State.RestoreDriven.voidedAt : s.ret.journal.VoidedAt (s.restored k e).ret.journal k.cursor :=
  Journal.voidOne_voidedAt h.journal h.live.1

/-- The last record of the walk completes it (R107). -/
theorem State.RestoreDriven.examine_complete {c : RollbackCause} (hcause : e.cause = some c) (hc : e.count - 1 = k.target)
    (n : Nat) :
    State.examine (n + 1) ((s.restored k e).setWalk (some k.next)) = (s.restored k e).completeRollback k.window := by
  have hentry := h.singleVoided.entry
  have hcount : (s.restored k e).countOf k.window = k.target := (State.countOf_entry hentry).trans hc
  generalize s.restored k e = u at *
  have hdone := State.examine_complete n (s := u.setWalk (some k.next)) (k := k.next) (State.setWalk_walk u _)
    (by simpa using hcount)
  rw [Walk.next_window] at hdone
  exact hdone.trans (State.completeRollback_setWalk hentry hcause _)

section Short
variable (hc : e.count - 1 ≠ k.target)
include hc

/-- A cursor that was the last of the records: the walk ends in damage there (R109). -/
theorem State.RestoreDriven.examine_last {n : Nat}
    (ho : k.lastAtTail = true ∨ ((s.restored k e).ret.journal.slot k.cursor).valid = false) :
    State.examine (n + 1) ((s.restored k e).setWalk (some k.next)) = (s.restored k e).damage k.window k.cursor := by
  have hentry := h.singleVoided.entry
  have hlast := h.examined.1
  have hcount : (s.restored k e).countOf k.window ≠ k.target := by
    rw [State.countOf_entry hentry]
    exact hc
  generalize s.restored k e = u at *
  have hout : k.next.outOfRecords u.ret.journal = true := by
    simpa [Walk.outOfRecords, Walk.next, hlast] using ho
  have hdone := State.examine_outOfRecords n (s := u.setWalk (some k.next)) (k := k.next) (p := k.cursor)
    (State.setWalk_walk u _) (by simpa using hcount) (by simpa only [Walk.next] using hlast) hout
  rw [Walk.next_window] at hdone
  exact hdone.trans (State.damage_setWalk hentry _ _)

/-- Short of the target the walk goes on to the next older record, or to the slot examined last (R104, R105, R109). -/
theorem State.RestoreDriven.examine_short :
    (∀ p, s.ret.journal.NextOlder k.window k.cursor p →
        ((s.ret.journal.slot p).checks = true →
            State.examine ((s.restored k e).ret.journal.occ + 2) ((s.restored k e).setWalk (some k.next))
              = (s.restored k e).setWalk (some (k.next.claiming (s.restored k e).ret.journal p)))
          ∧ ((s.ret.journal.slot p).checks = false →
            State.examine ((s.restored k e).ret.journal.occ + 2) ((s.restored k e).setWalk (some k.next))
              = (s.restored k e).damage k.window p))
      ∧ ((∀ q, (s.ret.journal.slot q).liveOf k.window = true → s.ret.journal.age k.cursor ≤ s.ret.journal.age q) →
          State.examine ((s.restored k e).ret.journal.occ + 2) ((s.restored k e).setWalk (some k.next))
            = (s.restored k e).damage k.window
                (if ((s.restored k e).ret.journal.slot k.cursor).valid then (s.restored k e).ret.journal.tail
                  else k.cursor)) := by
  have hv := h.voidedAt
  have hentry := h.singleVoided.entry
  have hlast := fun ho => h.examine_last hc (n := (s.restored k e).ret.journal.occ + 1) ho
  have hexamined := h.examined
  generalize s.restored k e = u at *
  have hdamage (p : Nat) := State.damage_setWalk hentry (some k.next) p
  have hgoes (hat : k.lastAtTail = false) (hvalid : (u.ret.journal.slot k.cursor).valid = true) := by
    have hin := (hv.age_prevPos hvalid).1
    have hage := (Journal.inSpan_age hin).2
    have hspec := State.examine_spec (u.ret.journal.occ + 2) (s := u.setWalk (some k.next)) (k := k.next) (e := _)
      hv.after (State.setWalk_walk u _) (by simpa using hentry) (by simpa using hc)
      (by simp [Walk.outOfRecords, Walk.next, hexamined.1, hat, hvalid]) (by simpa using hin)
      (by rw [Walk.next_cursor]; simp only [State.setWalk_ret]; omega)
    simpa only [Walk.next_window, Walk.next_cursor, State.setWalk_ret, State.setWalk_setWalk] using hspec
  refine ⟨fun p hp => ?_, fun hno => ?_⟩
  · obtain ⟨hpc, -, -⟩ := hv.older_live hp
    have hat : k.lastAtTail = false := by
      by_contra hat
      have htail := hexamined.2 (Bool.eq_true_of_not_eq_false hat)
      have hage := hp.2.1
      rw [htail, Journal.age_tail hv.before.tail] at hage
      omega
    obtain ⟨hclaim, hdam⟩ := (hgoes hat (hv.older_valid hp)).1 p (hv.older_firstFrom hp)
    have hslot : u.ret.journal.slot p = s.ret.journal.slot p := hv.kept p hpc (Slot.live_of_liveOf hp.1)
    rw [← hslot]
    exact ⟨hclaim, fun hx => (hdam hx).trans (hdamage p)⟩
  · by_cases hvalid : (u.ret.journal.slot k.cursor).valid = true
    · rw [if_pos hvalid]
      by_cases hat : k.lastAtTail = true
      · rw [hlast (Or.inl hat), hv.tail_of_cursor (hexamined.2 hat) hvalid]
      · exact ((hgoes (Bool.eq_false_of_not_eq_true hat) hvalid).2 (hv.none_before hno hvalid)).trans (hdamage _)
    · rw [if_neg hvalid]
      exact hlast (Or.inr (Bool.eq_false_of_not_eq_true hvalid))

end Short

theorem State.RestoreDriven.restored_mainRuns : (s.restored k e).mainRuns = true :=
  (State.mainRuns_congr h.singleVoided.power.1).trans h.runs

end RestoreDriven

theorem State.Restoring.restored_noHeld {s : State} {k : Walk} {e : Entry} (h : s.Restoring k e) :
    (s.restored k e).noHeld k.window := by
  unfold State.noHeld
  rw [h.driven.singleVoided.access.2.1]
  exact h.noHeld

/-- Settles O28. -/
theorem restoreCompletesThenVoids : Obligations.RestoreCompletesThenVoids := by
  intro s k e c h hcause
  have hvoided := h.driven.singleVoided
  have hentry := hvoided.entry
  refine ⟨s.restored k e, _, hvoided, h.driven.exec_complete, fun hc => ?_, fun hc => ⟨fun p hp => ⟨fun hx => ?_, fun hx => ?_⟩,
    fun hno => ?_⟩⟩
  · rw [h.driven.examine_complete hcause hc]
    exact State.completeRollback_done hentry hcause h.driven.restored_mainRuns h.restored_noHeld
  · rw [((h.driven.examine_short hc).1 p hp).1 hx]
    simpa using ClaimPlaced.setWalk (s.restored k e) (k := k.next.claiming _ p) rfl
  · rw [((h.driven.examine_short hc).1 p hp).2 hx]
    exact State.damage_taken hentry h.driven.restored_mainRuns h.restored_noHeld p
  · rw [(h.driven.examine_short hc).2 hno]
    exact State.damage_taken hentry h.driven.restored_mainRuns h.restored_noHeld _

/-! ## The last walk of RECOVERING (R155) -/

theorem State.engine_idle_iff (s : State) : s.engine = .idle ↔ s.main.stopped = false ∧ s.main.walk = none := by
  unfold State.engine
  cases s.main.stopped <;> cases s.main.walk <;> simp
  split <;> simp

/-- The end of the last walk, reported in `t` behind the events `l`, ends RECOVERING (R155). -/
theorem State.lastWalk_ends {s t : State} {y : Tally} {l : List (EventKind × Option Win × Word)} (hevents : EventsAre s t l)
    (hp : t.power = s.power) (hmask : t.ret.kindMask = s.ret.kindMask) (hstamp : t.main.stamp = s.main.stamp)
    (hrec : s.power = .recovering) (hph : t.main.phase = some .walking) (hwalk : t.main.walk = none)
    (hstop : t.main.stopped = false) (hnone : ∀ w, t.isPending w = false) (hy : t.main.tally = some y) :
    ∃ q o, t.endRecovering
        = { t with power := .active, main.phase := none, main.tally := none, main.queue := q, main.overrun := o }
      ∧ EventsAre s t.endRecovering (l ++ [(.recoveryDone, none, detailTally y)]) := by
  obtain ⟨q, o, hend, hdone⟩ := State.endRecovering_ends (hp.trans hrec) hph
    (t.engine_idle_iff.mpr ⟨hstop, hwalk⟩) hnone hy
  exact ⟨q, o, hend, EventsAre.append hp hmask hstamp hevents hdone⟩

section LastWalk
variable {s u t : State} {w : Win} {e : Entry} {y : Tally} (hposts : PostSame s u) (hslot : u.slot w = s.slot w)
  (hdesc : u.desc w = s.desc w) (hrec : s.power = .recovering) (hph : u.main.phase = some .walking)
  (hstop : u.main.stopped = false) (hnone : ∀ v, u.isPending v = false) (hy : u.main.tally = some y)
include hposts hslot hdesc hrec hph hstop hnone hy

/-- The completion of the last walk is counted, and ends RECOVERING (R154, R155). -/
theorem RollbackDone.endRecovering (h : RollbackDone u t w e .recovery) :
    t.endRecovering.power = .active ∧ t.endRecovering.main.phase = none ∧ t.endRecovering.main.tally = none
      ∧ t.endRecovering.txnState w = some .idle
      ∧ HandedOn s t.endRecovering w .recovered .noReason e.seq (e.restored.getD 0)
      ∧ EventsAre s t.endRecovering
          (s.superseding w
            ++ [(.rollbackDone, some w, detailReceipt .recovered .noReason e.seq (e.restored.getD 0)),
                (.recoveryDone, none, detailTally { y with rolledBack := y.rolledBack + 1 })]) := by
  have hreceipt := HandedOn.congr hslot hdesc h.receipt
  have hevents := EventsAre.congr hposts h.events
  rw [superseding_congr hslot] at hevents
  have htally : t.main.tally = some { y with rolledBack := y.rolledBack + 1 } := by
    rw [h.tally, if_pos rfl, hy]
    rfl
  obtain ⟨q, o, hend, hdone⟩ := State.lastWalk_ends hevents (h.power.1.trans hposts.power)
    (h.rest.config.2.2.2.2.trans hposts.mask) (h.rest.clock.1.trans hposts.stamp) hrec (h.power.2.2.2.2.2.trans hph) h.walk
    (h.rest.pendSet.2.trans hstop) (fun v => (congrArg (winGet · v) h.rest.pendSet.1).trans (hnone v)) htally
  rw [List.append_assoc] at hdone
  rw [hend] at hdone ⊢
  exact ⟨rfl, rfl, rfl, State.txnState_of_entry h.entry, hreceipt, hdone⟩

/-- Damage that ends the last walk is counted in neither number, and ends RECOVERING (R154, R155). -/
theorem DamageTaken.endRecovering {p : Nat} (h : DamageTaken u t w e p) :
    t.endRecovering.power = .active ∧ t.endRecovering.main.phase = none ∧ t.endRecovering.main.tally = none
      ∧ t.endRecovering.txnState w = some .damaged
      ∧ HandedOn s t.endRecovering w .damaged .checkFail e.seq (e.restored.getD 0)
      ∧ EventsAre s t.endRecovering
          (s.superseding w
            ++ [(.recordDamaged, some w, BitVec.ofNat 32 p), (.recoveryDone, none, detailTally y)]) := by
  have hreceipt := HandedOn.congr hslot hdesc h.receipt
  have hevents := EventsAre.congr hposts h.events
  rw [superseding_congr hslot] at hevents
  obtain ⟨hpower, -, -, -, -, hphase, htally⟩ := h.power
  obtain ⟨q, o, hend, hdone⟩ := State.lastWalk_ends hevents (hpower.trans hposts.power)
    (h.rest.config.2.2.2.2.trans hposts.mask) (h.rest.clock.1.trans hposts.stamp) hrec (hphase.trans hph) h.walk
    (h.rest.pendSet.2.trans hstop) (fun v => (congrArg (winGet · v) h.rest.pendSet.1).trans (hnone v)) (htally.trans hy)
  rw [List.append_assoc] at hdone
  rw [hend] at hdone ⊢
  exact ⟨rfl, rfl, rfl, State.txnState_of_entry h.entry, hreceipt, hdone⟩

end LastWalk

/-- Settles O30. -/
theorem lastWalkEndsRecovering : Obligations.LastWalkEndsRecovering := by
  refine ⟨fun s => ⟨fun hp hph hidle hnone y hy => State.endRecovering_ends hp hph hidle hnone hy,
    State.endRecovering_stays⟩, ?_, ?_⟩
  · intro s w e y hp hph hy hidle hpend hothers he hcause hc hn
    have hruns : s.mainRuns = true := by simp [State.mainRuns, hp]
    have htarget : e.count = e.target := by simp [Entry.target, hcause, hc]
    have hexec := exec_selection hruns hidle hpend fun v hv => hothers v (ne_of_lt hv)
    rw [State.examine_createWalk_complete he hcause htarget] at hexec
    have hdone := State.completeRollback_done (s := s.setPending w false) he hcause hruns hn
    have hnone (v : Win) : (s.setPending w false).isPending v = false := by
      by_cases hv : v = w
      · rw [hv, State.setPending_isPending_self]
      · rw [State.setPending_isPending, if_neg hv]
        exact hothers v hv
    exact ⟨_, hexec, hdone.endRecovering (s := s) (u := s.setPending w false) ⟨rfl, rfl, rfl, rfl, rfl⟩ rfl rfl hp hph
      (s.engine_idle_iff.mp hidle).1 hnone hy⟩
  · intro s k e y n h hp hph hy hstop hnone hcause hn
    have hvoided := h.driven.singleVoided
    have hentry := hvoided.entry
    obtain ⟨hpower, -, -, -, -, hphase, htally⟩ := hvoided.power
    have hposts : PostSame s (s.restored k e) :=
      ⟨hpower, hvoided.config.2.2.2.2, hvoided.clock.1, hvoided.events.1, hvoided.events.2⟩
    have hdesc : (s.restored k e).desc k.window = s.desc k.window :=
      congrArg (winGet · k.window) hvoided.config.1
    have hpend (v : Win) : (s.restored k e).isPending v = false :=
      (congrArg (winGet · v) hvoided.engine.1).trans (hnone v)
    have hrestored : (e.restored.map (· + 1)).getD 0 = n + 1 := by rw [hn]; rfl
    have hslot := hvoided.counter.2
    have hstop' := hvoided.engine.2.trans hstop
    refine ⟨fun hc => ?_, fun p hc hc0 hnext hx => ?_⟩
    · have hexec := h.driven.exec_complete
      rw [h.driven.examine_complete hcause (by omega)] at hexec
      have hdone := State.completeRollback_done hentry hcause h.driven.restored_mainRuns h.restored_noHeld
      have hend := hdone.endRecovering hposts hslot hdesc hp (hphase.trans hph) hstop' hpend (htally.trans hy)
      rw [hrestored] at hend
      exact ⟨_, hexec, hend⟩
    · have hexec := h.driven.exec_complete
      rw [((h.driven.examine_short (by omega)).1 p hnext).2 hx] at hexec
      have hdone := State.damage_taken hentry h.driven.restored_mainRuns h.restored_noHeld p
      have hend := hdone.endRecovering hposts hslot hdesc hp (hphase.trans hph) hstop' hpend (htally.trans hy)
      rw [hrestored] at hend
      exact ⟨_, hexec, hend⟩

end Sys2Proof.Machine
end

section
/-! PROOFS. The end of a walk, whatever the rest of the state, and the held access released there (O29). -/

namespace Sys2Proof.Machine

/-! ## How a walk ends (R104 to R109)

The examination looks at the walk, its window's count and the ring alone. -/

/-- How an examination ends. -/
inductive WalkEnd where
  | claims (p : Nat)
  | damaged (p : Nat)
  | complete

/-- What the end of the examination of walk `k` does. -/
def State.endWalk (s : State) (k : Walk) (o : WalkEnd) : State :=
  match o with
  | .claims p => s.setWalk (some (k.claiming s.ret.journal p))
  | .damaged p => s.damage k.window p
  | .complete => s.completeRollback k.window

/-- An end that the examination of walk `k` of a window with entry `e` can have in ring `j`. -/
def WalkEnd.Sound (o : WalkEnd) (j : Journal) (k : Walk) (e : Entry) : Prop :=
  match o with
  | .claims p => (j.slot p).liveOf k.window = true ∧ (j.slot p).checks = true ∧ e.count ≠ k.target
  | .damaged p => p < Config.journalSlots ∧ e.count ≠ k.target
  | .complete => e.count = k.target

/-- Among the LIVE records of a window at or behind a position one is the newest. -/
theorem Journal.exists_firstFrom {j : Journal} (hj : j.Lawful) {w : Win} {c q : Nat} (hq : (j.slot q).liveOf w = true)
    (hc : j.age q ≤ j.age c) : ∃ p, j.FirstFrom w c p := by
  have hfinite : {q | (j.slot q).liveOf w = true ∧ j.age q ≤ j.age c}.Finite :=
    (Set.finite_lt_nat Config.journalSlots).subset fun q hq =>
      (Journal.inSpan_age (hj.live_inSpan (Slot.live_of_liveOf hq.1))).1
  obtain ⟨p, ⟨hlive, hage⟩, hmax⟩ := Set.exists_max_image _ j.age hfinite ⟨q, hq, hc⟩
  exact ⟨p, hlive, hage, fun q hq hle => hmax q ⟨hq, hle⟩⟩

/-- The examination of a walk at its target, out of records, or with its cursor in the span. -/
theorem Journal.walk_ends {j : Journal} {k : Walk} {e : Entry} (hj : j.Lawful)
    (hlast : ∀ p, k.lastPos = some p → p < Config.journalSlots)
    (h : e.count = k.target ∨ k.outOfRecords j = true ∨ j.inSpan k.cursor = true) :
    ∃ o : WalkEnd, o.Sound j k e ∧ ∀ s : State, s.ret.journal = j → s.main.walk = some k → s.entry k.window = some e →
      State.examine (j.occ + 2) s = s.endWalk k o := by
  by_cases hc : e.count = k.target
  · refine ⟨.complete, hc, fun s _ hk he => ?_⟩
    exact State.examine_complete _ hk ((State.countOf_entry he).trans hc)
  by_cases hout : k.outOfRecords j = true
  · obtain ⟨p, hp⟩ : ∃ p, k.lastPos = some p := by
      cases hp : k.lastPos with
      | none => simp [Walk.outOfRecords, hp] at hout
      | some p => exact ⟨p, rfl⟩
    refine ⟨.damaged p, ⟨hlast p hp, hc⟩, fun s hs hk he => ?_⟩
    exact State.examine_outOfRecords _ hk (by rw [State.countOf_entry he]; exact hc) hp (by rw [hs]; exact hout)
  · have hspan : j.inSpan k.cursor = true := (h.resolve_left hc).resolve_left hout
    have hage := (Journal.inSpan_age hspan).2
    have hspec (s : State) (hs : s.ret.journal = j) (hk : s.main.walk = some k) (he : s.entry k.window = some e) :=
      State.examine_spec (j.occ + 2) (s := s) (k := k) (e := e) (by rw [hs]; exact hj) hk he hc
        (by rw [hs]; exact Bool.eq_false_of_not_eq_true hout) (by rw [hs]; exact hspan) (by rw [hs]; omega)
    by_cases hex : ∃ p, j.FirstFrom k.window k.cursor p
    · obtain ⟨p, hp⟩ := hex
      have hlt : p < Config.journalSlots := (Journal.inSpan_age (hj.live_inSpan (Slot.live_of_liveOf hp.1))).1
      cases hx : (j.slot p).checks with
      | true =>
        refine ⟨.claims p, ⟨hp.1, hx, hc⟩, fun s hs hk he => ?_⟩
        obtain ⟨hfirst, -⟩ := hspec s hs hk he
        rw [hs] at hfirst
        exact ((hfirst p hp).1 hx).trans (by rw [State.endWalk, hs])
      | false =>
        refine ⟨.damaged p, ⟨hlt, hc⟩, fun s hs hk he => ?_⟩
        obtain ⟨hfirst, -⟩ := hspec s hs hk he
        rw [hs] at hfirst
        exact (hfirst p hp).2 hx
    · refine ⟨.damaged j.tail, ⟨hj.tail, hc⟩, fun s hs hk he => ?_⟩
      obtain ⟨-, hnone⟩ := hspec s hs hk he
      rw [hs] at hnone
      exact hnone fun q hq => by
        by_contra hle
        exact hex (Journal.exists_firstFrom hj hq (Nat.le_of_not_lt hle))

/-! ## An access beside the walk -/

/-- The access in flight and the hold timer replaced. -/
def State.putAccess (s : State) (x : Option Access) (n : Option Nat) : State :=
  { s with main.access := x, main.holdTimer := n }

theorem State.putAccess_self (s : State) (x : Option Access) (n : Option Nat) :
    (s.putAccess x n).putAccess s.main.access s.main.holdTimer = s := rfl

section PutAccess
variable (s : State) (x : Option Access) (n : Option Nat)

@[simp] theorem State.putAccess_access : (s.putAccess x n).main.access = x := rfl
@[simp] theorem State.putAccess_holdTimer : (s.putAccess x n).main.holdTimer = n := rfl
@[simp] theorem State.putAccess_owner : (s.putAccess x n).main.owner = s.main.owner := rfl
@[simp] theorem State.putAccess_cycle : (s.putAccess x n).main.cycle = s.main.cycle := rfl
@[simp] theorem State.putAccess_examining : (s.putAccess x n).main.examining = s.main.examining := rfl
@[simp] theorem State.putAccess_ret : (s.putAccess x n).ret = s.ret := rfl
@[simp] theorem State.putAccess_mainRuns : (s.putAccess x n).mainRuns = s.mainRuns := rfl
@[simp] theorem State.putAccess_kindEnabled (k : EventKind) : (s.putAccess x n).kindEnabled k = s.kindEnabled k := rfl
@[simp] theorem State.putAccess_queue : (s.putAccess x n).main.queue = s.main.queue := rfl
@[simp] theorem State.putAccess_entry (w : Win) : (s.putAccess x n).entry w = s.entry w := rfl
@[simp] theorem State.putAccess_desc (w : Win) : (s.putAccess x n).desc w = s.desc w := rfl
@[simp] theorem State.putAccess_slot (w : Win) : (s.putAccess x n).slot w = s.slot w := rfl
@[simp] theorem State.putAccess_counter (w : Win) : (s.putAccess x n).counter w = s.counter w := rfl
@[simp] theorem State.putAccess_deadline (w : Win) : (s.putAccess x n).deadline w = s.deadline w := rfl
@[simp] theorem State.putAccess_txnState (w : Win) : (s.putAccess x n).txnState w = s.txnState w := rfl

theorem State.post_putAccess (k : EventKind) (w : Option Win) (d : Word) :
    (s.putAccess x n).post k w d = (s.post k w d).putAccess x n := by
  unfold State.post
  by_cases hr : s.mainRuns = true
  · by_cases hk : s.kindEnabled k = true
    · by_cases hq : s.main.queue.length < Config.queueCapacity <;> simp [hr, hk, hq] <;> rfl
    · simp [hr, hk]
  · simp [hr]

theorem State.handOn_putAccess (w : Win) (o : ReceiptOutcome) (r : ReceiptReason) (q : Byte) (m : Nat) :
    (s.putAccess x n).handOn w o r q m = (s.handOn w o r q m).putAccess x n := by
  unfold State.handOn
  by_cases hr : s.mainRuns = true
  · simp only [State.putAccess_mainRuns, State.putAccess_slot, State.putAccess_desc, hr, Bool.not_true,
      Bool.false_eq_true, if_false]
    cases s.slot w with
    | pending old y => exact State.post_putAccess (s.setSlot w _) x n _ _ _
    | empty => rfl
    | writing => rfl
  · simp [hr]

theorem State.resumeCounter_putAccess (w : Win) (c : RollbackCause) :
    (s.putAccess x n).resumeCounter w c = (s.resumeCounter w c).putAccess x n := by
  unfold State.resumeCounter
  cases c with
  | returned => by_cases hm : (s.desc w).deadlineMode = .idle <;> simp [hm] <;> rfl
  | _ => rfl

theorem State.damageReported_putAccess (w : Win) (e : Entry) (p : Nat) :
    (s.putAccess x n).damageReported w e p = (s.damageReported w e p).putAccess x n := by
  unfold State.damageReported State.endsWith
  rw [← State.post_putAccess, ← State.handOn_putAccess]
  rfl

theorem State.rollbackReported_putAccess (w : Win) (e : Entry) (c : RollbackCause) :
    (s.putAccess x n).rollbackReported w e c = (s.rollbackReported w e c).putAccess x n := by
  unfold State.rollbackReported
  rw [← State.post_putAccess, ← State.handOn_putAccess, ← State.resumeCounter_putAccess]
  rfl

theorem State.tallyRollback_putAccess (c : RollbackCause) :
    (s.putAccess x n).tallyRollback c = (s.tallyRollback c).putAccess x n := by
  cases c <;> rfl

end PutAccess

/-! ## The held access at the end of a walk (R82) -/

theorem State.releaseHeld_none {s : State} (h : s.main.access = none) (w : Win) : s.releaseHeld w = s :=
  State.releaseHeld_noHeld fun _ ha => absurd (h.symm.trans ha) nofun

/-- The examination ends the walk. -/
def WalkEnd.ends (o : WalkEnd) : Bool :=
  match o with
  | .claims _ => false
  | .damaged _ => true
  | .complete => true

/-- The notice to the classifier that ends a walk of window `w` (R82). -/
def WalkEnd.release (o : WalkEnd) (t : State) (w : Win) : State := if o.ends then t.releaseHeld w else t

section EndWalk
variable {s : State} {k : Walk} {e : Entry} {c : RollbackCause} (he : s.entry k.window = some e)
  (hc : e.cause = some c)
include he hc

/-- The end of a walk with no access in flight. -/
theorem State.endWalk_free (hnone : s.main.access = none) (o : WalkEnd) : (s.endWalk k o).main.access = none := by
  cases o with
  | claims p => exact hnone
  | damaged p =>
    have htaken := TakenFor.damageReported (s.setWalk none) k.window e p
    have hfree := htaken.rest.2.2.1.2.1.trans hnone
    show (s.damage k.window p).main.access = none
    rwa [State.damage_eq he, State.releaseHeld_none hfree]
  | complete =>
    have htaken := TakenFor.rollbackReported ((s.setWalk none).tallyRollback c) k.window e c
    have hbase : ((s.setWalk none).tallyRollback c).main.access = none := by
      rw [← hnone]
      cases c <;> rfl
    have hfree := htaken.rest.2.2.1.2.1.trans hbase
    show (s.completeRollback k.window).main.access = none
    rwa [State.completeRollback_eq he hc, State.releaseHeld_none hfree]

/-- The end of a walk with an access beside it: that access is told of it, and nothing else bears on it. -/
theorem State.endWalk_putAccess (hnone : s.main.access = none) (x : Option Access) (n : Option Nat) (o : WalkEnd) :
    (s.putAccess x n).endWalk k o = o.release ((s.endWalk k o).putAccess x n) k.window := by
  have hfree := State.endWalk_free he hc hnone o
  cases o with
  | claims p => rfl
  | damaged p =>
    have htaken := TakenFor.damageReported (s.setWalk none) k.window e p
    have hreport := State.damageReported_putAccess (s.setWalk none) x n k.window e p
    show (s.putAccess x n).damage k.window p = ((s.damage k.window p).putAccess x n).releaseHeld k.window
    rw [State.damage_eq (s := s.putAccess x n) he, State.damage_eq he,
      State.releaseHeld_none (htaken.rest.2.2.1.2.1.trans hnone)]
    exact congrArg (State.releaseHeld · k.window) hreport
  | complete =>
    have hbase : ((s.putAccess x n).setWalk none).tallyRollback c = ((s.setWalk none).tallyRollback c).putAccess x n :=
      State.tallyRollback_putAccess (s.setWalk none) x n c
    have hlnone : ((s.setWalk none).tallyRollback c).main.access = none := by
      rw [← hnone]
      cases c <;> rfl
    have htaken := TakenFor.rollbackReported ((s.setWalk none).tallyRollback c) k.window e c
    show (s.putAccess x n).completeRollback k.window = ((s.completeRollback k.window).putAccess x n).releaseHeld k.window
    rw [State.completeRollback_eq (s := s.putAccess x n) he hc, State.completeRollback_eq he hc, hbase,
      State.releaseHeld_none (htaken.rest.2.2.1.2.1.trans hlnone), State.rollbackReported_putAccess]

/-- A window that rolls back leaves that state at the end of its own walk alone (R21, R22). -/
theorem State.endWalk_rolling {w : Win} (hs : s.txnState w = some .rollingBack) (o : WalkEnd) :
    (s.endWalk k o).txnState w = some .rollingBack ↔ (o.ends = true → w ≠ k.window) := by
  have hothers {l t : State} (hl : TakenFor l t k.window) (hv : w ≠ k.window) : t.txnState w = l.txnState w := by
    unfold State.txnState
    rw [(hl.others w hv).1]
  cases o with
  | claims p => exact iff_of_true hs nofun
  | damaged p =>
    have htaken := TakenFor.damageReported (s.setWalk none) k.window e p
    have hentry : ((s.setWalk none).damageReported k.window e p).entry k.window = some (e.toDamaged p) := by
      simp [State.damageReported, State.endsWith]
    show (s.damage k.window p).txnState w = _ ↔ _
    rw [State.damage_eq he, (AccessMoves.releaseHeld _ _).txnState]
    by_cases hw : w = k.window
    · rw [hw, State.txnState_of_entry hentry]
      simp [WalkEnd.ends, Entry.toDamaged]
    · rw [hothers htaken hw]
      exact iff_of_true hs fun _ => hw
  | complete =>
    have htaken := TakenFor.rollbackReported ((s.setWalk none).tallyRollback c) k.window e c
    generalize hl : (s.setWalk none).tallyRollback c = l at *
    have hls : l.txnState w = some .rollingBack := by
      rw [← hl, ← hs]
      cases c <;> rfl
    have hentry : (l.rollbackReported k.window e c).entry k.window = some (e.afterRollback c) := by
      have hrest := ((l.setEntry k.window (some (e.afterRollback c))).resumeCounter_rest k.window c).2.1 k.window
      simpa [State.rollbackReported] using hrest
    show (s.completeRollback k.window).txnState w = _ ↔ _
    rw [State.completeRollback_eq he hc, (AccessMoves.releaseHeld _ _).txnState, hl]
    by_cases hw : w = k.window
    · rw [hw, State.txnState_of_entry hentry]
      cases c <;> simp [WalkEnd.ends, Entry.afterRollback, Entry.toReturned, Entry.toIdle]
    · rw [hothers htaken hw]
      exact iff_of_true hls fun _ => hw

end EndWalk

/-! ## The two commands that end a walk (R82, R102, R106) -/

/-- A cell that is counted stands where its index says. -/
theorem cellsGet_of_count {α : Type} [DecidableEq α] {d : α} {q : α → Bool} {m : List (Nat × α)} {lo : Nat}
    (hd : q d = false) (h : cellsWfFrom d lo m = true) (hc : cellsCount q m ≠ 0) : ∃ p, q (cellsGet d m p) = true := by
  induction m generalizing lo with
  | nil => exact absurd rfl hc
  | cons c t ih =>
    obtain ⟨i, x⟩ := c
    rw [cellsCount_cons] at hc
    by_cases hx : q x = true
    · exact ⟨i, by simpa [cellsGet] using hx⟩
    · simp only [cellsWfFrom, Bool.and_eq_true] at h
      obtain ⟨p, hp⟩ := ih h.2 (by simpa [hx] using hc)
      by_cases hip : i = p
      · have hbelow : cellsGet d t p = d := cellsGet_below h.2 (by omega)
        rw [hbelow, hd] at hp
        exact absurd hp (by decide)
      · exact ⟨p, by simpa [cellsGet, hip] using hp⟩

/-- A ring with no slot occupied holds no LIVE record. -/
theorem Journal.liveCount_of_empty {j : Journal} (hj : j.Lawful) (ho : j.occ = 0) (w : Win) : j.liveCount w = 0 := by
  by_contra hc
  rw [Journal.liveCount_eq] at hc
  obtain ⟨p, hp⟩ := cellsGet_of_count (q := fun x => x.liveOf w) (Slot.clear_liveOf w) hj.cells hc
  have hin := Journal.inSpan_age (hj.live_inSpan (Slot.live_of_liveOf hp))
  omega

section Lawful
variable {s : State} (hl : s.Lawful) (hr : s.mainRuns = true)
include hl hr

theorem State.Lawful.ret_lawful : s.ret.Lawful :=
  hl.retained (Or.inr fun hp => by simp [State.mainRuns, hp] at hr)

/-- A window that rolls back has an entry with a cause (R2). -/
theorem State.Lawful.rolling {w : Win} (hw : s.txnState w = some .rollingBack) :
    ∃ e c, s.entry w = some e ∧ e.state = .rollingBack ∧ e.cause = some c := by
  cases he : s.entry w with
  | none => simp [State.txnState, he] at hw
  | some e =>
    have hs : e.state = .rollingBack := Option.some.inj ((State.txnState_of_entry he).symm.trans hw)
    have hcause := ((hl.ret_lawful hr).entries w e he).cause.mpr hs
    obtain ⟨c, hc⟩ := Option.isSome_iff_exists.mp hcause
    exact ⟨e, c, rfl, hs, hc⟩

/-- The walk that a selection creates ends in its examination, which the access path does not bear on (R104). -/
theorem State.Lawful.newWalk_ends {v : Win} {e : Entry} (hp : s.isPending v = true) (he : s.entry v = some e) :
    ∃ o : WalkEnd, o.Sound s.ret.journal (s.ret.journal.newWalk v e.target) e
      ∧ ∀ t : State, t.ret.journal = s.ret.journal → t.main.walk = some (s.ret.journal.newWalk v e.target) →
        t.entry v = some e →
        State.examine (s.ret.journal.occ + 2) t = t.endWalk (s.ret.journal.newWalk v e.target) o := by
  have hret := hl.ret_lawful hr
  have hentry := hret.entries v e he
  refine Journal.walk_ends (k := s.ret.journal.newWalk v e.target) (e := e) hret.journal nofun ?_
  by_cases ho : s.ret.journal.occ = 0
  · have hcount : e.count = 0 := hentry.count.trans (Journal.liveCount_of_empty hret.journal ho v)
    rcases (hl.engine hr).above v e hp he with h | h
    · omega
    · exact Or.inl (by simp [Journal.newWalk, Entry.target, h, hcount])
  · exact Or.inr (Or.inr (hret.journal.prevPos_head ho).1)

/-- The restore write that a lawful state drives is the one the engine completes. -/
theorem State.Lawful.restoreDriven {k : Walk} {c : Cycle} (h : s.restoreInFlight = some (k, c)) :
    ∃ e, s.RestoreDriven k e ∧ e.state = .rollingBack ∧ k.target = e.target ∧ k.target < e.count := by
  have haccess := hl.access hr
  have hengine := hl.engine hr
  obtain ⟨hk, hc, ho, hg⟩ : s.main.walk = some k ∧ s.main.cycle = some c ∧ s.main.owner = .rollbackEngine
      ∧ k.claim = .granted := by
    unfold State.restoreInFlight at h
    split at h
    next k' c' hk hc =>
      split at h
      next hcond =>
        obtain ⟨rfl, rfl⟩ : k' = k ∧ c' = c := by simpa using h
        simp only [Bool.and_eq_true, decide_eq_true_eq] at hcond
        exact ⟨hk, hc, hcond.1, hcond.2⟩
      · cases h
    · cases h
  obtain ⟨-, hlive, hwin, -, hlast, htail, e, he, hs, ht, hlt⟩ := hengine.record k hk
  refine ⟨e, ⟨hr, hk, hg, ho, ?_, (hl.ret_lawful hr).journal, ?_, ⟨hlast, htail⟩, he, hl.memory⟩, hs, ht, hlt⟩
  · rw [hc, haccess.restore ho k c hk hc]
  · simp [Slot.liveOf, hlive, hwin]

end Lawful

/-- RECOVERING does not end where work is left (R155; logs 14, 19). -/
theorem State.endRecovering_rest {s : State} (h : s.main.phase = some .walking → s.engineSignal = false) :
    s.endRecovering = s := by
  refine State.endRecovering_stays ?_
  by_cases hph : s.main.phase = some .walking
  · by_contra hn
    push Not at hn
    have hsig := s.engineSignal_iff.mpr ⟨hn.2.2.1, fun w => Bool.eq_false_of_not_eq_true (hn.2.2.2 w)⟩
    exact absurd ((h hph).symm.trans hsig) (by decide)
  · exact Or.inr (Or.inl hph)

/-- The walk that goes on from a restored record ends in its examination (R104, R109). -/
theorem State.RestoreDriven.next_ends {s : State} {k : Walk} {e : Entry} (h : s.RestoreDriven k e) :
    ∃ o : WalkEnd, o.Sound (s.restored k e).ret.journal k.next
        { e with count := e.count - 1, restored := e.restored.map (· + 1) }
      ∧ ∀ t : State, t.ret.journal = (s.restored k e).ret.journal → t.main.walk = some k.next →
        t.entry k.window = some { e with count := e.count - 1, restored := e.restored.map (· + 1) } →
        State.examine ((s.restored k e).ret.journal.occ + 2) t = t.endWalk k.next o := by
  have hv := h.voidedAt
  have hlt := (Journal.inSpan_age hv.cursor).1
  have hnext : k.next.lastPos = k.lastPos := by simp only [Walk.next]
  obtain ⟨hlast, -⟩ := h.examined
  obtain ⟨o, hsound, hends⟩ := Journal.walk_ends (k := k.next)
    (e := { e with count := e.count - 1, restored := e.restored.map (· + 1) }) hv.after
    (fun p hp => by
      rw [hnext, hlast] at hp
      rwa [← Option.some.inj hp])
    (by
      by_cases hvalid : ((s.restored k e).ret.journal.slot k.cursor).valid = true
      · exact Or.inr (Or.inr (by simpa using (hv.age_prevPos hvalid).1))
      · refine Or.inr (Or.inl ?_)
        simp [Walk.outOfRecords, hnext, hlast, hvalid])
  exact ⟨o, hsound, fun t hj hk he => hends t hj hk (by rwa [Walk.next_window])⟩

theorem Moves.endWalk (s : State) (k : Walk) (o : WalkEnd) : Moves s (s.endWalk k o) := by
  cases o with
  | claims p => exact Moves.setWalk _ _
  | damaged p => exact Moves.damage _ _ _
  | complete => exact Moves.completeRollback _ _

theorem exec_selection_none {s : State} (h : s.mainRuns = true → s.engine = .idle → s.firstPending = none) :
    exec .selection s = .next s := by
  by_cases hg : s.mainRuns = true ∧ s.engine = .idle
  · simp [exec, execSelection, hg, h hg.1 hg.2]
  · have hg' : (s.mainRuns && decide (s.engine = .idle)) = false := by simpa using hg
    simp [exec, execSelection, hg']

theorem exec_restoreWriteComplete_none {s : State} (h : s.restoreInFlight = none) :
    exec .restoreWriteComplete s = .next s := by
  simp only [exec, execRestoreWriteComplete, h]

/-- Command `c` ends in the examination of walk `k` from the state `b`, with end `o`, whatever access stands beside it. -/
structure State.WalkEnds (s : State) (c : Instr) (b : State) (k : Walk) (e : Entry) (o : WalkEnd) : Prop where
  runs : ∀ x n, exec c (s.putAccess x n) = .next ((b.putAccess x n).endWalk k o).endRecovering
  entry : b.entry k.window = some e
  rolling : e.state = .rollingBack ∧ ∃ y, e.cause = some y
  sound : o.Sound b.ret.journal k e
  states : ∀ v, b.txnState v = s.txnState v
  rest : b.power = s.power ∧ b.main.phase = s.main.phase ∧ b.port = s.port

section Runs
variable {s : State} (hl : s.Lawful) (hr : s.mainRuns = true)
include hl hr

/-- A selection creates the walk of the lowest-numbered pending window and examines for it (R102). -/
theorem exec_selection_ends {v : Win} (hi : s.engine = .idle) (hv : s.firstPending = some v) :
    ∃ e o, s.WalkEnds .selection (s.createWalk v) (s.ret.journal.newWalk v e.target) e o := by
  obtain ⟨hpend, hlow⟩ := (firstWin_eq_some _ v).mp hv
  obtain ⟨e, y, he, hstate, hy⟩ := hl.rolling hr ((hl.engine hr).pending v hpend)
  obtain ⟨o, hsound, hends⟩ := hl.newWalk_ends hr hpend he
  have hbase := State.createWalk_eq he
  refine ⟨e, o, fun x n => ?_, ?_, ⟨hstate, y, hy⟩, ?_, fun w => ?_, ?_⟩
  · have hexec := exec_selection (s := s.putAccess x n) hr hi hpend hlow
    refine hexec.trans (congrArg (fun t : State => Host.Outcome.next t.endRecovering) ?_)
    exact hends ((s.createWalk v).putAccess x n) (by rw [hbase]; rfl) (by rw [hbase]; rfl) (by rw [hbase]; exact he)
  · rw [hbase]; exact he
  · rw [hbase]; exact hsound
  · rw [hbase]; rfl
  · rw [hbase]; exact ⟨rfl, rfl, rfl⟩

/-- A restore that completes voids its record and examines on (R38, R106). -/
theorem exec_restoreWriteComplete_ends {k : Walk} {c : Cycle} (hf : s.restoreInFlight = some (k, c)) :
    ∃ e o, s.RestoreDriven k e ∧ k.target = e.target ∧ k.target < e.count
      ∧ s.WalkEnds .restoreWriteComplete ((s.restored k e).setWalk (some k.next)) k.next
        { e with count := e.count - 1, restored := e.restored.map (· + 1) } o := by
  obtain ⟨e, hd, hstate, htarget, hcount⟩ := hl.restoreDriven hr hf
  obtain ⟨e', y, he', -, hy⟩ := hl.rolling hr ((State.txnState_of_entry hd.entry).trans (congrArg some hstate))
  obtain rfl : e = e' := Option.some.inj (hd.entry.symm.trans he')
  obtain ⟨o, hsound, hends⟩ := hd.next_ends
  have hvoided := hd.singleVoided
  refine ⟨e, o, hd, htarget, hcount, fun x n => ?_, ?_, ⟨hstate, y, hy⟩, hsound, fun w => ?_, hvoided.power.1,
    hvoided.power.2.2.2.2.2.1, hvoided.access.1⟩
  · have hdriven : (s.putAccess x n).RestoreDriven k e :=
      ⟨hd.runs, hd.walk, hd.claim, hd.owner, hd.cycle, hd.journal, hd.record, hd.examined, hd.entry, hd.memory⟩
    refine hdriven.exec_complete.trans (congrArg (fun t : State => Host.Outcome.next t.endRecovering) ?_)
    exact hends (((s.restored k e).setWalk (some k.next)).putAccess x n) rfl rfl hvoided.entry
  · rw [Walk.next_window]
    exact hvoided.entry
  · show (s.restored k e).txnState w = s.txnState w
    by_cases hkw : w = k.window
    · rw [hkw, State.txnState_of_entry hvoided.entry, State.txnState_of_entry hd.entry]
    · unfold State.txnState
      rw [(hvoided.others w hkw).1]

/-- The commands that end a walk do nothing, or end one. -/
theorem exec_endsWalk_cases {c : Instr} (hc : c = .selection ∨ c = .restoreWriteComplete) :
    (∀ x n, exec c (s.putAccess x n) = .next (s.putAccess x n)) ∨ ∃ b k e o, s.WalkEnds c b k e o := by
  rcases hc with rfl | rfl
  · cases hv : s.firstPending with
    | none => exact Or.inl fun x n => exec_selection_none fun _ _ => hv
    | some v =>
      by_cases hi : s.engine = .idle
      · obtain ⟨e, o, h⟩ := exec_selection_ends hl hr hi hv
        exact Or.inr ⟨_, _, e, o, h⟩
      · exact Or.inl fun x n => exec_selection_none fun _ h => absurd h hi
  · cases hf : s.restoreInFlight with
    | none => exact Or.inl fun x n => exec_restoreWriteComplete_none hf
    | some kc =>
      obtain ⟨e, o, -, -, -, h⟩ := exec_restoreWriteComplete_ends hl hr (k := kc.1) (c := kc.2) hf
      exact Or.inr ⟨_, _, _, o, h⟩

end Runs

/-! ## The held access at the end of its window's walk (R82) -/

/-- An access held for the window whose walk has ended in `u` is classified again. -/
theorem State.releaseHeld_classified {u : State} {a : Access} {w : Win} (n : Option Nat) (ha : a.cond = .held)
    (hw : a.window = some w) (hr : u.mainRuns = true) (hf : u.noneFollows a) :
    Classified u ((u.putAccess (some a) n).releaseHeld w) a ∧ AccessOnly u ((u.putAccess (some a) n).releaseHeld w)
      ∧ ((u.putAccess (some a) n).releaseHeld w).port = u.port := by
  have hrelease : (u.putAccess (some a) n).releaseHeld w = ((u.putAccess (some a) none).route a).settle := by
    unfold State.releaseHeld
    exact if_pos (by simp [ha, hw])
  have hmoves : AccessMoves u ((u.putAccess (some a) none).route a).settle :=
    (AccessMoves.set u (some a) none u.main.prdy u.main.pd).trans ((AccessMoves.route _ _).trans (AccessMoves.settle _))
  rw [hrelease]
  exact ⟨Classified.congr (s' := u.putAccess (some a) none) ⟨rfl, rfl, ⟨rfl, rfl, rfl, rfl, rfl⟩, rfl, rfl⟩
    (State.route_settled _ a hf hr), hmoves.only, hmoves.port⟩

/-- An access held for another window than the one whose walk has ended stays held. -/
theorem State.releaseHeld_other {u : State} {a : Access} {v w : Win} (n : Option Nat) (ha : a.window = some w)
    (hv : w ≠ v) : (u.putAccess (some a) n).releaseHeld v = u.putAccess (some a) n := by
  refine State.releaseHeld_noHeld fun b hb _ hw => hv ?_
  obtain rfl : a = b := Option.some.inj hb
  exact Option.some.inj (ha.symm.trans hw)

/-- Settles O29. -/
theorem heldAccessIsReleasedAtTheEnd : Obligations.HeldAccessIsReleasedAtTheEnd := by
  intro c s a w hl hc hr ha hcond hw hs hf
  have hself : s.putAccess (some a) s.main.holdTimer = s := by rw [← ha]; rfl
  rcases exec_endsWalk_cases hl hr (by simpa using hc) with hidle | ⟨b, k, e, o, h⟩
  · have h0 := hidle none none
    have h1 := hidle (some a) s.main.holdTimer
    rw [hself] at h1
    refine ⟨s.putAccess none none, ?_, rfl, rfl, rfl, fun _ => ?_, fun hn => absurd hs hn⟩
    · rw [State.endRecovering_rest (s := s.putAccess none none) hl.power.walking]
      exact h0
    · rw [h1]
      refine congrArg Host.Outcome.next (Eq.symm ?_)
      exact (congrArg State.endRecovering hself).trans (State.endRecovering_rest hl.power.walking)
  · obtain ⟨-, y, hy⟩ := h.rolling
    have hbs : (b.putAccess none none).txnState w = some .rollingBack := (h.states w).trans hs
    have hrolls := State.endWalk_rolling (s := b.putAccess none none) h.entry hy hbs o
    have hmoves := Moves.endWalk (b.putAccess none none) k o
    have hfree := State.endWalk_free (s := b.putAccess none none) h.entry hy rfl o
    have h0 := h.runs none none
    have h1 := h.runs (some a) s.main.holdTimer
    have hbeside := State.endWalk_putAccess (s := b.putAccess none none) h.entry hy rfl (some a) s.main.holdTimer o
    obtain ⟨hpower, hphase, hport⟩ := h.rest
    rw [hself] at h1
    generalize (b.putAccess none none).endWalk k o = u at *
    have hupower : u.power = s.power := hmoves.power.trans hpower
    have huport : u.port = s.port := hmoves.port.trans hport
    refine ⟨u, h0, hupower, hmoves.phase.trans hphase, hfree, fun hstays => ?_, fun hleft => ?_⟩
    · have hrelease : o.release (u.putAccess (some a) s.main.holdTimer) k.window
          = u.putAccess (some a) s.main.holdTimer := by
        unfold WalkEnd.release
        split
        next hends => exact State.releaseHeld_other _ hw (hrolls.mp hstays hends)
        · rfl
      exact h1.trans (congrArg (fun t : State => Host.Outcome.next t.endRecovering) (hbeside.trans hrelease))
    · obtain ⟨hends, rfl⟩ : o.ends = true ∧ w = k.window := by
        by_contra hn
        exact hleft (hrolls.mpr fun hends hw' => hn ⟨hends, hw'⟩)
      have hrelease : o.release (u.putAccess (some a) s.main.holdTimer) k.window
          = (u.putAccess (some a) s.main.holdTimer).releaseHeld k.window := if_pos hends
      obtain ⟨hclass, honly, hports⟩ := State.releaseHeld_classified (u := u) s.main.holdTimer hcond hw
        ((State.mainRuns_congr hupower).trans hr) (by unfold State.noneFollows; rw [huport]; exact hf)
      exact ⟨_, h1.trans (congrArg (fun t : State => Host.Outcome.next t.endRecovering) (hbeside.trans hrelease)),
        hclass, honly, hports.trans huport⟩

end Sys2Proof.Machine
end

section
/-! PROOFS. A withdrawn access carried on to the outcome it would have had (O7). -/

namespace Sys2Proof.Machine

/-! ## The takings look at no access

A taking leaves the access in flight and its hold timer alone, and does the same whatever they are. -/

section Takings
variable (s : State) (x : Option Access) (n : Option Nat) (w : Win)

theorem State.refuse_putAccess (r : ReceiptReason) (q : Byte) :
    (s.putAccess x n).refuse w r q = (s.refuse w r q).putAccess x n := by
  unfold State.refuse
  rw [← State.post_putAccess, ← State.handOn_putAccess]
  rfl

theorem State.breakTxn_putAccess (r : BreakReason) : (s.putAccess x n).breakTxn w r = (s.breakTxn w r).putAccess x n := by
  unfold State.breakTxn
  rw [State.putAccess_entry]
  cases s.entry w with
  | none => rfl
  | some e =>
    rw [← State.post_putAccess, ← State.handOn_putAccess]
    rfl

theorem State.noteDrop_putAccess (a : Addr) : (s.putAccess x n).noteDrop w a = (s.noteDrop w a).putAccess x n := by
  unfold State.noteDrop
  rw [State.putAccess_entry]
  cases s.entry w with
  | none => rfl
  | some e =>
    dsimp only
    split
    · rw [← State.post_putAccess]
      rfl
    · rfl

theorem State.reportDrop_putAccess (y : TxnState) (a : Addr) :
    (s.putAccess x n).reportDrop w y a = (s.reportDrop w y a).putAccess x n := by
  cases y with
  | idle => exact State.post_putAccess _ _ _ _ _ _
  | broken => exact State.noteDrop_putAccess _ _ _ _ _
  | damaged => exact State.post_putAccess _ _ _ _ _ _
  | _ => rfl

theorem State.endMarker_putAccess (q : Byte) {k k' : Entry → State} (hk : ∀ e, k' e = (k e).putAccess x n) :
    (s.putAccess x n).endMarker w q k' = (s.endMarker w q k).putAccess x n := by
  unfold State.endMarker
  rw [State.putAccess_entry]
  cases s.entry w with
  | none => rfl
  | some e =>
    dsimp only
    cases e.state with
    | idle => exact State.refuse_putAccess _ _ _ _ _ _
    | damaged => exact State.refuse_putAccess _ _ _ _ _ _
    | rollingBack => rfl
    | _ =>
      dsimp only
      split
      · exact hk e
      · exact State.refuse_putAccess _ _ _ _ _ _

theorem State.takeOpen_putAccess (q : Byte) : (s.putAccess x n).takeOpen w q = (s.takeOpen w q).putAccess x n := by
  unfold State.takeOpen
  rw [State.putAccess_entry]
  cases s.entry w with
  | none => rfl
  | some e =>
    dsimp only
    cases e.state with
    | idle =>
      dsimp only
      rw [← State.handOn_putAccess]
      rfl
    | rollingBack => rfl
    | _ => exact State.refuse_putAccess _ _ _ _ _ _

theorem State.commitTaken_putAccess (q : Byte) (e : Entry) :
    (s.putAccess x n).commitTaken w q e = (s.commitTaken w q e).putAccess x n := by
  unfold State.commitTaken
  split
  · exact State.refuse_putAccess _ _ _ _ _ _
  · rw [← State.handOn_putAccess]
    rfl

theorem State.abortTaken_putAccess (e : Entry) : (s.putAccess x n).abortTaken w e = (s.abortTaken w e).putAccess x n := by
  unfold State.abortTaken
  split
  · rw [← State.handOn_putAccess]
    rfl
  · rfl

theorem State.saveTaken_putAccess (q : Byte) (e : Entry) :
    (s.putAccess x n).saveTaken w q e = (s.saveTaken w q e).putAccess x n := by
  unfold State.saveTaken
  split
  · exact State.refuse_putAccess _ _ _ _ _ _
  · rw [← State.handOn_putAccess]
    rfl

theorem State.reloadIfIdle_putAccess : (s.putAccess x n).reloadIfIdle w = (s.reloadIfIdle w).putAccess x n := by
  unfold State.reloadIfIdle
  by_cases hm : (s.desc w).deadlineMode = .idle
  · simp [hm]
    rfl
  · simp [hm]

theorem State.returnTaken_putAccess (q : Byte) (e : Entry) :
    (s.putAccess x n).returnTaken w q e = (s.returnTaken w q e).putAccess x n := by
  unfold State.returnTaken
  cases e.savepoint with
  | none => exact State.refuse_putAccess _ _ _ _ _ _
  | some p =>
    dsimp only
    split
    · rw [← State.handOn_putAccess, ← State.reloadIfIdle_putAccess]
      rfl
    · rfl

/-- The Marker Decoder's and the table's part of a control-word write, whatever access stands beside it. -/
theorem Examination.take_putAccess (y : Examination) (q : Byte) :
    y.take (s.putAccess x n) w q = (y.take s w q).putAccess x n := by
  cases y with
  | ordinary => rfl
  | malformed => exact State.refuse_putAccess _ _ _ _ _ _
  | marker k r =>
    cases k with
    | openM => exact State.takeOpen_putAccess _ _ _ _ _
    | commitM => exact State.endMarker_putAccess _ _ _ _ _ fun e => State.commitTaken_putAccess _ _ _ _ _ e
    | abortM => exact State.endMarker_putAccess _ _ _ _ _ fun e => State.abortTaken_putAccess _ _ _ _ e
    | saveM => exact State.endMarker_putAccess _ _ _ _ _ fun e => State.saveTaken_putAccess _ _ _ _ _ e
    | returnM => exact State.endMarker_putAccess _ _ _ _ _ fun e => State.returnTaken_putAccess _ _ _ _ _ e

end Takings

/-! ## The outcomes of an access, withdrawn and not (R70, R85) -/

/-- The access withdrawn. -/
def Access.withdraw (a : Access) : Access := { a with withdrawn := true }

/-- The state with its access withdrawn: one that has its outcome ends, and one short of it is carried on (R70). -/
def State.carriedOn (u : State) : State :=
  match u.main.access with
  | some b =>
    if b.cond = .complete then
      if u.port.presents then State.takePresented { u with main.access := none }
      else { u with main.access := none, main.prdy := .pulsed, main.pd := none }
    else { u with main.access := some b.withdraw }
  | none => u

theorem State.carriedOn_of_cond {u : State} {b : Access} (h : u.main.access = some b) (hc : b.cond ≠ .complete) :
    u.carriedOn = { u with main.access := some b.withdraw } := by
  unfold State.carriedOn
  rw [h]
  exact if_neg hc

section Outcomes
variable {s : State} {a : Access}

/-- The outcome of an access replaces what stood in flight. -/
theorem State.complete_putAccess (s : State) (x : Option Access) (n : Option Nat) (a : Access) (r : Option Word) :
    (s.putAccess x n).complete a r = s.complete a r := rfl

theorem State.settle_unwithdrawn {b : Access} (hb : s.main.access = some b) (h : b.withdrawn = false) : s.settle = s := by
  unfold State.settle
  rw [hb]
  exact if_neg (by simp [h])

variable (ha : a.withdrawn = false) (ht : s.takesAccesses = true)
include ha ht

theorem State.complete_withdraw (r : Option Word) : (s.complete a.withdraw r).settle = (s.complete a r).carriedOn := by
  have hleft : s.complete a.withdraw r
      = { s with main.access := some { a.withdraw with cond := .complete }, main.holdTimer := none } := rfl
  have hright : s.complete a r
      = { s with main.access := some { a with cond := .complete }, main.holdTimer := none, main.prdy := .asserted,
                 main.pd := if a.wr then none else r } := by
    unfold State.complete
    simp [ha]
  rw [hleft, hright]
  unfold State.settle State.carriedOn
  by_cases hp : s.port.presents = true
  · have h1 := State.takePresented_taken (s := { s with main.access := none, main.holdTimer := none }) ht rfl hp
    have h2 := State.takePresented_taken (s := { s with
      main.access := none, main.holdTimer := none, main.prdy := .asserted, main.pd := if a.wr then none else r }) ht rfl hp
    simp only [Access.withdraw, decide_true, Bool.and_self, if_true, hp]
    exact h1.trans h2.symm
  · simp [Access.withdraw, hp]

theorem State.voidAccess_withdraw (w : Win) : (s.voidAccess a.withdraw w).settle = (s.voidAccess a w).carriedOn := by
  have hvoids : s.voidsMarker a.withdraw w = s.voidsMarker a w := rfl
  unfold State.voidAccess
  rw [hvoids]
  refine State.complete_withdraw ha ?_ _
  split
  · simpa [State.takesAccesses] using ht
  · simpa [State.takesAccesses] using ht

theorem State.hold_withdraw (w : Win) : (s.hold a.withdraw w).settle = (s.hold a w).carriedOn := by
  unfold State.hold
  split
  · exact State.voidAccess_withdraw (a := { a with cls := .held, window := some w, cond := .held }) ha ht w
  · simp [State.settle, State.carriedOn, Access.withdraw]

theorem State.proceed_withdraw (v : Verdict) : (s.proceed a.withdraw v).settle = (s.proceed a v).carriedOn := by
  have hclaim (c : AccessClass) (w : Option Win) : (s.claim a.withdraw c w).settle = (s.claim a c w).carriedOn := by
    simp [State.settle, State.carriedOn, State.claim, Access.withdraw]
  cases v with
  | passes w => exact hclaim _ _
  | journals w => exact hclaim _ _
  | writesControl w => exact hclaim _ _
  | holds w => exact State.hold_withdraw ha ht w
  | drops w y =>
    have hmoves := AccessMoves.reportDrop s w y a.addr
    have hphase : (s.reportDrop w y a.addr).main.phase = s.main.phase := by rw [hmoves.main]
    have htakes : (s.reportDrop w y a.addr).takesAccesses = true := by
      unfold State.takesAccesses at *
      rwa [hmoves.power, hphase]
    exact State.complete_withdraw (a := { a with cls := .dropped, window := some w }) ha htakes none

theorem State.route_withdraw : (s.route a.withdraw).settle = (s.route a).carriedOn := by
  by_cases h0 : (a.wr && decide (a.lanes = 0)) = true
  · have hroute : s.route a = s.complete { a with cls := .noLanes, window := none } none := if_pos h0
    have hwithdrawn : s.route a.withdraw
        = s.complete (Access.withdraw { a with cls := .noLanes, window := none }) none := if_pos h0
    rw [hroute, hwithdrawn]
    exact State.complete_withdraw (a := { a with cls := .noLanes, window := none }) ha ht none
  · have hroute : s.route a = s.proceed a (s.classify a.addr a.wr) := if_neg h0
    have hwithdrawn : s.route a.withdraw = s.proceed a.withdraw (s.classify a.addr a.wr) := if_neg h0
    rw [hroute, hwithdrawn]
    exact State.proceed_withdraw ha ht _

end Outcomes

/-! The way that an access takes from here on does not depend on what stood in flight. -/

section Beside
variable (s : State) (x : Option Access) (n : Option Nat) (a : Access)

theorem State.voidAccess_putAccess (w : Win) : (s.putAccess x n).voidAccess a w = s.voidAccess a w := by
  unfold State.voidAccess
  have hvoids : (s.putAccess x n).voidsMarker a w = s.voidsMarker a w := rfl
  have hcount : (s.putAccess x n).countOf w = s.countOf w := rfl
  rw [hvoids, hcount, State.handOn_putAccess, ← apply_ite (State.putAccess · x n)]
  dsimp only
  rw [State.post_putAccess]
  rfl

theorem State.hold_putAccess (w : Win) : (s.putAccess x n).hold a w = s.hold a w := by
  unfold State.hold
  dsimp only
  rw [State.voidAccess_putAccess]
  rfl

theorem State.proceed_putAccess (v : Verdict) : (s.putAccess x n).proceed a v = s.proceed a v := by
  cases v with
  | holds w => exact State.hold_putAccess s x n a w
  | drops w y =>
    exact (congrArg (State.complete · { a with cls := .dropped, window := some w } none)
      (State.reportDrop_putAccess s x n w y a.addr)).trans rfl
  | _ => rfl

theorem State.route_putAccess : (s.putAccess x n).route a = s.route a := by
  unfold State.route
  rw [State.proceed_putAccess]
  rfl

end Beside

theorem State.complete_access (s : State) (a : Access) (r : Option Word) :
    (s.complete a r).main.access = some { a with cond := .complete } := by
  unfold State.complete
  dsimp only
  split <;> rfl

theorem State.proceed_access (s : State) (a : Access) (v : Verdict) :
    ∃ b, (s.proceed a v).main.access = some b ∧ b.withdrawn = a.withdrawn := by
  cases v with
  | holds w =>
    show ∃ b, (s.hold a w).main.access = some b ∧ b.withdrawn = a.withdrawn
    unfold State.hold
    dsimp only
    split
    · exact ⟨_, State.complete_access _ _ _, rfl⟩
    · exact ⟨_, rfl, rfl⟩
  | drops w y => exact ⟨_, State.complete_access _ _ _, rfl⟩
  | _ => exact ⟨_, rfl, rfl⟩

/-! ## What a command does with an access withdrawn -/

/-- Command `c` does with the access of `v` withdrawn what it does with it not withdrawn, and carries the access on. -/
def State.CarriesOn (v : State) (c : Instr) : Prop :=
  ∃ u b, exec c v = .next (c.finish u) ∧ u.main.access = some b ∧ u.port = v.port
    ∧ exec c v.carriedOn = .next (c.finish u.carriedOn)

section Commands
variable {v : State} {a : Access} (ha : v.main.access = some a) {c : Instr}

include ha in
/-- A command with nothing to do. -/
theorem State.CarriesOn.idle (h0 : exec c v = .next (c.finish v))
    (h1 : exec c v.carriedOn = .next (c.finish v.carriedOn)) : v.CarriesOn c :=
  ⟨v, a, h0, ha, rfl, h1⟩

section Ends
variable {x : State} {b : Access} {y : Option Access} {n : Option Nat} (hb : b.withdrawn = false)
  (ht : x.takesAccesses = true) (hp : x.port = v.port)
include hb ht hp

/-- A command that gives the access its outcome. -/
theorem State.CarriesOn.complete {r : Option Word} (h0 : exec c v = .next (c.finish (x.complete b r).settle))
    (h1 : exec c v.carriedOn = .next (c.finish ((x.putAccess y n).complete b.withdraw r).settle)) : v.CarriesOn c := by
  have haccess := x.complete_access b r
  refine ⟨x.complete b r, _, ?_, haccess, (AccessMoves.complete x b r).port.trans hp, ?_⟩
  · rw [h0, State.settle_unwithdrawn haccess hb]
  · rw [h1, State.complete_putAccess, State.complete_withdraw hb ht]

/-- A command that classifies the access. -/
theorem State.CarriesOn.proceed {d : Verdict} (h0 : exec c v = .next (c.finish (x.proceed b d).settle))
    (h1 : exec c v.carriedOn = .next (c.finish ((x.putAccess y n).proceed b.withdraw d).settle)) : v.CarriesOn c := by
  obtain ⟨b', haccess, hkept⟩ := x.proceed_access b d
  refine ⟨x.proceed b d, _, ?_, haccess, (AccessMoves.proceed x b d).port.trans hp, ?_⟩
  · rw [h0, State.settle_unwithdrawn haccess (hkept.trans hb)]
  · rw [h1, State.proceed_putAccess, State.proceed_withdraw hb ht]

end Ends

variable (hc : a.cond ≠ .complete)
include ha hc

theorem State.carriedOn_eq : v.carriedOn = v.putAccess (some a.withdraw) v.main.holdTimer :=
  State.carriedOn_of_cond ha hc

/-- The access in flight is found at the memory whether it is withdrawn or not. -/
theorem State.carriedOn_atMemory (d : AccessClass) :
    v.carriedOn.atMemory d = (v.atMemory d).map fun p => (p.1.withdraw, p.2) := by
  rw [State.carriedOn_eq ha hc]
  cases hk : v.main.cycle with
  | none => simp [State.atMemory, ha, hk]
  | some k =>
    simp only [State.atMemory, ha, hk, State.putAccess_access, State.putAccess_cycle, State.putAccess_owner]
    rw [apply_ite (Option.map _)]
    rfl

theorem State.carriedOn_grantable (d : AccessClass) : v.carriedOn.grantable d = (v.grantable d).map Access.withdraw := by
  rw [State.carriedOn_eq ha hc]
  have hclaim : (v.putAccess (some a.withdraw) v.main.holdTimer).procClaim = v.procClaim := by
    unfold State.procClaim
    rw [ha]
    rfl
  have hgrants : (v.putAccess (some a.withdraw) v.main.holdTimer).grantsProc = v.grantsProc := by
    unfold State.grantsProc
    rw [hclaim]
    rfl
  simp only [State.grantable, ha, hgrants, State.putAccess_access]
  rw [apply_ite (Option.map _)]
  rfl

theorem State.carriedOn_performControl :
    v.carriedOn.performControl = v.performControl.putAccess (some a.withdraw) v.main.holdTimer := by
  unfold State.performControl
  rw [State.carriedOn_atMemory ha hc, State.carriedOn_eq ha hc]
  cases v.atMemory .controlWord with
  | none => rfl
  | some p =>
    show State.mk .. = State.mk ..
    unfold State.land
    dsimp only [Option.map_some]
    split <;> rfl

theorem State.carriedOn_controlInFlight : v.carriedOn.controlInFlight = v.controlInFlight.map Access.withdraw := by
  rw [State.controlInFlight_eq, State.controlInFlight_eq, State.carriedOn_eq ha hc]
  simp only [ha, State.putAccess_access, State.putAccess_cycle, State.putAccess_owner, State.putAccess_examining]
  rw [apply_ite (Option.map _)]
  rfl

end Commands

/-! ## The commands one by one -/

theorem State.takesAccesses_congr {s t : State} (hp : t.power = s.power) (hph : t.main.phase = s.main.phase) :
    t.takesAccesses = s.takesAccesses := by
  unfold State.takesAccesses
  rw [hp, hph]

theorem Moves.takesAccesses {s t : State} (h : Moves s t) : t.takesAccesses = s.takesAccesses :=
  State.takesAccesses_congr h.power h.phase

theorem State.land_putAccess (s : State) (x : Option Access) (n : Option Nat) (k : Cycle) :
    ((s.putAccess x n).land k).endGrant = ((s.land k).endGrant).putAccess x n := by
  unfold State.land
  rw [apply_ite State.endGrant, apply_ite State.endGrant, apply_ite (State.putAccess · x n)]
  rfl

theorem State.land_rest (s : State) (k : Cycle) :
    ((s.land k).endGrant).takesAccesses = s.takesAccesses ∧ ((s.land k).endGrant).port = s.port := by
  rw [s.land_endGrant]
  exact ⟨rfl, rfl⟩

theorem Examination.command_finish (y : Examination) (u : State) : y.command.finish u = u.takeWaiting := by
  cases y with
  | ordinary => rfl
  | malformed => rfl
  | marker k q => cases k <;> rfl

theorem Examination.take_moves (y : Examination) (s : State) (w : Win) (q : Byte) : Moves s (y.take s w q) := by
  cases y with
  | ordinary => exact Moves.refl s
  | malformed => exact Moves.refuse _ _ _ _
  | marker k r => exact Moves.takeMarker _ _ _ _

/-- Where no access is held with its timer, a microsecond event has nothing to count (R81). -/
theorem State.holdMicrosecond_idle {s : State} {a : Access} (ha : s.main.access = some a)
    (h : a.cond ≠ .held ∨ s.main.holdTimer = none ∨ a.window = none) : s.holdMicrosecond = s := by
  rcases h with h | h | h
  · cases hn : s.main.holdTimer <;> cases hw : a.window <;> simp [State.holdMicrosecond, ha, hn, hw, h]
  · simp [State.holdMicrosecond, ha, h]
  · cases hn : s.main.holdTimer <;> simp [State.holdMicrosecond, ha, hn, h]

/-- What is due moves the counters, the stamp and the oscillator. -/
theorem State.takeDue_spec (s : State) :
    ∃ c x o, s.takeDue = { s with main.counters := c, main.stamp := x, osc := o } := by
  unfold State.takeDue
  dsimp only
  split <;> split <;> exact ⟨_, _, _, rfl⟩

theorem State.takeDue_putAccess (s : State) (x : Option Access) (n : Option Nat) :
    (s.putAccess x n).takeDue = s.takeDue.putAccess x n := by
  unfold State.takeDue
  by_cases ht : s.osc.tickDue = true
  · by_cases hm : s.osc.milliDue = true <;> simp [ht, hm, State.putAccess, State.takeTick, State.takeMillisecond]
  · by_cases hm : s.osc.milliDue = true <;> simp [ht, hm, State.putAccess, State.takeMillisecond]

/-- The state after a microsecond event, before the hold timer counts it (R118). -/
def State.ticked (s : State) : State := { s.takeDue with osc := s.takeDue.osc.next }

section Each
variable {v : State} {a : Access} (ha : v.main.access = some a) (hw : a.withdrawn = false) (hc : a.cond ≠ .complete)
  (ht : v.takesAccesses = true)

include ha in
theorem State.atMemory_access {d : AccessClass} {b : Access} {k : Cycle} (h : v.atMemory d = some (b, k)) : b = a :=
  Option.some.inj ((State.atMemory_spec h).1.symm.trans ha)

include ha hw hc ht

theorem State.carriesOn_passedCycleComplete : v.CarriesOn .passedCycleComplete := by
  have hat := State.carriedOn_atMemory ha hc .passed
  cases h : v.atMemory .passed with
  | none =>
    rw [h] at hat
    exact State.CarriesOn.idle ha (by simp [exec, execPassedCycleComplete, h]; rfl)
      (by simp [exec, execPassedCycleComplete, hat]; rfl)
  | some p =>
    obtain ⟨b, k⟩ := p
    obtain rfl := State.atMemory_access ha h
    rw [h] at hat
    generalize htaken : (if (b.wr || decide (b.lanes = allLanes)) = true then v else v.useFree 4) = t
    have htrest : t.takesAccesses = v.takesAccesses ∧ t.port = v.port := by
      rw [← htaken]
      split <;> exact ⟨rfl, rfl⟩
    obtain ⟨htakes, hport⟩ := t.land_rest k
    refine State.CarriesOn.complete (x := (t.land k).endGrant) (b := b) (r := some (v.readLanes b.addr b.lanes))
      (y := some b.withdraw) (n := v.main.holdTimer) hw (htakes.trans (htrest.1.trans ht)) (hport.trans htrest.2) ?_ ?_
    · simp only [exec, execPassedCycleComplete, h]
      rw [htaken]
      rfl
    · simp only [exec, execPassedCycleComplete, hat, Option.map_some]
      rw [State.carriedOn_eq ha hc, ← State.land_putAccess, ← htaken, apply_ite (State.putAccess · _ _)]
      rfl

theorem State.carriesOn_newDataWriteComplete : v.CarriesOn .newDataWriteComplete := by
  have hat := State.carriedOn_atMemory ha hc .journaled
  cases h : v.atMemory .journaled with
  | none =>
    rw [h] at hat
    exact State.CarriesOn.idle ha (by simp [exec, execNewDataWriteComplete, h]; rfl)
      (by simp [exec, execNewDataWriteComplete, hat]; rfl)
  | some p =>
    obtain ⟨b, k⟩ := p
    obtain rfl := State.atMemory_access ha h
    rw [h] at hat
    by_cases hk : k.wr = true
    · obtain ⟨htakes, hport⟩ := v.land_rest k
      refine State.CarriesOn.complete (x := (v.land k).endGrant) (b := b) (r := none)
        (y := some b.withdraw) (n := v.main.holdTimer) hw (htakes.trans ht) hport ?_ ?_
      · simp only [exec, execNewDataWriteComplete, h, hk, if_true]
        rfl
      · simp only [exec, execNewDataWriteComplete, hat, Option.map_some, hk, if_true]
        rw [State.carriedOn_eq ha hc, State.land_putAccess]
        rfl
    · exact State.CarriesOn.idle ha (by simp [exec, execNewDataWriteComplete, h, hk]; rfl)
        (by simp [exec, execNewDataWriteComplete, hat, hk]; rfl)

omit hw ht in
/-- A grant leaves the access at the memory. -/
theorem State.CarriesOn.grant {c : Instr} {k : Cycle} (h0 : exec c v = .next (c.finish (v.grantProc a k)))
    (h1 : exec c v.carriedOn = .next (c.finish (v.carriedOn.grantProc a.withdraw k))) : v.CarriesOn c := by
  refine ⟨v.grantProc a k, { a with cond := .atMemory }, h0, rfl, rfl, ?_⟩
  rw [h1, State.carriedOn_eq ha hc,
    State.carriedOn_of_cond (u := v.grantProc a k) (b := { a with cond := .atMemory }) rfl nofun]
  rfl

omit hw hc ht in
theorem State.grantable_access {d : AccessClass} {b : Access} (h : v.grantable d = some b) : b = a := by
  unfold State.grantable at h
  rw [ha] at h
  dsimp only at h
  split at h
  · exact (Option.some.inj h).symm
  · cases h

theorem State.carriesOn_controlWordWriteGrant : v.CarriesOn .controlWordWriteGrant := by
  have hat := State.carriedOn_grantable ha hc .controlWord
  cases h : v.grantable .controlWord with
  | none =>
    rw [h] at hat
    exact State.CarriesOn.idle ha (by simp [exec, execControlWordWriteGrant, h]; rfl)
      (by simp [exec, execControlWordWriteGrant, hat]; rfl)
  | some b =>
    obtain rfl := State.grantable_access ha h
    rw [h] at hat
    cases hb : b.window with
    | none =>
      exact State.CarriesOn.idle ha (by simp [exec, execControlWordWriteGrant, h, hb]; rfl)
        (by simp [exec, execControlWordWriteGrant, hat, Access.withdraw, hb]; rfl)
    | some w =>
      have hb' : b.withdraw.window = some w := hb
      have hstate : v.carriedOn.txnState w = v.txnState w := by
        rw [State.carriedOn_eq ha hc]
        rfl
      by_cases hs : v.txnState w = some .rollingBack
      · refine State.CarriesOn.proceed (x := { v with main.lastGrantProc := true }) (b := b) (d := .holds w)
          (y := some b.withdraw) (n := v.main.holdTimer) hw ht rfl ?_ ?_
        · simp only [exec, execControlWordWriteGrant, h, hb, hs, if_true]
          rfl
        · simp only [exec, execControlWordWriteGrant, hat, Option.map_some, hb', hstate, hs, if_true]
          rw [State.carriedOn_eq ha hc]
          rfl
      · refine State.CarriesOn.grant ha hc (k := b.cycle) ?_ ?_
        · simp only [exec, execControlWordWriteGrant, h, hb, hs, if_false]
          rfl
        · simp only [exec, execControlWordWriteGrant, hat, Option.map_some, hb', hstate, hs, if_false]
          rfl

theorem State.carriesOn_journaledWriteGrant : v.CarriesOn .journaledWriteGrant := by
  have hat := State.carriedOn_grantable ha hc .journaled
  cases h : v.grantable .journaled with
  | none =>
    rw [h] at hat
    exact State.CarriesOn.idle ha (by simp [exec, execJournaledWriteGrant, h]; rfl)
      (by simp [exec, execJournaledWriteGrant, hat]; rfl)
  | some b =>
    obtain rfl := State.grantable_access ha h
    rw [h] at hat
    cases hb : b.window with
    | none =>
      exact State.CarriesOn.idle ha (by simp [exec, execJournaledWriteGrant, h, hb]; rfl)
        (by simp [exec, execJournaledWriteGrant, hat, Access.withdraw, hb]; rfl)
    | some w =>
      have hb' : b.withdraw.window = some w := hb
      have hanswer : v.carriedOn.appendAnswer w = v.appendAnswer w := by
        rw [State.carriedOn_eq ha hc]
        rfl
      cases hs : v.appendAnswer w with
      | granted =>
        refine State.CarriesOn.grant ha hc (k := b.oldReadCycle) ?_ ?_
        · simp only [exec, execJournaledWriteGrant, h, hb, hs]
          rfl
        · simp only [exec, execJournaledWriteGrant, hat, Option.map_some, hb', hanswer, hs]
          rfl
      | breaks r =>
        have hmoves := Moves.breakTxn { v with main.lastGrantProc := true } w r
        refine State.CarriesOn.complete (x := State.breakTxn { v with main.lastGrantProc := true } w r)
          (b := { b with cls := .dropped }) (r := none) (y := some b.withdraw) (n := v.main.holdTimer) hw
          (hmoves.takesAccesses.trans ht) hmoves.port ?_ ?_
        · simp only [exec, execJournaledWriteGrant, h, hb, hs]
          rfl
        · simp only [exec, execJournaledWriteGrant, hat, Option.map_some, hb', hanswer, hs]
          rw [State.carriedOn_eq ha hc, ← State.breakTxn_putAccess]
          rfl
      | notOpen =>
        refine State.CarriesOn.proceed (x := { v with main.lastGrantProc := true }) (b := b)
          (d := v.rangeVerdict w b.wr) (y := some b.withdraw) (n := v.main.holdTimer) hw ht rfl ?_ ?_
        · simp only [exec, execJournaledWriteGrant, h, hb, hs]
          rfl
        · simp only [exec, execJournaledWriteGrant, hat, Option.map_some, hb', hanswer, hs]
          rw [State.carriedOn_eq ha hc]
          rfl

/-- The Marker Decoder's findings and their takings. -/
theorem State.carriesOn_command (y : Examination) : v.CarriesOn y.command := by
  have hat := State.carriedOn_controlInFlight ha hc
  have h0 := exec_command y v
  have h1 := exec_command y v.carriedOn
  rw [← y.command_finish] at h0 h1
  have hidle (e0 : v.finishControlWrite y.matches y.take = v)
      (e1 : v.carriedOn.finishControlWrite y.matches y.take = v.carriedOn) : v.CarriesOn y.command :=
    State.CarriesOn.idle ha (by rw [h0, e0]) (by rw [h1, e1])
  cases h : v.controlInFlight with
  | none =>
    rw [h] at hat
    exact hidle (by simp only [State.finishControlWrite, h]) (by simp only [State.finishControlWrite, hat, Option.map_none])
  | some b =>
    obtain rfl : b = a := by
      rw [State.controlInFlight_eq, ha] at h
      dsimp only at h
      split at h
      · exact (Option.some.inj h).symm
      · cases h
    rw [h] at hat
    cases hb : b.window with
    | none =>
      have hb' : b.withdraw.window = none := hb
      exact hidle (by simp only [State.finishControlWrite, h, hb])
        (by simp only [State.finishControlWrite, hat, Option.map_some, hb'])
    | some w =>
      have hb' : b.withdraw.window = some w := hb
      have hexam : v.carriedOn.examination b.withdraw w = v.examination b w := by
        rw [State.carriedOn_eq ha hc]
        rfl
      by_cases hx : y.matches (v.examination b w) = true
      · have hlanded : v.carriedOn.landedWord = v.landedWord.putAccess (some b.withdraw) v.main.holdTimer := by
          unfold State.landedWord
          rw [State.carriedOn_performControl ha hc]
          rfl
        have hfound := State.finishControlWrite_found (take := y.take) h hb hx
        have hfound' := State.finishControlWrite_found (take := y.take) hat hb' (by rw [hexam]; exact hx)
        have hmoves := y.take_moves v.landedWord w (markerSeq b.data)
        obtain ⟨_, _, _, _, hperform⟩ := v.performControl_spec
        refine State.CarriesOn.complete (x := y.take v.landedWord w (markerSeq b.data)) (b := b) (r := none)
          (y := some b.withdraw) (n := v.main.holdTimer) hw (hmoves.takesAccesses.trans ?_) (hmoves.port.trans ?_)
          (by rw [h0, hfound]) ?_
        · unfold State.landedWord
          rw [hperform]
          exact ht
        · unfold State.landedWord
          rw [hperform]
        · rw [h1, hfound', hlanded, Examination.take_putAccess]
          rfl
      · exact hidle (by simp only [State.finishControlWrite, h, hb, hx]; rfl)
          (by simp only [State.finishControlWrite, hat, Option.map_some, hb', hexam, hx]; rfl)

/-- The hold timer's part of a microsecond event. -/
theorem State.holdMicrosecond_carriedOn : ∃ b, v.holdMicrosecond.main.access = some b ∧ v.holdMicrosecond.port = v.port
    ∧ v.carriedOn.holdMicrosecond = v.holdMicrosecond.carriedOn := by
  have heq := State.carriedOn_eq ha hc
  have hidle (e0 : v.holdMicrosecond = v) (e1 : v.carriedOn.holdMicrosecond = v.carriedOn) :
      ∃ b, v.holdMicrosecond.main.access = some b ∧ v.holdMicrosecond.port = v.port
        ∧ v.carriedOn.holdMicrosecond = v.holdMicrosecond.carriedOn :=
    ⟨a, by rw [e0]; exact ha, by rw [e0], by rw [e0, e1]⟩
  by_cases hnone : a.cond ≠ .held ∨ v.main.holdTimer = none ∨ a.window = none
  · exact hidle (State.holdMicrosecond_idle ha hnone)
      (State.holdMicrosecond_idle (a := a.withdraw) (by rw [heq]; rfl) (by rw [heq]; exact hnone))
  · push Not at hnone
    obtain ⟨hheld, hn, hwin⟩ := hnone
    obtain ⟨n, hn⟩ := Option.ne_none_iff_exists'.mp hn
    obtain ⟨w, hwin⟩ := Option.ne_none_iff_exists'.mp hwin
    have h0 := State.holdMicrosecond_held ha hheld hwin hn
    have h1 := State.holdMicrosecond_held (s := v.carriedOn) (a := a.withdraw) (w := w) (n := n)
      (by rw [heq]; rfl) hheld hwin (by rw [heq]; exact hn)
    by_cases hle : v.ret.holdLimit.toNat ≤ n + 1
    · have haccess := State.complete_access
        ((if v.voidsMarker a w then v.handOn w .refused .busy (markerSeq a.data) (v.countOf w) else v).post .voidAccess
          (some w) (detailVoid a.wr a.addr)) a (some v.ret.fillWord)
      have hvoid : v.holdMicrosecond = v.voidAccess a w := by
        rw [h0, if_pos hle]
        exact State.settle_unwithdrawn haccess hw
      refine ⟨_, by rw [hvoid]; exact haccess, by rw [hvoid]; exact (AccessMoves.voidAccess v a w).port, ?_⟩
      rw [h1, if_pos (by rw [heq]; exact hle), hvoid, heq, State.voidAccess_putAccess,
        State.voidAccess_withdraw hw ht]
    · have hcount : v.holdMicrosecond = { v with main.holdTimer := some (n + 1) } := by rw [h0, if_neg hle]
      refine ⟨a, by rw [hcount]; exact ha, by rw [hcount], ?_⟩
      rw [h1, if_neg (by rw [heq]; exact hle), hcount,
        State.carriedOn_of_cond (u := { v with main.holdTimer := some (n + 1) }) ha hc, heq]
      rfl

theorem State.microsecond_carriedOn : ∃ b, v.microsecond.main.access = some b ∧ v.microsecond.port = v.port
    ∧ v.carriedOn.microsecond = v.microsecond.carriedOn := by
  have hticked : v.ticked.carriedOn = v.carriedOn.ticked := by
    have haccess : v.ticked.main.access = some a := by
      obtain ⟨_, _, _, h⟩ := v.takeDue_spec
      unfold State.ticked
      rw [h]
      exact ha
    rw [State.carriedOn_eq haccess hc, State.carriedOn_eq ha hc]
    unfold State.ticked
    rw [State.takeDue_putAccess]
    obtain ⟨_, _, _, h⟩ := v.takeDue_spec
    rw [h]
    rfl
  obtain ⟨_, _, _, h⟩ := v.takeDue_spec
  have hspec := State.holdMicrosecond_carriedOn (v := v.ticked) (a := a) (by unfold State.ticked; rw [h]; exact ha) hw hc
    (by unfold State.ticked; rw [h]; exact ht)
  have hport : v.ticked.port = v.port := by
    unfold State.ticked
    rw [h]
  obtain ⟨b, hb, hp, hsame⟩ := hspec
  rw [hticked] at hsame
  exact ⟨b, hb, hp.trans hport, hsame⟩

theorem State.carriesOn_microseconds : v.CarriesOn .microsecondEvent ∧ v.CarriesOn .holdLimitRunOut := by
  obtain ⟨b, haccess, hport, hsame⟩ := State.microsecond_carriedOn ha hw hc ht
  have heq := State.carriedOn_eq ha hc
  have hclock : v.carriedOn.clockRuns = v.clockRuns := by
    rw [heq]
    rfl
  have hout : v.carriedOn.holdRunsOut = v.holdRunsOut := by
    rw [heq]
    cases hn : v.main.holdTimer with
    | none => simp [State.holdRunsOut, ha, hn]
    | some n =>
      simp only [State.holdRunsOut, ha, hn, State.putAccess_access, State.putAccess_holdTimer]
      rfl
  constructor
  · by_cases hclk : v.clockRuns = true
    · exact ⟨v.microsecond, b, exec_microsecondEvent hclk, haccess, hport,
        (exec_microsecondEvent (hclock.trans hclk)).trans (congrArg _ hsame)⟩
    · exact State.CarriesOn.idle ha (by simp [exec, execMicrosecondEvent, hclk]; rfl)
        (by simp [exec, execMicrosecondEvent, hclock, hclk]; rfl)
  · by_cases hgo : (v.holdRunsOut && v.clockRuns) = true
    · refine ⟨v.microsecond, b, ?_, haccess, hport, ?_⟩
      · simp only [exec, execHoldLimitRunOut, hgo, if_true]
        rfl
      · simp only [exec, execHoldLimitRunOut, hout, hclock, hgo, if_true, hsame]
        rfl
    · exact State.CarriesOn.idle ha (by simp only [exec, execHoldLimitRunOut, hgo]; rfl)
        (by simp only [exec, execHoldLimitRunOut, hout, hclock, hgo]; rfl)

/-- The notice that a walk of window `w` has ended (R82). -/
theorem State.releaseHeld_carriedOn (w : Win) : ∃ b, (v.releaseHeld w).main.access = some b ∧ (v.releaseHeld w).port = v.port
    ∧ v.carriedOn.releaseHeld w = (v.releaseHeld w).carriedOn := by
  have heq := State.carriedOn_eq ha hc
  by_cases hheld : a.cond = .held ∧ a.window = some w
  · have h0 : v.releaseHeld w = (v.route a).settle := by
      have hroute := State.route_putAccess v v.main.access none a
      unfold State.releaseHeld
      rw [ha]
      exact (if_pos (by simp [hheld])).trans (congrArg State.settle hroute)
    have h1 : v.carriedOn.releaseHeld w = (v.route a.withdraw).settle := by
      have hroute := State.route_putAccess v (some a.withdraw) none a.withdraw
      rw [heq]
      unfold State.releaseHeld
      exact (if_pos (by simp [Access.withdraw, hheld])).trans (congrArg State.settle hroute)
    obtain ⟨b, hb, hl⟩ := State.route_left v a
    have hsettled := State.settle_unwithdrawn hb (hl.captured.2.2.2.2.trans hw)
    refine ⟨b, by rw [h0, hsettled, hb], by rw [h0, hsettled]; exact (AccessMoves.route v a).port, ?_⟩
    rw [h1, h0, hsettled, State.route_withdraw hw ht]
  · have hnot {s : State} {x : Access} (hx : s.main.access = some x) (hxc : x.cond = a.cond)
        (hxw : x.window = a.window) : s.releaseHeld w = s :=
      State.releaseHeld_noHeld fun b hb hbh hbw => hheld (by
        obtain rfl := Option.some.inj (hx.symm.trans hb)
        exact ⟨hxc.symm.trans hbh, hxw.symm.trans hbw⟩)
    have h0 := hnot ha rfl rfl
    have h1 := hnot (s := v.carriedOn) (x := a.withdraw) (by rw [heq]; rfl) rfl rfl
    exact ⟨a, by rw [h0]; exact ha, by rw [h0], by rw [h0, h1]⟩

/-- The commands that end a walk, from a lawful state that differs in the access in flight alone. -/
theorem State.carriesOn_endsWalk {c : Instr} (hcmd : c = .selection ∨ c = .restoreWriteComplete)
    (hl : v.carriedOn.Lawful) : v.CarriesOn c := by
  have hruns : v.mainRuns = true := State.mainRuns_of_takes ht
  have heq := State.carriedOn_eq ha hc
  have hself : v.carriedOn.putAccess (some a) v.main.holdTimer = v := by
    rw [heq, ← ha]
    rfl
  have hself' : v.carriedOn.putAccess (some a.withdraw) v.main.holdTimer = v.carriedOn := by
    rw [heq]
    rfl
  have hfinish (u : State) : c.finish u = u.endRecovering := by rcases hcmd with rfl | rfl <;> rfl
  rcases exec_endsWalk_cases hl (by rw [heq]; exact hruns) hcmd with hidle | ⟨x, k, e, o, h⟩
  · have h0 := hidle (some a) v.main.holdTimer
    have h1 := hidle (some a.withdraw) v.main.holdTimer
    have hrest := hl.power.walking
    rw [hself] at h0
    rw [hself'] at h1
    refine State.CarriesOn.idle ha ?_ ?_
    · rw [h0, hfinish, State.endRecovering_rest (by rw [heq] at hrest; exact hrest)]
    · rw [h1, hfinish, State.endRecovering_rest hrest]
  · obtain ⟨-, y, hy⟩ := h.rolling
    have hmoves := Moves.endWalk (x.putAccess none none) k o
    have hbeside (b : Access) :=
      State.endWalk_putAccess (s := x.putAccess none none) h.entry hy rfl (some b) v.main.holdTimer o
    have h0 := h.runs (some a) v.main.holdTimer
    have h1 := h.runs (some a.withdraw) v.main.holdTimer
    obtain ⟨hpower, hphase, hport⟩ := h.rest
    rw [hself] at h0
    rw [hself'] at h1
    generalize (x.putAccess none none).endWalk k o = u at *
    have hleft : (u.putAccess (some a) v.main.holdTimer).carriedOn = u.putAccess (some a.withdraw) v.main.holdTimer :=
      State.carriedOn_eq (v := u.putAccess (some a) v.main.holdTimer) rfl hc
    have htakes : (u.putAccess (some a) v.main.holdTimer).takesAccesses = true := by
      rw [← ht]
      refine State.takesAccesses_congr (hmoves.power.trans (hpower.trans ?_)) (hmoves.phase.trans (hphase.trans ?_))
      · rw [heq]
        rfl
      · rw [heq]
        rfl
    have huport : u.port = v.port := hmoves.port.trans (hport.trans (by rw [heq]; rfl))
    obtain ⟨b, hb, hbp, hsame⟩ : ∃ b, (o.release (u.putAccess (some a) v.main.holdTimer) k.window).main.access = some b
        ∧ (o.release (u.putAccess (some a) v.main.holdTimer) k.window).port = v.port
        ∧ o.release (u.putAccess (some a.withdraw) v.main.holdTimer) k.window
          = (o.release (u.putAccess (some a) v.main.holdTimer) k.window).carriedOn := by
      unfold WalkEnd.release
      split
      · obtain ⟨b, hb, hbp, hsame⟩ :=
          State.releaseHeld_carriedOn (v := u.putAccess (some a) v.main.holdTimer) rfl hw hc htakes k.window
        rw [hleft] at hsame
        exact ⟨b, hb, hbp.trans huport, hsame⟩
      · exact ⟨a, rfl, huport, hleft.symm⟩
    refine ⟨_, b, h0.trans ?_, hb, hbp, h1.trans ?_⟩
    · rw [hfinish]
      exact congrArg (fun t : State => Host.Outcome.next t.endRecovering) (hbeside a)
    · rw [hfinish, ← hsame]
      exact congrArg (fun t : State => Host.Outcome.next t.endRecovering) (hbeside a.withdraw)

end Each

/-- Settles O7. -/
theorem withdrawnAccessKeepsItsOutcome : Obligations.WithdrawnAccessKeepsItsOutcome := by
  refine ⟨fun c s a hl hmem ht ha hw hc => ?_, fun s u hclk hu => exec_trains_later hclk hu⟩
  generalize hv : ({ s with main.access := some { a with withdrawn := false } } : State) = v
  have hva : v.main.access = some { a with withdrawn := false } := by rw [← hv]
  have hvt : v.takesAccesses = true := by rw [← hv]; exact ht
  have hback : v.carriedOn = s := by
    rw [State.carriedOn_of_cond hva hc, ← hv]
    have hself : Access.withdraw { a with withdrawn := false } = a := by
      unfold Access.withdraw
      rw [← hw]
    rw [hself, ← ha]
  have hcommand (y : Examination) : v.CarriesOn y.command := State.carriesOn_command hva rfl hc hvt y
  have hcarries : v.CarriesOn c := by
    simp only [List.mem_cons, List.not_mem_nil, or_false] at hmem
    rcases hmem with rfl | rfl | rfl | rfl | rfl | rfl | rfl | rfl | rfl | rfl | rfl | rfl | rfl | rfl | rfl
    · exact State.carriesOn_passedCycleComplete hva rfl hc hvt
    · exact State.carriesOn_journaledWriteGrant hva rfl hc hvt
    · exact State.carriesOn_newDataWriteComplete hva rfl hc hvt
    · exact State.carriesOn_controlWordWriteGrant hva rfl hc hvt
    · exact hcommand (.marker .openM 0)
    · exact hcommand (.marker .commitM 0)
    · exact hcommand (.marker .abortM 0)
    · exact hcommand (.marker .saveM 0)
    · exact hcommand (.marker .returnM 0)
    · exact hcommand .malformed
    · exact hcommand .ordinary
    · exact (State.carriesOn_microseconds hva rfl hc hvt).1
    · exact (State.carriesOn_microseconds hva rfl hc hvt).2
    · exact State.carriesOn_endsWalk hva rfl hc hvt (Or.inl rfl) (by rw [hback]; exact hl)
    · exact State.carriesOn_endsWalk hva rfl hc hvt (Or.inr rfl) (by rw [hback]; exact hl)
  obtain ⟨u, b, h0, hb, hport, h1⟩ := hcarries
  have hports : u.port = s.port := hport.trans (by rw [← hv])
  rw [hback] at h1
  refine ⟨u, h0, b, hb, fun hdone hp => ?_, fun hdone hp => ?_, fun hshort => ?_⟩
  · rw [h1]
    simp [State.carriedOn, hb, hdone, hports, hp]
  · rw [h1]
    simp [State.carriedOn, hb, hdone, hports, hp]
  · rw [h1, State.carriedOn_of_cond hb hshort]
    rfl

end Sys2Proof.Machine
end

section
/-! PROOFS. The law is not kept by every step (O59): an expiry taken while RECOVERING is in phase PLACING. -/

namespace Sys2Proof.Machine

/-! ## A lawful state in phase PLACING with an expiry outstanding

The law lets a counter be SPENT in phase PLACING, before the recovery request to its window has been taken. An expiry
taken there puts the window into the pending set, where `State.EngineLawful.placing` says that it is not yet. No
recovery comes to such a state, since the counters are absent after the main-well reset (R147, R151); but the law does
not say so. -/

namespace Placing

/-- Window 0: one granule, its control word and receipt word outside it, a quota of 16 and a deadline of 1 tick. -/
def descriptor : Descriptor :=
  { base := 0x0200, limit := 0x020F, controlWord := 0x3E0000, receiptWord := 0x3E0001, key := 0x3C5A, quota := 16,
    mode := .strict, policy := .rollback, deadlineMode := .absolute, deadline := 1 }

/-- The one undo record, of window 0. -/
def body : Slot := recordBody 0 1 0x8010 0x41 allLanes

def ring : Journal := (Journal.cold.appendBody body).appendMark

/-- Window 0 is OPEN with seq 5 and its one record. -/
def opened : Entry := { Entry.fresh with state := .opened, seq := 5, count := 1 }

/-- RECOVERING has requested nothing yet, and window 0's counter is SPENT. -/
def start : State :=
  { State.reset with
    power := .recovering
    ret := { Retained.cold with
      descriptors := winSet Retained.cold.descriptors 0 descriptor
      entries := winSet Retained.cold.entries 0 (some opened)
      journal := ring }
    main := { MainWell.cold 0 with
      counters := winSet (MainWell.cold 0).counters 0 (.spent 5)
      phase := some (.placing 0)
      tally := some { rolledBack := 0, kept := 0 } }
    pending := [.expiryRequest 0] }

theorem body_lawful : (Journal.cold.appendBody body).Lawful :=
  Journal.appendBody_lawful Journal.cold_lawful (by decide) rfl rfl

theorem ring_lawful : ring.Lawful := Journal.appendMark_lawful body_lawful (by decide)

theorem ring_liveCount (w : Win) : ring.liveCount w = if w = 0 then 1 else 0 := by
  have hmark := Journal.appendMark_liveCount body_lawful (by decide) w
  have hbody := Journal.appendBody_liveCount Journal.cold_lawful (x := body) (by decide) rfl w
  have hhead : ((Journal.cold.appendBody body).slot (Journal.cold.appendBody body).head).window = 0 := by
    rw [Journal.appendBody_slot Journal.cold_lawful]
    exact congrArg Slot.window (if_pos rfl)
  rw [hhead, hbody, Journal.cold_liveCount] at hmark
  unfold ring
  rw [hmark, Nat.zero_add]
  simp only [eq_comm]

theorem start_entry (w : Win) : start.entry w = if w = 0 then some opened else none := by
  revert w
  decide

theorem start_counter (w : Win) : start.counter w = if w = 0 then .spent 5 else .absent := by
  revert w
  decide

theorem start_isPending (w : Win) : start.isPending w = false := by
  revert w
  decide

theorem descriptor_enableable : descriptor.Enableable where
  range := by decide
  key := by decide
  quota := by decide
  apart := by decide
  outside := by
    rintro a (rfl | rfl) <;> decide

theorem opened_lawful : opened.Lawful 16 1 where
  count := rfl
  quota := by decide
  idle := nofun
  savepoint := nofun
  savepointIn := nofun
  returned := nofun
  cause := ⟨nofun, nofun⟩
  restored := ⟨nofun, nofun⟩
  restoredBound := nofun
  breakReason := ⟨nofun, nofun⟩
  dropReported := nofun
  damagePos := ⟨nofun, nofun⟩
  damagePosBound := nofun

theorem entry_cases {w : Win} {e : Entry} (h : start.entry w = some e) : w = 0 ∧ e = opened := by
  rw [start_entry] at h
  by_cases hw : w = 0
  · rw [if_pos hw] at h
    exact ⟨hw, (Option.some.inj h).symm⟩
  · rw [if_neg hw] at h
    cases h

theorem start_windows : start.ret.WindowsLawful where
  each w h := by
    obtain ⟨e, he⟩ := Option.isSome_iff_exists.mp h
    obtain ⟨rfl, -⟩ := entry_cases he
    exact descriptor_enableable
  apart v w hvw hv hw := by
    obtain ⟨e, he⟩ := Option.isSome_iff_exists.mp hv
    obtain ⟨f, hf⟩ := Option.isSome_iff_exists.mp hw
    exact absurd ((entry_cases he).1.trans (entry_cases hf).1.symm) hvw

theorem start_retained : start.ret.Lawful where
  journal := ring_lawful
  windows := start_windows
  entries w e he := by
    obtain ⟨rfl, rfl⟩ := entry_cases he
    have hlive : start.ret.journal.liveCount 0 = 1 := ring_liveCount 0
    rw [hlive]
    exact opened_lawful
  disabled w he := by
    have hw : w ≠ 0 := by
      rintro rfl
      exact absurd ((start_entry 0).symm.trans he) nofun
    exact (ring_liveCount w).trans (if_neg hw)
  highWater := Nat.zero_le _

theorem start_engine : start.EngineLawful where
  running := rfl
  pending w h := absurd ((start_isPending w).symm.trans h) (by decide)
  above w _ h := absurd ((start_isPending w).symm.trans h) (by decide)
  walked := nofun
  all w h := absurd h (by simp [State.placed, start])
  placing w _ := ⟨start_isPending w, nofun⟩
  record := nofun

theorem start_counterLawful (w : Win) : start.CounterLawful w := by
  unfold State.CounterLawful
  rw [start_counter]
  by_cases hw : w = 0
  · rw [hw, if_pos rfl]
    exact ⟨by decide, opened, start_entry 0, Or.inl rfl, rfl⟩
  · rw [if_neg hw]
    trivial

theorem start_access : start.AccessLawful where
  idlePort := by decide
  processor := ⟨nofun, nofun⟩
  examined := nofun
  engine := ⟨nofun, nofun⟩
  restore := nofun
  receipt := nofun
  cycle := nofun
  claims := nofun
  held := nofun
  timer := nofun
  ready := ⟨nofun, nofun⟩
  ended := nofun
  data := nofun
  append := nofun
  covered := nofun
  marker := nofun

theorem start_power : start.PowerLawful where
  recovering _ := ⟨rfl, rfl⟩
  walking := nofun
  placing _ _ := ⟨rfl, Or.inl rfl⟩
  otherwise h := absurd rfl h
  good _ := ⟨rfl, rfl, rfl⟩
  stopped := nofun

theorem start_lawful : start.Lawful where
  memory := by decide
  queue := by decide
  power := start_power
  retained _ := start_retained
  engine _ := start_engine
  counters _ := start_counterLawful
  access _ := start_access
  oscillator := ⟨by decide, nofun, nofun⟩
  waiting := ⟨nofun, nofun, nofun⟩

/-- The expiry starts window 0's rollback, which enters the pending set before its recovery request. -/
theorem step_start : ∃ t, step start = .next t ∧ t.mainRuns = true ∧ t.isPending 0 = true ∧ t.placed 0 = false := by
  have hexec := exec_expiryRequest (s := { start with pending := [] }) (w := 0) (e := opened) rfl (start_counter 0) rfl
    (start_entry 0) (Or.inl rfl)
  refine ⟨_, hexec, ?_, ?_, ?_⟩
  · simp only [State.post_mainRuns]
    rfl
  · simp only [State.post_isPending]
    rfl
  · have hphase := State.post_phase (State.expired { start with pending := [] } 0 opened) .deadlineExpired (some 0)
      (detailReceipt .expired .noReason opened.seq 0)
    unfold State.placed
    rw [hphase]
    rfl

end Placing

/-- Refutes O59: in phase PLACING the law lets a counter be SPENT whose window no recovery request has come to, and the
expiry then puts that window into the pending set ahead of its request. -/
theorem not_everyStepKeepsTheLaw : ¬ Obligations.EveryStepKeepsTheLaw := by
  intro h
  obtain ⟨t, hstep, hruns, hpending, hplaced⟩ := Placing.step_start
  have hlawful := h Placing.start t Placing.start_lawful hstep
  exact absurd (((hlawful.engine hruns).placing 0 hplaced).1.symm.trans hpending) (by decide)

end Sys2Proof.Machine
end
